-- ==== Sys2Proof/Word.lean ====
section
/-! DEFINITION. The widths of the block's values (00_scope.md R7, R9): a byte, a 32-bit word, a 16-bit address. -/

namespace Sys2Proof

/-- A byte is 8 bits (R9). -/
abbrev Byte := BitVec 8

/-- A word is 32 bits: `WORD_W` of R7. -/
abbrev Word := BitVec 32

/-- An ESC address or a register address is 16 bits: `ADDR_W` of R7. A request length is 16 bits too (`LEN_W`). -/
abbrev Addr := BitVec 16

end Sys2Proof
end

