-- ==== Sys2Proof/Config.lean ====
section
/-! DEFINITION. What an implementation fixes (the parameter record of 00_scope.md R7) and the free values of the
model. An OPEN parameter and a free value is an opaque constant without a body: no proof can see what it is. -/

namespace Sys2Proof

/-- `WORD_READ_OPCODE`, in `{0x03, 0x0B}` (R7, R143). -/
inductive WordRead
  | serial  -- 0x03
  | fast    -- 0x0B
  deriving DecidableEq, Repr

/-- The parameter record of R7. Constants of a run: no step writes them (R263). -/
structure Params where
  /-- `POLL_LIMIT`: `none` is `INF`. -/
  pollLimit : Option Nat
  /-- `AL_EVENT_ADDR`. -/
  alEventAddr : Addr
  /-- `WORD_READ_OPCODE`. -/
  wordRead : WordRead
  /-- `DUMMY_BYTE`. -/
  dummyByte : Byte
  /-- `FILL_BYTE`. -/
  fillByte : Byte
  /-- `BYTE_TEST_EXPECTED`. -/
  byteTestExpected : Word
  /-- `RESET_CTL_VALUE`. -/
  resetCtlValue : Word
  /-- `INIT_SEND_RESET_SQI`. -/
  initSendResetSqi : Bool
  /-- `BUS_CAN_FAULT`. -/
  busCanFault : Bool
  deriving DecidableEq, Repr

/-- The domains of R7: the poll limit is at least 1, the AL-event address is even and below 0x1000. -/
abbrev Params.wf (p : Params) : Prop :=
  p.pollLimit ≠ some 0 ∧ p.alEventAddr.toNat % 2 = 0 ∧ p.alEventAddr.toNat < 0x1000

namespace Config

/-- `POLL_LIMIT` less one, or `none` for `INF`: the limit itself is then at least 1 (R7, D13). -/
opaque pollLimitPred : Option Nat

/-- Half of `AL_EVENT_ADDR`: twice an 11-bit number is any even address below 0x1000 (R7, D18). -/
opaque alEventHalf : BitVec 11

/-- `DUMMY_BYTE` (R7, D6). -/
opaque dummyByte : Byte

/-- `FILL_BYTE` (R7, D6). -/
opaque fillByte : Byte

/-- `BYTE_TEST_EXPECTED` (R7, D23). -/
opaque byteTestExpected : Word

/-- `RESET_CTL_VALUE` (R7, D23). -/
opaque resetCtlValue : Word

/-- `BUS_CAN_FAULT` (R7, D20). -/
opaque busCanFault : Bool

/-- The parameters of the machine after reset: every OPEN one opaque, the two decided ones at the value the spec
decides (`WORD_READ_OPCODE = 0x0B`, D5; `INIT_SEND_RESET_SQI = false`, D23). DESIGN CHOICE (log 1, 27). -/
def params : Params where
  pollLimit := pollLimitPred.map (· + 1)
  alEventAddr := alEventHalf.zeroExtend 16 <<< 1
  wordRead := .fast
  dummyByte := dummyByte
  fillByte := fillByte
  byteTestExpected := byteTestExpected
  resetCtlValue := resetCtlValue
  initSendResetSqi := false
  busCanFault := busCanFault

/-- FREE VALUE (log 2): the byte the peripheral answers at the exchange numbered `n` when the block sends `mosi`
(R38: every received byte is an input the block does not control). -/
opaque misoByte : (n : Nat) → (mosi : Byte) → Byte

/-- FREE VALUE (log 3): whether the exchange numbered `n` reports a bus fault (R30). -/
opaque busFault : (n : Nat) → Bool

/-- FREE VALUE (log 4): what `AL_EVENT` holds after a block reset, before the first completed access (R20, U11). -/
opaque alEventAtReset : (n : Nat) → BitVec 16

/-- FREE VALUE (log 6): byte `i` of `RBUF` after an operation that ended in a fault (R27, R236, U12). -/
opaque rbufByte : (n : Nat) → (i : Nat) → Byte

/-- FREE VALUE (log 33): what `CHUNK a, 0` entered by itself leaves in `SIZE`; R201 gives the chunk size for at least one
byte remaining. -/
opaque chunkOfNothing : (a : Addr) → BitVec 3

/-- FREE VALUE (log 35): the 16-bit length `PRAM_WRITE` entered by itself takes for a list of `n` bytes, more than the
65535 that R185 states. -/
opaque pramLenOfTooMany : (n : Nat) → BitVec 16

/-- FREE VALUE (log 21): how many bytes `SimESC` moves for size code 3, which R88 does not define. -/
opaque simSizeCode3 : Nat

end Config

end Sys2Proof
end

