-- ==== Sys2Proof/Syntax.lean ====
section
/-! DEFINITION. The operations of the block as syntax: one constructor of `Instr` for each row of
spec/opcode_table.json. The block has no instruction word (30_encoding.md R100); its "instructions" are its frames,
command words, data words, host requests and composite operations. -/

namespace Sys2Proof

/-- The direction of a transfer: `rd` from the peripheral, `wr` to it. It selects the registers of 43_pram.md R180. -/
inductive Dir
  | rd
  | wr
  deriving DecidableEq, Repr

/-- The size of a CSR access, 1, 2 or 4 bytes (30_encoding.md R111). -/
inductive SizeCode
  | one
  | two
  | four
  deriving DecidableEq, Repr

/-- The operations of spec/opcode_table.json, in its order. -/
inductive Instr
  /-- `WRITE_WORD reg, value` (R140). -/
  | writeWord (reg : Addr) (value : Word)
  /-- `SERIAL_READ_WORD reg` (R141). -/
  | serialReadWord (reg : Addr)
  /-- `FAST_READ_WORD reg` (R142). -/
  | fastReadWord (reg : Addr)
  /-- `READ_WORD reg` (R143). -/
  | readWord (reg : Addr)
  /-- `BURST_OPEN_WRITE` (R145). -/
  | burstOpenWrite
  /-- `BURST_PUSH value` (R146). -/
  | burstPush (value : Word)
  /-- `BURST_OPEN_READ` (R147). -/
  | burstOpenRead
  /-- `BURST_POP` (R149). -/
  | burstPop
  /-- `BURST_CLOSE` (R150). -/
  | burstClose
  /-- `RESET_SQI_FRAME` (R151). -/
  | resetSqiFrame
  /-- `CSRCMD.READ`: the CSR read command word for `size` bytes at `addr` (R110). -/
  | csrcmdRead (size : SizeCode) (addr : Addr)
  /-- `CSRCMD.WRITE`: the CSR write command word (R110). -/
  | csrcmdWrite (size : SizeCode) (addr : Addr)
  /-- `PRAMCMD.ABORT`, at the command register of `dir` (R112). -/
  | pramcmdAbort (dir : Dir)
  /-- `PRAMCMD.START` (R112). -/
  | pramcmdStart (dir : Dir)
  /-- `PRAM_ADDRLEN`: the address/length word (R114). -/
  | pramAddrlen (dir : Dir) (len : BitVec 16) (addr : Addr)
  /-- `PRAM_STATUS`: the word `v` read from the command register of `dir` (R113). -/
  | pramStatus (dir : Dir) (v : Word)
  /-- `CSR_STATUS`: the word `v` read from `CSR_CMD` (R113). -/
  | csrStatus (v : Word)
  /-- `CSR_DATA_WORD`: the data word of a CSR access of `size` bytes, sent (`wr`) or received (`rd`) (R115). -/
  | csrDataWord (dir : Dir) (size : SizeCode) (v : Word)
  /-- `PRAM_FIRST_WORD`: the first FIFO word, whose lanes `fbp .. fbp + n0 - 1` carry payload (R116). -/
  | pramFirstWord (dir : Dir) (fbp : BitVec 2) (n0 : Nat) (v : Word)
  /-- `PRAM_NEXT_WORD`: a later FIFO word, whose lanes `0 .. t - 1` carry payload (R117). -/
  | pramNextWord (dir : Dir) (t : Nat) (v : Word)
  /-- `INIT` (R220). -/
  | init
  /-- `RESET` (R221). -/
  | reset
  /-- `READ addr, len` (R203). -/
  | read (addr : Addr) (len : BitVec 16)
  /-- `WRITE addr, [bytes]`, its length the number of bytes (R204, R126). -/
  | write (addr : Addr) (data : List Byte)
  /-- `POLL_BUSY_CLEAR reg` (R160). -/
  | pollBusyClear (reg : Addr)
  /-- `POLL_FIFO_AVAIL reg` (R161). -/
  | pollFifoAvail (reg : Addr)
  /-- `POLL_EQUAL reg, expected` (R163). -/
  | pollEqual (reg : Addr) (expected : Word)
  /-- `CSR_READ addr, n` (R171). -/
  | csrRead (addr : Addr) (n : Nat)
  /-- `CSR_WRITE addr, [bytes]` (R172). -/
  | csrWrite (addr : Addr) (data : List Byte)
  /-- `PRAM_SETUP cmd, al, addr, len`, `dir` naming the pair of registers (R180, R181). -/
  | pramSetup (dir : Dir) (addr : Addr) (len : BitVec 16)
  /-- `PRAM_READ addr, len` (R184). -/
  | pramRead (addr : Addr) (len : BitVec 16)
  /-- `PRAM_WRITE addr, [bytes]` (R185). -/
  | pramWrite (addr : Addr) (data : List Byte)
  /-- `CHUNK(a, rem)` (R201). -/
  | chunk (a : Addr) (rem : BitVec 16)
  /-- `AL_REFRESH` (R206). -/
  | alRefresh
  deriving DecidableEq, Repr

end Sys2Proof
end

