-- ==== Sys2Proof/Machine/Operands.lean ====
section
/-! DEFINITION. The operand forms: byte order and byte lanes (00_scope.md R9, R10), the register map
(10_state.md R40), the command words and data words (30_encoding.md R110 to R117), the admitted requests
(20_memory.md R71) and the chunk size (44_router.md R201). Nothing here looks at the state. -/

namespace Sys2Proof.Machine

/-! ### Byte order and lanes -/

/-- Byte lane `j` of a word, `v[8*j+7 : 8*j]` (R9). -/
def lane (j : Nat) (v : Word) : Byte := v.extractLsb' (8 * j) 8

/-- `le32(v)`: lane 0 first (R10). -/
def le32 (v : Word) : List Byte := [lane 0 v, lane 1 v, lane 2 v, lane 3 v]

/-- `be16(a)`: most significant byte first (R10). -/
def be16 (a : Addr) : List Byte := [a.extractLsb' 8 8, a.extractLsb' 0 8]

/-- `sum over i of b[i] << (8 * (p + i))` (R115 to R117): byte `i` in lane `p + i`, every other lane zero. The lanes
are disjoint, so the sum is the bitwise OR. -/
def packAt (p : Nat) : List Byte → Word
  | [] => 0
  | b :: bs => b.zeroExtend 32 <<< (8 * p) ||| packAt (p + 1) bs

/-- `word_of(b0, b1, b2, b3)`: lane `j` is `bj` (R10). -/
def wordOf (bs : List Byte) : Word := packAt 0 bs

/-- Lanes `p .. p + n - 1` of a word, lowest first (R115 to R117, the read direction). -/
def lanes (p n : Nat) (v : Word) : List Byte := (List.range n).map fun i => lane (p + i) v

/-! ### The register map (R40) -/

/-- `CSR_LIMIT` (R7, R200). -/
def csrLimit : Nat := 0x1000

/-- `PRAM_RD_FIFO` and `PRAM_WR_FIFO`. -/
def fifoReg : Dir → Addr
  | .rd => 0x000
  | .wr => 0x020

/-- `BYTE_TEST`. -/
def byteTestReg : Addr := 0x064

/-- `RESET_CTL`. -/
def resetCtlReg : Addr := 0x1F8

/-- `CSR_DATA`. -/
def csrDataReg : Addr := 0x300

/-- `CSR_CMD`. -/
def csrCmdReg : Addr := 0x304

/-- `PRAM_RD_ADDR_LEN` and `PRAM_WR_ADDR_LEN`. -/
def addrLenReg : Dir → Addr
  | .rd => 0x308
  | .wr => 0x310

/-- `PRAM_RD_CMD` and `PRAM_WR_CMD`. -/
def pramCmdReg : Dir → Addr
  | .rd => 0x30C
  | .wr => 0x314

/-- The ten register addresses of R40. -/
def registerMap : List Addr :=
  [0x000, 0x020, 0x064, 0x1F8, 0x300, 0x304, 0x308, 0x30C, 0x310, 0x314]

/-! ### Command words -/

/-- The size code of R111. -/
def sizeCode : SizeCode → BitVec 2
  | .one => 0
  | .two => 1
  | .four => 2

/-- The number of bytes of a CSR access (R111). -/
def sizeBytes : SizeCode → Nat
  | .one => 1
  | .two => 2
  | .four => 4

/-- `size_code(n)` of R170: none when `n` is not 1, 2 or 4. -/
def sizeCodeOf : Nat → Option SizeCode
  | 1 => some .one
  | 2 => some .two
  | 4 => some .four
  | _ => none

/-- The CSR command word (R110): `READ = 0xC0000000`, `WRITE = 0x80000000`, OR-ed with `s << 16` and the address. -/
def csrCmdWord (dir : Dir) (size : SizeCode) (addr : Addr) : Word :=
  (match dir with
    | .rd => 0xC0000000#32
    | .wr => 0x80000000#32) ||| (sizeCode size).zeroExtend 32 <<< 16 ||| addr.zeroExtend 32

/-- `PRAMCMD.ABORT` (R112). -/
def pramAbortWord : Word := 0x40000000

/-- `PRAMCMD.START` (R112). -/
def pramStartWord : Word := 0x80000000

/-- The PRAM address/length word, `len << 16 | addr` (R114). -/
def addrLenWord (len : BitVec 16) (addr : Addr) : Word :=
  len.zeroExtend 32 <<< 16 ||| addr.zeroExtend 32

/-! ### Requests, the first word and chunks -/

/-- The range of a READ or WRITE request (R71): `1 <= len <= 65535` and `addr + len <= 0x10000`. -/
def admitted (addr : Addr) (len : Nat) : Bool :=
  1 ≤ len && len ≤ 65535 && addr.toNat + len ≤ 0x10000

/-- The length operand of a PRAM write of `n` bytes (R185: `1..65535`, in 16 bits, R181). DESIGN CHOICE (log 35): a free
value for a longer list, to which no rule gives a length. -/
def pramWriteLen (n : Nat) : BitVec 16 :=
  if n ≤ 65535 then BitVec.ofNat 16 n else Config.pramLenOfTooMany n

/-- `FBP = addr mod 4` (R183). -/
def firstBytePos (addr : Addr) : BitVec 2 := addr.extractLsb' 0 2

/-- `n0 = min(4 - FBP, len)` (R183). -/
def firstCount (addr : Addr) (len : Nat) : Nat := min (4 - (firstBytePos addr).toNat) len

/-- `CHUNK(a, rem)` for `rem >= 1` (R201): the three tests in order, only the first that applies acts. -/
def chunkSize (a : Addr) (rem : BitVec 16) : BitVec 3 :=
  let size := min rem.toNat 4
  if a.getLsbD 0 then 1
  else if a.getLsbD 1 then (if size % 2 = 1 then 1 else 2)
  else if size = 3 then 1
  else BitVec.ofNat 3 size

/-- `R_DISPATCH`'s comparison: unsigned, on all 16 bits (R200). -/
def isPram (addr : Addr) : Bool := csrLimit ≤ addr.toNat

end Sys2Proof.Machine
end

