-- ==== Sys2Proof/WellFormed.lean ====
section
/-! DEFINITION. Well-formed operations: the operand domains the spec states. -/

namespace Sys2Proof

open Sys2Proof.Machine

/-- Lanes outside `p .. p + n - 1` of a word the block sends are zero (R115 to R117). -/
def lanesClear (p n : Nat) (v : Word) : Bool := packAt p (lanes p n v) == v

/-- The command registers `POLL_BUSY_CLEAR` takes (R160). -/
def busyRegs : List Addr := [0x304, 0x30C, 0x314]

/-- The command registers `POLL_FIFO_AVAIL` takes (R161). -/
def availRegs : List Addr := [0x30C, 0x314]

/-- An operation whose operands are in the domain its rule states. An operand with no stated restriction has none
here (R144: the transport operations do not check their register address; R170: `CSR_READ` takes any length and
raises `InvalidLength` itself). -/
def Instr.wf : Instr → Bool
  | .writeWord _ _ => true
  | .serialReadWord _ => true
  | .fastReadWord _ => true
  | .readWord _ => true
  | .burstOpenWrite => true
  | .burstPush _ => true
  | .burstOpenRead => true
  | .burstPop => true
  | .burstClose => true
  | .resetSqiFrame => true
  | .csrcmdRead _ _ => true
  | .csrcmdWrite _ _ => true
  | .pramcmdAbort _ => true
  | .pramcmdStart _ => true
  | .pramAddrlen _ _ _ => true
  | .pramStatus _ _ => true
  | .csrStatus _ => true
  | .csrDataWord d n v => d == .rd || lanesClear 0 (sizeBytes n) v
  | .pramFirstWord d fbp n0 v =>
      1 ≤ n0 && fbp.toNat + n0 ≤ 4 && (d == .rd || lanesClear fbp.toNat n0 v)
  | .pramNextWord d t v => 1 ≤ t && t ≤ 4 && (d == .rd || lanesClear 0 t v)
  | .init => true
  | .reset => true
  | .read addr len => admitted addr len.toNat
  | .write addr data => admitted addr data.length
  | .pollBusyClear reg => busyRegs.contains reg
  | .pollFifoAvail reg => availRegs.contains reg
  | .pollEqual _ _ => true
  | .csrRead _ _ => true
  | .csrWrite _ _ => true
  | .pramSetup _ _ _ => true
  | .pramRead addr len => admitted addr len.toNat
  | .pramWrite addr data => admitted addr data.length
  | .chunk _ rem => 1 ≤ rem.toNat
  | .alRefresh => true

end Sys2Proof
end

