-- ==== Sys2Proof/Decode.lean ====
section
/-! DEFINITION. Decoding, total on any bytes and rejecting by name, and the encoder written from the same tables
(30_encoding.md R101 to R117, R125, R128). A pattern of spec/opcode_table.json is a pattern of something (R128,
`space`): a token says of what, and gives its bytes, first sent (or bit 31) first. -/

namespace Sys2Proof

open Sys2Proof.Machine

/-- What a token's bytes are (R128, `space`), with what the space fixes beside the bits: the register a word is
written to or read from, and how many lanes of a data word carry payload. -/
inductive Space
  /-- The bytes the block sends from `CS_ASSERT` on (R101). -/
  | frame
  /-- A group of four bytes inside the frame opened by `BURST_OPEN_WRITE` (R146). -/
  | writeBurst
  /-- A group of four bytes sent inside the frame opened by `BURST_OPEN_READ` (R149). -/
  | readBurst
  /-- A word written to `CSR_CMD` (R110). -/
  | csrCmd
  /-- A word written to a PRAM command register (R112). -/
  | pramCmd (dir : Dir)
  /-- A word written to a PRAM address/length register (R114). -/
  | addrLen (dir : Dir)
  /-- A word read from a PRAM command register (R113). -/
  | pramStatus (dir : Dir)
  /-- A word read from `CSR_CMD` (R113). -/
  | csrStatus
  /-- A word at `CSR_DATA`, of which `size` bytes are payload (R115). -/
  | csrData (dir : Dir) (size : SizeCode)
  /-- The first FIFO word (R116). -/
  | firstWord (dir : Dir) (fbp : BitVec 2) (n0 : Nat)
  /-- A later FIFO word (R117). -/
  | nextWord (dir : Dir) (t : Nat)
  /-- A host request (R125), a `WRITE` followed by its data bytes. -/
  | hostRequest
  deriving DecidableEq, Repr

/-- What can be presented for execution: an encoded thing, or an operation of width 0, which has no bits of its own
(R128) and is entered by its name (R126). -/
inductive Token
  | coded (space : Space) (bytes : List Byte)
  | named (i : Instr)
  deriving DecidableEq, Repr

/-- Why the decoder rejects a token. -/
inductive Reject
  /-- A frame with no byte. -/
  | emptyFrame
  /-- A first byte that is none of the four opcodes of R108 (R120 a). -/
  | unknownOpcode
  /-- A number of bytes that no operation's frame with this opcode has (R107). -/
  | frameLength
  /-- A burst header at another register address than the FIFO's (R106). -/
  | burstAddress
  /-- A word or a burst group that is not four bytes long (R101). -/
  | wordLength
  /-- A CSR command word with bit 31 clear or a reserved bit set (R120 c). -/
  | csrCommandBits
  /-- `SIZE_CODE = 3` (R111, R120 b). -/
  | sizeCode3
  /-- A PRAM command word that is neither the abort nor the start word (R120 d). -/
  | pramCommandBits
  /-- A payload lane count out of range (R116, R117). -/
  | laneRange
  /-- A lane that carries no payload and is not zero in a word the block sends (R115 to R117). -/
  | unusedLanes
  /-- A host request that is none of the four of R125, or whose data bytes are not `len` many. -/
  | hostRequestForm
  /-- An operation that has an encoding and was entered by name. -/
  | hasEncoding
  deriving DecidableEq, Repr

/-! ### Bit fields of a token -/

/-- Two bytes, most significant first. -/
def addrOf (hi lo : Byte) : Addr := hi.zeroExtend 16 <<< 8 ||| lo.zeroExtend 16

/-- The bytes of a word, bit 31 first (R128). -/
def be32 (v : Word) : List Byte := [lane 3 v, lane 2 v, lane 1 v, lane 0 v]

/-- A word from four bytes, bit 31 first. -/
def wordBE : List Byte → Option Word
  | [b3, b2, b1, b0] => some (wordOf [b0, b1, b2, b3])
  | _ => none

/-! ### The decoder -/

/-- An SPI frame (R101 to R108): the opcode is byte 0, the form follows from the number of bytes (R107). The dummy
byte and the fill bytes are not looked at (R84: any value). DESIGN CHOICE (log 31): of the word form and the burst form
of an opcode, which overlap (R106, R128), a frame with one payload group is taken as the word form and a header alone as
the burst header; a whole burst frame of two or more groups is no single operation and is rejected here, its groups
being presented one by one in the burst spaces. -/
def decodeFrame : List Byte → Except Reject Instr
  | [] => .error .emptyFrame
  | op :: rest =>
    if op = 0x02 then
      match rest with
      | [a1, a0] => if addrOf a1 a0 = fifoReg .wr then .ok .burstOpenWrite else .error .burstAddress
      | [a1, a0, p, q, r, s] => .ok (.writeWord (addrOf a1 a0) (wordOf [p, q, r, s]))
      | _ => .error .frameLength
    else if op = 0x03 then
      match rest with
      | [a1, a0, _, _, _, _] => .ok (.serialReadWord (addrOf a1 a0))
      | _ => .error .frameLength
    else if op = 0x0B then
      match rest with
      | [a1, a0, _] => if addrOf a1 a0 = fifoReg .rd then .ok .burstOpenRead else .error .burstAddress
      | [a1, a0, _, _, _, _, _] => .ok (.fastReadWord (addrOf a1 a0))
      | _ => .error .frameLength
    else if op = 0xFF then
      match rest with
      | [] => .ok .resetSqiFrame
      | _ => .error .frameLength
    else .error .unknownOpcode

/-- A CSR command word (R110, R111). -/
def decodeCsrCmd (w : Word) : Except Reject Instr :=
  if !w.getLsbD 31 || w.extractLsb' 18 12 != 0 then .error .csrCommandBits
  else
    let addr := w.extractLsb' 0 16
    let size := w.extractLsb' 16 2
    let build (s : SizeCode) : Instr := if w.getLsbD 30 then .csrcmdRead s addr else .csrcmdWrite s addr
    if size = 0 then .ok (build .one)
    else if size = 1 then .ok (build .two)
    else if size = 2 then .ok (build .four)
    else .error .sizeCode3

/-- A PRAM command word (R112). -/
def decodePramCmd (dir : Dir) (w : Word) : Except Reject Instr :=
  if w = pramAbortWord then .ok (.pramcmdAbort dir)
  else if w = pramStartWord then .ok (.pramcmdStart dir)
  else .error .pramCommandBits

/-- A word the block sends has zero in the lanes that carry no payload; of a word it receives they are ignored. -/
def sentLanesOk (dir : Dir) (p n : Nat) (w : Word) : Bool := dir == .rd || lanesClear p n w

/-- A word in one of the word spaces. -/
def decodeWord (space : Space) (w : Word) : Except Reject Instr :=
  match space with
  | .csrCmd => decodeCsrCmd w
  | .pramCmd dir => decodePramCmd dir w
  | .addrLen dir => .ok (.pramAddrlen dir (w.extractLsb' 16 16) (w.extractLsb' 0 16))
  | .pramStatus dir => .ok (.pramStatus dir w)
  | .csrStatus => .ok (.csrStatus w)
  | .csrData dir n =>
    if sentLanesOk dir 0 (sizeBytes n) w then .ok (.csrDataWord dir n w) else .error .unusedLanes
  | .firstWord dir fbp n0 =>
    if !(1 ≤ n0 && fbp.toNat + n0 ≤ 4) then .error .laneRange
    else if sentLanesOk dir fbp.toNat n0 w then .ok (.pramFirstWord dir fbp n0 w)
    else .error .unusedLanes
  | .nextWord dir t =>
    if !(1 ≤ t && t ≤ 4) then .error .laneRange
    else if sentLanesOk dir 0 t w then .ok (.pramNextWord dir t w)
    else .error .unusedLanes
  | .writeBurst => .ok (.burstPush (wordOf (be32 w)))
  | .readBurst => .ok .burstPop
  | .frame => .error .wordLength
  | .hostRequest => .error .hostRequestForm

/-- A host request (R125): the code of `OP`, then for READ and WRITE address and length, then for a WRITE its data bytes
(the fields in the order of the table's rows). DESIGN CHOICE (log 32): the packing into bytes. `OP` is the low two bits
of a byte whose six upper bits are zero, address and length are two bytes each, most significant first. -/
def decodeHost : List Byte → Except Reject Instr
  | [op] => if op = 0 then .ok .init else if op = 1 then .ok .reset else .error .hostRequestForm
  | op :: a1 :: a0 :: l1 :: l0 :: data =>
    if op = 2 ∧ data = [] then .ok (.read (addrOf a1 a0) (addrOf l1 l0))
    else if op = 3 ∧ data.length = (addrOf l1 l0).toNat then .ok (.write (addrOf a1 a0) data)
    else .error .hostRequestForm
  | _ => .error .hostRequestForm

/-- Decoding of the bytes of a space. -/
def decode (space : Space) (bytes : List Byte) : Except Reject Instr :=
  match space with
  | .frame => decodeFrame bytes
  | .hostRequest => decodeHost bytes
  | .writeBurst | .readBurst | .csrCmd | .pramCmd _ | .addrLen _ | .pramStatus _ | .csrStatus | .csrData _ _
  | .firstWord _ _ _ | .nextWord _ _ =>
    match wordBE bytes with
    | some w => decodeWord space w
    | none => .error .wordLength

/-- The rows of width 0: operations with no bits of their own (R128). -/
def Instr.hasNoBits : Instr → Bool
  | .readWord _ | .burstClose | .pollBusyClear _ | .pollFifoAvail _ | .pollEqual _ _ | .csrRead _ _
  | .csrWrite _ _ | .pramSetup _ _ _ | .pramRead _ _ | .pramWrite _ _ | .chunk _ _ | .alRefresh => true
  | .writeWord _ _ | .serialReadWord _ | .fastReadWord _ | .burstOpenWrite | .burstPush _ | .burstOpenRead
  | .burstPop | .resetSqiFrame | .csrcmdRead _ _ | .csrcmdWrite _ _ | .pramcmdAbort _ | .pramcmdStart _
  | .pramAddrlen _ _ _ | .pramStatus _ _ | .csrStatus _ | .csrDataWord _ _ _ | .pramFirstWord _ _ _ _
  | .pramNextWord _ _ _ | .init | .reset | .read _ _ | .write _ _ => false

/-- Decoding of a token. -/
def decodeToken : Token → Except Reject Instr
  | .coded space bytes => decode space bytes
  | .named i => if i.hasNoBits then .ok i else .error .hasEncoding

/-! ### The encoder -/

/-- The four fill bytes of a received word (R103, R104, R149). -/
def fill4 (p : Params) : List Byte := List.replicate 4 p.fillByte

/-- The encoding of an operation under the parameters `p` (`DUMMY_BYTE` and `FILL_BYTE` stand in the frames). -/
def encode (p : Params) : Instr → Token
  | .writeWord reg v => .coded .frame (0x02 :: be16 reg ++ le32 v)
  | .serialReadWord reg => .coded .frame (0x03 :: be16 reg ++ fill4 p)
  | .fastReadWord reg => .coded .frame (0x0B :: be16 reg ++ p.dummyByte :: fill4 p)
  | .readWord reg => .named (.readWord reg)
  | .burstOpenWrite => .coded .frame (0x02 :: be16 (fifoReg .wr))
  | .burstPush v => .coded .writeBurst (le32 v)
  | .burstOpenRead => .coded .frame (0x0B :: be16 (fifoReg .rd) ++ [p.dummyByte])
  | .burstPop => .coded .readBurst (fill4 p)
  | .burstClose => .named .burstClose
  | .resetSqiFrame => .coded .frame [0xFF]
  | .csrcmdRead s a => .coded .csrCmd (be32 (csrCmdWord .rd s a))
  | .csrcmdWrite s a => .coded .csrCmd (be32 (csrCmdWord .wr s a))
  | .pramcmdAbort d => .coded (.pramCmd d) (be32 pramAbortWord)
  | .pramcmdStart d => .coded (.pramCmd d) (be32 pramStartWord)
  | .pramAddrlen d len a => .coded (.addrLen d) (be32 (addrLenWord len a))
  | .pramStatus d v => .coded (.pramStatus d) (be32 v)
  | .csrStatus v => .coded .csrStatus (be32 v)
  | .csrDataWord d n v => .coded (.csrData d n) (be32 v)
  | .pramFirstWord d fbp n0 v => .coded (.firstWord d fbp n0) (be32 v)
  | .pramNextWord d t v => .coded (.nextWord d t) (be32 v)
  | .init => .coded .hostRequest [0x00]
  | .reset => .coded .hostRequest [0x01]
  | .read a len => .coded .hostRequest (0x02 :: be16 a ++ be16 len)
  | .write a data => .coded .hostRequest (0x03 :: be16 a ++ be16 (BitVec.ofNat 16 data.length) ++ data)
  | .pollBusyClear reg => .named (.pollBusyClear reg)
  | .pollFifoAvail reg => .named (.pollFifoAvail reg)
  | .pollEqual reg v => .named (.pollEqual reg v)
  | .csrRead a n => .named (.csrRead a n)
  | .csrWrite a data => .named (.csrWrite a data)
  | .pramSetup d a len => .named (.pramSetup d a len)
  | .pramRead a len => .named (.pramRead a len)
  | .pramWrite a data => .named (.pramWrite a data)
  | .chunk a rem => .named (.chunk a rem)
  | .alRefresh => .named .alRefresh

/-! ### The opcode table's numbers -/

/-- The `n` bytes of the number `w`, most significant first: a table pattern as a list of bytes (R128). -/
def bytesBE (n w : Nat) : List Byte := (List.range n).map fun i => BitVec.ofNat 8 (w >>> (8 * (n - 1 - i)))

/-- The token a table pattern of `nbits` bits stands for. The bits alone do not say the space (R128: "Patterns in
different spaces are not to be compared with each other"), so the row with the most fixed bits that match is taken
(log 17); a 32-bit word with no fixed pattern is taken as an address/length word. -/
def tableToken (nbits w : Nat) : Token :=
  let bytes := bytesBE (nbits / 8) w
  if nbits = 8 then
    if w = 0xFF then .coded .frame bytes else .coded .hostRequest bytes
  else if nbits = 40 then
    if w >>> 32 = 3 then .coded .hostRequest (bytes ++ List.replicate (w % 0x10000) 0)
    else .coded .hostRequest bytes
  else if nbits = 32 then
    if w >>> 8 = 0x0B0000 then .coded .frame bytes
    else if w = 0x40000000 ∨ w = 0x80000000 then .coded (.pramCmd .rd) bytes
    else if w >>> 18 = 0x3000 ∨ w >>> 18 = 0x2000 then .coded .csrCmd bytes
    else .coded (.addrLen .rd) bytes
  else .coded .frame bytes

/-- The instruction the decoder reads from an opcode-table word. -/
def decodeTableWord (nbits w : Nat) : Option Instr :=
  match decodeToken (tableToken nbits w) with
  | .ok i => some i
  | .error _ => none

end Sys2Proof
end

