-- ==== Sys2Proof/Machine/State.lean ====
section
/-! DEFINITION. The state of the machine as plain data, its reset value, and the reasons a step can stop.
INVENTORY.md's list under "State" is this file. -/

namespace Sys2Proof.Machine

/-! ### The sequencer (10_state.md section 6) -/

/-- The phases of R33, the values of `PH`. -/
inductive Phase
  | idle
  | rDispatch | rChunk
  | cData | cCmd | cPoll | cFetch
  | pAbort | pPollBusy | pAddrLen | pStart | pPollAvail | pFirst | pBOpen | pBWord | pBClose
  | rAlev
  | iSqi | iReset | iPoll
  deriving DecidableEq, Repr

/-- The test of a poll loop (R160, R161, R163). -/
inductive PollKind
  | busyClear
  | fifoAvail
  | equal (expected : Word)
  deriving DecidableEq, Repr

/-- Which operation gets control back when the one in progress ends (R33, "back to the caller"). `host` is the host
operation named by `OP`. Every other constructor but `nobody` is an operation entered by itself (log 9), with the
operands of that entry. -/
inductive Caller
  | nobody
  | host
  | poll (kind : PollKind) (reg : Addr)
  | csrRead (addr : Addr) (n : Nat)
  | csrWrite (addr : Addr) (data : List Byte)
  | alRefresh
  | pramSetup (dir : Dir) (addr : Addr) (len : BitVec 16)
  | pramRead (addr : Addr) (len : BitVec 16)
  | pramWrite (addr : Addr) (data : List Byte)
  | burst
  deriving DecidableEq, Repr

structure Seq where
  /-- `PH` (R32). -/
  ph : Phase
  caller : Caller
  /-- The CSR read in progress is the one `R_ALEV` runs (R33, row `R_ALEV`). -/
  refresh : Bool
  deriving DecidableEq, Repr

/-! ### Registers -/

/-- The host operations, the values of the 2-bit `OP` (R125: `00`, `01`, `10`, `11` in this order). -/
inductive HostOp
  | init
  | reset
  | read
  | write
  deriving DecidableEq, Repr

/-- The request latch (R25). -/
structure Latch where
  op : HostOp
  reqAddr : Addr
  reqLen : BitVec 16
  deriving DecidableEq, Repr

/-- The registers the host sees (R20, R21, R22); `BUSY` (R29) is computed from `PH`. -/
structure Visible where
  alEvent : BitVec 16
  status : BitVec 2
  faultSeen : Bool
  deriving DecidableEq, Repr

/-- The working registers (R24). -/
structure Work where
  addr : Addr
  rem : BitVec 16
  cur : BitVec 16
  size : BitVec 3
  fbp : BitVec 2
  word : Word
  fifoCnt : BitVec 5
  polls : Nat
  deriving DecidableEq, Repr

/-- `WBUF` and `RBUF` (R27; log 7), and `res`, the bytes `b[..]` an accessor returns to its caller (R171, R184;
log 8). -/
structure Buffers where
  wbuf : List Byte
  rbuf : List Byte
  res : List Byte
  deriving DecidableEq, Repr

/-- Chip-select (R23) and the burst frame that is open, if any (R146, R149). -/
structure Wire where
  cs : Bool
  burst : Option Dir
  deriving DecidableEq, Repr

/-- The wire between frames. -/
abbrev Wire.idle : Wire := ⟨false, none⟩

/-! ### The environment -/

/-- The event alphabet of R12. -/
inductive Event
  | req (op : HostOp) (addr : Addr) (len : BitVec 16) (wdata : List Byte)
  | csAssert
  | xfer (mosi miso : Byte)
  | xferFault (mosi : Byte)
  | csDeassert
  | rsp (status : BitVec 2) (rdata : Option (List Byte)) (alEvent : BitVec 16)
  deriving DecidableEq, Repr

/-- What the environment has decided about a coming byte exchange (R30, R38, R260; log 2, 3, 22). -/
inductive Reply
  /-- The peripheral answers this byte. -/
  | byte (miso : Byte)
  /-- The peripheral answers by itself: the attached reference peripheral, or else any byte. -/
  | device
  /-- The exchange reports a bus fault, if `BUS_CAN_FAULT`. -/
  | fault
  /-- Block reset is applied at this exchange. -/
  | reset
  deriving DecidableEq, Repr

/-- The ESC memory of the reference peripheral: a canonical list of (address, byte), 0 where unlisted (R85). -/
abbrev Memory := List Host.Cell

/-- The registers of the reference peripheral: a canonical list of (address, word), 0 where unlisted (R85). -/
abbrev RegFile := List (Nat × Word)

/-- `wr_ctx` of R85. -/
structure WrCtx where
  addr : Nat
  len : Nat
  k : Nat
  nw : Nat
  deriving DecidableEq, Repr

/-- What `SimESC` has received of the frame in progress (R86): the number of bytes, the opcode, the register
address, the bytes of an incomplete group written, the word being read. -/
structure SimFrame where
  count : Nat
  opcode : Byte
  addr : Addr
  group : List Byte
  data : Word
  deriving DecidableEq, Repr

/-- The reference peripheral `SimESC` (R85), with its test knobs. -/
structure SimEsc where
  mem : Memory
  reg : RegFile
  csrBusy : Nat
  rdBusy : Nat
  wrBusy : Nat
  rdAv : Nat
  wrAv : Nat
  rdFifo : List Word
  wrCtx : Option WrCtx
  busyPolls : Nat
  availPolls : Nat
  stuck : Bool
  bt : Word
  frame : Option SimFrame
  deriving DecidableEq, Repr

/-- The block reset input (R260), as it stands at the beginning of a step. Together with `Reply.reset` its values reach
every moment at which reset can fall between two observable events (log 22). -/
inductive ResetIn
  /-- Not applied. -/
  | off
  /-- Applied before anything else happens. -/
  | now
  /-- Applied when the next response is about to be emitted, before it is. -/
  | beforeRsp
  deriving DecidableEq, Repr

/-- The parameters and the inputs of the block (R7, R38). `fresh` is the model's own counter of free values. -/
structure Env where
  params : Params
  /-- The coming exchanges the environment has decided; past its end every exchange is free (log 2). -/
  script : List Reply
  /-- The reference peripheral, when one is attached (log 20). -/
  sim : Option SimEsc
  /-- What the host presents next (R26, R126; log 17). -/
  inputs : List Token
  /-- The block reset input (R260; log 22). -/
  resetIn : ResetIn
  fresh : Nat
  deriving DecidableEq, Repr

/-! ### The state -/

structure State where
  seq : Seq
  latch : Latch
  vis : Visible
  work : Work
  buf : Buffers
  wire : Wire
  env : Env
  /-- The observable events so far, oldest first (R12). -/
  trace : List Event
  deriving DecidableEq, Repr

/-- `BUSY` (R29). -/
def State.busy (s : State) : Bool := decide (s.seq.ph ≠ .idle)

/-- The machine right after block reset (R262). The registers the spec gives no reset value hold the values of
log 4 and 5; nothing is pending in the environment (log 2, 17, 20, 22, 24). -/
def State.reset : State where
  seq := ⟨.idle, .nobody, false⟩
  latch := ⟨.init, 0, 0⟩
  vis := ⟨Config.alEventAtReset 0, 0, false⟩
  work := ⟨0, 0, 0, 0, 0, 0, 0, 0⟩
  buf := ⟨[], [], []⟩
  wire := Wire.idle
  env := ⟨Config.params, [], none, [], .off, 1⟩
  trace := []

/-! ### Why a step can stop

The block's own three faults are no stops: taking one is a next state (60_exceptions.md R236). -/

/-- A transport operation entered where its rule does not permit it. Each is raised by the meanings of frame and
burst operations entered by themselves, never by the sequencer, and is safe: the model stops where the spec gives
the operation no effect (log 18). -/
inductive Fault
  /-- An operation that begins a frame, entered while `CS = 1` (R144: permitted only when `CS = 0`). Raised by every
  meaning that sends a whole frame or opens a burst. -/
  | frameOpen
  /-- A write-burst word while no frame opened by `BURST_OPEN_WRITE` is open (R146). Raised by `execBurstPush` and
  `execPramNextWord`. -/
  | noWriteBurst
  /-- A read-burst word while no frame opened by `BURST_OPEN_READ` is open (R149). Raised by `execBurstPop`. -/
  | noReadBurst
  deriving DecidableEq, Repr

/-- An operation to which the model gives no step. All are safe (the spec says "a model refuses it", R246). -/
inductive Refusal
  /-- An operation not modelled yet, by its mnemonic. Raised by `exec` alone. -/
  | notModelled (mnemonic : String)
  /-- A request or an operation with phases of its own, presented while `BUSY = 1` (R246, U7). -/
  | busy
  /-- A READ or WRITE request outside the range R71 admits (R71, R246, U1, U2). Raised by `execRead` and `execWrite`. -/
  | notAdmitted
  /-- A presented token that decodes to no operation (R120). Raised by `step`. -/
  | undecodable (why : Reject)
  deriving DecidableEq, Repr

/-- The outcome of a step of this machine. -/
abbrev Result := Host.Outcome State Fault Refusal

end Sys2Proof.Machine
end

