-- ==== Sys2Proof/Machine/Flags.lean ====
section
/-! DEFINITION. The flags the block examines and the codes it reports. The block has no condition codes
(10_state.md R36): what it tests are bits of the word a poll reads (30_encoding.md R113). -/

namespace Sys2Proof.Machine

/-- `busy = v[31]` (R113). -/
def busyBit (v : Word) : Bool := v.getLsbD 31

/-- `avail = v[0]` (R113). -/
def availBit (v : Word) : Bool := v.getLsbD 0

/-- `count = v[20:16]` (R113). -/
def countField (v : Word) : BitVec 5 := v.extractLsb' 16 5

/-- The `ready` test of a poll (R160, R161, R163). -/
def pollReady : PollKind → Word → Bool
  | .busyClear, v => !busyBit v
  | .fifoAvail, v => availBit v
  | .equal expected, v => v == expected

/-- The limit test of R162: `POLL_LIMIT != INF and POLLS >= POLL_LIMIT`. -/
def limitReached (p : Params) (polls : Nat) : Bool :=
  match p.pollLimit with
  | none => false
  | some limit => limit ≤ polls

/-- The three fault causes (R230). -/
inductive Cause
  | busFault
  | deviceUnresponsive
  | invalidLength
  deriving DecidableEq, Repr

/-- The `STATUS` code of a fault (R234). -/
def causeCode : Cause → BitVec 2
  | .busFault => 1
  | .deviceUnresponsive => 2
  | .invalidLength => 3

end Sys2Proof.Machine
end

