-- ==== Sys2Proof/Machine/Memory.lean ====
section
/-! DEFINITION. The canonical sparse lists behind the reference peripheral's memory and registers, and the
little-endian accesses of 00_scope.md R11. An unlisted address reads as zero (20_memory.md R85). -/

namespace Sys2Proof.Machine

/-- The value at `a`: 0 where unlisted (R85). -/
def sparseGet {w : Nat} : List (Nat × BitVec w) → Nat → BitVec w
  | [], _ => 0
  | (k, v) :: m, a => if a = k then v else sparseGet m a

/-- Write `x` at `a`, keeping the addresses rising and listing no zero. -/
def sparsePut {w : Nat} (a : Nat) (x : BitVec w) : List (Nat × BitVec w) → List (Nat × BitVec w)
  | [] => if x = 0 then [] else [(a, x)]
  | (k, v) :: m =>
    if a < k then (if x = 0 then (k, v) :: m else (a, x) :: (k, v) :: m)
    else if a = k then (if x = 0 then m else (a, x) :: m)
    else (k, v) :: sparsePut a x m

/-- The canonical form: addresses strictly rising, no entry equal to what an unlisted address reads as. -/
abbrev SparseWf {w : Nat} (m : List (Nat × BitVec w)) : Prop :=
  m.Pairwise (fun p q => p.1 < q.1) ∧ ∀ p ∈ m, p.2 ≠ 0

/-- The ESC memory is in canonical form and lies in the ESC address space (R51, R85). -/
abbrev Memory.wf (m : Memory) : Prop := SparseWf m ∧ ∀ p ∈ m, p.1 < 0x10000

/-- One byte of the ESC memory; above `0xFFFF` it reads 0 (R85). -/
def memGet (m : Memory) (a : Nat) : Byte := if a < 0x10000 then sparseGet m a else 0

/-- Write one byte; above `0xFFFF` it is dropped (R85). -/
def memPut (a : Nat) (b : Byte) (m : Memory) : Memory := if a < 0x10000 then sparsePut a b m else m

/-- `MemRead(a, n)` as its bytes, lowest address first (R11). -/
def memRead (m : Memory) (a n : Nat) : List Byte := (List.range n).map fun i => memGet m (a + i)

/-- `MemWrite(a, n, v)` given the bytes, lowest address first (R11). -/
def memWrite (a : Nat) : List Byte → Memory → Memory
  | [], m => m
  | b :: bs, m => memWrite (a + 1) bs (memPut a b m)

end Sys2Proof.Machine
end

