-- ==== Sys2Proof/Machine/SimEsc.lean ====
section
/-! DEFINITION. The reference peripheral `SimESC` of 20_memory.md section 7 (R85 to R94). It is the spec's own
construction for tests and no part of the block: no law of the block may rest on it (D26). -/

namespace Sys2Proof.Machine

/-- `SimESC` at its start (R85), with the four test knobs of a run: all memory and registers zero, every countdown
zero, no FIFO word, no write in progress, between frames. -/
def SimEsc.start (busyPolls availPolls : Nat) (stuck : Bool) (bt : Word) : SimEsc where
  mem := []
  reg := []
  csrBusy := 0
  rdBusy := 0
  wrBusy := 0
  rdAv := 0
  wrAv := 0
  rdFifo := []
  wrCtx := none
  busyPolls := busyPolls
  availPolls := availPolls
  stuck := stuck
  bt := bt
  frame := none

/-- `ceil((ad mod 4 + ln) / 4)` (R90, R92). -/
def fifoWords (ad ln : Nat) : Nat := (ad % 4 + ln + 3) / 4

/-- The number of bytes of a CSR command (R88); size code 3 is not defined there: a free value (log 21). -/
def simSize (v : Word) : Nat :=
  let s := v.extractLsb' 16 2
  if s = 0 then 1 else if s = 1 then 2 else if s = 2 then 4 else Config.simSizeCode3

/-- `reg[a]` (R85). -/
def simReg (e : SimEsc) (a : Addr) : Word := sparseGet e.reg a.toNat

/-- `reg[a] <- v`. -/
def simSetReg (e : SimEsc) (a : Addr) (v : Word) : SimEsc :=
  { e with reg := sparsePut a.toNat v e.reg }

/-- R88: a command written to `CSR_CMD`. -/
def simCsrCommand (e : SimEsc) (v : Word) : SimEsc :=
  if v.getLsbD 31 then
    let ad := (v.extractLsb' 0 16).toNat
    let n := simSize v
    if v.getLsbD 30 then
      { simSetReg e csrDataReg (wordOf (memRead e.mem ad n)) with csrBusy := e.busyPolls }
    else
      { e with mem := memWrite ad (lanes 0 n (simReg e csrDataReg)) e.mem, csrBusy := e.busyPolls }
  else e

/-- R90: a command written to `PRAM_RD_CMD`. -/
def simReadCommand (e : SimEsc) (v : Word) : SimEsc :=
  if v.getLsbD 30 then { e with rdFifo := [], rdBusy := e.busyPolls }
  else if v.getLsbD 31 then
    let al := simReg e (addrLenReg .rd)
    let ad := (al.extractLsb' 0 16).toNat
    let ln := (al.extractLsb' 16 16).toNat
    let base := ad - ad % 4
    { e with
      rdFifo := (List.range (fifoWords ad ln)).map fun k => wordOf (memRead e.mem (base + 4 * k) 4)
      rdAv := e.availPolls }
  else e

/-- R92: a command written to `PRAM_WR_CMD`. -/
def simWriteCommand (e : SimEsc) (v : Word) : SimEsc :=
  if v.getLsbD 30 then { e with wrCtx := none, wrBusy := e.busyPolls }
  else if v.getLsbD 31 then
    let al := simReg e (addrLenReg .wr)
    let ad := (al.extractLsb' 0 16).toNat
    let ln := (al.extractLsb' 16 16).toNat
    { e with wrCtx := some ⟨ad, ln, 0, fifoWords ad ln⟩, wrAv := e.availPolls }
  else e

/-- R93: store lane `j` of the word at `x` when the programmed range holds `x`. -/
def simStoreLane (c : WrCtx) (v : Word) (m : Memory) (j : Nat) : Memory :=
  let x := (c.addr - c.addr % 4) + 4 * c.k + j
  if c.addr ≤ x ∧ x < c.addr + c.len then memPut x (lane j v) m else m

/-- R93: a word written to `PRAM_WR_FIFO`. -/
def simFifoWrite (e : SimEsc) (v : Word) : SimEsc :=
  match e.wrCtx with
  | none => e
  | some c =>
    { e with
      mem := (List.range 4).foldl (simStoreLane c v) e.mem
      wrCtx := some { c with k := c.k + 1 } }

/-- `RegWrite(a, v)` (R87). -/
def simRegWrite (e : SimEsc) (a : Addr) (v : Word) : SimEsc :=
  let e := simSetReg e a v
  if a = csrCmdReg then simCsrCommand e v
  else if a = pramCmdReg .rd then simReadCommand e v
  else if a = pramCmdReg .wr then simWriteCommand e v
  else if a = fifoReg .wr then simFifoWrite e v
  else e

/-- `v` with bit 31 set, and with bit 31 cleared (R89). -/
def withBusy (v : Word) : Word := v ||| 0x80000000
def withoutBusy (v : Word) : Word := v &&& 0x7FFFFFFF

/-- The available word of R91 and R92, for `n` words. -/
def availWord (n : Nat) : Word := 0x80000000#32 ||| BitVec.ofNat 32 (min n 31) <<< 16 ||| 1#32

/-- `RegRead(0x304)` (R89). -/
def simReadCsrCmd (e : SimEsc) : Word × SimEsc :=
  let v := simReg e csrCmdReg
  if e.stuck then (withBusy v, e)
  else if 0 < e.csrBusy then (withBusy v, { e with csrBusy := e.csrBusy - 1 })
  else (withoutBusy v, e)

/-- `RegRead(0x30C)` (R91). -/
def simReadRdCmd (e : SimEsc) : Word × SimEsc :=
  if 0 < e.rdBusy then (0x80000000, { e with rdBusy := e.rdBusy - 1 })
  else if e.rdFifo ≠ [] then
    if 0 < e.rdAv then (0x80000000, { e with rdAv := e.rdAv - 1 })
    else (availWord e.rdFifo.length, e)
  else (0, e)

/-- `RegRead(0x314)` (R92). -/
def simReadWrCmd (e : SimEsc) : Word × SimEsc :=
  if 0 < e.wrBusy then (0x80000000, { e with wrBusy := e.wrBusy - 1 })
  else
    match e.wrCtx with
    | none => (0, e)
    | some c =>
      if c.k < c.nw then
        if 0 < e.wrAv then (0x80000000, { e with wrAv := e.wrAv - 1 })
        else (availWord (c.nw - c.k), e)
      else (0, e)

/-- `RegRead(0x000)` (R91). -/
def simFifoRead (e : SimEsc) : Word × SimEsc :=
  match e.rdFifo with
  | [] => (0, e)
  | w :: ws => (w, { e with rdFifo := ws })

/-- `RegRead(a)` (R87, R89, R91, R92, R94). -/
def simRegRead (e : SimEsc) (a : Addr) : Word × SimEsc :=
  if a = csrCmdReg then simReadCsrCmd e
  else if a = pramCmdReg .rd then simReadRdCmd e
  else if a = pramCmdReg .wr then simReadWrCmd e
  else if a = fifoReg .rd then simFifoRead e
  else if a = byteTestReg then (e.bt, e)
  else if a = resetCtlReg then (0, e)
  else (simReg e a, e)

/-! ### Frames (R86) -/

/-- `CS_ASSERT`: no byte received yet. -/
def simFrameStart (e : SimEsc) : SimEsc := { e with frame := some ⟨0, 0, 0, [], 0⟩ }

/-- `CS_DEASSERT`: an incomplete group is dropped. -/
def simFrameEnd (e : SimEsc) : SimEsc := { e with frame := none }

/-- A payload byte of opcode `0x02`: the fourth byte of a group performs the register write. -/
def simPayloadIn (e : SimEsc) (f : SimFrame) (b : Byte) : SimEsc :=
  let group := f.group ++ [b]
  if group.length = 4 then
    { simRegWrite e f.addr (wordOf group) with frame := some { f with count := f.count + 1, group := [] } }
  else { e with frame := some { f with count := f.count + 1, group := group } }

/-- Payload exchange number `k` of a read: the first of a group performs the register read, the four return the
lanes of its word. -/
def simPayloadOut (e : SimEsc) (f : SimFrame) (k : Nat) : Byte × SimEsc :=
  if k % 4 = 0 then
    let r := simRegRead e f.addr
    (lane 0 r.1, { r.2 with frame := some { f with count := f.count + 1, data := r.1 } })
  else (lane (k % 4) f.data, { e with frame := some { f with count := f.count + 1 } })

/-- One byte exchange: the byte `SimESC` answers to `b` (R86). `f.count` bytes came before it. -/
def simExchange (e : SimEsc) (b : Byte) : Byte × SimEsc :=
  match e.frame with
  | none => (0, e)
  | some f =>
    let next (g : SimFrame) : SimEsc := { e with frame := some { g with count := f.count + 1 } }
    if f.count = 0 then (0, next { f with opcode := b })
    else if f.opcode = 0xFF then (0, next f)
    else if f.count = 1 then (0, next { f with addr := b.zeroExtend 16 <<< 8 })
    else if f.count = 2 then (0, next { f with addr := f.addr ||| b.zeroExtend 16 })
    else if f.opcode = 0x02 then (0, simPayloadIn e f b)
    else if f.opcode = 0x0B then
      if f.count = 3 then (0, next f) else simPayloadOut e f (f.count - 4)
    else if f.opcode = 0x03 then simPayloadOut e f (f.count - 3)
    else (0, next f)

end Sys2Proof.Machine
end

