-- ==== Sys2Proof/Machine/Ops.lean ====
section
/-! DEFINITION. The named operations over the state: register updates, the wire, the byte exchange, taking a fault
and completing an operation (00_scope.md R11, 60_exceptions.md R236 to R239), block reset (R260). -/

namespace Sys2Proof.Machine

/-! ### Updates -/

/-- Record an observable event (R12). -/
def State.log (e : Event) (s : State) : State := { s with trace := s.trace ++ [e] }

/-- `PH <- p` (R11). -/
def State.toPhase (p : Phase) (s : State) : State := { s with seq.ph := p }

/-- Enter phase `p` on behalf of `c`. -/
def State.enter (c : Caller) (p : Phase) (s : State) : State := { s with seq := ⟨p, c, false⟩ }

/-- Nothing in progress: `PH <- IDLE`. -/
def State.toIdle (s : State) : State := { s with seq := ⟨.idle, .nobody, false⟩ }

/-- `WORD <- v` (R24). -/
def State.setWord (v : Word) (s : State) : State := { s with work.word := v }

/-- `b[..] <- bs`: the bytes an accessor returns (R171, R184). -/
def State.setRes (bs : List Byte) (s : State) : State := { s with buf.res := bs }

/-- `POLLS <- n` (R162). -/
def State.setPolls (n : Nat) (s : State) : State := { s with work.polls := n }

/-- `FIFO_CNT <- n` (R182). -/
def State.setFifoCnt (n : BitVec 5) (s : State) : State := { s with work.fifoCnt := n }

/-- `FIFO_CNT <- (FIFO_CNT - 1) mod 32` (R186). -/
def State.countDown (s : State) : State := { s with work.fifoCnt := s.work.fifoCnt - 1 }

/-- `SIZE <- n` (R201). -/
def State.setSize (n : BitVec 3) (s : State) : State := { s with work.size := n }

/-- `STATUS <- c` (R21). -/
def State.setStatus (c : BitVec 2) (s : State) : State := { s with vis.status := c }

/-- `AL_EVENT <- v` (R20). -/
def State.setAlEvent (v : BitVec 16) (s : State) : State := { s with vis.alEvent := v }

/-- `RBUF[i ..] <- bs`: the bytes below `i` stay; those above are not written yet in this READ (R27; log 7). -/
def State.putRbuf (i : Nat) (bs : List Byte) (s : State) : State :=
  { s with buf.rbuf := s.buf.rbuf.take i ++ bs }

/-- A free value has been drawn: the next one is another (log 2). -/
def State.drawn (s : State) : State := { s with env.fresh := s.env.fresh + 1 }

/-! ### The wire -/

/-- `cs_assert()` (R11): chip-select goes from de-asserted to asserted. -/
def csAssert (s : State) : State :=
  { s with
    wire.cs := true
    env.sim := s.env.sim.map simFrameStart
    trace := s.trace ++ [.csAssert] }

/-- `cs_deassert()` (R11). With `CS = 0` there is no edge and so no event (log 19). -/
def csDeassert (s : State) : State :=
  if s.wire.cs then
    { s with
      wire := Wire.idle
      env.sim := s.env.sim.map simFrameEnd
      trace := s.trace ++ [.csDeassert] }
  else s

/-! ### The end of an operation -/

/-- `RBUF` unspecified in all its bytes (R27, R236, U12): each is a free value (log 6). -/
def scrambleRbuf (s : State) : State :=
  { s with
    buf.rbuf := (List.range s.latch.reqLen.toNat).map (Config.rbufByte s.env.fresh)
    env.fresh := s.env.fresh + 1 }

/-- Fault entry (R236), the one place where a fault is taken. In this order: chip-select de-asserted if it is
asserted; nothing of the operation in progress is left to run; `STATUS <- c`, `FAULT_SEEN <- 1`; `AL_EVENT` is left;
`RBUF` is unspecified; the response is emitted and `PH <- IDLE`. There is no return from it (R239). -/
def faultEntry (c : Cause) (s : State) : State :=
  let s := scrambleRbuf (csDeassert s)
  { s with
    vis := { s.vis with status := causeCode c, faultSeen := true }
    seq := ⟨.idle, .nobody, false⟩
    trace := s.trace ++ [.rsp (causeCode c) none s.vis.alEvent] }

/-- Normal completion of a host operation (R238): `STATUS <- 0`, `FAULT_SEEN` unchanged, the response with `RBUF` for
a READ, `PH <- IDLE`. -/
def complete (s : State) : State :=
  let rdata := if s.latch.op = .read then some s.buf.rbuf else none
  ((s.setStatus 0).log (.rsp 0 rdata s.vis.alEvent)).toIdle

/-- Block reset (R260): chip-select de-asserted at once, the operation in progress abandoned without a response,
every register of the block at its reset value. The parameters, the peripheral, the environment's and the host's
inputs and the record of what happened are not the block's registers and stay (R261; log 22). DESIGN CHOICE (log 22):
the spec does not say how long the reset input stays applied; here it is released by the reset it causes. -/
def blockReset (s : State) : State :=
  let s := csDeassert s
  { State.reset with
    vis := { State.reset.vis with alEvent := Config.alEventAtReset s.env.fresh }
    env := { s.env with resetIn := .off, fresh := s.env.fresh + 1 }
    trace := s.trace }

/-! ### What ends an operation

Block reset can still come between the last event of an operation and its response (R260; log 22). -/

/-- `f`, which emits a response, unless block reset is applied before it does. -/
def unlessReset (f : State → State) (s : State) : State :=
  if s.env.resetIn = .beforeRsp then blockReset s else f s

/-- An operation raises a fault (R236). -/
def raise (c : Cause) (s : State) : State := unlessReset (faultEntry c) s

/-- A host operation reaches its last line (R238). -/
def finish (s : State) : State := unlessReset complete s

/-! ### Sequencing

A call runs to its end before the next line, and a fault raised inside it ends the caller too (R11). -/

/-- The result of part of an operation: it went on with a value, or the operation in progress has ended (a fault
was taken, or block reset applied). -/
inductive Run (α : Type)
  | ok (a : α) (s : State)
  | stop (s : State)
  deriving DecidableEq, Repr

/-- The next line of an operation. -/
def andThen {α β : Type} (r : Run α) (f : α → State → Run β) : Run β :=
  match r with
  | .ok a s => f a s
  | .stop s => .stop s

/-- Follow with a change of state that cannot fault. -/
def thenDo {α : Type} (r : Run α) (f : State → State) : Run Unit :=
  match r with
  | .ok _ s => .ok () (f s)
  | .stop s => .stop s

/-- The state an operation leaves, however it ended. -/
def finalState {α : Type} : Run α → State
  | .ok _ s => s
  | .stop s => s

/-! ### The byte exchange -/

/-- What happens at an exchange. -/
inductive Reaction
  | byte (miso : Byte)
  | fault
  | reset
  deriving DecidableEq, Repr

/-- The peripheral's own answer to `mosi`: the attached reference peripheral's, or any byte (R38; log 2, 20). -/
def deviceAnswer (mosi : Byte) (s : State) : Reaction × State :=
  match s.env.sim with
  | some e =>
    let r := simExchange e mosi
    (.byte r.1, { s with env.sim := some r.2 })
  | none => (.byte (Config.misoByte s.env.fresh mosi), s.drawn)

/-- The next exchange as the environment decides it. A fault occurs only if `BUS_CAN_FAULT` (R30); past the end of the
script each exchange then draws its own outcome, also with a reference peripheral attached (log 3). -/
def react (mosi : Byte) (s : State) : Reaction × State :=
  match s.env.script with
  | .byte miso :: rest => (.byte miso, { s with env.script := rest })
  | .device :: rest => deviceAnswer mosi { s with env.script := rest }
  | .reset :: rest => (.reset, { s with env.script := rest })
  | .fault :: rest =>
    if s.env.params.busCanFault then (.fault, { s with env.script := rest })
    else deviceAnswer mosi { s with env.script := rest }
  | [] =>
    if s.env.params.busCanFault then
      if Config.busFault s.env.fresh then (.fault, s.drawn) else deviceAnswer mosi s.drawn
    else deviceAnswer mosi s

/-- `xfer(b)` (R11): one byte exchange, or a bus fault, which ends the operation (R231). -/
def xfer (mosi : Byte) (s : State) : Run Byte :=
  match react mosi s with
  | (.byte miso, s) => .ok miso (s.log (.xfer mosi miso))
  | (.fault, s) => .stop (raise .busFault (s.log (.xferFault mosi)))
  | (.reset, s) => .stop (blockReset s)

/-- `xfer` of each byte of a list in order (R11): the bytes received. -/
def exchange : List Byte → State → Run (List Byte)
  | [], s => .ok [] s
  | b :: bs, s =>
    andThen (xfer b s) fun m s => andThen (exchange bs s) fun ms s => .ok (m :: ms) s

/-- `send(list)` (R11): every received byte discarded. -/
def send (bs : List Byte) (s : State) : Run Unit := andThen (exchange bs s) fun _ s => .ok () s

/-- `recv4()` (R11): four exchanges of `FILL_BYTE`, lane 0 received first. -/
def recv4 (s : State) : Run Word :=
  andThen (exchange (fill4 s.env.params) s) fun bs s => .ok (wordOf bs) s

/-! ### Guards of the meanings -/

/-- An operation that begins a frame is permitted only when `CS = 0` (R144). -/
def whenFrameClosed (s : State) (t : State) : Result :=
  if s.wire.cs then .fault .frameOpen else .next t

/-- An operation with phases of its own, and a host request, begins only when `BUSY = 0` (R26, R246). -/
def whenIdle (s : State) (t : State) : Result :=
  if s.busy then .refused .busy else .next t

/-- As `whenIdle`, for a READ or WRITE request of `len` bytes at `addr`: "A request outside this range is outside the
block's contract: a model refuses it (no step, and the refusal is marked)" (R71; R246, U1, U2). -/
def whenAdmitted (addr : Addr) (len : Nat) (s : State) (t : State) : Result :=
  if s.busy then .refused .busy
  else if admitted addr len then .next t
  else .refused .notAdmitted

end Sys2Proof.Machine
end

