-- ==== Sys2Proof/Machine/Transport.lean ====
section
/-! DEFINITION. The transport operations (40_transport.md): the word frames, the two burst frames and the
opcode-only frame. -/

namespace Sys2Proof.Machine

/-! ### The frames as parts of an operation -/

/-- `WRITE_WORD(reg, value)` (R140). -/
def writeWord (reg : Addr) (value : Word) (s : State) : Run Unit :=
  thenDo (send (0x02 :: be16 reg ++ le32 value) (csAssert s)) csDeassert

/-- A read frame: the header sent, then four exchanges whose received bytes are the value (R141, R142). -/
def readFrame (header : List Byte) (s : State) : Run Word :=
  andThen (send header (csAssert s)) fun _ s =>
    andThen (recv4 s) fun v s => .ok v (csDeassert s)

/-- `SERIAL_READ_WORD(reg)` (R141). -/
def serialReadWord (reg : Addr) (s : State) : Run Word := readFrame (0x03 :: be16 reg) s

/-- `FAST_READ_WORD(reg)` (R142). -/
def fastReadWord (reg : Addr) (s : State) : Run Word :=
  readFrame (0x0B :: be16 reg ++ [s.env.params.dummyByte]) s

/-- `READ_WORD(reg)` (R143): which read opcode is the parameter `WORD_READ_OPCODE`. -/
def readWord (reg : Addr) (s : State) : Run Word :=
  match s.env.params.wordRead with
  | .fast => fastReadWord reg s
  | .serial => serialReadWord reg s

/-- The header of a burst frame (R145, R147). The burst read is always a fast read. -/
def burstHeader (dir : Dir) (p : Params) : List Byte :=
  match dir with
  | .wr => 0x02 :: be16 (fifoReg .wr)
  | .rd => 0x0B :: be16 (fifoReg .rd) ++ [p.dummyByte]

/-- `BURST_OPEN_WRITE()` and `BURST_OPEN_READ()` (R145, R147): chip-select stays asserted. -/
def burstOpen (dir : Dir) (s : State) : Run Unit :=
  thenDo (send (burstHeader dir s.env.params) (csAssert s)) fun s => { s with wire.burst := some dir }

/-- `BURST_PUSH(value)` (R146). -/
def burstPush (value : Word) (s : State) : Run Unit := send (le32 value) s

/-- `BURST_POP()` (R149). -/
def burstPop (s : State) : Run Word := recv4 s

/-- `BURST_CLOSE()` (R150). -/
def burstClose (s : State) : State := csDeassert s

/-- `RESET_SQI_FRAME()` (R151). -/
def resetSqiFrame (s : State) : Run Unit := thenDo (send [0xFF] (csAssert s)) csDeassert

/-- "The caller stores the result in `WORD`" (R141, R142, R149). -/
def storeWord (r : Run Word) : Run Unit := andThen r fun v s => .ok () (s.setWord v)

/-! ### The meanings -/

/-- `WRITE_WORD` (R140). -/
def execWriteWord (reg : Addr) (value : Word) (s : State) : Result :=
  whenFrameClosed s (finalState (writeWord reg value s))

/-- `SERIAL_READ_WORD` (R141). -/
def execSerialReadWord (reg : Addr) (s : State) : Result :=
  whenFrameClosed s (finalState (storeWord (serialReadWord reg s)))

/-- `FAST_READ_WORD` (R142). -/
def execFastReadWord (reg : Addr) (s : State) : Result :=
  whenFrameClosed s (finalState (storeWord (fastReadWord reg s)))

/-- `READ_WORD` (R143). -/
def execReadWord (reg : Addr) (s : State) : Result :=
  whenFrameClosed s (finalState (storeWord (readWord reg s)))

/-- A burst opened by itself keeps the block out of `IDLE`, where chip-select is de-asserted (R23), until
`BURST_CLOSE` (log 11). -/
def holdBurst (s : State) : State :=
  if s.seq.ph = .idle then s.enter .burst .pBWord else s

/-- `BURST_OPEN_WRITE` (R145). -/
def execBurstOpenWrite (s : State) : Result :=
  whenFrameClosed s (finalState (thenDo (burstOpen .wr s) holdBurst))

/-- `BURST_OPEN_READ` (R147). -/
def execBurstOpenRead (s : State) : Result :=
  whenFrameClosed s (finalState (thenDo (burstOpen .rd s) holdBurst))

/-- `BURST_PUSH`: inside a frame opened by `BURST_OPEN_WRITE` (R146). -/
def execBurstPush (value : Word) (s : State) : Result :=
  if s.wire.burst = some .wr then .next (finalState (burstPush value s)) else .fault .noWriteBurst

/-- `BURST_POP`: inside a frame opened by `BURST_OPEN_READ` (R149). -/
def execBurstPop (s : State) : Result :=
  if s.wire.burst = some .rd then .next (finalState (storeWord (burstPop s))) else .fault .noReadBurst

/-- The end of a burst opened by itself (log 11). -/
def releaseBurst (s : State) : State := if s.seq.caller = .burst then s.toIdle else s

/-- `BURST_CLOSE` (R150). -/
def execBurstClose (s : State) : Result := .next (releaseBurst (burstClose s))

/-- `RESET_SQI_FRAME` (R151). -/
def execResetSqiFrame (s : State) : Result := whenFrameClosed s (finalState (resetSqiFrame s))

end Sys2Proof.Machine
end

