-- ==== Sys2Proof/Machine/Words.lean ====
section
/-! DEFINITION. The command words and data words of 30_encoding.md sections 3 and 4. A word the block writes is put
on the wire, at the register its space names; a word the block reads is taken apart as its rule says (log 12). -/

namespace Sys2Proof.Machine

/-! ### Command words -/

/-- A CSR command, written to `CSR_CMD` (R110). -/
def sendCsrCmd (dir : Dir) (size : SizeCode) (addr : Addr) (s : State) : Run Unit :=
  writeWord csrCmdReg (csrCmdWord dir size addr) s

/-- A PRAM abort, written to the command register (R112). -/
def sendAbort (dir : Dir) (s : State) : Run Unit := writeWord (pramCmdReg dir) pramAbortWord s

/-- A PRAM start (R112). -/
def sendStart (dir : Dir) (s : State) : Run Unit := writeWord (pramCmdReg dir) pramStartWord s

/-- The address/length word, written to the address/length register (R114). -/
def sendAddrLen (dir : Dir) (len : BitVec 16) (addr : Addr) (s : State) : Run Unit :=
  writeWord (addrLenReg dir) (addrLenWord len addr) s

/-- `CSRCMD.READ`. -/
def execCsrcmdRead (size : SizeCode) (addr : Addr) (s : State) : Result :=
  whenFrameClosed s (finalState (sendCsrCmd .rd size addr s))

/-- `CSRCMD.WRITE`. -/
def execCsrcmdWrite (size : SizeCode) (addr : Addr) (s : State) : Result :=
  whenFrameClosed s (finalState (sendCsrCmd .wr size addr s))

/-- `PRAMCMD.ABORT`. -/
def execPramcmdAbort (dir : Dir) (s : State) : Result :=
  whenFrameClosed s (finalState (sendAbort dir s))

/-- `PRAMCMD.START`. -/
def execPramcmdStart (dir : Dir) (s : State) : Result :=
  whenFrameClosed s (finalState (sendStart dir s))

/-- `PRAM_ADDRLEN`. -/
def execPramAddrlen (dir : Dir) (len : BitVec 16) (addr : Addr) (s : State) : Result :=
  whenFrameClosed s (finalState (sendAddrLen dir len addr s))

/-! ### Status words -/

/-- What the availability poll keeps of a status word that shows the FIFO available: its count (R161, R46). -/
def loadFifoCnt (v : Word) (s : State) : State := if availBit v then s.setFifoCnt (countField v) else s

/-- `PRAM_STATUS`: a word read from a PRAM command register, examined as the availability poll does (R113, R161;
log 13). The flags themselves are stored nowhere (R36). -/
def execPramStatus (_dir : Dir) (v : Word) (s : State) : Result := .next (loadFifoCnt v (s.setWord v))

/-- `CSR_STATUS`: a word read from `CSR_CMD`. The block examines bit 31 and stores no flag (R36, R113). -/
def execCsrStatus (v : Word) (s : State) : Result := .next (s.setWord v)

/-! ### Data words -/

/-- The data word of a CSR write: into `WORD`, then to `CSR_DATA` (R115, R172). -/
def sendCsrData (v : Word) (s : State) : Run Unit := writeWord csrDataReg v (s.setWord v)

/-- The data word of a CSR read of `n` bytes: lanes `0 .. n - 1` are the result (R115, R171). -/
def takeCsrData (n : Nat) (v : Word) (s : State) : State := (s.setWord v).setRes (lanes 0 n v)

/-- `CSR_DATA_WORD`. -/
def execCsrDataWord (dir : Dir) (size : SizeCode) (v : Word) (s : State) : Result :=
  match dir with
  | .wr => whenFrameClosed s (finalState (sendCsrData v s))
  | .rd => .next (takeCsrData (sizeBytes size) v s)

/-- The first FIFO word of a write, in a word frame (R116, R185, R186). -/
def sendFirstWord (v : Word) (s : State) : Run Unit :=
  thenDo (writeWord (fifoReg .wr) v (s.setWord v)) State.countDown

/-- The first FIFO word of a read: lanes `fbp .. fbp + n0 - 1` are the first bytes of the result (R116, R184, R186). -/
def takeFirstWord (fbp : BitVec 2) (n0 : Nat) (v : Word) (s : State) : State :=
  ((s.setWord v).countDown).setRes (lanes fbp.toNat n0 v)

/-- `PRAM_FIRST_WORD`. -/
def execPramFirstWord (dir : Dir) (fbp : BitVec 2) (n0 : Nat) (v : Word) (s : State) : Result :=
  match dir with
  | .wr => whenFrameClosed s (finalState (sendFirstWord v s))
  | .rd => .next (takeFirstWord fbp n0 v s)

/-- A later FIFO word of a write, inside the open burst (R117, R185, R186). -/
def sendNextWord (v : Word) (s : State) : Run Unit :=
  thenDo (burstPush v (s.setWord v)) State.countDown

/-- A later FIFO word of a read: lanes `0 .. t - 1` follow the bytes already there (R117, R184, R186). -/
def takeNextWord (t : Nat) (v : Word) (s : State) : State :=
  ((s.setWord v).countDown).setRes (s.buf.res ++ lanes 0 t v)

/-- `PRAM_NEXT_WORD`. -/
def execPramNextWord (dir : Dir) (t : Nat) (v : Word) (s : State) : Result :=
  match dir with
  | .wr =>
    if s.wire.burst = some .wr then .next (finalState (sendNextWord v s)) else .fault .noWriteBurst
  | .rd => .next (takeNextWord t v s)

end Sys2Proof.Machine
end

