-- ==== Sys2Proof/Machine/Poller.lean ====
section
/-! DEFINITION. The status register poller (41_poller.md). One step is one iteration of the loop: one whole read frame
and the test (R164), so a loop whose test never succeeds is an unbounded run of steps (R240). -/

namespace Sys2Proof.Machine

/-- `POLLS <- 0`, at the start of a poll loop (R162). -/
def beginPoll (p : Phase) (s : State) : State := (s.setPolls 0).toPhase p

/-- One iteration of `POLL(reg, ready)` (R162): read, count, test, and only then the limit. The value says whether the
loop is over. A poll for the FIFO keeps the count of the word that was ready (R161). -/
def pollOnce (kind : PollKind) (reg : Addr) (s : State) : Run Bool :=
  andThen (readWord reg s) fun v s =>
    let s := (s.setWord v).setPolls (s.work.polls + 1)
    if pollReady kind v then .ok true (if kind = .fifoAvail then loadFifoCnt v s else s)
    else if limitReached s.env.params s.work.polls then .stop (raise .deviceUnresponsive s)
    else .ok false s

/-- A visit to a polling phase: `done` when the loop is over, else the phase stays (R33). -/
def visitPoll (kind : PollKind) (reg : Addr) (done : State → State) (s : State) : Run Unit :=
  andThen (pollOnce kind reg s) fun ended s => .ok () (if ended then done s else s)

/-- The phase a poll entered by itself runs in (log 28). -/
def pollPhase (kind : PollKind) (reg : Addr) : Phase :=
  match kind with
  | .busyClear => if reg = csrCmdReg then .cPoll else .pPollBusy
  | .fifoAvail => .pPollAvail
  | .equal _ => .iPoll

/-- A poll operation entered by itself: its loop begins with its first read. -/
def enterPoll (kind : PollKind) (reg : Addr) (s : State) : Run Unit :=
  visitPoll kind reg State.toIdle ((s.enter (.poll kind reg) (pollPhase kind reg)).setPolls 0)

/-- `POLL_BUSY_CLEAR` (R160). -/
def execPollBusyClear (reg : Addr) (s : State) : Result :=
  whenIdle s (finalState (enterPoll .busyClear reg s))

/-- `POLL_FIFO_AVAIL` (R161). -/
def execPollFifoAvail (reg : Addr) (s : State) : Result :=
  whenIdle s (finalState (enterPoll .fifoAvail reg s))

/-- `POLL_EQUAL` (R163). -/
def execPollEqual (reg : Addr) (expected : Word) (s : State) : Result :=
  whenIdle s (finalState (enterPoll (.equal expected) reg s))

end Sys2Proof.Machine
end

