-- ==== Sys2Proof/Machine/Csr.lean ====
section
/-! DEFINITION. The CSR accessor (42_csr.md): its phases `C_DATA`, `C_CMD`, `C_POLL`, `C_FETCH` (10_state.md R33) and
its return to the caller. -/

namespace Sys2Proof.Machine

/-! ### The operands of the CSR access in progress

They are the caller's: the refresh reads 2 bytes at `AL_EVENT_ADDR` (R206), an access entered by itself has its own,
and the router's chunk is `SIZE` bytes at `ADDR` (R203, R204; log 26). -/

/-- Read or write. -/
def csrDir (s : State) : Dir :=
  if s.seq.refresh then .rd
  else
    match s.seq.caller with
    | .csrRead _ _ => .rd
    | .csrWrite _ _ => .wr
    | _ => if s.latch.op = .write then .wr else .rd

/-- The ESC address. -/
def csrAddr (s : State) : Addr :=
  if s.seq.refresh then s.env.params.alEventAddr
  else
    match s.seq.caller with
    | .csrRead a _ => a
    | .csrWrite a _ => a
    | _ => s.work.addr

/-- The length `n`. -/
def csrLen (s : State) : Nat :=
  if s.seq.refresh then 2
  else
    match s.seq.caller with
    | .csrRead _ n => n
    | .csrWrite _ data => data.length
    | _ => s.work.size.toNat

/-- The bytes to store. -/
def csrBytes (s : State) : List Byte :=
  match s.seq.caller with
  | .csrWrite _ data => data
  | _ => (s.buf.wbuf.drop s.work.cur.toNat).take s.work.size.toNat

/-! ### The return -/

/-- The mirror from the two bytes read (R206): the byte at `AL_EVENT_ADDR` is bits 7:0. -/
def mirrorOf (b : List Byte) : BitVec 16 := addrOf (b.getD 1 0) (b.getD 0 0)

/-- The router after a chunk (R203, R204): the bytes of a READ into `RBUF`, then the cursors advanced by `SIZE`. -/
def chunkDone (s : State) : State :=
  let s := if s.latch.op = .read then s.putRbuf s.work.cur.toNat s.buf.res else s
  { s with
    work.addr := s.work.addr + s.work.size.zeroExtend 16
    work.cur := s.work.cur + s.work.size.zeroExtend 16
    work.rem := s.work.rem - s.work.size.zeroExtend 16
    seq.ph := .rChunk }

/-- The end of the refresh (R206): the mirror written in one update, and with it the end of the READ or WRITE. -/
def refreshDone (s : State) : State :=
  let s := s.setAlEvent (mirrorOf s.buf.res)
  match s.seq.caller with
  | .host => finish s
  | _ => s.toIdle

/-- Back to the caller (R33, rows `C_POLL` and `C_FETCH`). -/
def csrReturn (s : State) : State :=
  if s.seq.refresh then refreshDone s
  else
    match s.seq.caller with
    | .host => chunkDone s
    | _ => s.toIdle

/-! ### The phases -/

/-- The entry of `CSR_READ` and `CSR_WRITE` (R170): a length other than 1, 2 or 4 is a fault before any frame. -/
def enterCsr (s : State) : Run Unit :=
  match sizeCodeOf (csrLen s) with
  | none => .stop (raise .invalidLength s)
  | some _ => .ok () (s.toPhase (if csrDir s = .wr then .cData else .cCmd))

/-- `C_DATA`: the payload into `CSR_DATA` (R172). -/
def visitCData (s : State) : Run Unit :=
  thenDo (sendCsrData (packAt 0 (csrBytes s)) s) (State.toPhase .cCmd)

/-- `C_CMD`: the command into `CSR_CMD` (R171, R172). The length was checked at the entry. -/
def visitCCmd (s : State) : Run Unit :=
  match sizeCodeOf (csrLen s) with
  | none => .stop (raise .invalidLength s)
  | some size => thenDo (sendCsrCmd (csrDir s) size (csrAddr s) s) (beginPoll .cPoll)

/-- When `C_POLL` has seen busy clear: the data fetch of a read, or the end of a write (R171, R172). -/
def csrReady (s : State) : State :=
  if csrDir s = .rd then s.toPhase .cFetch else csrReturn s

/-- `C_POLL`. -/
def visitCPoll (s : State) : Run Unit := visitPoll .busyClear csrCmdReg csrReady s

/-- `C_FETCH`: the low lanes of `CSR_DATA` are the result (R171). -/
def visitCFetch (s : State) : Run Unit :=
  andThen (readWord csrDataReg s) fun v s => .ok () (csrReturn (takeCsrData (csrLen s) v s))

/-! ### The meanings -/

/-- `CSR_READ` (R171): the length check and the command frame; the later phases follow step by step. -/
def execCsrRead (addr : Addr) (n : Nat) (s : State) : Result :=
  whenIdle s (finalState
    (andThen (enterCsr (s.enter (.csrRead addr n) .cCmd)) fun _ s => visitCCmd s))

/-- `CSR_WRITE` (R172): the length check and the data frame; the later phases follow step by step. -/
def execCsrWrite (addr : Addr) (data : List Byte) (s : State) : Result :=
  whenIdle s (finalState
    (andThen (enterCsr (s.enter (.csrWrite addr data) .cData)) fun _ s => visitCData s))

end Sys2Proof.Machine
end

