-- ==== Sys2Proof/Machine/Pram.lean ====
section
/-! DEFINITION. The PRAM accessor (43_pram.md): its phases `P_ABORT` to `P_BCLOSE` (10_state.md R33). -/

namespace Sys2Proof.Machine

/-! ### The operands of the PRAM access in progress: the caller's own, or the request's (R203, R204) -/

/-- Read or write. -/
def pramDir (s : State) : Dir :=
  match s.seq.caller with
  | .pramSetup d _ _ => d
  | .pramRead _ _ => .rd
  | .pramWrite _ _ => .wr
  | _ => if s.latch.op = .write then .wr else .rd

/-- The ESC address. -/
def pramAddr (s : State) : Addr :=
  match s.seq.caller with
  | .pramSetup _ a _ => a
  | .pramRead a _ => a
  | .pramWrite a _ => a
  | _ => s.latch.reqAddr

/-- The length. -/
def pramLen (s : State) : BitVec 16 :=
  match s.seq.caller with
  | .pramSetup _ _ len => len
  | .pramRead _ len => len
  | .pramWrite _ data => pramWriteLen data.length
  | _ => s.latch.reqLen

/-- The bytes to store. -/
def pramBytes (s : State) : List Byte :=
  match s.seq.caller with
  | .pramWrite _ data => data
  | _ => s.buf.wbuf

/-! ### The phases -/

/-- `P_ABORT` (R181). -/
def visitPAbort (s : State) : Run Unit := thenDo (sendAbort (pramDir s) s) (beginPoll .pPollBusy)

/-- `P_POLLBUSY` (R181). -/
def visitPPollBusy (s : State) : Run Unit :=
  visitPoll .busyClear (pramCmdReg (pramDir s)) (State.toPhase .pAddrLen) s

/-- `P_ADDRLEN` (R181). -/
def visitPAddrLen (s : State) : Run Unit :=
  thenDo (sendAddrLen (pramDir s) (pramLen s) (pramAddr s) s) (State.toPhase .pStart)

/-- `P_START` (R181). -/
def visitPStart (s : State) : Run Unit := thenDo (sendStart (pramDir s) s) (beginPoll .pPollAvail)

/-- The end of `PRAM_SETUP`: the first word, unless it was the setup alone that was entered. -/
def setupDone (s : State) : State :=
  match s.seq.caller with
  | .pramSetup _ _ _ => s.toIdle
  | _ => s.toPhase .pFirst

/-- `P_POLLAVAIL` (R181). -/
def visitPPollAvail (s : State) : Run Unit :=
  visitPoll .fifoAvail (pramCmdReg (pramDir s)) setupDone s

/-- `CUR <- n0 ; REM <- len - n0`, then the burst (R184, R185). -/
def firstDone (n0 : Nat) (s : State) : State :=
  { s with
    work.cur := BitVec.ofNat 16 n0
    work.rem := pramLen s - BitVec.ofNat 16 n0
    seq.ph := .pBOpen }

/-- `P_FIRST`: `FBP`, `n0` and the first FIFO word, in a word frame (R183, R184, R185). -/
def visitPFirst (s : State) : Run Unit :=
  let fbp := firstBytePos (pramAddr s)
  let n0 := firstCount (pramAddr s) (pramLen s).toNat
  let s := { s with work.fbp := fbp }
  match pramDir s with
  | .rd =>
    andThen (readWord (fifoReg .rd) s) fun v s => .ok () (firstDone n0 (takeFirstWord fbp n0 v s))
  | .wr => thenDo (sendFirstWord (packAt fbp.toNat ((pramBytes s).take n0)) s) (firstDone n0)

/-- The loop test of the burst, `while REM > 0` (R184, R185). -/
def burstNext (s : State) : State := s.toPhase (if s.work.rem = 0 then .pBClose else .pBWord)

/-- `P_BOPEN` (R184, R185). -/
def visitPBOpen (s : State) : Run Unit := thenDo (burstOpen (pramDir s) s) burstNext

/-- `CUR <- CUR + t ; REM <- REM - t` (R184, R185). -/
def wordDone (t : Nat) (s : State) : State :=
  burstNext
    { s with
      work.cur := s.work.cur + BitVec.ofNat 16 t
      work.rem := s.work.rem - BitVec.ofNat 16 t }

/-- `P_BWORD`: one word of the burst, `t = min(4, REM)` of its lanes carrying payload (R184, R185). -/
def visitPBWord (s : State) : Run Unit :=
  let t := min 4 s.work.rem.toNat
  match pramDir s with
  | .rd => andThen (burstPop s) fun v s => .ok () (wordDone t (takeNextWord t v s))
  | .wr =>
    thenDo (sendNextWord (packAt 0 (((pramBytes s).drop s.work.cur.toNat).take t)) s) (wordDone t)

/-- Back to the caller: the router takes the bytes of a READ and goes on to the refresh (R203, R204). -/
def pramReturn (s : State) : State :=
  match s.seq.caller with
  | .host => (if s.latch.op = .read then s.putRbuf 0 s.buf.res else s).toPhase .rAlev
  | _ => s.toIdle

/-- `P_BCLOSE` (R184, R185). -/
def visitPBClose (s : State) : Run Unit := .ok () (pramReturn (burstClose s))

/-! ### The meanings: the abort frame; the later phases follow step by step

The accessor makes no range check of its own: R181, R184 and R185 give every 16-bit address and length an effect, and
R71 refuses requests only. DEDUCED (log 34) for a length of 0 and for a range past 0xFFFF. -/

/-- `PRAM_SETUP` (R181). -/
def execPramSetup (dir : Dir) (addr : Addr) (len : BitVec 16) (s : State) : Result :=
  whenIdle s (finalState (visitPAbort (s.enter (.pramSetup dir addr len) .pAbort)))

/-- `PRAM_READ` (R184). -/
def execPramRead (addr : Addr) (len : BitVec 16) (s : State) : Result :=
  whenIdle s (finalState (visitPAbort (s.enter (.pramRead addr len) .pAbort)))

/-- `PRAM_WRITE` (R185). -/
def execPramWrite (addr : Addr) (data : List Byte) (s : State) : Result :=
  whenIdle s (finalState (visitPAbort (s.enter (.pramWrite addr data) .pAbort)))

end Sys2Proof.Machine
end

