-- ==== Sys2Proof/Machine/Router.lean ====
section
/-! DEFINITION. The address decoder and router (44_router.md): READ, WRITE, CHUNK, AL_REFRESH, and the phases
`R_DISPATCH`, `R_CHUNK`, `R_ALEV` (10_state.md R33). -/

namespace Sys2Proof.Machine

/-- Acceptance of a host request (R25, R26): the latch is written and the event `REQ` emitted. -/
def acceptRequest (op : HostOp) (addr : Addr) (len : BitVec 16) (wdata : List Byte) (s : State) : State :=
  { s with
    latch := ⟨op, addr, len⟩
    trace := s.trace ++ [.req op addr len wdata] }

/-- `R_DISPATCH` (R200, R203, R204): the comparison, once, on the first address. -/
def visitRDispatch (s : State) : Run Unit :=
  if isPram s.latch.reqAddr then .ok () (s.toPhase .pAbort)
  else
    .ok ()
      { s with
        work.addr := s.latch.reqAddr
        work.cur := 0
        work.rem := s.latch.reqLen
        seq.ph := .rChunk }

/-- `R_CHUNK` (R201, R203, R204): the next chunk, or the refresh when nothing remains. -/
def visitRChunk (s : State) : Run Unit :=
  if s.work.rem = 0 then .ok () (s.toPhase .rAlev)
  else enterCsr (s.setSize (chunkSize s.work.addr s.work.rem))

/-- `R_ALEV`: `CSR_READ(AL_EVENT_ADDR, 2)` begins (R206); its phases follow, and `refreshDone` ends it (log 25). -/
def visitRAlev (s : State) : Run Unit := enterCsr { s with seq.refresh := true }

/-- `READ` (R203): the request is accepted; `R_DISPATCH` follows. -/
def execRead (addr : Addr) (len : BitVec 16) (s : State) : Result :=
  whenAdmitted addr len.toNat s ((acceptRequest .read addr len [] s).enter .host .rDispatch)

/-- `WRITE` (R204): the request is accepted with its data in `WBUF` (R27); `R_DISPATCH` follows. -/
def execWrite (addr : Addr) (data : List Byte) (s : State) : Result :=
  whenAdmitted addr data.length s
    ((acceptRequest .write addr (BitVec.ofNat 16 data.length) data { s with buf.wbuf := data }).enter
      .host .rDispatch)

/-- `CHUNK` (R201): "The result is written to `SIZE`." DESIGN CHOICE (log 33): R201 gives a size for `rem >= 1` only;
entered by itself with `rem = 0` the operation runs and leaves a free value in `SIZE`. The router never asks for it
(`visitRChunk`). -/
def execChunk (a : Addr) (rem : BitVec 16) (s : State) : Result :=
  .next (s.setSize (if rem = 0 then Config.chunkOfNothing a else chunkSize a rem))

/-- `AL_REFRESH` (R206) entered by itself: the command frame; the later phases follow step by step. -/
def execAlRefresh (s : State) : Result :=
  whenIdle s (finalState
    (andThen (visitRAlev (s.enter .alRefresh .rAlev)) fun _ s => visitCCmd s))

end Sys2Proof.Machine
end

