-- ==== Sys2Proof/Machine/System.lean ====
section
/-! DEFINITION. The system operations INIT and RESET (45_system.md), and the phases `I_SQI`, `I_RESET`, `I_POLL`. -/

namespace Sys2Proof.Machine

/-- Acceptance of a request without operands: `OP` is latched; address and length mean nothing in it and stay
(R25, R26; log 14). -/
def acceptBare (op : HostOp) (s : State) : State :=
  { s with
    latch.op := op
    trace := s.trace ++ [.req op 0 0 []] }

/-- `I_SQI` (R220). -/
def visitISqi (s : State) : Run Unit := thenDo (resetSqiFrame s) (State.toPhase .iReset)

/-- `I_RESET` (R220). -/
def visitIReset (s : State) : Run Unit :=
  thenDo (writeWord resetCtlReg s.env.params.resetCtlValue s) (beginPoll .iPoll)

/-- `I_POLL` (R220). -/
def visitIPoll (s : State) : Run Unit :=
  visitPoll (.equal s.env.params.byteTestExpected) byteTestReg finish s

/-- `INIT` (R220): accepted; `I_SQI` or `I_RESET` follows (R33, row `IDLE`). -/
def execInit (s : State) : Result :=
  whenIdle s ((acceptBare .init s).enter .host (if s.env.params.initSendResetSqi then .iSqi else .iReset))

/-- `RESET` (R221): a no-op placeholder that completes at once. -/
def execReset (s : State) : Result := whenIdle s (finish (acceptBare .reset s))

end Sys2Proof.Machine
end

