-- ==== Sys2Proof/Machine/Sequencer.lean ====
section
/-! DEFINITION. The sequencer (10_state.md R32, R33): what one visit to each phase does, and how an idle block takes
the next thing presented. -/

namespace Sys2Proof.Machine

/-- A visit to the phase of a host operation or of an accessor (R33): at most one frame, and the successor. -/
def visitPhase (s : State) : Run Unit :=
  match s.seq.ph with
  | .idle => .ok () s
  | .rDispatch => visitRDispatch s
  | .rChunk => visitRChunk s
  | .cData => visitCData s
  | .cCmd => visitCCmd s
  | .cPoll => visitCPoll s
  | .cFetch => visitCFetch s
  | .pAbort => visitPAbort s
  | .pPollBusy => visitPPollBusy s
  | .pAddrLen => visitPAddrLen s
  | .pStart => visitPStart s
  | .pPollAvail => visitPPollAvail s
  | .pFirst => visitPFirst s
  | .pBOpen => visitPBOpen s
  | .pBWord => visitPBWord s
  | .pBClose => visitPBClose s
  | .rAlev => visitRAlev s
  | .iSqi => visitISqi s
  | .iReset => visitIReset s
  | .iPoll => visitIPoll s

/-- A visit to the current phase; a poll entered by itself goes on with its own test and register (log 28). -/
def visit (s : State) : Run Unit :=
  match s.seq.caller with
  | .poll kind reg => visitPoll kind reg State.toIdle s
  | _ => visitPhase s

/-- Whether the block takes what is presented next: when idle (R26), and between the words of a burst that was
opened by itself (log 11). -/
def State.accepting (s : State) : Bool :=
  decide (s.seq.ph = .idle) || decide (s.seq.caller = .burst)

/-- The state with the first presented token taken. -/
def State.consume (rest : List Token) (s : State) : State := { s with env.inputs := rest }

/-- Present exactly the opcode-table word `w` to an idle block, with no reset pending (log 17). -/
def presentTableWord (nbits w : Nat) (s : State) : State :=
  let s := if s.accepting then s else { s.toIdle with wire := Wire.idle }
  { s with
    env.inputs := [tableToken nbits w]
    env.resetIn := .off }

end Sys2Proof.Machine
end

