-- ==== Sys2Proof/Machine/Dispatch.lean ====
section
/-! DEFINITION. One arm per operation of spec/opcode_table.json. -/

namespace Sys2Proof.Machine

def exec (i : Instr) (s : State) : Host.Outcome State Fault Refusal :=
  match i with
  | .writeWord reg value => Sys2Proof.Machine.execWriteWord reg value s
  | .serialReadWord reg => Sys2Proof.Machine.execSerialReadWord reg s
  | .fastReadWord reg => Sys2Proof.Machine.execFastReadWord reg s
  | .readWord reg => Sys2Proof.Machine.execReadWord reg s
  | .burstOpenWrite => Sys2Proof.Machine.execBurstOpenWrite s
  | .burstPush value => Sys2Proof.Machine.execBurstPush value s
  | .burstOpenRead => Sys2Proof.Machine.execBurstOpenRead s
  | .burstPop => Sys2Proof.Machine.execBurstPop s
  | .burstClose => Sys2Proof.Machine.execBurstClose s
  | .resetSqiFrame => Sys2Proof.Machine.execResetSqiFrame s
  | .csrcmdRead size addr => Sys2Proof.Machine.execCsrcmdRead size addr s
  | .csrcmdWrite size addr => Sys2Proof.Machine.execCsrcmdWrite size addr s
  | .pramcmdAbort dir => Sys2Proof.Machine.execPramcmdAbort dir s
  | .pramcmdStart dir => Sys2Proof.Machine.execPramcmdStart dir s
  | .pramAddrlen dir len addr => Sys2Proof.Machine.execPramAddrlen dir len addr s
  | .pramStatus dir v => Sys2Proof.Machine.execPramStatus dir v s
  | .csrStatus v => Sys2Proof.Machine.execCsrStatus v s
  | .csrDataWord dir size v => Sys2Proof.Machine.execCsrDataWord dir size v s
  | .pramFirstWord dir fbp n0 v => Sys2Proof.Machine.execPramFirstWord dir fbp n0 v s
  | .pramNextWord dir t v => Sys2Proof.Machine.execPramNextWord dir t v s
  | .init => Sys2Proof.Machine.execInit s
  | .reset => Sys2Proof.Machine.execReset s
  | .read addr len => Sys2Proof.Machine.execRead addr len s
  | .write addr data => Sys2Proof.Machine.execWrite addr data s
  | .pollBusyClear reg => Sys2Proof.Machine.execPollBusyClear reg s
  | .pollFifoAvail reg => Sys2Proof.Machine.execPollFifoAvail reg s
  | .pollEqual reg expected => Sys2Proof.Machine.execPollEqual reg expected s
  | .csrRead addr n => Sys2Proof.Machine.execCsrRead addr n s
  | .csrWrite addr data => Sys2Proof.Machine.execCsrWrite addr data s
  | .pramSetup dir addr len => Sys2Proof.Machine.execPramSetup dir addr len s
  | .pramRead addr len => Sys2Proof.Machine.execPramRead addr len s
  | .pramWrite addr data => Sys2Proof.Machine.execPramWrite addr data s
  | .chunk a rem => Sys2Proof.Machine.execChunk a rem s
  | .alRefresh => Sys2Proof.Machine.execAlRefresh s

end Sys2Proof.Machine
end

