-- ==== Sys2Proof/Machine/Step.lean ====
section
/-! DEFINITION. One step of the machine: the reset input first (R260); then, in an operation, one visit to the current
phase (R33); else the next token the host presents is decoded and run, and with none presented nothing happens
(R235; log 15). -/

namespace Sys2Proof.Machine

def step (s : State) : Host.Outcome State Fault Refusal :=
  if s.env.resetIn = .now then .next (blockReset s)
  else if s.accepting then
    match s.env.inputs with
    | [] => .next s
    | token :: rest =>
      match decodeToken token with
      | .error why => .refused (.undecodable why)
      | .ok i => exec i (s.consume rest)
  else .next (finalState (visit s))

/-- `s` with the instruction of an opcode-table word presented, so that the very next step runs it (log 17). -/
def State.withFetchWord (s : State) (nbits w : Nat) : State := presentTableWord nbits w s

end Sys2Proof.Machine
end

