-- ==== Sys2Proof/Safety.lean ====
section
/-! DEFINITION. What the claims are stated in terms of: the frames a peripheral's answers produce, the invariants of
the machine, the successors of a phase, and the chunk list of a request. -/

namespace Sys2Proof.Machine

/-! ### Frames and answers -/

/-- The exchanges of `tx` answered by `rx`, in order (R12). -/
def exchanged (tx rx : List Byte) : List Event := List.zipWith Event.xfer tx rx

/-- A whole frame: chip-select asserted, the exchanges, chip-select de-asserted (R107, R144). -/
def wholeFrame (tx rx : List Byte) : List Event := .csAssert :: exchanged tx rx ++ [.csDeassert]

/-- The environment's next answers are the bytes `rx`, then `rest`. -/
def Answers (rx : List Byte) (rest : List Reply) (s : State) : Prop :=
  s.env.script = rx.map Reply.byte ++ rest

/-- The block's port is between frames and its peripheral is an open one: its answers are the environment's alone.
A claim about the block under this premise, for every script, is a claim for every peripheral (R38). -/
def PortReady (s : State) : Prop := s.wire = Wire.idle ∧ s.env.sim = none

/-- No bus fault and no block reset can strike at an exchange (R30, R260). -/
def Calm (s : State) : Prop := s.env.params.busCanFault = false ∧ Reply.reset ∉ s.env.script

/-- `s` after events that used up the script down to `rest`. -/
def afterEvents (rest : List Reply) (evs : List Event) (s : State) : State :=
  { s with
    env.script := rest
    trace := s.trace ++ evs }

/-- `s` inside a frame of which `tx` was sent and answered by `rx` and the exchange of the byte `bad` has faulted
(R231). -/
def insideCut (rest : List Reply) (tx rx : List Byte) (bad : Byte) (s : State) : State :=
  { s with
    wire.cs := true
    env.script := rest
    trace := s.trace ++ (Event.csAssert :: exchanged tx rx ++ [Event.xferFault bad]) }

/-- The bytes `READ_WORD reg` sends under the parameters `p` (R103, R104, R143). -/
def readTx (p : Params) (reg : Addr) : List Byte :=
  match p.wordRead with
  | .fast =>
    [0x0B, reg.extractLsb' 8 8, reg.extractLsb' 0 8, p.dummyByte, p.fillByte, p.fillByte, p.fillByte, p.fillByte]
  | .serial =>
    [0x03, reg.extractLsb' 8 8, reg.extractLsb' 0 8, p.fillByte, p.fillByte, p.fillByte, p.fillByte]

/-- How many bytes of a `READ_WORD` frame come before its data (R103, R104). -/
def readSkip (p : Params) : Nat :=
  match p.wordRead with
  | .fast => 4
  | .serial => 3

/-- The bytes `WRITE_WORD reg, v` sends (R102). -/
def writeTx (reg : Addr) (v : Word) : List Byte :=
  [0x02, reg.extractLsb' 8 8, reg.extractLsb' 0 8,
    v.extractLsb' 0 8, v.extractLsb' 8 8, v.extractLsb' 16 8, v.extractLsb' 24 8]

/-- One answered read of a register: what came back during the header, and the value that followed. -/
structure Reading where
  skipped : List Byte
  value : Word
  deriving DecidableEq, Repr

/-- The bytes received in the frame of a reading. -/
def Reading.rx (r : Reading) : List Byte :=
  r.skipped ++ [r.value.extractLsb' 0 8, r.value.extractLsb' 8 8, r.value.extractLsb' 16 8, r.value.extractLsb' 24 8]

/-- Readings whose frames have the length of a `READ_WORD` frame. -/
def Fitting (p : Params) (rs : List Reading) : Prop := ∀ r ∈ rs, r.skipped.length = readSkip p

/-- The bytes received in the frames of several readings. -/
def readingsRx (rs : List Reading) : List Byte := rs.flatMap Reading.rx

/-- The events of reading `reg` several times. -/
def readingFrames (p : Params) (reg : Addr) (rs : List Reading) : List Event :=
  rs.flatMap fun r => wholeFrame (readTx p reg) r.rx

/-- The limit of the poll loops admits `n` reads that are not ready and a further one (R162). -/
def LimitAllows (p : Params) (n : Nat) : Prop := ∀ limit, p.pollLimit = some limit → n < limit

/-! ### Invariants -/

/-- The reference peripheral's memory and registers are in canonical form. -/
def SimWf (e : SimEsc) : Prop := Memory.wf e.mem ∧ SparseWf e.reg

/-- The invariant of the machine. Between steps chip-select is asserted exactly inside an open burst (R23, R144), which
is there only in the burst phases; an idle block has nothing in progress (R23); a burst opened by itself is open; a
non-zero `STATUS` has been seen (R22, R236); the reference peripheral is in canonical form. -/
def BlockInv (s : State) : Prop :=
  s.wire.cs = s.wire.burst.isSome ∧
  (s.wire.cs = true → s.seq.ph = .pBWord ∨ s.seq.ph = .pBClose) ∧
  (s.seq.ph = .idle → s.seq.caller = .nobody ∧ s.seq.refresh = false) ∧
  (s.seq.caller = .burst → s.seq.ph = .pBWord ∧ s.wire.cs = true) ∧
  (s.vis.status ≠ 0 → s.vis.faultSeen = true) ∧
  (∀ e, s.env.sim = some e → SimWf e)

/-- What the last poll has shown, where the sequencer relies on it (R74, R181, R264): the command register not busy
before the address/length word, the start word and the CSR data fetch; the FIFO available before its first word. A poll
entered by itself stays in its polling phase (log 28). -/
def PollInv (s : State) : Prop :=
  (s.seq.ph = .pAddrLen ∨ s.seq.ph = .pStart → s.work.word.getLsbD 31 = false) ∧
  (s.seq.ph = .cFetch → s.work.word.getLsbD 31 = false) ∧
  (s.seq.ph = .pFirst → s.work.word.getLsbD 0 = true) ∧
  (∀ kind reg, s.seq.caller = .poll kind reg → s.seq.ph = pollPhase kind reg)

/-! ### Runs and whole-frame operations -/

/-- `k` further steps. -/
def stepN (k : Nat) (s : State) : Result := Host.Core.run core k s

/-- Nothing in progress (R32). -/
abbrev Seq.atRest : Seq := ⟨.idle, .nobody, false⟩

/-- The block is between operations: idle, its wire between frames, no reset applied. -/
def Resting (s : State) : Prop := s.seq.ph = .idle ∧ s.wire = Wire.idle ∧ s.env.resetIn = .off

/-- `t` is what block reset makes of `s` after the events `evs` (R260, R262): every register of the block at its reset
value, which for the latch, the working registers and the buffers is a value the model chose (log 5), and for
`AL_EVENT` a free one (log 4); parameters and presented requests kept. -/
def IsResetOf (s t : State) (evs : List Event) : Prop :=
  t.trace = s.trace ++ evs ∧ t.seq = State.reset.seq ∧ t.wire = Wire.idle ∧ t.vis = ⟨t.vis.alEvent, 0, false⟩ ∧
    t.latch = State.reset.latch ∧ t.work = State.reset.work ∧ t.buf = State.reset.buf ∧ t.env.resetIn = .off ∧
    t.env.params = s.env.params ∧ t.env.inputs = s.env.inputs

/-- The word `v` does not end the loop of a poll (R160, R161, R163). -/
def staysIn (kind : PollKind) (v : Word) : Prop :=
  match kind with
  | .busyClear => v.getLsbD 31 = true
  | .fifoAvail => v.getLsbD 0 = false
  | .equal expected => v ≠ expected

/-- The block is in the loop of the poll `kind` of `reg`: in a polling phase of R33 on behalf of an operation, whose
direction gives the PRAM command register (R180), or in a poll entered by itself (log 28). -/
def InPoll (kind : PollKind) (reg : Addr) (s : State) : Prop :=
  (s.seq.caller = .poll kind reg ∧ s.seq.ph ≠ .idle) ∨
  ((∀ k r, s.seq.caller ≠ .poll k r) ∧ s.seq.caller ≠ .burst ∧
    ((s.seq.ph = .cPoll ∧ kind = .busyClear ∧ reg = 0x304) ∨
      (s.seq.ph = .pPollBusy ∧ kind = .busyClear ∧ reg = (if pramDir s = .rd then 0x30C else 0x314)) ∨
      (s.seq.ph = .pPollAvail ∧ kind = .fifoAvail ∧ reg = (if pramDir s = .rd then 0x30C else 0x314)) ∨
      (s.seq.ph = .iPoll ∧ kind = .equal s.env.params.byteTestExpected ∧ reg = 0x064)))

/-- The bytes sent by an operation that is one whole frame and nothing else (R102 to R105, R110, R112, R114). -/
def frameTx (p : Params) : Instr → Option (List Byte)
  | .writeWord reg v => some (writeTx reg v)
  | .serialReadWord reg => some
      [0x03, reg.extractLsb' 8 8, reg.extractLsb' 0 8, p.fillByte, p.fillByte, p.fillByte, p.fillByte]
  | .fastReadWord reg => some
      [0x0B, reg.extractLsb' 8 8, reg.extractLsb' 0 8, p.dummyByte, p.fillByte, p.fillByte, p.fillByte, p.fillByte]
  | .readWord reg => some (readTx p reg)
  | .resetSqiFrame => some [0xFF]
  | .csrcmdRead n a => some (writeTx 0x304 (0xC0000000 ||| (sizeCode n).zeroExtend 32 <<< 16 ||| a.zeroExtend 32))
  | .csrcmdWrite n a => some (writeTx 0x304 (0x80000000 ||| (sizeCode n).zeroExtend 32 <<< 16 ||| a.zeroExtend 32))
  | .pramcmdAbort .rd => some (writeTx 0x30C 0x40000000)
  | .pramcmdAbort .wr => some (writeTx 0x314 0x40000000)
  | .pramcmdStart .rd => some (writeTx 0x30C 0x80000000)
  | .pramcmdStart .wr => some (writeTx 0x314 0x80000000)
  | .pramAddrlen .rd len a => some (writeTx 0x308 (len.zeroExtend 32 <<< 16 ||| a.zeroExtend 32))
  | .pramAddrlen .wr len a => some (writeTx 0x310 (len.zeroExtend 32 <<< 16 ||| a.zeroExtend 32))
  | .burstOpenWrite | .burstPush _ | .burstOpenRead | .burstPop | .burstClose | .pramStatus _ _ | .csrStatus _
  | .csrDataWord _ _ _ | .pramFirstWord _ _ _ _ | .pramNextWord _ _ _ | .init | .reset | .read _ _ | .write _ _
  | .pollBusyClear _ | .pollFifoAvail _ | .pollEqual _ _ | .csrRead _ _ | .csrWrite _ _ | .pramSetup _ _ _
  | .pramRead _ _ | .pramWrite _ _ | .chunk _ _ | .alRefresh => none

/-- The whole-frame operations whose last four received bytes are a value, stored in `WORD` (R141 to R143). -/
def readsWord : Instr → Bool
  | .serialReadWord _ | .fastReadWord _ | .readWord _ => true
  | .writeWord _ _ | .burstOpenWrite | .burstPush _ | .burstOpenRead | .burstPop | .burstClose | .resetSqiFrame
  | .csrcmdRead _ _ | .csrcmdWrite _ _ | .pramcmdAbort _ | .pramcmdStart _ | .pramAddrlen _ _ _ | .pramStatus _ _
  | .csrStatus _ | .csrDataWord _ _ _ | .pramFirstWord _ _ _ _ | .pramNextWord _ _ _ | .init | .reset | .read _ _
  | .write _ _ | .pollBusyClear _ | .pollFifoAvail _ | .pollEqual _ _ | .csrRead _ _ | .csrWrite _ _
  | .pramSetup _ _ _ | .pramRead _ _ | .pramWrite _ _ | .chunk _ _ | .alRefresh => false

/-! ### The answers a whole access needs -/

/-- Answers to a poll loop: readings that are not ready, then one that is. -/
structure PollAnswers where
  notReady : List Reading
  ready : Reading
  deriving DecidableEq, Repr

/-- All its readings. -/
def PollAnswers.all (a : PollAnswers) : List Reading := a.notReady ++ [a.ready]

/-- They answer a loop with the test `ready` under the parameters `p`, within the limit. -/
def PollAnswers.Fit (a : PollAnswers) (p : Params) (ready : Word → Bool) : Prop :=
  Fitting p a.all ∧ (∀ r ∈ a.notReady, ready r.value = false) ∧ ready a.ready.value = true ∧
    LimitAllows p a.notReady.length

/-- Answers to a CSR access: to its write frames (the command; before it the data of a write), its poll, and the data
fetch of a read. -/
structure CsrAnswers where
  data : List Byte
  command : List Byte
  poll : PollAnswers
  fetch : Reading
  deriving DecidableEq, Repr

/-- The busy-clear test. -/
def notBusy (v : Word) : Bool := !v.getLsbD 31

/-- The availability test. -/
def fifoAvailable (v : Word) : Bool := v.getLsbD 0

/-- They answer a CSR read. -/
def CsrAnswers.FitRead (a : CsrAnswers) (p : Params) : Prop :=
  a.command.length = 7 ∧ a.poll.Fit p notBusy ∧ a.fetch.skipped.length = readSkip p

/-- They answer a CSR write. -/
def CsrAnswers.FitWrite (a : CsrAnswers) (p : Params) : Prop :=
  a.data.length = 7 ∧ a.command.length = 7 ∧ a.poll.Fit p notBusy

/-- The bytes received during a CSR read. -/
def CsrAnswers.readRx (a : CsrAnswers) : List Byte := a.command ++ readingsRx a.poll.all ++ a.fetch.rx

/-- The bytes received during a CSR write. -/
def CsrAnswers.writeRx (a : CsrAnswers) : List Byte := a.data ++ a.command ++ readingsRx a.poll.all

/-- The frames of a CSR read of `n` bytes at `addr` (R171). -/
def CsrAnswers.readFrames (a : CsrAnswers) (p : Params) (addr : Addr) (n : SizeCode) : List Event :=
  wholeFrame (writeTx 0x304 (0xC0000000 ||| (sizeCode n).zeroExtend 32 <<< 16 ||| addr.zeroExtend 32)) a.command ++
    readingFrames p 0x304 a.poll.all ++ wholeFrame (readTx p 0x300) a.fetch.rx

/-- The frames of a CSR write of the data word `v`, of which `n` bytes are payload, at `addr` (R172). -/
def CsrAnswers.writeFrames (a : CsrAnswers) (p : Params) (addr : Addr) (n : SizeCode) (v : Word) : List Event :=
  wholeFrame (writeTx 0x300 v) a.data ++
    wholeFrame (writeTx 0x304 (0x80000000 ||| (sizeCode n).zeroExtend 32 <<< 16 ||| addr.zeroExtend 32)) a.command ++
    readingFrames p 0x304 a.poll.all

/-- Answers to `PRAM_SETUP`. -/
structure SetupAnswers where
  abort : List Byte
  busy : PollAnswers
  addrLen : List Byte
  start : List Byte
  avail : PollAnswers
  deriving DecidableEq, Repr

/-- They answer the setup. -/
def SetupAnswers.Fit (a : SetupAnswers) (p : Params) : Prop :=
  a.abort.length = 7 ∧ a.busy.Fit p notBusy ∧ a.addrLen.length = 7 ∧ a.start.length = 7 ∧
    a.avail.Fit p fifoAvailable

/-- The bytes received during the setup. -/
def SetupAnswers.rx (a : SetupAnswers) : List Byte :=
  a.abort ++ readingsRx a.busy.all ++ a.addrLen ++ a.start ++ readingsRx a.avail.all

/-- The frames of the setup (R181), `cmd` and `al` being the registers of R180. -/
def SetupAnswers.frames (a : SetupAnswers) (p : Params) (cmd al addr : Addr) (len : BitVec 16) : List Event :=
  wholeFrame (writeTx cmd 0x40000000) a.abort ++ readingFrames p cmd a.busy.all ++
    wholeFrame (writeTx al (len.zeroExtend 32 <<< 16 ||| addr.zeroExtend 32)) a.addrLen ++
    wholeFrame (writeTx cmd 0x80000000) a.start ++ readingFrames p cmd a.avail.all

/-- The steps after the first that the setup takes: its polls, the address/length word and the start word. -/
def SetupAnswers.steps (a : SetupAnswers) : Nat := a.busy.all.length + 2 + a.avail.all.length

/-- The FIFO count of the word that showed the FIFO available (R161). -/
def SetupAnswers.count (a : SetupAnswers) : BitVec 5 := a.avail.ready.value.extractLsb' 16 5

/-- The number `m` of FIFO words after the first, of a transfer of `len` bytes at `addr` (R187). -/
def laterWords (addr : Addr) (len : Nat) : Nat := (addr.toNat % 4 + len + 3) / 4 - 1

/-- The reference peripheral answers alone, is between frames, and is not stuck; the poll limit admits its knobs. -/
def SimReady (e : SimEsc) (s : State) : Prop :=
  s.env.sim = some e ∧ s.env.script = [] ∧ s.env.params.busCanFault = false ∧ e.frame = none ∧ e.stuck = false ∧
    LimitAllows s.env.params e.busyPolls ∧ LimitAllows s.env.params e.availPolls

/-- The AL-event register of the reference peripheral (R94). -/
def simAlEvent (p : Params) (m : Memory) : BitVec 16 :=
  (memGet m (p.alEventAddr.toNat + 1)).zeroExtend 16 <<< 8 ||| (memGet m p.alEventAddr.toNat).zeroExtend 16

/-! ### The successors of a phase (R33) -/

/-- The phases that may follow a visit; `IDLE` may follow any (a fault, the end of the operation). -/
def successors : Phase → List Phase
  | .idle => [.rDispatch, .iSqi, .iReset]
  | .rDispatch => [.pAbort, .rChunk]
  | .rChunk => [.cData, .cCmd, .rAlev]
  | .cData => [.cCmd]
  | .cCmd => [.cPoll]
  | .cPoll => [.cPoll, .cFetch, .rChunk]
  | .cFetch => [.rChunk]
  | .pAbort => [.pPollBusy]
  | .pPollBusy => [.pPollBusy, .pAddrLen]
  | .pAddrLen => [.pStart]
  | .pStart => [.pPollAvail]
  | .pPollAvail => [.pPollAvail, .pFirst]
  | .pFirst => [.pBOpen]
  | .pBOpen => [.pBWord, .pBClose]
  | .pBWord => [.pBWord, .pBClose]
  | .pBClose => [.rAlev]
  | .rAlev => [.cCmd]
  | .iSqi => [.iReset]
  | .iReset => [.iPoll]
  | .iPoll => [.iPoll]

/-! ### The chunks of a request (R201, R203, R204) -/

/-- The chunks `(address, size)` of `rem` bytes at `a`; `fuel` bounds their number. -/
def chunkList : (fuel : Nat) → (a : Addr) → (rem : BitVec 16) → List (Addr × Nat)
  | 0, _, _ => []
  | fuel + 1, a, rem =>
    if rem = 0 then []
    else
      let size := chunkSize a rem
      (a, size.toNat) :: chunkList fuel (a + size.zeroExtend 16) (rem - size.zeroExtend 16)

/-- The payload of a PRAM write as it goes over the wire: zero lanes before the first byte, the bytes, zero lanes up to
a whole word (R63, R116, R117). -/
def pramStream (addr : Addr) (data : List Byte) : List Byte :=
  let body := List.replicate (addr.toNat % 4) 0 ++ data
  body ++ List.replicate ((4 - body.length % 4) % 4) 0

end Sys2Proof.Machine
end

