-- ==== Sys2Proof/Certificates/Slice0/Obligations.lean ====
section
/-! DEFINITION. The statements for the provers. Each says what the block does in the terms of Safety.lean; bytes and
words are written out as the spec writes them. A clause that rests on a choice of the model names its log entry. -/

open Sys2Proof Sys2Proof.Machine

/-- O1. After reset the block is idle, not busy, chip-select de-asserted, STATUS OK, no fault seen: State.reset has PH =
IDLE, BUSY = 0, CS = 0 with no burst open, STATUS = 0, FAULT_SEEN = 0, and AL_EVENT is the free value of log 4:
nothing is said of which. The values of the other registers are the model's (log 5) and not stated.
(70_reset_and_hazards.md section 1, the table of reset values; 10_state.md sections 2, 3 and 6; log 4) -/
def Obligations.ResetState : Prop :=
  State.reset.seq.ph = .idle ∧ State.reset.busy = false ∧ State.reset.wire = Wire.idle ∧
    State.reset.vis = ⟨Config.alEventAtReset 0, 0, false⟩ ∧ State.reset.trace = []

/-- O2. The state after reset meets both invariants, alone or with the reference peripheral at its start attached:
BlockInv and PollInv, the invariants that InvariantIsKept and PollInvariantIsKept are about, hold of State.reset.
They hold too with SimESC at its start attached, for all values of its four test knobs, and at that start every byte
of its memory and every register is zero. (70_reset_and_hazards.md section 1; 10_state.md section 3; 20_memory.md
section 7 (R85); log 11; log 20) -/
def Obligations.ResetMeetsInvariants : Prop :=
  BlockInv State.reset ∧ PollInv State.reset ∧
    ∀ (busyPolls availPolls : Nat) (stuck : Bool) (bt : Word) (e : SimEsc),
      e = SimEsc.start busyPolls availPolls stuck bt →
      BlockInv { State.reset with env.sim := some e } ∧ PollInv { State.reset with env.sim := some e } ∧
        (∀ x, memGet e.mem x = 0) ∧ ∀ reg, simReg e reg = 0

/-- O3. Every step keeps the machine's invariant: From every state with BlockInv, a step to a next state gives BlockInv:
between steps chip-select is asserted exactly inside an open burst, and only in the burst phases; an idle block has
nothing in progress and chip-select de-asserted; a burst opened by itself is open; a non-zero STATUS implies
FAULT_SEEN; an attached reference peripheral keeps its memory and registers canonical. Every operation, every answer
of the environment, bus faults and block reset are included. That a burst opened by itself holds the block in
P_BWORD with chip-select asserted is the model's choice (log 11), and so is the canonical form of an attached
reference peripheral (log 20). (10_state.md section 3 (CS is 1 only inside a frame; PH = IDLE implies CS = 0);
10_state.md section 2 (FAULT_SEEN); 60_exceptions.md section 4; 70_reset_and_hazards.md section 1; log 11; log 20) -/
def Obligations.InvariantIsKept : Prop :=
  ∀ s t : State, BlockInv s → step s = .next t → BlockInv t

/-- O4. No start command, data fetch or FIFO access before a poll has shown its flag: From every state with BlockInv and
PollInv, a step to a next state gives PollInv: in P_ADDRLEN and P_START the last polled word has bit 31 clear, in
C_FETCH the last polled word has bit 31 clear, in P_FIRST it has bit 0 set; and a poll entered by itself stays in
its polling phase (the model's choice, log 28). (20_memory.md section 5 (R74); 70_reset_and_hazards.md section 3
(R264 b, c, e); 43_pram.md (R181); log 28) -/
def Obligations.PollInvariantIsKept : Prop :=
  ∀ s t : State, BlockInv s → PollInv s → step s = .next t → PollInv t

/-- O5. A step of an accepting block runs exactly the operation the presented token decodes to: With no reset applied
and the block accepting (idle, or between the words of a burst opened by itself), a step is exec of the operation
the first presented token decodes to, in the state in which that token is taken and nothing else has changed; a
token that decodes to none is refused by name; with nothing presented nothing happens. The presentation by tokens
and the idle stutter are the model's (log 15, 17). That the block takes a token between the words of a burst opened
by itself, where BUSY = 1, is the model's choice (log 11). (10_state.md section 4 (R26); 60_exceptions.md section 2
(R235); log 11; log 15; log 17) -/
def Obligations.StepRunsThePresentedOperation : Prop :=
  (∀ (s : State) (token : Token) (rest : List Token) (i : Instr), s.env.resetIn = .off → s.accepting = true →
      s.env.inputs = token :: rest → decodeToken token = .ok i →
      step s = exec i { s with env.inputs := rest }) ∧
    (∀ (s : State) (token : Token) (rest : List Token) (why : Reject), s.env.resetIn = .off → s.accepting = true →
      s.env.inputs = token :: rest → decodeToken token = .error why →
      step s = .refused (.undecodable why)) ∧
    (∀ s : State, s.env.resetIn = .off → s.accepting = true → s.env.inputs = [] → step s = .next s)

/-- O6. While an operation runs every step succeeds and neither the presented requests nor the latched one change: With
no reset applied and the block not accepting, a step always answers a next state, whatever the environment does: the
presented tokens are untouched; and if no block reset can strike, the request latch and WBUF are unchanged. That the
block accepts between the words of a burst opened by itself, and so is not meant here, is the model's choice (log
11). (10_state.md section 4 (R25, R26); 41_poller.md (R164); log 11) -/
def Obligations.BusyBlockServesNoOtherRequest : Prop :=
  ∀ s : State, s.env.resetIn = .off → s.accepting = false →
    ∃ t, step s = .next t ∧ t.env.inputs = s.env.inputs ∧
      (Reply.reset ∉ s.env.script → t.latch = s.latch ∧ t.buf.wbuf = s.buf.wbuf)

/-- O7. Decoding the encoding of a well-formed operation gives it back: For every parameter record and every well-formed
operation of the opcode table, with every operand at every value, decodeToken (encode p i) is i. The packing of a
host request into bytes is the model's choice (log 32). That a frame with one payload group at a FIFO register
(WRITE_WORD at 0x020, FAST_READ_WORD at 0x000) is read as the word form is the model's choice (log 31).
(30_encoding.md sections 2, 3, 4 and 6; log 31; log 32) -/
def Obligations.DecodeOfEncode : Prop :=
  ∀ (p : Params) (i : Instr), i.wf = true → decodeToken (encode p i) = .ok i

/-- O8. Bits that decode are the encoding of what they decode to, and decode to a well-formed operation: For every space
but whole frames and read-burst groups (whose dummy and fill bytes the decoder does not look at), bytes that decode
to an operation are the bytes of that operation's encoding. For every space but host requests (whose range the block
checks when it accepts them), the operation is well-formed. The packing of a host request into bytes is the model's
choice (log 32). (30_encoding.md sections 2 to 6; log 32) -/
def Obligations.BitsHaveOneMeaning : Prop :=
  (∀ (p : Params) (space : Space) (bytes : List Byte) (i : Instr), space ≠ .frame → space ≠ .readBurst →
      decode space bytes = .ok i → encode p i = .coded space bytes) ∧
    (∀ (space : Space) (bytes : List Byte) (i : Instr), space ≠ .hostRequest → decode space bytes = .ok i →
      i.wf = true)

/-- O9. Reserved encodings decode to nothing: A frame whose first byte is not 02, 03, 0B or FF; a CSR command word with
bit 31 clear, with a bit of 29:18 set, or with size code 3; a PRAM command word other than 40000000 and 80000000:
none decodes to an operation. (30_encoding.md section 5 (R120); 30_encoding.md section 2 (R108)) -/
def Obligations.ReservedEncodingsAreRefused : Prop :=
  (∀ (op : Byte) (rest : List Byte), op ≠ 0x02 → op ≠ 0x03 → op ≠ 0x0B → op ≠ 0xFF →
      decode .frame (op :: rest) = .error .unknownOpcode) ∧
    (∀ w : Word, w.getLsbD 31 = false ∨ w.extractLsb' 18 12 ≠ 0 →
      decode .csrCmd [w.extractLsb' 24 8, w.extractLsb' 16 8, w.extractLsb' 8 8, w.extractLsb' 0 8] =
        .error .csrCommandBits) ∧
    (∀ w : Word, w.getLsbD 31 = true → w.extractLsb' 18 12 = 0 → w.extractLsb' 16 2 = 3 →
      decode .csrCmd [w.extractLsb' 24 8, w.extractLsb' 16 8, w.extractLsb' 8 8, w.extractLsb' 0 8] =
        .error .sizeCode3) ∧
    (∀ (d : Dir) (w : Word), w ≠ 0x40000000 → w ≠ 0x80000000 →
      decode (.pramCmd d) [w.extractLsb' 24 8, w.extractLsb' 16 8, w.extractLsb' 8 8, w.extractLsb' 0 8] =
        .error .pramCommandBits)

/-- O10. Words written out from the spec's encodings decode to their operations: Nine encodings of the spec's examples
and patterns: WRITE_WORD 0x304, 0xC0010220; SERIAL_READ_WORD 0x064; FAST_READ_WORD 0x304; the two burst headers; the
CSR read command 0xC0010220; the PRAM start word; the address/length word 0x00061002; the request READ 0x0F01, 6, in
the model's packing of requests into bytes (log 32). That a header alone is read as the burst header is the model's
choice (log 31). (30_encoding.md sections 2, 3 and 6; 40_transport.md (the examples of R140 to R147); log 31; log
32) -/
def Obligations.SpecWordsDecode : Prop :=
  decode .frame [0x02, 0x03, 0x04, 0x20, 0x02, 0x01, 0xC0] = .ok (.writeWord 0x304 0xC0010220) ∧
    decode .frame [0x03, 0x00, 0x64, 0x00, 0x00, 0x00, 0x00] = .ok (.serialReadWord 0x064) ∧
    decode .frame [0x0B, 0x03, 0x04, 0x00, 0x00, 0x00, 0x00, 0x00] = .ok (.fastReadWord 0x304) ∧
    decode .frame [0x02, 0x00, 0x20] = .ok .burstOpenWrite ∧
    decode .frame [0x0B, 0x00, 0x00, 0x00] = .ok .burstOpenRead ∧
    decode .csrCmd [0xC0, 0x01, 0x02, 0x20] = .ok (.csrcmdRead .two 0x0220) ∧
    decode (.pramCmd .wr) [0x80, 0x00, 0x00, 0x00] = .ok (.pramcmdStart .wr) ∧
    decode (.addrLen .wr) [0x00, 0x06, 0x10, 0x02] = .ok (.pramAddrlen .wr 6 0x1002) ∧
    decode .hostRequest [0x02, 0x0F, 0x01, 0x00, 0x06] = .ok (.read 0x0F01 6)

/-- O11. WRITE_WORD sends opcode 02, the address high byte first and the value low byte first, and changes nothing else:
For every register address, value, seven answers and state between frames: WRITE_WORD completes, its events are one
frame of the seven bytes, and no register, buffer or parameter of the block changes. A bus fault at any of the seven
exchanges raises BUS_FAULT there. (R140) -/
def Obligations.WriteWordSendsItsFrame : Prop :=
  (∀ (reg : Addr) (v : Word) (rx : List Byte) (rest : List Reply) (s : State), PortReady s → rx.length = 7 →
      Answers rx rest s →
      exec (.writeWord reg v) s = .next (afterEvents rest (wholeFrame (writeTx reg v) rx) s)) ∧
    (∀ (reg : Addr) (v : Word) (rx : List Byte) (bad : Byte) (rest : List Reply) (s : State), PortReady s →
      s.env.params.busCanFault = true → (writeTx reg v)[rx.length]? = some bad →
      s.env.script = rx.map Reply.byte ++ .fault :: rest →
      exec (.writeWord reg v) s = .next (raise .busFault (insideCut rest (writeTx reg v) rx bad s)))

/-- O12. FAST_READ_WORD sends its header and dummy byte, discards four bytes and stores the next four, low byte first,
in WORD: For every register address, four bytes received during the header, value received after it and state
between frames: the operation completes, its events are one frame of eight exchanges, WORD is the value and nothing
else changes. A bus fault at any of the eight exchanges raises BUS_FAULT there. (R142) -/
def Obligations.FastReadWordReceivesItsValue : Prop :=
  (∀ (reg : Addr) (header : List Byte) (v : Word) (rest : List Reply) (s : State), PortReady s →
      header.length = 4 → Answers (header ++ [v.extractLsb' 0 8, v.extractLsb' 8 8, v.extractLsb' 16 8, v.extractLsb' 24 8]) rest s →
      exec (.fastReadWord reg) s = .next (afterEvents rest
        (wholeFrame [0x0B, reg.extractLsb' 8 8, reg.extractLsb' 0 8, s.env.params.dummyByte, s.env.params.fillByte,
        s.env.params.fillByte, s.env.params.fillByte, s.env.params.fillByte]
          (header ++ [v.extractLsb' 0 8, v.extractLsb' 8 8, v.extractLsb' 16 8, v.extractLsb' 24 8]))
        { s with work.word := v })) ∧
    (∀ (reg : Addr) (rx : List Byte) (bad : Byte) (rest : List Reply) (s : State), PortReady s →
      s.env.params.busCanFault = true →
      ([0x0B, reg.extractLsb' 8 8, reg.extractLsb' 0 8, s.env.params.dummyByte, s.env.params.fillByte,
        s.env.params.fillByte, s.env.params.fillByte, s.env.params.fillByte] : List Byte)[rx.length]? = some bad →
      s.env.script = rx.map Reply.byte ++ .fault :: rest →
      exec (.fastReadWord reg) s = .next (raise .busFault (insideCut rest
        [0x0B, reg.extractLsb' 8 8, reg.extractLsb' 0 8, s.env.params.dummyByte, s.env.params.fillByte,
        s.env.params.fillByte, s.env.params.fillByte, s.env.params.fillByte] rx bad s)))

/-- O13. SERIAL_READ_WORD sends its header without a dummy byte and stores the four bytes after it in WORD; READ_WORD is
the read WORD_READ_OPCODE names: SERIAL_READ_WORD: as FastReadWordReceivesItsValue, with opcode 03 and no dummy
byte: seven exchanges, three discarded; a bus fault at any of them raises BUS_FAULT there. READ_WORD in every state
does what FAST_READ_WORD does when the parameter is 0B and what SERIAL_READ_WORD does when it is 03, and for every
reading that fits completes with that reading's value in WORD. (Which read opcode the word read uses is a decision
of the spec, kept as a parameter.) (40_transport.md section 2 (R141, R143); 30_encoding.md section 2 (R103)) -/
def Obligations.OtherReadsReceiveTheirValue : Prop :=
  (∀ (reg : Addr) (header : List Byte) (v : Word) (rest : List Reply) (s : State), PortReady s →
      header.length = 3 → Answers (header ++ [v.extractLsb' 0 8, v.extractLsb' 8 8, v.extractLsb' 16 8, v.extractLsb' 24 8]) rest s →
      exec (.serialReadWord reg) s = .next (afterEvents rest
        (wholeFrame [0x03, reg.extractLsb' 8 8, reg.extractLsb' 0 8, s.env.params.fillByte, s.env.params.fillByte,
        s.env.params.fillByte, s.env.params.fillByte]
          (header ++ [v.extractLsb' 0 8, v.extractLsb' 8 8, v.extractLsb' 16 8, v.extractLsb' 24 8]))
        { s with work.word := v })) ∧
    (∀ (reg : Addr) (rx : List Byte) (bad : Byte) (rest : List Reply) (s : State), PortReady s →
      s.env.params.busCanFault = true →
      ([0x03, reg.extractLsb' 8 8, reg.extractLsb' 0 8, s.env.params.fillByte, s.env.params.fillByte,
        s.env.params.fillByte, s.env.params.fillByte] : List Byte)[rx.length]? = some bad →
      s.env.script = rx.map Reply.byte ++ .fault :: rest →
      exec (.serialReadWord reg) s = .next (raise .busFault (insideCut rest
        [0x03, reg.extractLsb' 8 8, reg.extractLsb' 0 8, s.env.params.fillByte, s.env.params.fillByte,
        s.env.params.fillByte, s.env.params.fillByte] rx bad s))) ∧
    (∀ (reg : Addr) (s : State),
      (s.env.params.wordRead = .fast → exec (.readWord reg) s = exec (.fastReadWord reg) s) ∧
      (s.env.params.wordRead = .serial → exec (.readWord reg) s = exec (.serialReadWord reg) s)) ∧
    (∀ (reg : Addr) (r : Reading) (rest : List Reply) (s : State), PortReady s →
      r.skipped.length = readSkip s.env.params → Answers r.rx rest s →
      exec (.readWord reg) s = .next (afterEvents rest (wholeFrame (readTx s.env.params reg) r.rx)
        { s with work.word := r.value }))

/-- O14. BURST_OPEN_WRITE asserts chip-select, sends 02 00 20 and leaves chip-select asserted: For every three answers
and state between frames: the operation completes with CS = 1 after the three exchanges; no register, buffer or
parameter changes (the phase aside when the block was idle: there the model holds PH out of IDLE, log 11). A bus
fault at any of the three exchanges raises BUS_FAULT there. (R145) -/
def Obligations.BurstOpenWriteSendsItsHeader : Prop :=
  (∀ (rx : List Byte) (rest : List Reply) (s : State), PortReady s → rx.length = 3 → Answers rx rest s →
      ∃ q : Seq, (s.seq.ph ≠ .idle → q = s.seq) ∧
        exec .burstOpenWrite s = .next (afterEvents rest (.csAssert :: exchanged [0x02, 0x00, 0x20] rx)
          { s with wire := ⟨true, some .wr⟩, seq := q })) ∧
    (∀ (rx : List Byte) (bad : Byte) (rest : List Reply) (s : State), PortReady s →
      s.env.params.busCanFault = true → ([0x02, 0x00, 0x20] : List Byte)[rx.length]? = some bad →
      s.env.script = rx.map Reply.byte ++ .fault :: rest →
      exec .burstOpenWrite s = .next (raise .busFault (insideCut rest [0x02, 0x00, 0x20] rx bad s)))

/-- O15. BURST_OPEN_READ asserts chip-select, sends 0B 00 00 and the dummy byte and leaves chip-select asserted,
whatever WORD_READ_OPCODE is: For every four answers and state between frames: the operation completes with CS = 1
after the four exchanges; no register, buffer or parameter changes (the phase aside when the block was idle: there
the model holds PH out of IDLE, log 11). A bus fault at any of the four exchanges raises BUS_FAULT there. (R147) -/
def Obligations.BurstOpenReadSendsItsHeader : Prop :=
  (∀ (rx : List Byte) (rest : List Reply) (s : State), PortReady s → rx.length = 4 → Answers rx rest s →
      ∃ q : Seq, (s.seq.ph ≠ .idle → q = s.seq) ∧
        exec .burstOpenRead s = .next (afterEvents rest (.csAssert :: exchanged [0x0B, 0x00, 0x00, s.env.params.dummyByte] rx)
          { s with wire := ⟨true, some .rd⟩, seq := q })) ∧
    (∀ (rx : List Byte) (bad : Byte) (rest : List Reply) (s : State), PortReady s →
      s.env.params.busCanFault = true → ([0x0B, 0x00, 0x00, s.env.params.dummyByte] : List Byte)[rx.length]? = some bad →
      s.env.script = rx.map Reply.byte ++ .fault :: rest →
      exec .burstOpenRead s = .next (raise .busFault (insideCut rest [0x0B, 0x00, 0x00, s.env.params.dummyByte] rx bad s)))

/-- O16. BURST_PUSH sends one word, low byte first, inside the open write burst and changes nothing: For every value,
four answers and state inside a frame opened by BURST_OPEN_WRITE: the operation completes after four exchanges and
no register, buffer, parameter or the wire changes. A bus fault at any of the four exchanges raises BUS_FAULT there.
(R146) -/
def Obligations.BurstPushSendsOneWord : Prop :=
  (∀ (v : Word) (rx : List Byte) (rest : List Reply) (s : State), s.wire = ⟨true, some .wr⟩ → s.env.sim = none →
      rx.length = 4 → Answers rx rest s →
      exec (.burstPush v) s = .next (afterEvents rest
        (exchanged [v.extractLsb' 0 8, v.extractLsb' 8 8, v.extractLsb' 16 8, v.extractLsb' 24 8] rx) s)) ∧
    (∀ (v : Word) (rx : List Byte) (bad : Byte) (rest : List Reply) (s : State), s.wire = ⟨true, some .wr⟩ →
      s.env.sim = none → s.env.params.busCanFault = true →
      ([v.extractLsb' 0 8, v.extractLsb' 8 8, v.extractLsb' 16 8, v.extractLsb' 24 8] : List Byte)[rx.length]? = some bad → s.env.script = rx.map Reply.byte ++ .fault :: rest →
      exec (.burstPush v) s = .next (raise .busFault (afterEvents rest
        (exchanged [v.extractLsb' 0 8, v.extractLsb' 8 8, v.extractLsb' 16 8, v.extractLsb' 24 8] rx ++ [.xferFault bad]) s)))

/-- O17. BURST_POP exchanges four fill bytes inside the open read burst and stores the bytes received, low byte first,
in WORD: For every value received and state inside a frame opened by BURST_OPEN_READ: the operation completes after
four exchanges, WORD is the value and nothing else changes. A bus fault at any of the four exchanges raises
BUS_FAULT there. (R149) -/
def Obligations.BurstPopReceivesOneWord : Prop :=
  (∀ (v : Word) (rest : List Reply) (s : State), s.wire = ⟨true, some .rd⟩ → s.env.sim = none →
      Answers [v.extractLsb' 0 8, v.extractLsb' 8 8, v.extractLsb' 16 8, v.extractLsb' 24 8] rest s →
      exec .burstPop s = .next (afterEvents rest
        (exchanged (List.replicate 4 s.env.params.fillByte)
          [v.extractLsb' 0 8, v.extractLsb' 8 8, v.extractLsb' 16 8, v.extractLsb' 24 8])
        { s with work.word := v })) ∧
    (∀ (rx : List Byte) (bad : Byte) (rest : List Reply) (s : State), s.wire = ⟨true, some .rd⟩ →
      s.env.sim = none → s.env.params.busCanFault = true → rx.length < 4 → bad = s.env.params.fillByte →
      s.env.script = rx.map Reply.byte ++ .fault :: rest →
      exec .burstPop s = .next (raise .busFault (afterEvents rest
        (exchanged (List.replicate 4 s.env.params.fillByte) rx ++ [.xferFault bad]) s)))

/-- O18. BURST_CLOSE de-asserts chip-select and changes no register: Inside a burst BURST_CLOSE completes in every
environment: CS = 0, no burst open, one CS_DEASSERT event; the phase stays, or, when the burst had been opened by
itself, the block is idle again (log 11). With CS = 0 there is no edge: nothing happens (log 19). (40_transport.md
section 3 (R150); log 11; log 19) -/
def Obligations.BurstCloseEndsTheFrame : Prop :=
  (∀ s : State, s.wire.cs = true →
      exec .burstClose s = .next { s with
        wire := Wire.idle
        seq := if s.seq.caller = .burst then Seq.atRest else s.seq
        env.sim := s.env.sim.map simFrameEnd
        trace := s.trace ++ [.csDeassert] }) ∧
    (∀ s : State, s.wire.cs = false → s.seq.caller ≠ .burst → exec .burstClose s = .next s)

/-- O19. In every environment without bus faults the whole-frame operations complete, send their bytes and change
nothing but WORD of a read: For WRITE_WORD, the three word reads, RESET_SQI_FRAME and the five command-word rows, in
every state between frames in which no bus fault and no block reset can strike, with any script, any attached
peripheral or none: the operation answers a next state; its events are one whole frame of exactly the bytes of its
encoding, the bytes of bus data in being whatever came; phase, latch, visible registers, buffers, parameters,
presented requests and every working register but WORD are unchanged; WORD is the last four received bytes, low byte
first, for a read, and unchanged for the others. That these rows are run by themselves, a command word as a
WRITE_WORD to its register, is the model's reading (log 9, 12). (40_transport.md sections 1, 2 and 4; 30_encoding.md
sections 2 and 3; 20_memory.md section 5 (R73); log 9; log 12) -/
def Obligations.WholeFramesLeaveTheBlockAlone : Prop :=
  ∀ (i : Instr) (tx : List Byte) (s : State), Calm s → s.wire = Wire.idle → frameTx s.env.params i = some tx →
    ∃ (t : State) (rx : List Byte) (v : Word), exec i s = .next t ∧ rx.length = tx.length ∧
      t.trace = s.trace ++ wholeFrame tx rx ∧ t.seq = s.seq ∧ t.latch = s.latch ∧ t.vis = s.vis ∧ t.buf = s.buf ∧
      t.wire = Wire.idle ∧ t.work = { s.work with word := v } ∧ t.env.params = s.env.params ∧
      t.env.inputs = s.env.inputs ∧ t.env.resetIn = s.env.resetIn ∧
      (readsWord i = true → rx.drop (tx.length - 4) =
        [v.extractLsb' 0 8, v.extractLsb' 8 8, v.extractLsb' 16 8, v.extractLsb' 24 8]) ∧
      (readsWord i = false → v = s.work.word)

/-- O20. A bus fault at any exchange of any whole-frame operation raises BUS_FAULT at that exchange: For the same eleven
operations, every exchange number and every answers before it: when the bus can fault and faults there, the
operation answers what raising BUS_FAULT gives (FaultEntryDoesItsSixThings), inside the frame after exactly the
exchanges before; no byte is sent again. That these rows are run by themselves is the model's reading (log 9, 12).
(60_exceptions.md section 1 (R231); 40_transport.md section 1 (R144); 10_state.md section 3 (R30); log 9; log 12) -/
def Obligations.BusFaultEndsEveryFrame : Prop :=
  ∀ (i : Instr) (tx rx : List Byte) (bad : Byte) (rest : List Reply) (s : State), PortReady s →
    s.env.params.busCanFault = true → frameTx s.env.params i = some tx → tx[rx.length]? = some bad →
    s.env.script = rx.map Reply.byte ++ .fault :: rest →
    exec i s = .next (raise .busFault (insideCut rest tx rx bad s))

/-- O21. An operation that begins a frame stops while chip-select is asserted, and a burst word stops outside its burst:
With CS = 1 the whole-frame operations, the two burst opens and the written data words of a word frame answer the
fault frameOpen; BURST_PUSH and a written PRAM_NEXT_WORD outside a write burst answer noWriteBurst, BURST_POP
outside a read burst answers noReadBurst. The spec only says where they are permitted; that the model stops there is
its choice (log 18). (40_transport.md section 1 (R144); 40_transport.md section 3 (R146, R149); log 18) -/
def Obligations.FrameOperationsStopOutsideTheirPlace : Prop :=
  (∀ (i : Instr) (tx : List Byte) (s : State), s.wire.cs = true → frameTx s.env.params i = some tx →
      exec i s = .fault .frameOpen) ∧
    (∀ (s : State), s.wire.cs = true →
      exec .burstOpenWrite s = .fault .frameOpen ∧ exec .burstOpenRead s = .fault .frameOpen ∧
      (∀ (n : SizeCode) (v : Word), exec (.csrDataWord .wr n v) s = .fault .frameOpen) ∧
      (∀ (fbp : BitVec 2) (n0 : Nat) (v : Word), exec (.pramFirstWord .wr fbp n0 v) s = .fault .frameOpen)) ∧
    (∀ (s : State) (t : Nat) (v : Word), s.wire.burst ≠ some .wr →
      exec (.burstPush v) s = .fault .noWriteBurst ∧ exec (.pramNextWord .wr t v) s = .fault .noWriteBurst) ∧
    (∀ s : State, s.wire.burst ≠ some .rd → exec .burstPop s = .fault .noReadBurst)

/-- O22. A CSR command is a word frame to 304 with BUSY set, RNW the direction, the size code and the ESC address in
their fields: For every size and address: CSRCMD.READ and CSRCMD.WRITE complete with one WRITE_WORD frame to 0x304
of a word with bit 31 set, bit 30 set for a read and clear for a write, bits 29:18 zero, bits 17:16 equal to 0, 1 or
2 for 1, 2 or 4 bytes, and bits 15:0 the address; nothing of the block changes. That the row is run by itself as a
WRITE_WORD is the model's reading (log 9, 12). (30_encoding.md section 3 (R110, R111); 10_state.md section 8 (R42);
log 9; log 12) -/
def Obligations.CsrCommandWordsAreWrittenToCsrCmd : Prop :=
  ∀ (n : SizeCode) (a : Addr) (rx : List Byte) (rest : List Reply) (s : State), PortReady s → rx.length = 7 →
    Answers rx rest s →
    ∃ r w : Word,
      (r.getLsbD 31 = true ∧ r.getLsbD 30 = true ∧ r.extractLsb' 18 12 = 0 ∧ r.extractLsb' 0 16 = a ∧
        (r.extractLsb' 16 2).toNat = (match n with | .one => 0 | .two => 1 | .four => 2)) ∧
      (w.getLsbD 31 = true ∧ w.getLsbD 30 = false ∧ w.extractLsb' 18 12 = 0 ∧ w.extractLsb' 0 16 = a ∧
        (w.extractLsb' 16 2).toNat = (match n with | .one => 0 | .two => 1 | .four => 2)) ∧
      exec (.csrcmdRead n a) s = .next (afterEvents rest (wholeFrame (writeTx 0x304 r) rx) s) ∧
      exec (.csrcmdWrite n a) s = .next (afterEvents rest (wholeFrame (writeTx 0x304 w) rx) s)

/-- O23. PRAM abort, start and address/length words go to the registers of their direction: Read commands go to 0x30C
and its address/length word to 0x308, write commands to 0x314 and 0x310; abort is 0x40000000, start 0x80000000; the
address/length word has the length in bits 31:16 and the address in bits 15:0. Each completes with one word frame
and changes nothing of the block. That the rows are run by themselves as a WRITE_WORD is the model's reading (log 9,
12). (30_encoding.md section 3 (R112, R114); 43_pram.md (R180); 10_state.md section 8 (R45, R46); log 9; log 12) -/
def Obligations.PramCommandWordsAreWrittenToTheirRegisters : Prop :=
  ∀ (rx : List Byte) (rest : List Reply) (s : State), PortReady s → rx.length = 7 → Answers rx rest s →
    exec (.pramcmdAbort .rd) s = .next (afterEvents rest (wholeFrame (writeTx 0x30C 0x40000000) rx) s) ∧
    exec (.pramcmdAbort .wr) s = .next (afterEvents rest (wholeFrame (writeTx 0x314 0x40000000) rx) s) ∧
    exec (.pramcmdStart .rd) s = .next (afterEvents rest (wholeFrame (writeTx 0x30C 0x80000000) rx) s) ∧
    exec (.pramcmdStart .wr) s = .next (afterEvents rest (wholeFrame (writeTx 0x314 0x80000000) rx) s) ∧
    (∀ (len : BitVec 16) (a : Addr), ∃ w : Word, w.extractLsb' 16 16 = len ∧ w.extractLsb' 0 16 = a ∧
      exec (.pramAddrlen .rd len a) s = .next (afterEvents rest (wholeFrame (writeTx 0x308 w) rx) s) ∧
      exec (.pramAddrlen .wr len a) s = .next (afterEvents rest (wholeFrame (writeTx 0x310 w) rx) s))

/-- O24. A status word goes to WORD; a PRAM status word with bit 0 set loads FIFO_CNT from bits 20:16; no flag is
stored: In every state and environment: CSR_STATUS v leaves v in WORD and changes nothing else; PRAM_STATUS v leaves
v in WORD and, when bit 0 is set, bits 20:16 in FIFO_CNT, and changes nothing else. That these rows are executed as
the polls' examination of a word is the model's choice (log 12, 13). (30_encoding.md section 3 (R113); 10_state.md
sections 7 and 8 (R36, R46); log 12; log 13) -/
def Obligations.StatusWordsAreTakenApart : Prop :=
  ∀ (d : Dir) (v : Word) (s : State),
    exec (.csrStatus v) s = .next { s with work.word := v } ∧
    exec (.pramStatus d v) s = .next { s with
      work := { s.work with
        word := v
        fifoCnt := if v.getLsbD 0 then v.extractLsb' 16 5 else s.work.fifoCnt } }

/-- O25. A CSR data word is written to 300, or its low 1, 2 or 4 lanes become the result: Written: WORD holds the word
and one WRITE_WORD frame to 0x300 carries it; nothing else changes, and a bus fault at any exchange raises BUS_FAULT
there. Read, in every state: WORD holds the word and the result is lane 0, lanes 0 and 1, or lanes 0 to 3, for 1, 2
or 4 bytes; nothing else changes. The direct execution of the row is the model's (log 8, 12). (30_encoding.md
section 4 (R115); 10_state.md section 8 (R41); log 8; log 12) -/
def Obligations.CsrDataWordIsSentOrTaken : Prop :=
  (∀ (n : SizeCode) (v : Word) (rx : List Byte) (rest : List Reply) (s : State), PortReady s → rx.length = 7 →
      Answers rx rest s →
      exec (.csrDataWord .wr n v) s = .next (afterEvents rest (wholeFrame (writeTx 0x300 v) rx)
        { s with work.word := v })) ∧
    (∀ (n : SizeCode) (v : Word) (rx : List Byte) (bad : Byte) (rest : List Reply) (s : State), PortReady s →
      s.env.params.busCanFault = true → (writeTx 0x300 v)[rx.length]? = some bad →
      s.env.script = rx.map Reply.byte ++ .fault :: rest →
      exec (.csrDataWord .wr n v) s = .next (raise .busFault (insideCut rest (writeTx 0x300 v) rx bad
        { s with work.word := v }))) ∧
    (∀ (n : SizeCode) (v : Word) (s : State),
      exec (.csrDataWord .rd n v) s = .next { s with
        work.word := v
        buf.res := match n with
          | .one => [v.extractLsb' 0 8]
          | .two => [v.extractLsb' 0 8, v.extractLsb' 8 8]
          | .four => [v.extractLsb' 0 8, v.extractLsb' 8 8, v.extractLsb' 16 8, v.extractLsb' 24 8] })

/-- O26. The first FIFO word goes to 020 in a word frame, or its lanes from the first-byte position up become the
result; FIFO_CNT counts down: Written: WORD holds the word, one WRITE_WORD frame to 0x020 carries it, and FIFO_CNT
is one less modulo 32; a bus fault at any exchange raises BUS_FAULT there, with FIFO_CNT as it was. Read, in every
state: WORD holds the word, FIFO_CNT is one less modulo 32 and the result is the n0 bytes of lanes fbp up, those
lanes and no other. The direct execution of the row is the model's (log 8, 12). (30_encoding.md section 4 (R116);
43_pram.md (R184, R185, R186); log 8; log 12) -/
def Obligations.PramFirstWordIsSentOrTaken : Prop :=
  (∀ (fbp : BitVec 2) (n0 : Nat) (v : Word) (rx : List Byte) (rest : List Reply) (s : State), PortReady s →
      rx.length = 7 → Answers rx rest s →
      exec (.pramFirstWord .wr fbp n0 v) s = .next (afterEvents rest (wholeFrame (writeTx 0x020 v) rx)
        { s with work := { s.work with word := v, fifoCnt := s.work.fifoCnt - 1 } })) ∧
    (∀ (fbp : BitVec 2) (n0 : Nat) (v : Word) (rx : List Byte) (bad : Byte) (rest : List Reply) (s : State),
      PortReady s → s.env.params.busCanFault = true → (writeTx 0x020 v)[rx.length]? = some bad →
      s.env.script = rx.map Reply.byte ++ .fault :: rest →
      exec (.pramFirstWord .wr fbp n0 v) s = .next (raise .busFault (insideCut rest (writeTx 0x020 v) rx bad
        { s with work.word := v }))) ∧
    (∀ (fbp : BitVec 2) (n0 : Nat) (v : Word) (s : State), 1 ≤ n0 → fbp.toNat + n0 ≤ 4 →
      exec (.pramFirstWord .rd fbp n0 v) s = .next { s with
        work := { s.work with word := v, fifoCnt := s.work.fifoCnt - 1 }
        buf.res := (([v.extractLsb' 0 8, v.extractLsb' 8 8, v.extractLsb' 16 8, v.extractLsb' 24 8] :
          List Byte).drop fbp.toNat).take n0 })

/-- O27. A later FIFO word is sent inside the open write burst, or its low lanes follow the result; FIFO_CNT counts
down: Written, inside a write burst: WORD holds the word, four exchanges carry it and FIFO_CNT is one less modulo
32; a bus fault at any exchange raises BUS_FAULT there. Read, in every state: WORD holds the word, FIFO_CNT is one
less modulo 32 and the low t lanes are appended to the result. The direct execution of the row is the model's (log
8, 12). (30_encoding.md section 4 (R117); 43_pram.md (R184, R185, R186); log 8; log 12) -/
def Obligations.PramNextWordIsSentOrTaken : Prop :=
  (∀ (n : Nat) (v : Word) (rx : List Byte) (rest : List Reply) (s : State), s.wire = ⟨true, some .wr⟩ →
      s.env.sim = none → rx.length = 4 → Answers rx rest s →
      exec (.pramNextWord .wr n v) s = .next (afterEvents rest
        (exchanged [v.extractLsb' 0 8, v.extractLsb' 8 8, v.extractLsb' 16 8, v.extractLsb' 24 8] rx)
        { s with work := { s.work with word := v, fifoCnt := s.work.fifoCnt - 1 } })) ∧
    (∀ (n : Nat) (v : Word) (rx : List Byte) (bad : Byte) (rest : List Reply) (s : State),
      s.wire = ⟨true, some .wr⟩ → s.env.sim = none → s.env.params.busCanFault = true →
      ([v.extractLsb' 0 8, v.extractLsb' 8 8, v.extractLsb' 16 8, v.extractLsb' 24 8] : List Byte)[rx.length]? = some bad → s.env.script = rx.map Reply.byte ++ .fault :: rest →
      exec (.pramNextWord .wr n v) s = .next (raise .busFault (afterEvents rest
        (exchanged [v.extractLsb' 0 8, v.extractLsb' 8 8, v.extractLsb' 16 8, v.extractLsb' 24 8] rx ++ [.xferFault bad])
        { s with work.word := v }))) ∧
    (∀ (n : Nat) (v : Word) (s : State), 1 ≤ n → n ≤ 4 →
      exec (.pramNextWord .rd n v) s = .next { s with
        work := { s.work with word := v, fifoCnt := s.work.fifoCnt - 1 }
        buf.res := s.buf.res ++ ([v.extractLsb' 0 8, v.extractLsb' 8 8, v.extractLsb' 16 8, v.extractLsb' 24 8] :
          List Byte).take n })

/-- O28. POLL_BUSY_CLEAR reads its register until bit 31 is clear, at most POLL_LIMIT times: For 0x304, 0x30C and 0x314,
in every resting state. Ready: after n readings with bit 31 set, n below the limit, and one with it clear, the loop
has made n + 1 whole frames, WORD is the last value, POLLS is n + 1, and nothing else changes. Limit: when all
POLL_LIMIT readings have bit 31 set it ends in fault entry with DEVICE_UNRESPONSIVE. Bus fault: at any exchange of
any reading, the POLL_LIMIT-th included, it ends in fault entry with BUS_FAULT. Only bit 31 is looked at. That a
poll entered by itself ends without STATUS or a response (log 9, 10), and POLLS under POLL_LIMIT = INF (log 23), are
the model's choice. (41_poller.md (R160, R162); 60_exceptions.md sections 1 and 3 (R232, R237); log 9; log 10; log
23) -/
def Obligations.PollBusyClearWaitsForBit31 : Prop :=
  (∀ (reg : Addr) (a : PollAnswers) (rest : List Reply) (s : State), reg = 0x304 ∨ reg = 0x30C ∨ reg = 0x314 → Resting s →
      s.env.sim = none → a.Fit s.env.params notBusy → Answers (readingsRx a.all) rest s →
      ∃ t, exec (.pollBusyClear reg) s = .next t ∧
        stepN a.notReady.length t = .next (afterEvents rest (readingFrames s.env.params reg a.all)
          { s with
            seq := Seq.atRest
            work := { s.work with word := a.ready.value, polls := a.notReady.length + 1 } })) ∧
    (∀ (reg : Addr) (rs : List Reading) (r : Reading) (rest : List Reply) (s : State), reg = 0x304 ∨ reg = 0x30C ∨ reg = 0x314 → Resting s →
      s.env.sim = none → Fitting s.env.params (rs ++ [r]) → (∀ x ∈ rs ++ [r], notBusy x.value = false) →
      s.env.params.pollLimit = some (rs.length + 1) → Answers (readingsRx (rs ++ [r])) rest s →
      ∃ t, exec (.pollBusyClear reg) s = .next t ∧
        stepN rs.length t = .next (faultEntry .deviceUnresponsive
          (afterEvents rest (readingFrames s.env.params reg (rs ++ [r]))
            { s with work := { s.work with word := r.value, polls := rs.length + 1 } }))) ∧
    (∀ (reg : Addr) (rs : List Reading) (rx : List Byte) (bad : Byte) (rest : List Reply) (s : State), reg = 0x304 ∨ reg = 0x30C ∨ reg = 0x314 → Resting s →
      s.env.sim = none → s.env.params.busCanFault = true → Fitting s.env.params rs →
      (∀ x ∈ rs, notBusy x.value = false) → LimitAllows s.env.params rs.length →
      (readTx s.env.params reg)[rx.length]? = some bad →
      s.env.script = (readingsRx rs ++ rx).map Reply.byte ++ .fault :: rest →
      ∃ (t : State) (w : Work), exec (.pollBusyClear reg) s = .next t ∧
        w = { s.work with word := (rs.getLast?.map Reading.value).getD s.work.word, polls := rs.length } ∧
        stepN rs.length t = .next (faultEntry .busFault (insideCut rest (readTx s.env.params reg) rx bad
          { s with
            work := w
            trace := s.trace ++ readingFrames s.env.params reg rs })))

/-- O29. POLL_FIFO_AVAIL reads its register until bit 0 is set and takes FIFO_CNT from the word that showed it: For
0x30C and 0x314: as PollBusyClearWaitsForBit31 with the test bit 0 set, the busy bit not looked at; on success
FIFO_CNT is bits 20:16 of the word that was ready; FIFO_CNT is unchanged when the loop ends in a fault. That a poll
entered by itself ends without STATUS or a response (log 9, 10), and POLLS under POLL_LIMIT = INF (log 23), are the
model's choice. (41_poller.md (R161, R162); 60_exceptions.md sections 1 and 3 (R232, R237); log 9; log 10; log 23) -/
def Obligations.PollFifoAvailWaitsForBit0 : Prop :=
  (∀ (reg : Addr) (a : PollAnswers) (rest : List Reply) (s : State), reg = 0x30C ∨ reg = 0x314 → Resting s →
      s.env.sim = none → a.Fit s.env.params fifoAvailable → Answers (readingsRx a.all) rest s →
      ∃ t, exec (.pollFifoAvail reg) s = .next t ∧
        stepN a.notReady.length t = .next (afterEvents rest (readingFrames s.env.params reg a.all)
          { s with
            seq := Seq.atRest
            work := { s.work with word := a.ready.value, polls := a.notReady.length + 1, fifoCnt := a.ready.value.extractLsb' 16 5 } })) ∧
    (∀ (reg : Addr) (rs : List Reading) (r : Reading) (rest : List Reply) (s : State), reg = 0x30C ∨ reg = 0x314 → Resting s →
      s.env.sim = none → Fitting s.env.params (rs ++ [r]) → (∀ x ∈ rs ++ [r], fifoAvailable x.value = false) →
      s.env.params.pollLimit = some (rs.length + 1) → Answers (readingsRx (rs ++ [r])) rest s →
      ∃ t, exec (.pollFifoAvail reg) s = .next t ∧
        stepN rs.length t = .next (faultEntry .deviceUnresponsive
          (afterEvents rest (readingFrames s.env.params reg (rs ++ [r]))
            { s with work := { s.work with word := r.value, polls := rs.length + 1 } }))) ∧
    (∀ (reg : Addr) (rs : List Reading) (rx : List Byte) (bad : Byte) (rest : List Reply) (s : State), reg = 0x30C ∨ reg = 0x314 → Resting s →
      s.env.sim = none → s.env.params.busCanFault = true → Fitting s.env.params rs →
      (∀ x ∈ rs, fifoAvailable x.value = false) → LimitAllows s.env.params rs.length →
      (readTx s.env.params reg)[rx.length]? = some bad →
      s.env.script = (readingsRx rs ++ rx).map Reply.byte ++ .fault :: rest →
      ∃ (t : State) (w : Work), exec (.pollFifoAvail reg) s = .next t ∧
        w = { s.work with word := (rs.getLast?.map Reading.value).getD s.work.word, polls := rs.length } ∧
        stepN rs.length t = .next (faultEntry .busFault (insideCut rest (readTx s.env.params reg) rx bad
          { s with
            work := w
            trace := s.trace ++ readingFrames s.env.params reg rs })))

/-- O30. POLL_EQUAL reads its register until all 32 bits equal the expected value: For every register and expected
value: as PollBusyClearWaitsForBit31 with the test that the word read equals the expected one. That a poll entered
by itself ends without STATUS or a response (log 9, 10), and POLLS under POLL_LIMIT = INF (log 23), are the model's
choice. (41_poller.md (R162, R163); 60_exceptions.md sections 1 and 3 (R232, R237); log 9; log 10; log 23) -/
def Obligations.PollEqualWaitsForTheValue : Prop :=
  (∀ (reg : Addr) (expected : Word) (a : PollAnswers) (rest : List Reply) (s : State), Resting s →
      s.env.sim = none → a.Fit s.env.params (fun v => v == expected) → Answers (readingsRx a.all) rest s →
      ∃ t, exec (.pollEqual reg expected) s = .next t ∧
        stepN a.notReady.length t = .next (afterEvents rest (readingFrames s.env.params reg a.all)
          { s with
            seq := Seq.atRest
            work := { s.work with word := a.ready.value, polls := a.notReady.length + 1 } })) ∧
    (∀ (reg : Addr) (expected : Word) (rs : List Reading) (r : Reading) (rest : List Reply) (s : State), Resting s →
      s.env.sim = none → Fitting s.env.params (rs ++ [r]) → (∀ x ∈ rs ++ [r], (fun v => v == expected) x.value = false) →
      s.env.params.pollLimit = some (rs.length + 1) → Answers (readingsRx (rs ++ [r])) rest s →
      ∃ t, exec (.pollEqual reg expected) s = .next t ∧
        stepN rs.length t = .next (faultEntry .deviceUnresponsive
          (afterEvents rest (readingFrames s.env.params reg (rs ++ [r]))
            { s with work := { s.work with word := r.value, polls := rs.length + 1 } }))) ∧
    (∀ (reg : Addr) (expected : Word) (rs : List Reading) (rx : List Byte) (bad : Byte) (rest : List Reply) (s : State), Resting s →
      s.env.sim = none → s.env.params.busCanFault = true → Fitting s.env.params rs →
      (∀ x ∈ rs, (fun v => v == expected) x.value = false) → LimitAllows s.env.params rs.length →
      (readTx s.env.params reg)[rx.length]? = some bad →
      s.env.script = (readingsRx rs ++ rx).map Reply.byte ++ .fault :: rest →
      ∃ (t : State) (w : Work), exec (.pollEqual reg expected) s = .next t ∧
        w = { s.work with word := (rs.getLast?.map Reading.value).getD s.work.word, polls := rs.length } ∧
        stepN rs.length t = .next (faultEntry .busFault (insideCut rest (readTx s.env.params reg) rx bad
          { s with
            work := w
            trace := s.trace ++ readingFrames s.env.params reg rs })))

/-- O31. With POLL_LIMIT = INF a peripheral that never shows ready keeps any poll loop running: busy, no response, no
fault: With no limit, in every poll loop: the busy poll of CSR_CMD (C_POLL) and of either PRAM command register
(P_POLLBUSY), the availability poll of either (P_POLLAVAIL), the byte-test poll of INIT (I_POLL), each on behalf of
any operation, and any poll entered by itself (log 28). For any number of readings none of which is ready: after
that many steps the block is in the same loop and busy, POLLS has counted the reads, the visible registers are
unchanged, and its events are those reads and nothing else. The count POLLS = old + reads under POLL_LIMIT = INF is
the model's choice (log 23): POLLS is a natural number there, where the spec gives no width. (60_exceptions.md
section 5 (R240); 41_poller.md (R160 to R163); 10_state.md section 6 (R33, R35); log 23; log 28) -/
def Obligations.UnboundedPollNeverEnds : Prop :=
  ∀ (kind : PollKind) (reg : Addr) (rs : List Reading) (rest : List Reply) (s : State), InPoll kind reg s →
    s.env.resetIn = .off → PortReady s → s.env.params.pollLimit = none → Fitting s.env.params rs →
    (∀ r ∈ rs, staysIn kind r.value) → Answers (readingsRx rs) rest s →
    ∃ t, stepN rs.length s = .next t ∧ t.seq = s.seq ∧ t.busy = true ∧ InPoll kind reg t ∧ t.vis = s.vis ∧
      t.work.polls = s.work.polls + rs.length ∧ t.trace = s.trace ++ readingFrames s.env.params reg rs

/-- O32. CSR_READ writes the read command, polls 304 until busy is clear, and only then reads 300, whose low lanes are
the result: For n = 1, 2 or 4, every address and every answers that fit, from every resting state: CSR_READ
completes; its frames are one command word, the poll's reads of 0x304 and one read of 0x300, in this order; the
result (kept in RES, the model's choice, log 8) is the low n lanes of the data word, WORD is that word, POLLS the
number of reads, and nothing else of the block changes. That an accessor entered by itself ends without STATUS or a
response (log 9, 10) and leaves ADDR and SIZE (log 26), and POLLS under POLL_LIMIT = INF (log 23), are the model's
choice. (42_csr.md (R171); 30_encoding.md sections 3 and 4 (R110, R111, R115); log 8; log 9; log 10; log 23; log 26) -/
def Obligations.CsrReadRuns : Prop :=
  ∀ (addr : Addr) (n : SizeCode) (a : CsrAnswers) (rest : List Reply) (s : State), Resting s → s.env.sim = none →
    a.FitRead s.env.params → Answers a.readRx rest s →
    ∃ t, exec (.csrRead addr (match n with | .one => 1 | .two => 2 | .four => 4)) s = .next t ∧
      stepN (a.poll.all.length + 1) t = .next (afterEvents rest (a.readFrames s.env.params addr n)
        { s with
          seq := Seq.atRest
          work := { s.work with word := a.fetch.value, polls := a.poll.all.length }
          buf.res := match n with
            | .one => [a.fetch.value.extractLsb' 0 8]
            | .two => [a.fetch.value.extractLsb' 0 8, a.fetch.value.extractLsb' 8 8]
            | .four => [a.fetch.value.extractLsb' 0 8, a.fetch.value.extractLsb' 8 8,
                a.fetch.value.extractLsb' 16 8, a.fetch.value.extractLsb' 24 8] })

/-- O33. CSR_WRITE writes the data word to 300, then the command to 304, then polls until busy is clear: For 1, 2 or 4
bytes, every address and every answers that fit, from every resting state: CSR_WRITE completes; its frames are one
write of 0x300 of the word whose lanes are the bytes in order and whose other lanes are zero, one command word, and
the poll's reads of 0x304, in this order; WORD is the last word polled, POLLS the number of reads, and nothing else
of the block changes. That an accessor entered by itself ends without STATUS or a response (log 9, 10) and leaves
ADDR and SIZE (log 26), and POLLS under POLL_LIMIT = INF (log 23), are the model's choice. (42_csr.md (R172);
30_encoding.md sections 3 and 4 (R110, R111, R115); log 9; log 10; log 23; log 26) -/
def Obligations.CsrWriteRuns : Prop :=
  ∀ (addr : Addr) (n : SizeCode) (data : List Byte) (v : Word) (a : CsrAnswers) (rest : List Reply) (s : State),
    Resting s → s.env.sim = none → a.FitWrite s.env.params → Answers a.writeRx rest s →
    data.length = (match n with | .one => 1 | .two => 2 | .four => 4) →
    [v.extractLsb' 0 8, v.extractLsb' 8 8, v.extractLsb' 16 8, v.extractLsb' 24 8] =
      data ++ List.replicate (4 - data.length) 0 →
    ∃ t, exec (.csrWrite addr data) s = .next t ∧
      stepN (1 + a.poll.all.length) t = .next (afterEvents rest (a.writeFrames s.env.params addr n v)
        { s with
          seq := Seq.atRest
          work := { s.work with word := a.poll.ready.value, polls := a.poll.all.length } })

/-- O34. A CSR access of a length other than 1, 2 or 4 ends in INVALID_LENGTH with no bus traffic: In every idle state
with chip-select de-asserted and in every environment that applies no block reset before the response: CSR_READ with
n, and CSR_WRITE with n bytes, n not 1, 2 or 4, answer the state of fault entry with code 3 whose only event is the
response; no register but STATUS, FAULT_SEEN and the unspecified RBUF changes. (That an access entered by itself
emits a response is the model's choice, log 10.) (42_csr.md (R170); 60_exceptions.md section 1 (R233); log 10) -/
def Obligations.InvalidLengthComesBeforeAnyFrame : Prop :=
  ∀ (addr : Addr) (n : Nat) (data : List Byte) (s : State), s.seq.ph = .idle → s.wire = Wire.idle →
    s.env.resetIn ≠ .beforeRsp → n ≠ 1 → n ≠ 2 → n ≠ 4 → data.length = n →
    ∃ t, exec (.csrRead addr n) s = .next t ∧ exec (.csrWrite addr data) s = .next t ∧
      t.trace = s.trace ++ [.rsp 3 none s.vis.alEvent] ∧ t.vis = { s.vis with status := 3, faultSeen := true } ∧
      t.seq = Seq.atRest ∧ t.work = s.work ∧ t.latch = s.latch ∧ t.wire = Wire.idle ∧
      t.env.script = s.env.script ∧ t.env.sim = s.env.sim ∧ t.buf.wbuf = s.buf.wbuf ∧ t.buf.res = s.buf.res

/-- O35. PRAM_SETUP aborts, polls until busy is clear, programs address and length, starts, and polls until the FIFO is
available: For both directions, every 16-bit address and length and every answers that fit, from every resting
state: PRAM_SETUP completes; its frames are the abort word, the busy poll, the address/length word, the start word
and the availability poll, in this order, at the registers of the direction; WORD is the last word polled, POLLS the
reads of the second poll, FIFO_CNT bits 20:16 of the last word, and nothing else of the block changes. That an
accessor entered by itself ends without STATUS or a response (log 9, 10) and leaves ADDR and SIZE (log 26), and
POLLS under POLL_LIMIT = INF (log 23), are the model's choice. (43_pram.md (R180, R181); 30_encoding.md section 3
(R112, R114); log 9; log 10; log 23; log 26) -/
def Obligations.PramSetupRuns : Prop :=
  ∀ (d : Dir) (addr : Addr) (len : BitVec 16) (a : SetupAnswers) (rest : List Reply) (s : State), Resting s →
    s.env.sim = none → a.Fit s.env.params → Answers a.rx rest s →
    ∃ t, exec (.pramSetup d addr len) s = .next t ∧
      stepN a.steps t = .next (afterEvents rest
        (match d with
          | .rd => a.frames s.env.params 0x30C 0x308 addr len
          | .wr => a.frames s.env.params 0x314 0x310 addr len)
        { s with
          seq := Seq.atRest
          work := { s.work with
            word := a.avail.ready.value
            polls := a.avail.all.length
            fifoCnt := a.count } })

/-- O36. PRAM_READ returns the bytes of the FIFO words from the first-byte position on, the first word in a word frame,
the rest in one burst: For every admitted address and length, and every answers that fit, m words after the first
being ceil((addr mod 4 + len) / 4) - 1: PRAM_READ completes; after the setup its frames are one READ_WORD of 0x000
and one fast-read burst of 4 + 4m bytes at 0x000; the result (kept in RES, the model's choice, log 8) is the len
bytes of the words' lanes in order from lane addr mod 4 of the first word; FBP = addr mod 4, CUR = len, REM = 0,
WORD the last word, FIFO_CNT the count less 1 + m modulo 32; nothing else of the block changes. That an accessor
entered by itself ends without STATUS or a response (log 9, 10) and leaves ADDR and SIZE (log 26), and POLLS under
POLL_LIMIT = INF (log 23), are the model's choice. (43_pram.md (R181, R183, R184, R186, R187); 30_encoding.md
sections 2 and 4 (R106, R116, R117); 20_memory.md section 2 (R63); log 8; log 9; log 10; log 23; log 26) -/
def Obligations.PramReadRuns : Prop :=
  ∀ (addr : Addr) (len : BitVec 16) (a : SetupAnswers) (first : Reading) (header : List Byte) (words : List Word)
    (last : Word) (rest : List Reply) (s : State), Resting s → s.env.sim = none →
    1 ≤ len.toNat → addr.toNat + len.toNat ≤ 0x10000 → a.Fit s.env.params →
    first.skipped.length = readSkip s.env.params → header.length = 4 → words.length = laterWords addr len.toNat →
    (first.value :: words).getLast? = some last →
    Answers (a.rx ++ first.rx ++ header ++ words.flatMap le32) rest s →
    ∃ t, exec (.pramRead addr len) s = .next t ∧
      stepN (a.steps + 3 + words.length) t = .next (afterEvents rest
        (a.frames s.env.params 0x30C 0x308 addr len ++ wholeFrame (readTx s.env.params 0x000) first.rx ++
          wholeFrame ([0x0B, 0x00, 0x00, s.env.params.dummyByte] ++
            List.replicate (4 * words.length) s.env.params.fillByte) (header ++ words.flatMap le32))
        { s with
          seq := Seq.atRest
          work := { s.work with
            word := last
            polls := a.avail.all.length
            fifoCnt := a.count - BitVec.ofNat 5 (1 + words.length)
            fbp := addr.extractLsb' 0 2
            cur := len
            rem := 0 }
          buf.res := (((first.value :: words).flatMap le32).drop (addr.toNat % 4)).take len.toNat })

/-- O37. PRAM_WRITE sends its bytes in the lanes of their addresses, zero in every other lane, the first word in a word
frame, the rest in one burst: For every admitted address and bytes and every answers that fit: PRAM_WRITE completes;
after the setup its frames are one WRITE_WORD frame to 0x020 carrying the first four bytes of the stream and one
burst frame 02 00 20 carrying the rest, the stream being addr mod 4 zero bytes, the bytes, and zero bytes up to a
whole word; FBP = addr mod 4, CUR = len, REM = 0, WORD the last word sent, FIFO_CNT the count less the words sent
modulo 32; nothing else of the block changes. That an accessor entered by itself ends without STATUS or a response
(log 9, 10) and leaves ADDR and SIZE (log 26), and POLLS under POLL_LIMIT = INF (log 23), are the model's choice.
(43_pram.md (R181, R183, R185, R186, R187); 30_encoding.md sections 2 and 4 (R106, R116, R117); 20_memory.md section
2 (R63); log 9; log 10; log 23; log 26) -/
def Obligations.PramWriteRuns : Prop :=
  ∀ (addr : Addr) (data : List Byte) (a : SetupAnswers) (firstRx burstRx : List Byte) (last : Word)
    (rest : List Reply) (s : State), Resting s → s.env.sim = none →
    1 ≤ data.length → data.length ≤ 65535 → addr.toNat + data.length ≤ 0x10000 → a.Fit s.env.params →
    firstRx.length = 7 → burstRx.length = 3 + 4 * laterWords addr data.length →
    (pramStream addr data).drop (4 * laterWords addr data.length) =
      [last.extractLsb' 0 8, last.extractLsb' 8 8, last.extractLsb' 16 8, last.extractLsb' 24 8] →
    Answers (a.rx ++ firstRx ++ burstRx) rest s →
    ∃ t, exec (.pramWrite addr data) s = .next t ∧
      stepN (a.steps + 3 + laterWords addr data.length) t = .next (afterEvents rest
        (a.frames s.env.params 0x314 0x310 addr (BitVec.ofNat 16 data.length) ++
          wholeFrame ([0x02, 0x00, 0x20] ++ (pramStream addr data).take 4) firstRx ++
          wholeFrame ([0x02, 0x00, 0x20] ++ (pramStream addr data).drop 4) burstRx)
        { s with
          seq := Seq.atRest
          work := { s.work with
            word := last
            polls := a.avail.all.length
            fifoCnt := a.count - BitVec.ofNat 5 (1 + laterWords addr data.length)
            fbp := addr.extractLsb' 0 2
            cur := BitVec.ofNat 16 data.length
            rem := 0 } })

/-- O38. CHUNK writes to SIZE the size the three tests give, the first that applies deciding: For every address and
remaining count of at least 1, in every state: the operation completes, SIZE is 1 at an odd address; else, at an
address with bit 1 set, 1 when the candidate min(rem, 4) is odd and 2 when it is even; else 1 when the candidate is
3; else the candidate; and nothing else changes. (R201) -/
def Obligations.ChunkFollowsTheThreeTests : Prop :=
  ∀ (a : Addr) (rem : BitVec 16) (s : State), 1 ≤ rem.toNat →
    ∃ size : BitVec 3, exec (.chunk a rem) s = .next { s with work.size := size } ∧
      size.toNat =
        if a.toNat % 2 = 1 then 1
        else if a.toNat / 2 % 2 = 1 then (if min rem.toNat 4 % 2 = 1 then 1 else 2)
        else if min rem.toNat 4 = 3 then 1
        else min rem.toNat 4

/-- O39. The chunks of every admitted request are 1, 2 or 4 bytes, naturally aligned, contiguous, and sum to its length:
For every address and length with 1 <= len and addr + len <= 0x10000: every chunk has size 1, 2 or 4, which divides
its address; the sizes sum to len; each chunk begins where the one before ends, the first at addr; there are at
least ceil(len / 4) and at most len of them. (44_router.md (R202, R207); 20_memory.md section 3 (R66)) -/
def Obligations.ChunksAreAlignedAndSumToTheLength : Prop :=
  ∀ (addr : Addr) (len : BitVec 16), 1 ≤ len.toNat → addr.toNat + len.toNat ≤ 0x10000 →
    (∀ c ∈ chunkList len.toNat addr len, (c.2 = 1 ∨ c.2 = 2 ∨ c.2 = 4) ∧ c.1.toNat % c.2 = 0) ∧
      ((chunkList len.toNat addr len).map Prod.snd).sum = len.toNat ∧
      (∀ i (h : i < (chunkList len.toNat addr len).length), ((chunkList len.toNat addr len)[i]).1.toNat =
        addr.toNat + (((chunkList len.toNat addr len).take i).map Prod.snd).sum) ∧
      (len.toNat + 3) / 4 ≤ (chunkList len.toNat addr len).length ∧
      (chunkList len.toNat addr len).length ≤ len.toNat

/-- O40. READ and WRITE are accepted when idle and in range, latching the request; otherwise refused without a step:
Idle and admitted: the operation answers the state with OP, REQ_ADDR and REQ_LEN written (WBUF too, for a WRITE),
the event REQ and the phase R_DISPATCH, nothing else changed. Busy: refused as busy. Idle and outside the range:
refused as not admitted. That a request the spec's contract excludes is refused is the spec's 'a model refuses it'
(log 16). (10_state.md section 4 (R25, R26, R27); 20_memory.md section 1 (R71); 60_exceptions.md section 5 (R246);
log 16) -/
def Obligations.RequestsAreLatchedOrRefused : Prop :=
  (∀ (addr : Addr) (len : BitVec 16) (s : State), s.busy = false → 1 ≤ len.toNat →
      addr.toNat + len.toNat ≤ 0x10000 →
      exec (.read addr len) s = .next { s with
        seq := ⟨.rDispatch, .host, false⟩
        latch := ⟨.read, addr, len⟩
        trace := s.trace ++ [.req .read addr len []] }) ∧
    (∀ (addr : Addr) (data : List Byte) (s : State), s.busy = false → 1 ≤ data.length → data.length ≤ 65535 →
      addr.toNat + data.length ≤ 0x10000 →
      exec (.write addr data) s = .next { s with
        seq := ⟨.rDispatch, .host, false⟩
        latch := ⟨.write, addr, BitVec.ofNat 16 data.length⟩
        buf.wbuf := data
        trace := s.trace ++ [.req .write addr (BitVec.ofNat 16 data.length) data] }) ∧
    (∀ (addr : Addr) (len : BitVec 16) (data : List Byte) (s : State), s.busy = true →
      exec (.read addr len) s = .refused .busy ∧ exec (.write addr data) s = .refused .busy ∧
      exec .init s = .refused .busy ∧ exec .reset s = .refused .busy) ∧
    (∀ (addr : Addr) (len : BitVec 16) (s : State), s.busy = false →
      len.toNat = 0 ∨ 0x10000 < addr.toNat + len.toNat → exec (.read addr len) s = .refused .notAdmitted) ∧
    (∀ (addr : Addr) (data : List Byte) (s : State), s.busy = false →
      data.length = 0 ∨ 65535 < data.length ∨ 0x10000 < addr.toNat + data.length →
      exec (.write addr data) s = .refused .notAdmitted)

/-- O41. A request is handed to the PRAM accessor exactly when its first address is at least 1000, by an unsigned
comparison of 16 bits: In phase R_DISPATCH of a host operation, with no reset applied: the next state is in P_ABORT,
nothing else changed, when REQ_ADDR is at least 0x1000; otherwise it is in R_CHUNK with ADDR = REQ_ADDR, CUR = 0 and
REM = REQ_LEN, nothing else changed. No frame is issued. (44_router.md (R200, R203, R204); 20_memory.md section 1
(R72); 10_state.md section 6 (R33, row R_DISPATCH)) -/
def Obligations.TheFirstAddressDecidesThePath : Prop :=
  ∀ s : State, s.seq.ph = .rDispatch → s.seq.caller = .host → s.env.resetIn = .off →
    (0x1000 ≤ s.latch.reqAddr.toNat → step s = .next { s with seq.ph := .pAbort }) ∧
    (s.latch.reqAddr.toNat < 0x1000 → step s = .next { s with
      seq.ph := .rChunk
      work := { s.work with addr := s.latch.reqAddr, cur := 0, rem := s.latch.reqLen } })

/-- O42. One chunk of a READ is one CSR read of SIZE bytes at ADDR; its bytes go to RBUF at CUR and the cursors advance
by SIZE: From R_CHUNK of a READ with bytes remaining, for the size n the chunk function gives and every answers that
fit: after the computation, the command, the poll and the fetch the block is in R_CHUNK again; the frames are those
of CSR_READ of n bytes at ADDR; RBUF holds the bytes below CUR as before and then the n bytes read; ADDR, CUR
advanced and REM lowered by n; SIZE = n. What RBUF holds in mid-READ, the bytes below CUR and those just read and no
later one, is the model's choice (log 7), and so is RES, where the bytes of the access are kept (log 8). POLLS under
POLL_LIMIT = INF is the model's choice too (log 23), and what a step is, log 25's reading of the phases.
(44_router.md (R201, R203); 42_csr.md (R171); 10_state.md section 6 (R33); log 7; log 8; log 23; log 25) -/
def Obligations.OneChunkOfAReadRuns : Prop :=
  ∀ (n : SizeCode) (a : CsrAnswers) (rest : List Reply) (s : State), s.seq = ⟨.rChunk, .host, false⟩ →
    s.latch.op = .read → s.wire = Wire.idle → s.env.resetIn = .off → s.env.sim = none → s.work.rem ≠ 0 →
    (chunkSize s.work.addr s.work.rem).toNat = sizeBytes n → a.FitRead s.env.params → Answers a.readRx rest s →
    stepN (2 + a.poll.all.length + 1) s = .next (afterEvents rest (a.readFrames s.env.params s.work.addr n)
      { s with
        work := { s.work with
          addr := s.work.addr + BitVec.ofNat 16 (sizeBytes n)
          cur := s.work.cur + BitVec.ofNat 16 (sizeBytes n)
          rem := s.work.rem - BitVec.ofNat 16 (sizeBytes n)
          size := BitVec.ofNat 3 (sizeBytes n)
          word := a.fetch.value
          polls := a.poll.all.length }
        buf := { s.buf with
          res := (le32 a.fetch.value).take (sizeBytes n)
          rbuf := s.buf.rbuf.take s.work.cur.toNat ++ (le32 a.fetch.value).take (sizeBytes n) } })

/-- O43. One chunk of a WRITE is one CSR write of WBUF[CUR ..] at ADDR and the cursors advance by SIZE: From R_CHUNK of
a WRITE with bytes remaining in WBUF, for the size n the chunk function gives and every answers that fit: after the
computation, the data word, the command and the poll the block is in R_CHUNK again; the frames are those of
CSR_WRITE at ADDR of the n bytes of WBUF from CUR; ADDR, CUR advanced and REM lowered by n; SIZE = n; RBUF and WBUF
unchanged. POLLS under POLL_LIMIT = INF is the model's choice (log 23), and what a step is, log 25's reading of the
phases. (44_router.md (R201, R204); 42_csr.md (R172); 10_state.md section 6 (R33); log 23; log 25) -/
def Obligations.OneChunkOfAWriteRuns : Prop :=
  ∀ (n : SizeCode) (v : Word) (a : CsrAnswers) (rest : List Reply) (s : State),
    s.seq = ⟨.rChunk, .host, false⟩ → s.latch.op = .write → s.wire = Wire.idle → s.env.resetIn = .off →
    s.env.sim = none → s.work.rem ≠ 0 → (chunkSize s.work.addr s.work.rem).toNat = sizeBytes n →
    s.work.cur.toNat + sizeBytes n ≤ s.buf.wbuf.length →
    le32 v = (s.buf.wbuf.drop s.work.cur.toNat).take (sizeBytes n) ++ List.replicate (4 - sizeBytes n) 0 →
    a.FitWrite s.env.params → Answers a.writeRx rest s →
    stepN (3 + a.poll.all.length) s = .next (afterEvents rest (a.writeFrames s.env.params s.work.addr n v)
      { s with
        work := { s.work with
          addr := s.work.addr + BitVec.ofNat 16 (sizeBytes n)
          cur := s.work.cur + BitVec.ofNat 16 (sizeBytes n)
          rem := s.work.rem - BitVec.ofNat 16 (sizeBytes n)
          size := BitVec.ofNat 3 (sizeBytes n)
          word := a.poll.ready.value
          polls := a.poll.all.length } })

/-- O44. The refresh is one 2-byte CSR read at AL_EVENT_ADDR; with its last frame the mirror, STATUS and the response
are written: From R_ALEV of a host READ or WRITE, for every answers that fit: the frames are those of CSR_READ of 2
bytes at AL_EVENT_ADDR; then AL_EVENT is bits 15:0 of the data word (the byte at AL_EVENT_ADDR in bits 7:0), STATUS
= 0, FAULT_SEEN unchanged, the response carries RBUF for a READ and nothing for a WRITE, with the new mirror, and
the block is idle. AL_REFRESH entered by itself (log 9) completes from every resting state with the same frames and
the same mirror, WORD the data word, POLLS the reads, the result (RES, log 8) the two bytes; STATUS, FAULT_SEEN,
RBUF and everything else of the block unchanged, and no response. That AL_REFRESH by itself writes no STATUS and
emits no response (log 10), that the refresh leaves ADDR and SIZE (log 26), and POLLS under POLL_LIMIT = INF (log
23), are the model's choice. (44_router.md (R206); 60_exceptions.md section 4 (R238); 10_state.md section 6 (R33,
row R_ALEV); log 8; log 9; log 10; log 23; log 25; log 26) -/
def Obligations.TheRefreshEndsEveryReadAndWrite : Prop :=
  (∀ (a : CsrAnswers) (rest : List Reply) (s : State), s.seq = ⟨.rAlev, .host, false⟩ → s.wire = Wire.idle →
    s.env.resetIn = .off → s.env.sim = none → a.FitRead s.env.params → Answers a.readRx rest s →
    stepN (2 + a.poll.all.length + 1) s = .next (afterEvents rest
      (a.readFrames s.env.params s.env.params.alEventAddr .two ++
        [.rsp 0 (if s.latch.op = .read then some s.buf.rbuf else none) (a.fetch.value.extractLsb' 0 16)])
      { s with
        seq := Seq.atRest
        vis := ⟨a.fetch.value.extractLsb' 0 16, 0, s.vis.faultSeen⟩
        work := { s.work with word := a.fetch.value, polls := a.poll.all.length }
        buf.res := [a.fetch.value.extractLsb' 0 8, a.fetch.value.extractLsb' 8 8] })) ∧
  (∀ (a : CsrAnswers) (rest : List Reply) (s : State), Resting s → s.env.sim = none → a.FitRead s.env.params →
    Answers a.readRx rest s →
    ∃ t, exec .alRefresh s = .next t ∧
      stepN (a.poll.all.length + 1) t = .next (afterEvents rest
        (a.readFrames s.env.params s.env.params.alEventAddr .two)
        { s with
          seq := Seq.atRest
          vis := { s.vis with alEvent := a.fetch.value.extractLsb' 0 16 }
          work := { s.work with word := a.fetch.value, polls := a.poll.all.length }
          buf.res := [a.fetch.value.extractLsb' 0 8, a.fetch.value.extractLsb' 8 8] }))

/-- O45. AL_EVENT changes only at the end of a refresh: From every state with no reset applied and none coming, a step
to a next state in which AL_EVENT differs is the data fetch of a refresh, and ends idle with FAULT_SEEN as it was,
no exchange of it having faulted and no response of it reporting a fault. So INIT, RESET, a faulted operation and
every other operation leave it. (10_state.md section 2 (R20); 44_router.md (R206); 60_exceptions.md section 4
(R236)) -/
def Obligations.TheMirrorIsWrittenOnlyByTheRefresh : Prop :=
  ∀ s t : State, s.env.resetIn = .off → Reply.reset ∉ s.env.script → step s = .next t →
    t.vis.alEvent ≠ s.vis.alEvent → s.seq.ph = .cFetch ∧ s.seq.refresh = true ∧ t.seq.ph = .idle ∧
      t.vis.faultSeen = s.vis.faultSeen ∧ (∀ b, Event.xferFault b ∉ t.trace.drop s.trace.length) ∧
      ∀ code data al, Event.rsp code data al ∈ t.trace.drop s.trace.length → code = 0 ∧ t.vis.status = 0

/-- O46. INIT writes RESET_CTL_VALUE to 1F8 and polls 064 for BYTE_TEST_EXPECTED, after the reset-SQI frame when the
parameter says so: From every resting state, for every answers that fit: INIT is accepted with the event REQ, then
its frames are FF (only when INIT_SEND_RESET_SQI), one WRITE_WORD of RESET_CTL_VALUE to 0x1F8 and the reads of 0x064
until the value is BYTE_TEST_EXPECTED; then STATUS = 0, FAULT_SEEN and AL_EVENT unchanged, the response, idle.
REQ_ADDR and REQ_LEN stay (log 14). POLLS under POLL_LIMIT = INF is the model's choice (log 23). (45_system.md
(R220); 60_exceptions.md section 4 (R238); log 14; log 23; log 25) -/
def Obligations.InitRuns : Prop :=
  ∀ (sqi : Byte) (ctl : List Byte) (a : PollAnswers) (rest : List Reply) (s : State), Resting s → s.env.sim = none →
    ctl.length = 7 → a.Fit s.env.params (fun v => v == s.env.params.byteTestExpected) →
    Answers ((if s.env.params.initSendResetSqi then [sqi] else []) ++ ctl ++ readingsRx a.all) rest s →
    ∃ t, exec .init s = .next t ∧
      stepN ((if s.env.params.initSendResetSqi then 1 else 0) + 1 + a.all.length) t = .next (afterEvents rest
        (.req .init 0 0 [] ::
          (if s.env.params.initSendResetSqi then [.csAssert, .xfer 0xFF sqi, .csDeassert] else []) ++
          wholeFrame (writeTx 0x1F8 s.env.params.resetCtlValue) ctl ++ readingFrames s.env.params 0x064 a.all ++
          [.rsp 0 none s.vis.alEvent])
        { s with
          seq := Seq.atRest
          latch.op := .init
          vis.status := 0
          work := { s.work with word := a.ready.value, polls := a.all.length } })

/-- O47. The host operation RESET completes at once: no frame, STATUS = 0, the response, nothing else: In every idle
state and every environment that applies no block reset before the response: RESET answers the state with the events
REQ and RSP, STATUS = 0 and OP latched (log 14); FAULT_SEEN, AL_EVENT, chip-select, the other registers and the
peripheral are unchanged. (45_system.md (R221); log 14) -/
def Obligations.ResetRequestIsANoOp : Prop :=
  ∀ s : State, s.busy = false → s.env.resetIn ≠ .beforeRsp →
    exec .reset s = .next { s with
      seq := Seq.atRest
      latch.op := .reset
      vis.status := 0
      trace := s.trace ++ [.req .reset 0 0 [], .rsp 0 none s.vis.alEvent] }

/-- O48. Fault entry: chip-select de-asserted, nothing left to run, STATUS and FAULT_SEEN written, AL_EVENT kept, RBUF
unspecified, response, idle: For every cause and state: the code is 1, 2 or 3; CS = 0 with one CS_DEASSERT event
exactly when it was 1; PH = IDLE with nothing in progress; STATUS = the code, FAULT_SEEN = 1, AL_EVENT kept; the
response with the code, no data and AL_EVENT is the last event; the latch, working registers, WBUF, parameters,
presented requests and script are kept; RBUF has REQ_LEN bytes of which nothing is said (log 6). Raising a fault is
fault entry, unless block reset comes before the response (BlockResetAbandonsEverything, log 22). (60_exceptions.md
section 4 (R236); 60_exceptions.md section 1 (R234); log 6; log 22) -/
def Obligations.FaultEntryDoesItsSixThings : Prop :=
  ∀ (c : Cause) (s : State), ∃ code : BitVec 2,
    code = (match c with | .busFault => 1 | .deviceUnresponsive => 2 | .invalidLength => 3) ∧
    (faultEntry c s).vis = ⟨s.vis.alEvent, code, true⟩ ∧ (faultEntry c s).seq = Seq.atRest ∧
    (faultEntry c s).wire.cs = false ∧
    (faultEntry c s).trace =
      s.trace ++ (if s.wire.cs then [.csDeassert] else []) ++ [.rsp code none s.vis.alEvent] ∧
    (faultEntry c s).latch = s.latch ∧ (faultEntry c s).work = s.work ∧
    (faultEntry c s).buf.wbuf = s.buf.wbuf ∧ (faultEntry c s).buf.rbuf.length = s.latch.reqLen.toNat ∧
    (faultEntry c s).env.params = s.env.params ∧ (faultEntry c s).env.inputs = s.env.inputs ∧
    (faultEntry c s).env.script = s.env.script ∧
    (s.env.resetIn ≠ .beforeRsp → raise c s = faultEntry c s)

/-- O49. STATUS and FAULT_SEEN change only with the response that ends an operation; a fault's response has no data;
FAULT_SEEN is never cleared: From every state with no reset applied and none coming, in a step to a next state: if
STATUS or FAULT_SEEN differs, the block is idle and the last event is the response with the new STATUS and the new
AL_EVENT, without data when STATUS is not 0; and FAULT_SEEN stays 1 once it is 1. (10_state.md section 2 (R21, R22);
60_exceptions.md sections 4 and 5 (R236, R238, R239)) -/
def Obligations.StatusIsWrittenOnlyWithAResponse : Prop :=
  ∀ s t : State, s.env.resetIn = .off → Reply.reset ∉ s.env.script → step s = .next t →
    (t.vis.status ≠ s.vis.status ∨ t.vis.faultSeen ≠ s.vis.faultSeen →
      t.seq.ph = .idle ∧ ∃ data, t.trace.getLast? = some (.rsp t.vis.status data t.vis.alEvent) ∧
        (t.vis.status ≠ 0 → data = none)) ∧
    (s.vis.faultSeen = true → t.vis.faultSeen = true)

/-- O50. No step takes back an event or changes a parameter: From every state, a step to a next state, block reset and
fault entry included, extends the trace at its end (or leaves it) and leaves the parameter record. (00_scope.md
section 5 (R12); 00_scope.md section 4 (R7); 70_reset_and_hazards.md section 2 (R263)) -/
def Obligations.EventsAndParametersAreKept : Prop :=
  ∀ s t : State, step s = .next t → s.trace <+: t.trace ∧ t.env.params = s.env.params

/-- O51. A visit to a phase leads to one of the phases the table gives, or to IDLE: From every busy state with the
invariants, with no reset applied, a step leads to IDLE or to a successor of the phase in the table of phases; with
nothing but the four host operations presented, an idle block goes to R_DISPATCH, I_SQI, I_RESET or stays in IDLE.
(10_state.md section 6 (R33)) -/
def Obligations.PhasesFollowTheTable : Prop :=
  (∀ s t : State, BlockInv s → PollInv s → s.env.resetIn = .off → s.accepting = false → step s = .next t →
      t.seq.ph = .idle ∨ t.seq.ph ∈ successors s.seq.ph) ∧
    (∀ (i : Instr) (s t : State), s.seq.ph = .idle →
      (i = .init ∨ i = .reset ∨ (∃ addr len, i = .read addr len) ∨ ∃ addr data, i = .write addr data) →
      exec i s = .next t → t.seq.ph = .idle ∨ t.seq.ph ∈ successors .idle)

/-- O52. No step depends on FIFO_CNT: two states that differ only in it step alike and differ only in it afterwards:
From every state and every value of FIFO_CNT: a step of the state with that value in FIFO_CNT answers a next state
exactly when a step of the state itself does, and the two next states differ at most in FIFO_CNT; it stops in the
same fault or refusal exactly when the other does. (43_pram.md (R182, R186); 70_reset_and_hazards.md section 3
(R267)) -/
def Obligations.FifoCountIsInformational : Prop :=
  ∀ (s : State) (c : BitVec 5),
    (∀ t, step s = .next t → ∃ d, step (s.setFifoCnt c) = .next (t.setFifoCnt d)) ∧
    (∀ r, step s = .fault r → step (s.setFifoCnt c) = .fault r) ∧
    (∀ r, step s = .refused r → step (s.setFifoCnt c) = .refused r)

/-- O53. With a finite POLL_LIMIT every READ, WRITE and INIT ends, whatever the peripheral does, within a bound: With
POLL_LIMIT = L, from every idle state with no reset applied, in every environment: an admitted READ or WRITE of len
bytes is accepted and the block is idle again after at most (len + 3) * (L + 6) further steps; INIT after at most L
+ 3. What a step is, and so the bound, is log 25's reading of the phases. (10_state.md section 6 (R35); 41_poller.md
(R162, R164); log 25) -/
def Obligations.EveryRequestEnds : Prop :=
  ∀ (limit : Nat) (s : State), s.env.params.pollLimit = some limit → 1 ≤ limit → s.seq.ph = .idle →
    s.env.resetIn = .off →
    (∀ (addr : Addr) (len : BitVec 16), 1 ≤ len.toNat → addr.toNat + len.toNat ≤ 0x10000 →
      ∃ a k t, exec (.read addr len) s = .next a ∧ k ≤ (len.toNat + 3) * (limit + 6) ∧
        stepN k a = .next t ∧ t.seq.ph = .idle) ∧
    (∀ (addr : Addr) (data : List Byte), 1 ≤ data.length → data.length ≤ 65535 →
      addr.toNat + data.length ≤ 0x10000 →
      ∃ a k t, exec (.write addr data) s = .next a ∧ k ≤ (data.length + 3) * (limit + 6) ∧
        stepN k a = .next t ∧ t.seq.ph = .idle) ∧
    (∃ a k t, exec .init s = .next a ∧ k ≤ limit + 3 ∧ stepN k a = .next t ∧ t.seq.ph = .idle)

/-- O54. Block reset at any time: chip-select de-asserted, no response, every register of the block at its reset value,
the peripheral not reset: With reset applied, in every state: the step only de-asserts CS (if it was 1); idle,
nothing in progress, CS = 0, STATUS = 0, FAULT_SEEN = 0; AL_EVENT is not said; parameters, requests, the
environment's answers, memory and registers of an attached peripheral are kept. The same state results, with no
further byte, from reset at any exchange of any whole frame, of a written data word, of a burst header, and of a
burst word in either direction; and from reset after the last frame but before the response: of RESET, of a READ or
WRITE (its refresh), of INIT (its byte test), and of any raised fault. The latch, working registers and buffers then
hold the values State.reset has for them, which are the model's choice (log 5): the spec leaves them unspecified.
That the reset input is released by the reset it causes is the model's choice too (log 22). (70_reset_and_hazards.md
section 1 (R260, R261, R262); log 4; log 5; log 22) -/
def Obligations.BlockResetAbandonsEverything : Prop :=
  (∀ s : State, s.env.resetIn = .now →
      ∃ t, step s = .next t ∧ IsResetOf s t (if s.wire.cs then [.csDeassert] else []) ∧
        t.env.script = s.env.script ∧
        t.env.sim.map (fun e => (e.mem, e.reg)) = s.env.sim.map (fun e => (e.mem, e.reg))) ∧
    (∀ (i : Instr) (tx rx : List Byte) (rest : List Reply) (s : State), PortReady s →
      (frameTx s.env.params i = some tx ∨
        (∃ n v, i = .csrDataWord .wr n v ∧ tx = writeTx 0x300 v) ∨
        (∃ fbp n0 v, i = .pramFirstWord .wr fbp n0 v ∧ tx = writeTx 0x020 v) ∨
        (i = .burstOpenWrite ∧ tx = [0x02, 0x00, 0x20]) ∨
        (i = .burstOpenRead ∧ tx = [0x0B, 0x00, 0x00, s.env.params.dummyByte])) →
      rx.length < tx.length → s.env.script = rx.map Reply.byte ++ .reset :: rest →
      ∃ t, exec i s = .next t ∧ IsResetOf s t (.csAssert :: exchanged tx rx ++ [.csDeassert]) ∧
        t.env.script = rest) ∧
    (∀ (i : Instr) (tx rx : List Byte) (rest : List Reply) (s : State), s.env.sim = none → s.wire.cs = true →
      ((∃ v, s.wire.burst = some .wr ∧ i = .burstPush v ∧ tx = le32 v) ∨
        (∃ n v, s.wire.burst = some .wr ∧ i = .pramNextWord .wr n v ∧ tx = le32 v) ∨
        (s.wire.burst = some .rd ∧ i = .burstPop ∧ tx = List.replicate 4 s.env.params.fillByte)) →
      rx.length < 4 → s.env.script = rx.map Reply.byte ++ .reset :: rest →
      ∃ t, exec i s = .next t ∧ IsResetOf s t (exchanged tx rx ++ [.csDeassert]) ∧ t.env.script = rest) ∧
    (∀ s : State, s.busy = false → s.wire = Wire.idle → s.env.resetIn = .beforeRsp →
      ∃ t, exec .reset s = .next t ∧ IsResetOf s t [.req .reset 0 0 []]) ∧
    (∀ (r : Reading) (rest : List Reply) (s : State), s.seq = ⟨.cFetch, .host, true⟩ → PortReady s →
      s.env.resetIn = .beforeRsp → r.skipped.length = readSkip s.env.params → Answers r.rx rest s →
      ∃ t, step s = .next t ∧ IsResetOf s t (wholeFrame (readTx s.env.params 0x300) r.rx) ∧ t.env.script = rest) ∧
    (∀ (r : Reading) (rest : List Reply) (s : State), s.seq = ⟨.iPoll, .host, false⟩ → PortReady s →
      s.env.resetIn = .beforeRsp → r.skipped.length = readSkip s.env.params →
      r.value = s.env.params.byteTestExpected → Answers r.rx rest s →
      ∃ t, step s = .next t ∧ IsResetOf s t (wholeFrame (readTx s.env.params 0x064) r.rx) ∧ t.env.script = rest) ∧
    (∀ (c : Cause) (s : State), s.env.resetIn = .beforeRsp →
      IsResetOf s (raise c s) (if s.wire.cs then [.csDeassert] else []) ∧ (raise c s).env.script = s.env.script)

/-- O55. Against the reference peripheral a word write is one register write and a word read one register read, and the
block is otherwise unchanged: With SimESC attached, between frames, answering alone: WRITE_WORD leaves it as
RegWrite of the value leaves it, READ_WORD leaves it as RegRead leaves it and puts the value read in WORD; it is
between frames again; nothing else of the block changes. (20_memory.md section 7 (R86, R87); log 20) -/
def Obligations.WordFramesReachThePeripheral : Prop :=
  ∀ (reg : Addr) (v : Word) (e : SimEsc) (s : State), SimReady e s → s.wire = Wire.idle →
    exec (.writeWord reg v) s = .next { s with
      env.sim := some (simRegWrite e reg v)
      trace := s.trace ++ wholeFrame (writeTx reg v) (List.replicate 7 0) } ∧
    exec (.readWord reg) s = .next { s with
      env.sim := some (simRegRead e reg).2
      work.word := (simRegRead e reg).1
      trace := s.trace ++ wholeFrame (readTx s.env.params reg)
        (List.replicate (readSkip s.env.params) 0 ++ le32 (simRegRead e reg).1) }

/-- O56. Against the reference peripheral a CSR write command stores the low lanes of CSR_DATA and nothing else; a read
command loads them and stores nothing: With SimESC attached, between frames, answering alone, its memory canonical:
after CSRCMD.WRITE of n bytes at a, byte a + i of its memory is lane i of its register 0x300 for i < n below address
0x10000, and every other byte reads as before; after CSRCMD.READ, lane i of register 0x300 is the byte at a + i for
i < n and zero above, and every byte of memory reads as before. (20_memory.md section 7 (R88); 20_memory.md section
6 (R83); log 20) -/
def Obligations.CsrCommandsMoveMemory : Prop :=
  ∀ (n : SizeCode) (a : Addr) (e : SimEsc) (s : State), SimReady e s → SimWf e → s.wire = Wire.idle →
    (∃ t e', exec (.csrcmdWrite n a) s = .next t ∧ t.env.sim = some e' ∧
      (∀ x, x < 0x10000 → memGet e'.mem x =
        if a.toNat ≤ x ∧ x < a.toNat + sizeBytes n
        then (sparseGet e.reg 0x300).extractLsb' (8 * (x - a.toNat)) 8 else memGet e.mem x)) ∧
    (∃ t e', exec (.csrcmdRead n a) s = .next t ∧ t.env.sim = some e' ∧
      (∀ x, memGet e'.mem x = memGet e.mem x) ∧
      (∀ j, j < 4 → (sparseGet e'.reg 0x300).extractLsb' (8 * j) 8 =
        if j < sizeBytes n then memGet e.mem (a.toNat + j) else 0))

/-- O57. Against the reference peripheral a written FIFO word stores exactly the lanes that lie in the programmed range:
With SimESC attached, between frames, answering alone, its memory canonical, a write transfer of ln bytes at ad in
progress at word k: after a written PRAM_FIRST_WORD, the byte at x is lane j of the word when x = (ad - ad mod 4) +
4k + j with j < 4 and ad <= x < ad + ln, and every other byte reads as before; the transfer is at word k + 1.
(20_memory.md section 7 (R93); 10_state.md section 8 (R44); log 20) -/
def Obligations.FifoWordStoresItsLanes : Prop :=
  ∀ (fbp : BitVec 2) (n0 : Nat) (v : Word) (c : WrCtx) (e : SimEsc) (s : State), SimReady e s → SimWf e →
    s.wire = Wire.idle → e.wrCtx = some c → c.addr + c.len ≤ 0x10000 →
    ∃ t e', exec (.pramFirstWord .wr fbp n0 v) s = .next t ∧ t.env.sim = some e' ∧
      e'.wrCtx = some { c with k := c.k + 1 } ∧
      (∀ x, x < 0x10000 → memGet e'.mem x =
        if c.addr - c.addr % 4 + 4 * c.k ≤ x ∧ x < c.addr - c.addr % 4 + 4 * c.k + 4 ∧ c.addr ≤ x ∧ x < c.addr + c.len
        then v.extractLsb' (8 * (x - (c.addr - c.addr % 4 + 4 * c.k))) 8 else memGet e.mem x)

/-- O58. Against the reference peripheral READ returns the bytes of its memory, leaves it as it was, and ends with a
fresh mirror: With SimESC attached, canonical (as BlockInv has it), between frames, answering alone, its poll counts
within the limit, from every idle state: every admitted READ, on the CSR path or the PRAM path, completes: STATUS =
0, FAULT_SEEN unchanged, RBUF is the len bytes of its memory at addr, AL_EVENT is its AL-event register, the last
event is the response with both, and its memory is unchanged and it can serve the next request (canonical, between
frames, answering alone). The reference peripheral is attached as log 20 says. (44_router.md (R203); 20_memory.md
section 7 (R95); 20_memory.md section 6 (R83); 60_exceptions.md section 4 (R238); log 20) -/
def Obligations.ReadReturnsMemory : Prop :=
  ∀ (addr : Addr) (len : BitVec 16) (e : SimEsc) (s : State), s.seq.ph = .idle → s.wire = Wire.idle → s.env.resetIn = .off →
    SimReady e s → SimWf e →
    1 ≤ len.toNat → addr.toNat + len.toNat ≤ 0x10000 →
    ∃ a k t e', exec (.read addr len) s = .next a ∧ stepN k a = .next t ∧ t.seq = Seq.atRest ∧
      t.wire = Wire.idle ∧ t.env.resetIn = .off ∧ SimReady e' t ∧ SimWf e' ∧ e'.mem = e.mem ∧
      t.buf.rbuf = memRead e.mem addr.toNat len.toNat ∧
      t.vis = ⟨simAlEvent s.env.params e.mem, 0, s.vis.faultSeen⟩ ∧
      t.trace.getLast? = some (.rsp 0 (some (memRead e.mem addr.toNat len.toNat)) (simAlEvent s.env.params e.mem))

/-- O59. Against the reference peripheral WRITE stores its bytes at their addresses and nothing else, and ends with a
fresh mirror: With SimESC attached, canonical (as BlockInv has it), between frames, answering alone, its poll counts
within the limit, from every idle state: every admitted WRITE, on the CSR path or the PRAM path, completes: its
memory is the old one with the bytes written at addr and up (so every other byte reads as before), STATUS = 0,
FAULT_SEEN unchanged, AL_EVENT is its AL-event register after the store, the last event is the response, and it can
serve the next request (canonical, between frames, answering alone). The reference peripheral is attached as log 20
says. (44_router.md (R204); 20_memory.md section 7 (R95); 20_memory.md section 6 (R83); 60_exceptions.md section 4
(R238); log 20) -/
def Obligations.WriteStoresItsBytes : Prop :=
  ∀ (addr : Addr) (data : List Byte) (e : SimEsc) (s : State), s.seq.ph = .idle → s.wire = Wire.idle → s.env.resetIn = .off →
    SimReady e s → SimWf e →
    1 ≤ data.length → data.length ≤ 65535 → addr.toNat + data.length ≤ 0x10000 →
    ∃ a k t e', exec (.write addr data) s = .next a ∧ stepN k a = .next t ∧ t.seq = Seq.atRest ∧
      t.wire = Wire.idle ∧ t.env.resetIn = .off ∧ SimReady e' t ∧ SimWf e' ∧
      e'.mem = memWrite addr.toNat data e.mem ∧
      t.vis = ⟨simAlEvent s.env.params e'.mem, 0, s.vis.faultSeen⟩ ∧
      t.trace.getLast? = some (.rsp 0 none t.vis.alEvent)

/-- O60. Against the reference peripheral a WRITE followed by a READ of the same range returns the bytes written: The
source's round-trip property, for every admitted range and both paths, from every idle state with SimESC attached,
canonical, answering alone and its poll counts within the limit. The reference peripheral is attached as log 20
says. (20_memory.md section 6 (R83); 20_memory.md section 7 (R95); log 20) -/
def Obligations.WriteThenReadRoundTrip : Prop :=
  ∀ (addr : Addr) (data : List Byte) (e : SimEsc) (s : State), s.seq.ph = .idle → s.wire = Wire.idle → s.env.resetIn = .off →
    SimReady e s → SimWf e →
    1 ≤ data.length → data.length ≤ 65535 → addr.toNat + data.length ≤ 0x10000 →
    ∃ a j b c k t, exec (.write addr data) s = .next a ∧ stepN j a = .next b ∧ b.seq = Seq.atRest ∧
      exec (.read addr (BitVec.ofNat 16 data.length)) b = .next c ∧ stepN k c = .next t ∧ t.seq = Seq.atRest ∧
      t.vis.status = 0 ∧ t.buf.rbuf = data
end

