-- ==== Sys2Proof/Laws/Memory.lean ====
section
/-! SUPPORT. The sparse lists of Machine/Memory.lean: a read after a write, and that every operation of the reference
peripheral keeps the canonical form. -/

namespace Sys2Proof.Machine

section Sparse
variable {w : Nat}

/-- Every key of a list is above `lo`. -/
abbrev Above (lo : Nat) (m : List (Nat × BitVec w)) : Prop := ∀ p ∈ m, lo < p.1

theorem sparseGet_of_above {m : List (Nat × BitVec w)} {a : Nat} (h : Above a m) : sparseGet m a = 0 := by
  induction m with
  | nil => rfl
  | cons p m ih =>
    have h1 : a < p.1 := h p (by simp)
    simp [sparseGet, show a ≠ p.1 by omega, ih fun q hq => h q (by simp [hq])]

theorem mem_sparsePut {m : List (Nat × BitVec w)} {a : Nat} {x : BitVec w} {p : Nat × BitVec w}
    (h : p ∈ sparsePut a x m) : (p = (a, x) ∧ x ≠ 0) ∨ p ∈ m := by
  induction m with
  | nil =>
    simp only [sparsePut] at h
    split at h <;> simp_all
  | cons q m ih =>
    simp only [sparsePut] at h
    split at h
    · split at h
      · exact .inr h
      · rcases List.mem_cons.mp h with h | h
        · exact .inl ⟨h, ‹_›⟩
        · exact .inr h
    · split at h
      · split at h
        · exact .inr (List.mem_cons_of_mem _ h)
        · rcases List.mem_cons.mp h with h | h
          · exact .inl ⟨h, ‹_›⟩
          · exact .inr (List.mem_cons_of_mem _ h)
      · rcases List.mem_cons.mp h with h | h
        · exact .inr (by simp [h])
        · rcases ih h with h | h
          · exact .inl h
          · exact .inr (List.mem_cons_of_mem _ h)

/-- A write keeps the canonical form. -/
theorem sparsePut_wf {m : List (Nat × BitVec w)} (a : Nat) (x : BitVec w) (h : SparseWf m) :
    SparseWf (sparsePut a x m) := by
  induction m with
  | nil =>
    simp only [sparsePut]
    split <;> simp_all [SparseWf]
  | cons q m ih =>
    obtain ⟨h1, h2⟩ := h
    rw [List.pairwise_cons] at h1
    have hm : SparseWf m := ⟨h1.2, fun p hp => h2 p (by simp [hp])⟩
    simp only [sparsePut]
    split
    · split
      · exact ⟨List.pairwise_cons.mpr h1, h2⟩
      · rename_i hlt hx
        refine ⟨List.pairwise_cons.mpr ⟨?_, List.pairwise_cons.mpr h1⟩, ?_⟩
        · intro p hp
          rcases List.mem_cons.mp hp with rfl | hp
          · exact hlt
          · exact Nat.lt_trans hlt (h1.1 p hp)
        · intro p hp
          rcases List.mem_cons.mp hp with rfl | hp
          · exact hx
          · exact h2 p hp
    · split
      · split
        · exact hm
        · rename_i heq hx
          subst heq
          refine ⟨List.pairwise_cons.mpr ⟨h1.1, h1.2⟩, ?_⟩
          intro p hp
          rcases List.mem_cons.mp hp with rfl | hp
          · exact hx
          · exact h2 p (by simp [hp])
      · rename_i hlt hne
        refine ⟨List.pairwise_cons.mpr ⟨?_, (ih hm).1⟩, ?_⟩
        · intro p hp
          rcases mem_sparsePut hp with ⟨rfl, _⟩ | hp
          · show q.1 < a
            omega
          · exact h1.1 p hp
        · intro p hp
          rcases List.mem_cons.mp hp with rfl | hp
          · exact h2 _ (by simp)
          · exact (ih hm).2 p hp

/-- A read after a write: the value at the address written, everything else as before. -/
theorem sparseGet_sparsePut {m : List (Nat × BitVec w)} (h : SparseWf m) (a b : Nat) (x : BitVec w) :
    sparseGet (sparsePut a x m) b = if b = a then x else sparseGet m b := by
  induction m with
  | nil =>
    simp only [sparsePut]
    split <;> rename_i hx <;> simp [sparseGet, hx]
  | cons q m ih =>
    obtain ⟨h1, h2⟩ := h
    rw [List.pairwise_cons] at h1
    have hm : SparseWf m := ⟨h1.2, fun p hp => h2 p (by simp [hp])⟩
    have habove : ∀ c, c ≤ q.1 → sparseGet m c = 0 := fun c hc =>
      sparseGet_of_above fun p hp => Nat.lt_of_le_of_lt hc (h1.1 p hp)
    simp only [sparsePut]
    split
    · rename_i hlt
      split
      · rename_i hx
        by_cases hb : b = a
        · subst hb
          simp [sparseGet, show b ≠ q.1 by omega, habove b (by omega), hx]
        · simp [hb]
      · by_cases hb : b = a <;> simp [sparseGet, hb]
    · split
      · rename_i heq
        subst heq
        split
        · rename_i hx
          by_cases hb : b = q.1
          · subst hb
            simp [habove q.1 (Nat.le_refl _), hx]
          · simp [sparseGet, hb]
        · by_cases hb : b = q.1 <;> simp [sparseGet, hb]
      · rename_i hlt hne
        simp only [sparseGet, ih hm]
        by_cases hb : b = q.1
        · simp [hb, show ¬ q.1 = a from fun h => hne h.symm]
        · simp [hb]

end Sparse

theorem memPut_wf {m : Memory} (a : Nat) (b : Byte) (h : Memory.wf m) : Memory.wf (memPut a b m) := by
  unfold memPut
  split
  · rename_i ha
    refine ⟨sparsePut_wf a b h.1, fun p hp => ?_⟩
    rcases mem_sparsePut hp with ⟨rfl, _⟩ | hp
    · exact ha
    · exact h.2 p hp
  · exact h

/-- A byte read after a byte write (R85: above `0xFFFF` writes are dropped and reads give 0). -/
theorem memGet_memPut {m : Memory} (h : Memory.wf m) (a c : Nat) (b : Byte) :
    memGet (memPut a b m) c = if c = a ∧ a < 0x10000 then b else memGet m c := by
  unfold memPut memGet
  by_cases ha : a < 0x10000
  · simp only [ha, if_true, and_true, sparseGet_sparsePut h.1]
    by_cases hc : c = a
    · simp [hc, ha]
    · simp [hc]
  · simp [ha]

theorem memWrite_wf {m : Memory} (a : Nat) (bs : List Byte) (h : Memory.wf m) : Memory.wf (memWrite a bs m) := by
  induction bs generalizing a m with
  | nil => exact h
  | cons b bs ih => exact ih (a + 1) (memPut_wf a b h)

/-- A byte read after several were written. -/
theorem memGet_memWrite {m : Memory} (h : Memory.wf m) (a c : Nat) (bs : List Byte) :
    memGet (memWrite a bs m) c =
      if a ≤ c ∧ c < a + bs.length ∧ c < 0x10000 then bs.getD (c - a) 0 else memGet m c := by
  induction bs generalizing a m with
  | nil => simp [memWrite]; omega
  | cons b bs ih =>
    simp only [memWrite, ih (memPut_wf a b h), memGet_memPut h, List.length_cons]
    by_cases h1 : a + 1 ≤ c ∧ c < a + 1 + bs.length ∧ c < 0x10000
    · have h2 : c - a = (c - (a + 1)) + 1 := by omega
      simp [h1, h2, show a ≤ c by omega, show c < a + (bs.length + 1) by omega]
    · rw [if_neg h1]
      by_cases h2 : c = a ∧ a < 0x10000
      · obtain ⟨rfl, h2⟩ := h2
        simp [h2]
      · rw [if_neg h2, if_neg (by omega)]

@[simp] theorem memRead_length (m : Memory) (a n : Nat) : (memRead m a n).length = n := by simp [memRead]

theorem simStoreLane_wf {m : Memory} (c : WrCtx) (v : Word) (j : Nat) (h : Memory.wf m) :
    Memory.wf (simStoreLane c v m j) := by
  unfold simStoreLane
  simp only []
  split
  · exact memPut_wf _ _ h
  · exact h

theorem simSetReg_mem (e : SimEsc) (a : Addr) (v : Word) : (simSetReg e a v).mem = e.mem := rfl

end Sys2Proof.Machine
end

