-- ==== Sys2Proof/Laws/SimEsc.lean ====
section
/-! SUPPORT. The reference peripheral keeps its memory and registers in canonical form, whatever is exchanged with it. -/

namespace Sys2Proof.Machine

theorem simSetReg_wf {e : SimEsc} (a : Addr) (v : Word) (h : SimWf e) : SimWf (simSetReg e a v) :=
  ⟨h.1, sparsePut_wf _ _ h.2⟩

theorem simCsrCommand_wf {e : SimEsc} (v : Word) (h : SimWf e) : SimWf (simCsrCommand e v) := by
  unfold simCsrCommand
  split
  · dsimp only
    split
    · exact ⟨h.1, sparsePut_wf _ _ h.2⟩
    · exact ⟨memWrite_wf _ _ h.1, h.2⟩
  · exact h

theorem simReadCommand_wf {e : SimEsc} (v : Word) (h : SimWf e) : SimWf (simReadCommand e v) := by
  unfold simReadCommand
  split
  · exact h
  · split <;> exact h

theorem simWriteCommand_wf {e : SimEsc} (v : Word) (h : SimWf e) : SimWf (simWriteCommand e v) := by
  unfold simWriteCommand
  split
  · exact h
  · split <;> exact h

theorem foldl_simStoreLane_wf (c : WrCtx) (v : Word) (js : List Nat) {m : Memory} (h : Memory.wf m) :
    Memory.wf (js.foldl (simStoreLane c v) m) := by
  induction js generalizing m with
  | nil => exact h
  | cons j js ih => exact ih (simStoreLane_wf c v j h)

theorem simFifoWrite_wf {e : SimEsc} (v : Word) (h : SimWf e) : SimWf (simFifoWrite e v) := by
  unfold simFifoWrite
  split
  · exact h
  · exact ⟨foldl_simStoreLane_wf _ _ _ h.1, h.2⟩

theorem simRegWrite_wf {e : SimEsc} (a : Addr) (v : Word) (h : SimWf e) : SimWf (simRegWrite e a v) := by
  have h' := simSetReg_wf a v h
  unfold simRegWrite
  dsimp only
  split
  · exact simCsrCommand_wf v h'
  · split
    · exact simReadCommand_wf v h'
    · split
      · exact simWriteCommand_wf v h'
      · split
        · exact simFifoWrite_wf v h'
        · exact h'

/-- A register read leaves memory and registers alone. -/
theorem simRegRead_same (e : SimEsc) (a : Addr) :
    (simRegRead e a).2.mem = e.mem ∧ (simRegRead e a).2.reg = e.reg := by
  unfold simRegRead
  split
  · unfold simReadCsrCmd; dsimp only; split <;> [skip; split] <;> exact ⟨rfl, rfl⟩
  · split
    · unfold simReadRdCmd
      split <;> [skip; (split <;> [split; skip])] <;> exact ⟨rfl, rfl⟩
    · split
      · unfold simReadWrCmd
        split
        · exact ⟨rfl, rfl⟩
        · split
          · exact ⟨rfl, rfl⟩
          · split
            · split <;> exact ⟨rfl, rfl⟩
            · exact ⟨rfl, rfl⟩
      · split
        · unfold simFifoRead; split <;> exact ⟨rfl, rfl⟩
        · split
          · exact ⟨rfl, rfl⟩
          · split <;> exact ⟨rfl, rfl⟩

theorem simRegRead_wf {e : SimEsc} (a : Addr) (h : SimWf e) : SimWf (simRegRead e a).2 := by
  obtain ⟨h1, h2⟩ := simRegRead_same e a
  exact ⟨h1 ▸ h.1, h2 ▸ h.2⟩

theorem simPayloadIn_wf {e : SimEsc} (f : SimFrame) (b : Byte) (h : SimWf e) : SimWf (simPayloadIn e f b) := by
  unfold simPayloadIn
  dsimp only
  split
  · exact simRegWrite_wf _ _ h
  · exact h

theorem simPayloadOut_wf {e : SimEsc} (f : SimFrame) (k : Nat) (h : SimWf e) :
    SimWf (simPayloadOut e f k).2 := by
  unfold simPayloadOut
  split
  · exact simRegRead_wf f.addr h
  · exact h

theorem simExchange_wf {e : SimEsc} (b : Byte) (h : SimWf e) : SimWf (simExchange e b).2 := by
  unfold simExchange
  split
  · exact h
  · rename_i f hf
    dsimp only
    by_cases h0 : f.count = 0
    · rw [if_pos h0]; exact h
    rw [if_neg h0]
    by_cases h1 : f.opcode = 0xFF
    · rw [if_pos h1]; exact h
    rw [if_neg h1]
    by_cases h2 : f.count = 1
    · rw [if_pos h2]; exact h
    rw [if_neg h2]
    by_cases h3 : f.count = 2
    · rw [if_pos h3]; exact h
    rw [if_neg h3]
    by_cases h4 : f.opcode = 0x02
    · rw [if_pos h4]; exact simPayloadIn_wf f b h
    rw [if_neg h4]
    by_cases h5 : f.opcode = 0x0B
    · rw [if_pos h5]
      by_cases h6 : f.count = 3
      · rw [if_pos h6]; exact h
      · rw [if_neg h6]; exact simPayloadOut_wf f _ h
    rw [if_neg h5]
    by_cases h6 : f.opcode = 0x03
    · rw [if_pos h6]; exact simPayloadOut_wf f _ h
    · rw [if_neg h6]; exact h

end Sys2Proof.Machine
end

