-- ==== Sys2Proof/Laws/State.lean ====
section
/-! SUPPORT. One lemma per field per named update of the state (Machine/Ops.lean), true by rfl, so that no later proof
unfolds an update. An update that leaves a group of fields alone has one lemma for the group. -/

namespace Sys2Proof.Machine

/-! `log` -/

@[simp] theorem State.log_seq (s : State) (e : Event) : (s.log e).seq = s.seq := rfl
@[simp] theorem State.log_latch (s : State) (e : Event) : (s.log e).latch = s.latch := rfl
@[simp] theorem State.log_vis (s : State) (e : Event) : (s.log e).vis = s.vis := rfl
@[simp] theorem State.log_work (s : State) (e : Event) : (s.log e).work = s.work := rfl
@[simp] theorem State.log_buf (s : State) (e : Event) : (s.log e).buf = s.buf := rfl
@[simp] theorem State.log_wire (s : State) (e : Event) : (s.log e).wire = s.wire := rfl
@[simp] theorem State.log_env (s : State) (e : Event) : (s.log e).env = s.env := rfl
@[simp] theorem State.log_trace (s : State) (e : Event) : (s.log e).trace = s.trace ++ [e] := rfl

/-! `toPhase` -/

@[simp] theorem State.toPhase_latch (s : State) (p : Phase) : (s.toPhase p).latch = s.latch := rfl
@[simp] theorem State.toPhase_vis (s : State) (p : Phase) : (s.toPhase p).vis = s.vis := rfl
@[simp] theorem State.toPhase_work (s : State) (p : Phase) : (s.toPhase p).work = s.work := rfl
@[simp] theorem State.toPhase_buf (s : State) (p : Phase) : (s.toPhase p).buf = s.buf := rfl
@[simp] theorem State.toPhase_wire (s : State) (p : Phase) : (s.toPhase p).wire = s.wire := rfl
@[simp] theorem State.toPhase_env (s : State) (p : Phase) : (s.toPhase p).env = s.env := rfl
@[simp] theorem State.toPhase_trace (s : State) (p : Phase) : (s.toPhase p).trace = s.trace := rfl
@[simp] theorem State.toPhase_seq_ph (s : State) (p : Phase) : (s.toPhase p).seq.ph = p := rfl
@[simp] theorem State.toPhase_seq_caller (s : State) (p : Phase) : (s.toPhase p).seq.caller = s.seq.caller := rfl
@[simp] theorem State.toPhase_seq_refresh (s : State) (p : Phase) : (s.toPhase p).seq.refresh = s.seq.refresh := rfl

/-! `enter` -/

@[simp] theorem State.enter_latch (s : State) (c : Caller) (p : Phase) : (s.enter c p).latch = s.latch := rfl
@[simp] theorem State.enter_vis (s : State) (c : Caller) (p : Phase) : (s.enter c p).vis = s.vis := rfl
@[simp] theorem State.enter_work (s : State) (c : Caller) (p : Phase) : (s.enter c p).work = s.work := rfl
@[simp] theorem State.enter_buf (s : State) (c : Caller) (p : Phase) : (s.enter c p).buf = s.buf := rfl
@[simp] theorem State.enter_wire (s : State) (c : Caller) (p : Phase) : (s.enter c p).wire = s.wire := rfl
@[simp] theorem State.enter_env (s : State) (c : Caller) (p : Phase) : (s.enter c p).env = s.env := rfl
@[simp] theorem State.enter_trace (s : State) (c : Caller) (p : Phase) : (s.enter c p).trace = s.trace := rfl
@[simp] theorem State.enter_seq_ph (s : State) (c : Caller) (p : Phase) : (s.enter c p).seq.ph = p := rfl
@[simp] theorem State.enter_seq_caller (s : State) (c : Caller) (p : Phase) : (s.enter c p).seq.caller = c := rfl
@[simp] theorem State.enter_seq_refresh (s : State) (c : Caller) (p : Phase) : (s.enter c p).seq.refresh = false := rfl

/-! `toIdle` -/

@[simp] theorem State.toIdle_latch (s : State) : (s.toIdle).latch = s.latch := rfl
@[simp] theorem State.toIdle_vis (s : State) : (s.toIdle).vis = s.vis := rfl
@[simp] theorem State.toIdle_work (s : State) : (s.toIdle).work = s.work := rfl
@[simp] theorem State.toIdle_buf (s : State) : (s.toIdle).buf = s.buf := rfl
@[simp] theorem State.toIdle_wire (s : State) : (s.toIdle).wire = s.wire := rfl
@[simp] theorem State.toIdle_env (s : State) : (s.toIdle).env = s.env := rfl
@[simp] theorem State.toIdle_trace (s : State) : (s.toIdle).trace = s.trace := rfl
@[simp] theorem State.toIdle_seq_ph (s : State) : (s.toIdle).seq.ph = .idle := rfl
@[simp] theorem State.toIdle_seq_caller (s : State) : (s.toIdle).seq.caller = .nobody := rfl
@[simp] theorem State.toIdle_seq_refresh (s : State) : (s.toIdle).seq.refresh = false := rfl

/-! `setWord` -/

@[simp] theorem State.setWord_seq (s : State) (v : Word) : (s.setWord v).seq = s.seq := rfl
@[simp] theorem State.setWord_latch (s : State) (v : Word) : (s.setWord v).latch = s.latch := rfl
@[simp] theorem State.setWord_vis (s : State) (v : Word) : (s.setWord v).vis = s.vis := rfl
@[simp] theorem State.setWord_buf (s : State) (v : Word) : (s.setWord v).buf = s.buf := rfl
@[simp] theorem State.setWord_wire (s : State) (v : Word) : (s.setWord v).wire = s.wire := rfl
@[simp] theorem State.setWord_env (s : State) (v : Word) : (s.setWord v).env = s.env := rfl
@[simp] theorem State.setWord_trace (s : State) (v : Word) : (s.setWord v).trace = s.trace := rfl
@[simp] theorem State.setWord_work_addr (s : State) (v : Word) : (s.setWord v).work.addr = s.work.addr := rfl
@[simp] theorem State.setWord_work_rem (s : State) (v : Word) : (s.setWord v).work.rem = s.work.rem := rfl
@[simp] theorem State.setWord_work_cur (s : State) (v : Word) : (s.setWord v).work.cur = s.work.cur := rfl
@[simp] theorem State.setWord_work_size (s : State) (v : Word) : (s.setWord v).work.size = s.work.size := rfl
@[simp] theorem State.setWord_work_fbp (s : State) (v : Word) : (s.setWord v).work.fbp = s.work.fbp := rfl
@[simp] theorem State.setWord_work_word (s : State) (v : Word) : (s.setWord v).work.word = v := rfl
@[simp] theorem State.setWord_work_fifoCnt (s : State) (v : Word) : (s.setWord v).work.fifoCnt = s.work.fifoCnt := rfl
@[simp] theorem State.setWord_work_polls (s : State) (v : Word) : (s.setWord v).work.polls = s.work.polls := rfl

/-! `setPolls` -/

@[simp] theorem State.setPolls_seq (s : State) (n : Nat) : (s.setPolls n).seq = s.seq := rfl
@[simp] theorem State.setPolls_latch (s : State) (n : Nat) : (s.setPolls n).latch = s.latch := rfl
@[simp] theorem State.setPolls_vis (s : State) (n : Nat) : (s.setPolls n).vis = s.vis := rfl
@[simp] theorem State.setPolls_buf (s : State) (n : Nat) : (s.setPolls n).buf = s.buf := rfl
@[simp] theorem State.setPolls_wire (s : State) (n : Nat) : (s.setPolls n).wire = s.wire := rfl
@[simp] theorem State.setPolls_env (s : State) (n : Nat) : (s.setPolls n).env = s.env := rfl
@[simp] theorem State.setPolls_trace (s : State) (n : Nat) : (s.setPolls n).trace = s.trace := rfl
@[simp] theorem State.setPolls_work_addr (s : State) (n : Nat) : (s.setPolls n).work.addr = s.work.addr := rfl
@[simp] theorem State.setPolls_work_rem (s : State) (n : Nat) : (s.setPolls n).work.rem = s.work.rem := rfl
@[simp] theorem State.setPolls_work_cur (s : State) (n : Nat) : (s.setPolls n).work.cur = s.work.cur := rfl
@[simp] theorem State.setPolls_work_size (s : State) (n : Nat) : (s.setPolls n).work.size = s.work.size := rfl
@[simp] theorem State.setPolls_work_fbp (s : State) (n : Nat) : (s.setPolls n).work.fbp = s.work.fbp := rfl
@[simp] theorem State.setPolls_work_word (s : State) (n : Nat) : (s.setPolls n).work.word = s.work.word := rfl
@[simp] theorem State.setPolls_work_fifoCnt (s : State) (n : Nat) : (s.setPolls n).work.fifoCnt = s.work.fifoCnt := rfl
@[simp] theorem State.setPolls_work_polls (s : State) (n : Nat) : (s.setPolls n).work.polls = n := rfl

/-! `setFifoCnt` -/

@[simp] theorem State.setFifoCnt_seq (s : State) (n : BitVec 5) : (s.setFifoCnt n).seq = s.seq := rfl
@[simp] theorem State.setFifoCnt_latch (s : State) (n : BitVec 5) : (s.setFifoCnt n).latch = s.latch := rfl
@[simp] theorem State.setFifoCnt_vis (s : State) (n : BitVec 5) : (s.setFifoCnt n).vis = s.vis := rfl
@[simp] theorem State.setFifoCnt_buf (s : State) (n : BitVec 5) : (s.setFifoCnt n).buf = s.buf := rfl
@[simp] theorem State.setFifoCnt_wire (s : State) (n : BitVec 5) : (s.setFifoCnt n).wire = s.wire := rfl
@[simp] theorem State.setFifoCnt_env (s : State) (n : BitVec 5) : (s.setFifoCnt n).env = s.env := rfl
@[simp] theorem State.setFifoCnt_trace (s : State) (n : BitVec 5) : (s.setFifoCnt n).trace = s.trace := rfl
@[simp] theorem State.setFifoCnt_work_addr (s : State) (n : BitVec 5) : (s.setFifoCnt n).work.addr = s.work.addr := rfl
@[simp] theorem State.setFifoCnt_work_rem (s : State) (n : BitVec 5) : (s.setFifoCnt n).work.rem = s.work.rem := rfl
@[simp] theorem State.setFifoCnt_work_cur (s : State) (n : BitVec 5) : (s.setFifoCnt n).work.cur = s.work.cur := rfl
@[simp] theorem State.setFifoCnt_work_size (s : State) (n : BitVec 5) : (s.setFifoCnt n).work.size = s.work.size := rfl
@[simp] theorem State.setFifoCnt_work_fbp (s : State) (n : BitVec 5) : (s.setFifoCnt n).work.fbp = s.work.fbp := rfl
@[simp] theorem State.setFifoCnt_work_word (s : State) (n : BitVec 5) : (s.setFifoCnt n).work.word = s.work.word := rfl
@[simp] theorem State.setFifoCnt_work_fifoCnt (s : State) (n : BitVec 5) : (s.setFifoCnt n).work.fifoCnt = n := rfl
@[simp] theorem State.setFifoCnt_work_polls (s : State) (n : BitVec 5) : (s.setFifoCnt n).work.polls = s.work.polls := rfl

/-! `countDown` -/

@[simp] theorem State.countDown_seq (s : State) : (s.countDown).seq = s.seq := rfl
@[simp] theorem State.countDown_latch (s : State) : (s.countDown).latch = s.latch := rfl
@[simp] theorem State.countDown_vis (s : State) : (s.countDown).vis = s.vis := rfl
@[simp] theorem State.countDown_buf (s : State) : (s.countDown).buf = s.buf := rfl
@[simp] theorem State.countDown_wire (s : State) : (s.countDown).wire = s.wire := rfl
@[simp] theorem State.countDown_env (s : State) : (s.countDown).env = s.env := rfl
@[simp] theorem State.countDown_trace (s : State) : (s.countDown).trace = s.trace := rfl
@[simp] theorem State.countDown_work_addr (s : State) : (s.countDown).work.addr = s.work.addr := rfl
@[simp] theorem State.countDown_work_rem (s : State) : (s.countDown).work.rem = s.work.rem := rfl
@[simp] theorem State.countDown_work_cur (s : State) : (s.countDown).work.cur = s.work.cur := rfl
@[simp] theorem State.countDown_work_size (s : State) : (s.countDown).work.size = s.work.size := rfl
@[simp] theorem State.countDown_work_fbp (s : State) : (s.countDown).work.fbp = s.work.fbp := rfl
@[simp] theorem State.countDown_work_word (s : State) : (s.countDown).work.word = s.work.word := rfl
@[simp] theorem State.countDown_work_fifoCnt (s : State) : (s.countDown).work.fifoCnt = s.work.fifoCnt - 1 := rfl
@[simp] theorem State.countDown_work_polls (s : State) : (s.countDown).work.polls = s.work.polls := rfl

/-! `setSize` -/

@[simp] theorem State.setSize_seq (s : State) (n : BitVec 3) : (s.setSize n).seq = s.seq := rfl
@[simp] theorem State.setSize_latch (s : State) (n : BitVec 3) : (s.setSize n).latch = s.latch := rfl
@[simp] theorem State.setSize_vis (s : State) (n : BitVec 3) : (s.setSize n).vis = s.vis := rfl
@[simp] theorem State.setSize_buf (s : State) (n : BitVec 3) : (s.setSize n).buf = s.buf := rfl
@[simp] theorem State.setSize_wire (s : State) (n : BitVec 3) : (s.setSize n).wire = s.wire := rfl
@[simp] theorem State.setSize_env (s : State) (n : BitVec 3) : (s.setSize n).env = s.env := rfl
@[simp] theorem State.setSize_trace (s : State) (n : BitVec 3) : (s.setSize n).trace = s.trace := rfl
@[simp] theorem State.setSize_work_addr (s : State) (n : BitVec 3) : (s.setSize n).work.addr = s.work.addr := rfl
@[simp] theorem State.setSize_work_rem (s : State) (n : BitVec 3) : (s.setSize n).work.rem = s.work.rem := rfl
@[simp] theorem State.setSize_work_cur (s : State) (n : BitVec 3) : (s.setSize n).work.cur = s.work.cur := rfl
@[simp] theorem State.setSize_work_size (s : State) (n : BitVec 3) : (s.setSize n).work.size = n := rfl
@[simp] theorem State.setSize_work_fbp (s : State) (n : BitVec 3) : (s.setSize n).work.fbp = s.work.fbp := rfl
@[simp] theorem State.setSize_work_word (s : State) (n : BitVec 3) : (s.setSize n).work.word = s.work.word := rfl
@[simp] theorem State.setSize_work_fifoCnt (s : State) (n : BitVec 3) : (s.setSize n).work.fifoCnt = s.work.fifoCnt := rfl
@[simp] theorem State.setSize_work_polls (s : State) (n : BitVec 3) : (s.setSize n).work.polls = s.work.polls := rfl

/-! `setRes` -/

@[simp] theorem State.setRes_seq (s : State) (bs : List Byte) : (s.setRes bs).seq = s.seq := rfl
@[simp] theorem State.setRes_latch (s : State) (bs : List Byte) : (s.setRes bs).latch = s.latch := rfl
@[simp] theorem State.setRes_vis (s : State) (bs : List Byte) : (s.setRes bs).vis = s.vis := rfl
@[simp] theorem State.setRes_work (s : State) (bs : List Byte) : (s.setRes bs).work = s.work := rfl
@[simp] theorem State.setRes_wire (s : State) (bs : List Byte) : (s.setRes bs).wire = s.wire := rfl
@[simp] theorem State.setRes_env (s : State) (bs : List Byte) : (s.setRes bs).env = s.env := rfl
@[simp] theorem State.setRes_trace (s : State) (bs : List Byte) : (s.setRes bs).trace = s.trace := rfl
@[simp] theorem State.setRes_buf_wbuf (s : State) (bs : List Byte) : (s.setRes bs).buf.wbuf = s.buf.wbuf := rfl
@[simp] theorem State.setRes_buf_rbuf (s : State) (bs : List Byte) : (s.setRes bs).buf.rbuf = s.buf.rbuf := rfl
@[simp] theorem State.setRes_buf_res (s : State) (bs : List Byte) : (s.setRes bs).buf.res = bs := rfl

/-! `putRbuf` -/

@[simp] theorem State.putRbuf_seq (s : State) (i : Nat) (bs : List Byte) : (s.putRbuf i bs).seq = s.seq := rfl
@[simp] theorem State.putRbuf_latch (s : State) (i : Nat) (bs : List Byte) : (s.putRbuf i bs).latch = s.latch := rfl
@[simp] theorem State.putRbuf_vis (s : State) (i : Nat) (bs : List Byte) : (s.putRbuf i bs).vis = s.vis := rfl
@[simp] theorem State.putRbuf_work (s : State) (i : Nat) (bs : List Byte) : (s.putRbuf i bs).work = s.work := rfl
@[simp] theorem State.putRbuf_wire (s : State) (i : Nat) (bs : List Byte) : (s.putRbuf i bs).wire = s.wire := rfl
@[simp] theorem State.putRbuf_env (s : State) (i : Nat) (bs : List Byte) : (s.putRbuf i bs).env = s.env := rfl
@[simp] theorem State.putRbuf_trace (s : State) (i : Nat) (bs : List Byte) : (s.putRbuf i bs).trace = s.trace := rfl
@[simp] theorem State.putRbuf_buf_wbuf (s : State) (i : Nat) (bs : List Byte) : (s.putRbuf i bs).buf.wbuf = s.buf.wbuf := rfl
@[simp] theorem State.putRbuf_buf_rbuf (s : State) (i : Nat) (bs : List Byte) : (s.putRbuf i bs).buf.rbuf = s.buf.rbuf.take i ++ bs := rfl
@[simp] theorem State.putRbuf_buf_res (s : State) (i : Nat) (bs : List Byte) : (s.putRbuf i bs).buf.res = s.buf.res := rfl

/-! `setStatus` -/

@[simp] theorem State.setStatus_seq (s : State) (c : BitVec 2) : (s.setStatus c).seq = s.seq := rfl
@[simp] theorem State.setStatus_latch (s : State) (c : BitVec 2) : (s.setStatus c).latch = s.latch := rfl
@[simp] theorem State.setStatus_work (s : State) (c : BitVec 2) : (s.setStatus c).work = s.work := rfl
@[simp] theorem State.setStatus_buf (s : State) (c : BitVec 2) : (s.setStatus c).buf = s.buf := rfl
@[simp] theorem State.setStatus_wire (s : State) (c : BitVec 2) : (s.setStatus c).wire = s.wire := rfl
@[simp] theorem State.setStatus_env (s : State) (c : BitVec 2) : (s.setStatus c).env = s.env := rfl
@[simp] theorem State.setStatus_trace (s : State) (c : BitVec 2) : (s.setStatus c).trace = s.trace := rfl
@[simp] theorem State.setStatus_vis_alEvent (s : State) (c : BitVec 2) : (s.setStatus c).vis.alEvent = s.vis.alEvent := rfl
@[simp] theorem State.setStatus_vis_status (s : State) (c : BitVec 2) : (s.setStatus c).vis.status = c := rfl
@[simp] theorem State.setStatus_vis_faultSeen (s : State) (c : BitVec 2) : (s.setStatus c).vis.faultSeen = s.vis.faultSeen := rfl

/-! `drawn` -/

@[simp] theorem State.drawn_seq (s : State) : s.drawn.seq = s.seq := rfl
@[simp] theorem State.drawn_latch (s : State) : s.drawn.latch = s.latch := rfl
@[simp] theorem State.drawn_vis (s : State) : s.drawn.vis = s.vis := rfl
@[simp] theorem State.drawn_work (s : State) : s.drawn.work = s.work := rfl
@[simp] theorem State.drawn_buf (s : State) : s.drawn.buf = s.buf := rfl
@[simp] theorem State.drawn_wire (s : State) : s.drawn.wire = s.wire := rfl
@[simp] theorem State.drawn_trace (s : State) : s.drawn.trace = s.trace := rfl
@[simp] theorem State.drawn_env_params (s : State) : s.drawn.env.params = s.env.params := rfl
@[simp] theorem State.drawn_env_script (s : State) : s.drawn.env.script = s.env.script := rfl
@[simp] theorem State.drawn_env_sim (s : State) : s.drawn.env.sim = s.env.sim := rfl
@[simp] theorem State.drawn_env_inputs (s : State) : s.drawn.env.inputs = s.env.inputs := rfl
@[simp] theorem State.drawn_env_resetIn (s : State) : s.drawn.env.resetIn = s.env.resetIn := rfl
@[simp] theorem State.drawn_env_fresh (s : State) : s.drawn.env.fresh = s.env.fresh + 1 := rfl

/-! `setAlEvent` -/

@[simp] theorem State.setAlEvent_seq (s : State) (v : BitVec 16) : (s.setAlEvent v).seq = s.seq := rfl
@[simp] theorem State.setAlEvent_latch (s : State) (v : BitVec 16) : (s.setAlEvent v).latch = s.latch := rfl
@[simp] theorem State.setAlEvent_work (s : State) (v : BitVec 16) : (s.setAlEvent v).work = s.work := rfl
@[simp] theorem State.setAlEvent_buf (s : State) (v : BitVec 16) : (s.setAlEvent v).buf = s.buf := rfl
@[simp] theorem State.setAlEvent_wire (s : State) (v : BitVec 16) : (s.setAlEvent v).wire = s.wire := rfl
@[simp] theorem State.setAlEvent_env (s : State) (v : BitVec 16) : (s.setAlEvent v).env = s.env := rfl
@[simp] theorem State.setAlEvent_trace (s : State) (v : BitVec 16) : (s.setAlEvent v).trace = s.trace := rfl
@[simp] theorem State.setAlEvent_vis_alEvent (s : State) (v : BitVec 16) : (s.setAlEvent v).vis.alEvent = v := rfl
@[simp] theorem State.setAlEvent_vis_status (s : State) (v : BitVec 16) : (s.setAlEvent v).vis.status = s.vis.status := rfl
@[simp] theorem State.setAlEvent_vis_faultSeen (s : State) (v : BitVec 16) : (s.setAlEvent v).vis.faultSeen = s.vis.faultSeen := rfl

end Sys2Proof.Machine
end

