-- ==== Sys2Proof/Laws/Exchange.lean ====
section
/-! SUPPORT. What a byte exchange, and a list of them, can do: said once. -/

namespace Sys2Proof.Machine

/-! ### Sequencing -/

@[simp] theorem andThen_ok {α β : Type} (a : α) (s : State) (f : α → State → Run β) :
    andThen (.ok a s) f = f a s := rfl
@[simp] theorem andThen_stop {α β : Type} (s : State) (f : α → State → Run β) :
    andThen (.stop s : Run α) f = .stop s := rfl
@[simp] theorem thenDo_ok {α : Type} (a : α) (s : State) (f : State → State) :
    thenDo (.ok a s) f = .ok () (f s) := rfl
@[simp] theorem thenDo_stop {α : Type} (s : State) (f : State → State) :
    thenDo (.stop s : Run α) f = .stop s := rfl
@[simp] theorem finalState_ok {α : Type} (a : α) (s : State) : finalState (.ok a s) = s := rfl
@[simp] theorem finalState_stop {α : Type} (s : State) : finalState (.stop s : Run α) = s := rfl

/-! ### What the wire cannot touch -/

/-- Everything but the environment's script, the reference peripheral, the counter of free values and the trace. -/
structure SameBlock (s t : State) : Prop where
  seq : t.seq = s.seq
  latch : t.latch = s.latch
  vis : t.vis = s.vis
  work : t.work = s.work
  buf : t.buf = s.buf
  wire : t.wire = s.wire
  params : t.env.params = s.env.params
  inputs : t.env.inputs = s.env.inputs
  resetIn : t.env.resetIn = s.env.resetIn

/-- The peripheral stays canonical. -/
def SimOk (s : State) : Prop := ∀ e, s.env.sim = some e → SimWf e

/-- Exchanges happened between `s` and `t`: the block is the same, the script was used from its front, an open
peripheral stays open, a reference peripheral stays canonical. -/
structure Exchanged (s t : State) : Prop where
  same : SameBlock s t
  script : t.env.script <:+ s.env.script
  openSim : s.env.sim = none → t.env.sim = none
  simOk : SimOk s → SimOk t

theorem SameBlock.refl (s : State) : SameBlock s s := ⟨rfl, rfl, rfl, rfl, rfl, rfl, rfl, rfl, rfl⟩

theorem SameBlock.trans {s t u : State} (h : SameBlock s t) (k : SameBlock t u) : SameBlock s u :=
  ⟨k.seq.trans h.seq, k.latch.trans h.latch, k.vis.trans h.vis, k.work.trans h.work, k.buf.trans h.buf,
    k.wire.trans h.wire, k.params.trans h.params, k.inputs.trans h.inputs, k.resetIn.trans h.resetIn⟩

theorem Exchanged.refl (s : State) : Exchanged s s :=
  ⟨SameBlock.refl s, List.suffix_refl _, id, id⟩

theorem Exchanged.trans {s t u : State} (h : Exchanged s t) (k : Exchanged t u) : Exchanged s u :=
  ⟨h.same.trans k.same, k.script.trans h.script, fun x => k.openSim (h.openSim x), fun x => k.simOk (h.simOk x)⟩

theorem Exchanged.log {s t : State} (h : Exchanged s t) (e : Event) : Exchanged s (t.log e) :=
  ⟨⟨h.same.seq, h.same.latch, h.same.vis, h.same.work, h.same.buf, h.same.wire, h.same.params, h.same.inputs,
    h.same.resetIn⟩, h.script, h.openSim, h.simOk⟩

theorem Exchanged.drawn (s : State) : Exchanged s s.drawn :=
  ⟨⟨rfl, rfl, rfl, rfl, rfl, rfl, rfl, rfl, rfl⟩, List.suffix_refl _, id, id⟩

/-! ### One exchange -/

theorem deviceAnswer_cases (b : Byte) (s : State) :
    ∃ m t, deviceAnswer b s = (.byte m, t) ∧ Exchanged s t ∧ t.trace = s.trace := by
  unfold deviceAnswer
  split
  · rename_i e he
    refine ⟨_, _, rfl, ⟨⟨rfl, rfl, rfl, rfl, rfl, rfl, rfl, rfl, rfl⟩, List.suffix_refl _, ?_, ?_⟩, rfl⟩
    · intro h; simp [h] at he
    · intro h e' he'
      simp only [Option.some.injEq] at he'
      exact he' ▸ simExchange_wf b (h e he)
  · rename_i he
    exact ⟨_, _, rfl, ⟨⟨rfl, rfl, rfl, rfl, rfl, rfl, rfl, rfl, rfl⟩, List.suffix_refl _, id, id⟩, rfl⟩

/-- What an exchange can do: a byte, a bus fault if there can be one, a reset if the script holds one. -/
theorem react_cases (b : Byte) (s : State) :
    ∃ r t, react b s = (r, t) ∧ Exchanged s t ∧ t.trace = s.trace ∧
      (r = .fault → s.env.params.busCanFault = true) ∧ (r = .reset → Reply.reset ∈ s.env.script) := by
  have dev : ∀ rest : List Reply, rest <:+ s.env.script →
      ∃ m t, deviceAnswer b { s with env.script := rest } = (.byte m, t) ∧ Exchanged s t ∧ t.trace = s.trace := by
    intro rest hrest
    obtain ⟨m, t, h1, h2, h3⟩ := deviceAnswer_cases b { s with env.script := rest }
    exact ⟨m, t, h1,
      ⟨⟨h2.same.seq, h2.same.latch, h2.same.vis, h2.same.work, h2.same.buf, h2.same.wire, h2.same.params,
        h2.same.inputs, h2.same.resetIn⟩, h2.script.trans hrest, h2.openSim, h2.simOk⟩, h3⟩
  have used : ∀ rest : List Reply, rest <:+ s.env.script →
      Exchanged s { s with env.script := rest } := fun rest hrest =>
    ⟨⟨rfl, rfl, rfl, rfl, rfl, rfl, rfl, rfl, rfl⟩, hrest, id, id⟩
  unfold react
  split
  · rename_i miso rest hs
    exact ⟨_, _, rfl, used rest (hs ▸ List.suffix_cons _ _), rfl, by simp, by simp⟩
  · rename_i rest hs
    obtain ⟨m, t, h1, h2, h3⟩ := dev rest (hs ▸ List.suffix_cons _ _)
    exact ⟨_, t, h1, h2, h3, by simp, by simp⟩
  · rename_i rest hs
    exact ⟨_, _, rfl, used rest (hs ▸ List.suffix_cons _ _), rfl, by simp, by simp [hs]⟩
  · rename_i rest hs
    split
    · rename_i hb
      exact ⟨_, _, rfl, used rest (hs ▸ List.suffix_cons _ _), rfl, by simp [hb], by simp⟩
    · obtain ⟨m, t, h1, h2, h3⟩ := dev rest (hs ▸ List.suffix_cons _ _)
      exact ⟨_, t, h1, h2, h3, by simp, by simp⟩
  · split
    · rename_i hb
      split
      · exact ⟨_, _, rfl, Exchanged.drawn s, rfl, by simp [hb], by simp⟩
      · obtain ⟨m, t, h1, h2, h3⟩ := deviceAnswer_cases b s.drawn
        exact ⟨_, t, h1, (Exchanged.drawn s).trans h2, h3, by simp, by simp⟩
    · obtain ⟨m, t, h1, h2, h3⟩ := deviceAnswer_cases b s
      exact ⟨_, t, h1, h2, h3, by simp, by simp⟩

theorem deviceAnswer_fresh (b : Byte) (s : State) : s.env.fresh ≤ (deviceAnswer b s).2.env.fresh := by
  unfold deviceAnswer
  split <;> simp

/-- Where a bus fault is a free draw, every exchange makes its own: the next one finds a later counter (R30). -/
theorem react_fresh (b : Byte) (s : State) (hs : s.env.script = []) (hf : s.env.params.busCanFault = true) :
    s.env.fresh < (react b s).2.env.fresh := by
  unfold react
  rw [hs]
  simp only [hf, if_true]
  split
  · simp
  · exact Nat.lt_of_lt_of_le (by simp) (deviceAnswer_fresh b s.drawn)

/-! ### A list of exchanges -/

@[simp] theorem exchanged_nil : exchanged [] [] = [] := rfl
@[simp] theorem exchanged_cons (b m : Byte) (bs ms : List Byte) :
    exchanged (b :: bs) (m :: ms) = .xfer b m :: exchanged bs ms := rfl

/-- What a list of exchanges can do: all answered; or cut by a bus fault, if there can be one; or cut by block reset,
if the script holds one. -/
theorem exchange_cases (tx : List Byte) (s : State) :
    (∃ rx t, exchange tx s = .ok rx t ∧ Exchanged s t ∧ rx.length = tx.length ∧
      t.trace = s.trace ++ exchanged tx rx) ∨
    (∃ rx b t, exchange tx s = .stop (raise .busFault t) ∧ Exchanged s t ∧ rx.length < tx.length ∧
      tx[rx.length]? = some b ∧ s.env.params.busCanFault = true ∧
      t.trace = s.trace ++ (exchanged tx rx ++ [.xferFault b])) ∨
    (∃ rx t, exchange tx s = .stop (blockReset t) ∧ Exchanged s t ∧ rx.length < tx.length ∧
      Reply.reset ∈ s.env.script ∧ t.trace = s.trace ++ exchanged tx rx) := by
  induction tx generalizing s with
  | nil => exact .inl ⟨[], s, rfl, Exchanged.refl s, rfl, by simp⟩
  | cons b bs ih =>
    obtain ⟨r, t, h1, h2, h3, h4, h5⟩ := react_cases b s
    cases r with
    | fault =>
      refine .inr (.inl ⟨[], b, t.log (.xferFault b), ?_, h2.log _, by simp, rfl, h4 rfl, ?_⟩)
      · simp [exchange, xfer, h1]
      · simp [h3, exchanged]
    | reset =>
      exact .inr (.inr ⟨[], t, by simp [exchange, xfer, h1], h2, by simp, h5 rfl, by simp [h3, exchanged]⟩)
    | byte m =>
      have hx : xfer b s = .ok m (t.log (.xfer b m)) := by simp [xfer, h1]
      have h2' := h2.log (.xfer b m)
      rcases ih (t.log (.xfer b m)) with ⟨rx, u, k1, k2, k3, k4⟩ | ⟨rx, c, u, k1, k2, k3, k4, k5, k6⟩ |
        ⟨rx, u, k1, k2, k3, k4, k5⟩
      · exact .inl ⟨m :: rx, u, by simp [exchange, hx, k1], h2'.trans k2, by simp [k3], by simp [k4, h3]⟩
      · exact .inr (.inl ⟨m :: rx, c, u, by simp [exchange, hx, k1], h2'.trans k2, by simpa using k3,
          by simpa using k4, by rw [← h2'.same.params]; exact k5, by simp [k6, h3]⟩)
      · exact .inr (.inr ⟨m :: rx, u, by simp [exchange, hx, k1], h2'.trans k2, by simpa using k3,
          h2'.script.subset k4, by simp [k5, h3]⟩)

/-- Exchanges the environment has answered with bytes. -/
theorem exchange_bytes (tx rx : List Byte) (rest : List Reply) (s : State) (hlen : rx.length = tx.length)
    (h : Answers rx rest s) :
    exchange tx s = .ok rx (afterEvents rest (exchanged tx rx) s) := by
  induction tx generalizing rx s with
  | nil =>
    have : rx = [] := by simpa using hlen
    subst this
    simp only [Answers, List.map_nil, List.nil_append] at h
    simp [exchange, afterEvents, ← h]
  | cons b bs ih =>
    cases rx with
    | nil => simp at hlen
    | cons m ms =>
      have hs : s.env.script = .byte m :: (ms.map Reply.byte ++ rest) := by simpa [Answers] using h
      have := ih ms (State.log (.xfer b m) { s with env.script := ms.map Reply.byte ++ rest })
        (by simpa using hlen) rfl
      simp [exchange, xfer, react, hs, this, afterEvents]

/-- Exchanges of which the environment answers the first with bytes and then reports a bus fault. -/
theorem exchange_fault (tx rx : List Byte) (b : Byte) (rest : List Reply) (s : State)
    (hb : tx[rx.length]? = some b) (hf : s.env.params.busCanFault = true)
    (h : s.env.script = rx.map Reply.byte ++ .fault :: rest) :
    exchange tx s = .stop (raise .busFault (afterEvents rest (exchanged tx rx ++ [.xferFault b]) s)) := by
  induction tx generalizing rx s with
  | nil => simp at hb
  | cons c bs ih =>
    cases rx with
    | nil =>
      have hs : s.env.script = .fault :: rest := by simpa using h
      simp only [List.length_nil, List.getElem?_cons_zero, Option.some.injEq] at hb
      subst hb
      simp [exchange, xfer, react, hs, hf, afterEvents, exchanged, State.log]
    | cons m ms =>
      have hs : s.env.script = .byte m :: (ms.map Reply.byte ++ .fault :: rest) := by simpa using h
      have := ih ms (State.log (.xfer c m) { s with env.script := ms.map Reply.byte ++ .fault :: rest })
        (by simpa using hb) hf rfl
      simp [exchange, xfer, react, hs, this, afterEvents]

end Sys2Proof.Machine
end

