-- ==== Sys2Proof/Laws/Operands.lean ====
section
/-! SUPPORT. Byte order and byte lanes: what `lane`, `le32`, `packAt`, `wordOf`, `lanes`, `be16` and `addrOf` are to
each other (00_scope.md R9, R10). -/

namespace Sys2Proof.Machine

theorem lane_eq_extract (j : Nat) (v : Word) : lane j v = v.extractLsb' (8 * j) 8 := rfl

@[simp] theorem le32_length (v : Word) : (le32 v).length = 4 := rfl

@[simp] theorem be16_length (a : Addr) : (be16 a).length = 2 := rfl

@[simp] theorem lanes_length (p n : Nat) (v : Word) : (lanes p n v).length = n := by simp [lanes]

theorem lanes_zero_four (v : Word) : lanes 0 4 v = le32 v := rfl

theorem getElem_lanes (p n i : Nat) (v : Word) (h : i < n) :
    (lanes p n v)[i]'(by simpa using h) = lane (p + i) v := by simp [lanes]

/-- Bit `8 * j + k` of a packed word is bit `k` of the byte placed in lane `j`, zero where no byte is. -/
theorem getLsbD_packAt (bs : List Byte) (p i : Nat) (hi : i < 32) :
    (packAt p bs).getLsbD i = (decide (p ≤ i / 8) && (bs.getD (i / 8 - p) 0).getLsbD (i % 8)) := by
  induction bs generalizing p with
  | nil => simp [packAt]
  | cons b bs ih =>
    simp only [packAt, BitVec.getLsbD_or, BitVec.getLsbD_shiftLeft, BitVec.getLsbD_setWidth, ih, hi,
      decide_true, Bool.true_and]
    rcases Nat.lt_trichotomy p (i / 8) with h | h | h
    · have h1 : ¬ i < 8 * p := by omega
      have h2 : b.getLsbD (i - 8 * p) = false := BitVec.getLsbD_of_ge _ _ (by omega)
      have h3 : i / 8 - p = (i / 8 - (p + 1)) + 1 := by omega
      simp [h2, h3, Nat.le_of_lt h, show p + 1 ≤ i / 8 by omega]
    · subst h
      have h1 : ¬ i < 8 * (i / 8) := by omega
      have h2 : i - 8 * (i / 8) = i % 8 := by omega
      simp [h1, h2]
      omega
    · have h1 : i < 8 * p := by omega
      simp [h1, show ¬ p ≤ i / 8 by omega, show ¬ p + 1 ≤ i / 8 by omega]

/-- A lane of a packed word is the byte placed there, zero where no byte is (R115 to R117). -/
theorem lane_packAt (bs : List Byte) (p j : Nat) (hj : j < 4) :
    lane j (packAt p bs) = if p ≤ j then bs.getD (j - p) 0 else 0 := by
  apply BitVec.eq_of_getLsbD_eq
  intro k hk
  have h1 : (8 * j + k) / 8 = j := by omega
  have h2 : (8 * j + k) % 8 = k := by omega
  simp only [lane, BitVec.getLsbD_extractLsb', hk, decide_true, Bool.true_and,
    getLsbD_packAt _ _ _ (show 8 * j + k < 32 by omega), h1, h2]
  split <;> simp_all

/-- Two words with the same four lanes are equal. -/
theorem word_ext {v w : Word} (h : ∀ j < 4, lane j v = lane j w) : v = w := by
  apply BitVec.eq_of_getLsbD_eq
  intro i hi
  have := congrArg (fun b : Byte => b.getLsbD (i % 8)) (h (i / 8) (by omega))
  have h1 : 8 * (i / 8) + i % 8 = i := by omega
  simpa [lane, BitVec.getLsbD_extractLsb', Nat.mod_lt, h1] using this

/-- `word_of(le32(v)) = v` (R10). -/
@[simp] theorem wordOf_le32 (v : Word) : wordOf (le32 v) = v := by
  apply word_ext
  intro j hj
  rw [wordOf, lane_packAt _ _ _ hj]
  match j, hj with
  | 0, _ | 1, _ | 2, _ | 3, _ => simp [le32]

/-- `le32(word_of(b0, b1, b2, b3)) = [b0, b1, b2, b3]` (R10). -/
@[simp] theorem le32_wordOf (b0 b1 b2 b3 : Byte) : le32 (wordOf [b0, b1, b2, b3]) = [b0, b1, b2, b3] := by
  simp [le32, wordOf, lane_packAt]

/-- The lanes a packed word carries are its bytes. -/
theorem lanes_packAt (bs : List Byte) (p : Nat) (h : p + bs.length ≤ 4) :
    lanes p bs.length (packAt p bs) = bs := by
  apply List.ext_getElem (by simp)
  intro i h1 h2
  rw [getElem_lanes _ _ _ _ h2, lane_packAt _ _ _ (by omega)]
  simp [h2]

@[simp] theorem wordBE_be32 (v : Word) : wordBE (be32 v) = some v := by
  have h := wordOf_le32 v
  simpa [wordBE, be32, le32] using h

@[simp] theorem be32_length (v : Word) : (be32 v).length = 4 := rfl

/-- `be16` and `addrOf` are inverse (R10). -/
@[simp] theorem addrOf_be16 (a : Addr) : addrOf (a.extractLsb' 8 8) (a.extractLsb' 0 8) = a := by
  apply BitVec.eq_of_getLsbD_eq
  intro i hi
  simp only [addrOf, BitVec.getLsbD_or, BitVec.getLsbD_shiftLeft, BitVec.getLsbD_setWidth,
    BitVec.getLsbD_extractLsb', hi, decide_true, Bool.true_and]
  by_cases h : i < 8
  · simp [h]
  · have h1 : 8 + (i - 8) = i := by omega
    simp [h, h1, show i - 8 < 16 by omega, show i - 8 < 8 by omega]

theorem be16_eq (a : Addr) : be16 a = [a.extractLsb' 8 8, a.extractLsb' 0 8] := rfl

/-- The fields of a CSR command word (R110). -/
theorem csrCmdWord_fields (d : Dir) (n : SizeCode) (a : Addr) :
    (csrCmdWord d n a).getLsbD 31 = true ∧ (csrCmdWord d n a).getLsbD 30 = (d == .rd) ∧
      (csrCmdWord d n a).extractLsb' 18 12 = 0 ∧ (csrCmdWord d n a).extractLsb' 16 2 = sizeCode n ∧
      (csrCmdWord d n a).extractLsb' 0 16 = a := by
  refine ⟨?_, ?_, ?_, ?_, ?_⟩
  · cases d <;> cases n <;> simp [csrCmdWord, sizeCode]
  · cases d <;> cases n <;> simp [csrCmdWord, sizeCode]
  · apply BitVec.eq_of_getLsbD_eq
    intro i hi
    have : i = 0 ∨ i = 1 ∨ i = 2 ∨ i = 3 ∨ i = 4 ∨ i = 5 ∨ i = 6 ∨ i = 7 ∨ i = 8 ∨ i = 9 ∨ i = 10 ∨ i = 11 := by
      omega
    rcases this with h | h | h | h | h | h | h | h | h | h | h | h <;> subst h <;>
      cases d <;> cases n <;> simp [csrCmdWord, sizeCode]
  · apply BitVec.eq_of_getLsbD_eq
    intro i hi
    have : i = 0 ∨ i = 1 := by omega
    rcases this with h | h <;> subst h <;> cases d <;> cases n <;> simp [csrCmdWord, sizeCode]
  · apply BitVec.eq_of_getLsbD_eq
    intro i hi
    have hc : (0xC0000000#32).getLsbD i = false ∧ (0x80000000#32).getLsbD i = false := by
      interval_cases i <;> decide
    have h32 : i < 32 := by omega
    cases d <;>
      simp [-BitVec.getLsbD_eq_getElem, csrCmdWord, hi, hc, BitVec.getLsbD_extractLsb', BitVec.getLsbD_or] <;>
      exact fun _ => h32

/-- The fields of an address/length word (R114). -/
theorem addrLenWord_fields (len : BitVec 16) (a : Addr) :
    (addrLenWord len a).extractLsb' 16 16 = len ∧ (addrLenWord len a).extractLsb' 0 16 = a := by
  constructor <;> apply BitVec.eq_of_getLsbD_eq <;> intro i hi
  · simp only [addrLenWord, BitVec.getLsbD_extractLsb', BitVec.getLsbD_or, BitVec.getLsbD_shiftLeft,
      BitVec.getLsbD_setWidth]
    simp [hi, show 16 + i < 32 by omega, show i < 32 by omega]
  · simp [addrLenWord, hi]
    intro _; omega

end Sys2Proof.Machine
end

