-- ==== Sys2Proof/Laws/Transport.lean ====
section
/-! SUPPORT. What a frame is: every word frame is one list of exchanges between the two edges of chip-select, so that
one lemma says what all of them can do. -/

namespace Sys2Proof.Machine

/-! ### Lists of exchanges -/

/-- Exchanging one list after another is exchanging their concatenation. -/
theorem exchange_append (xs ys : List Byte) (s : State) :
    exchange (xs ++ ys) s =
      andThen (exchange xs s) fun as s => andThen (exchange ys s) fun bs s => .ok (as ++ bs) s := by
  induction xs generalizing s with
  | nil =>
    simp only [List.nil_append, exchange, andThen_ok]
    cases exchange ys s <;> rfl
  | cons x xs ih =>
    simp only [List.cons_append, exchange]
    cases xfer x s with
    | stop t => rfl
    | ok m t =>
      simp only [andThen_ok, ih]
      cases exchange xs t with
      | stop u => rfl
      | ok as u =>
        simp only [andThen_ok]
        cases exchange ys u <;> rfl

/-- As many bytes come back as are sent. -/
theorem exchange_ok_length {tx rx : List Byte} {s t : State} (h : exchange tx s = .ok rx t) :
    rx.length = tx.length ∧ Exchanged s t := by
  rcases exchange_cases tx s with ⟨rx', t', h1, h2, h3, _⟩ | ⟨rx', b, t', h1, _⟩ | ⟨rx', t', h1, _⟩
  · rw [h1] at h
    cases h
    exact ⟨h3, h2⟩
  · rw [h1] at h; cases h
  · rw [h1] at h; cases h

@[simp] theorem csAssert_params (s : State) : (csAssert s).env.params = s.env.params := rfl
@[simp] theorem csAssert_script (s : State) : (csAssert s).env.script = s.env.script := rfl
@[simp] theorem csAssert_trace (s : State) : (csAssert s).trace = s.trace ++ [.csAssert] := rfl

/-! ### The word frames as one list of exchanges -/

/-- A frame: chip-select asserted, the bytes exchanged, chip-select de-asserted; the bytes received. -/
def frame (tx : List Byte) (s : State) : Run (List Byte) :=
  andThen (exchange tx (csAssert s)) fun rx s => .ok rx (csDeassert s)

/-- `WRITE_WORD` is a frame whose received bytes are discarded (R140). -/
theorem writeWord_eq_frame (reg : Addr) (v : Word) (s : State) :
    writeWord reg v s = thenDo (frame (writeTx reg v) s) id := by
  simp only [writeWord, send, frame]
  have : (0x02 :: be16 reg ++ le32 v : List Byte) = writeTx reg v := by simp [be16, le32, writeTx, lane]
  rw [this]
  cases exchange (writeTx reg v) (csAssert s) <;> rfl

/-- `RESET_SQI_FRAME` is a frame of one byte (R151). -/
theorem resetSqiFrame_eq_frame (s : State) : resetSqiFrame s = thenDo (frame [0xFF] s) id := by
  simp only [resetSqiFrame, send, frame]
  cases exchange [0xFF] (csAssert s) <;> rfl

/-- A read frame is a frame whose last four received bytes are the value (R141, R142). -/
theorem readFrame_eq_frame (header : List Byte) (s : State) :
    readFrame header s =
      andThen (frame (header ++ fill4 s.env.params) s) fun rx s => .ok (wordOf (rx.drop header.length)) s := by
  simp only [readFrame, send, recv4, frame, exchange_append]
  cases h : exchange header (csAssert s) with
  | stop t => rfl
  | ok xs t =>
    obtain ⟨h1, h2⟩ := exchange_ok_length h
    have hp : t.env.params = s.env.params := h2.same.params
    simp only [andThen_ok, hp]
    cases exchange (fill4 s.env.params) t with
    | stop u => rfl
    | ok ys u =>
      simp only [andThen_ok, ← h1]
      rw [List.drop_append_of_le_length (Nat.le_refl _), List.drop_length, List.nil_append]

/-- `READ_WORD` is a frame whose bytes after the header are the value (R143). -/
theorem readWord_eq_frame (reg : Addr) (s : State) :
    readWord reg s =
      andThen (frame (readTx s.env.params reg) s) fun rx s' =>
        .ok (wordOf (rx.drop (readSkip s.env.params))) s' := by
  unfold readWord
  cases h : s.env.params.wordRead <;>
    simp [fastReadWord, serialReadWord, readFrame_eq_frame, readTx, readSkip, h, fill4, be16,
      List.replicate]

/-! ### What a frame can do -/

/-- Between frames the wire is idle. -/
theorem csDeassert_wire (s : State) (h : s.wire.cs = true) : (csDeassert s).wire = Wire.idle := by
  simp [csDeassert, h]

/-- A frame's exchanges and the two edges of chip-select between `s` and `t`. -/
structure Framed (s t : State) : Prop where
  seq : t.seq = s.seq
  latch : t.latch = s.latch
  vis : t.vis = s.vis
  work : t.work = s.work
  buf : t.buf = s.buf
  wire : t.wire = Wire.idle
  params : t.env.params = s.env.params
  inputs : t.env.inputs = s.env.inputs
  resetIn : t.env.resetIn = s.env.resetIn
  script : t.env.script <:+ s.env.script
  openSim : s.env.sim = none → t.env.sim = none
  simOk : SimOk s → SimOk t

theorem simOk_csAssert {s : State} (h : SimOk s) : SimOk (csAssert s) := by
  intro e he
  simp only [csAssert, Option.map_eq_some_iff] at he
  obtain ⟨e', h1, rfl⟩ := he
  exact h e' h1

theorem simOk_csDeassert {s : State} (h : SimOk s) : SimOk (csDeassert s) := by
  unfold csDeassert
  split
  · intro e he
    simp only [Option.map_eq_some_iff] at he
    obtain ⟨e', h1, rfl⟩ := he
    exact h e' h1
  · exact h

/-- The state inside a frame begun in `s`, before any of it is closed. -/
structure Inside (s t : State) : Prop where
  seq : t.seq = s.seq
  latch : t.latch = s.latch
  vis : t.vis = s.vis
  work : t.work = s.work
  buf : t.buf = s.buf
  cs : t.wire.cs = true
  burst : t.wire.burst = s.wire.burst
  params : t.env.params = s.env.params
  inputs : t.env.inputs = s.env.inputs
  resetIn : t.env.resetIn = s.env.resetIn
  script : t.env.script <:+ s.env.script
  openSim : s.env.sim = none → t.env.sim = none
  simOk : SimOk s → SimOk t

theorem inside_of_exchanged {s t : State} (h : Exchanged (csAssert s) t) : Inside s t where
  seq := h.same.seq
  latch := h.same.latch
  vis := h.same.vis
  work := h.same.work
  buf := h.same.buf
  cs := by rw [h.same.wire]; rfl
  burst := by rw [h.same.wire]; rfl
  params := h.same.params
  inputs := h.same.inputs
  resetIn := h.same.resetIn
  script := h.script
  openSim := fun hs => h.openSim (by simp [csAssert, hs])
  simOk := fun hs => h.simOk (simOk_csAssert hs)

theorem framed_of_inside {s t : State} (h : Inside s t) : Framed s (csDeassert t) := by
  have e : csDeassert t = { t with
      wire := Wire.idle, env.sim := t.env.sim.map simFrameEnd, trace := t.trace ++ [.csDeassert] } := by
    simp [csDeassert, h.cs]
  refine ⟨?_, ?_, ?_, ?_, ?_, ?_, ?_, ?_, ?_, ?_, ?_, fun hs => simOk_csDeassert (h.simOk hs)⟩ <;> rw [e]
  · exact h.seq
  · exact h.latch
  · exact h.vis
  · exact h.work
  · exact h.buf
  · exact h.params
  · exact h.inputs
  · exact h.resetIn
  · exact h.script
  · intro hs; simp [h.openSim hs]

/-- What a frame can do: all exchanged and closed; or cut by a bus fault, if there can be one; or cut by block reset,
if the script holds one. -/
theorem frame_cases (tx : List Byte) (s : State) :
    (∃ rx t, frame tx s = .ok rx t ∧ Framed s t ∧ rx.length = tx.length ∧
      t.trace = s.trace ++ wholeFrame tx rx) ∨
    (∃ rx b t, frame tx s = .stop (raise .busFault t) ∧ Inside s t ∧ rx.length < tx.length ∧
      tx[rx.length]? = some b ∧ s.env.params.busCanFault = true ∧
      t.trace = s.trace ++ (.csAssert :: exchanged tx rx ++ [.xferFault b])) ∨
    (∃ rx t, frame tx s = .stop (blockReset t) ∧ Inside s t ∧ rx.length < tx.length ∧
      Reply.reset ∈ s.env.script ∧ t.trace = s.trace ++ (.csAssert :: exchanged tx rx)) := by
  rcases exchange_cases tx (csAssert s) with ⟨rx, t, h1, h2, h3, h4⟩ | ⟨rx, b, t, h1, h2, h3, h4, h5, h6⟩ |
    ⟨rx, t, h1, h2, h3, h4, h5⟩
  · have hi := inside_of_exchanged h2
    refine .inl ⟨rx, csDeassert t, by simp [frame, h1], framed_of_inside hi, h3, ?_⟩
    simp [csDeassert, hi.cs, h4, wholeFrame]
  · exact .inr (.inl ⟨rx, b, t, by simp [frame, h1], inside_of_exchanged h2, h3, h4, h5, by simp [h6]⟩)
  · exact .inr (.inr ⟨rx, t, by simp [frame, h1], inside_of_exchanged h2, h3, h4, by simp [h5]⟩)

/-- A frame the environment has answered with bytes. -/
theorem frame_bytes (tx rx : List Byte) (rest : List Reply) (s : State) (hp : PortReady s)
    (hlen : rx.length = tx.length) (h : Answers rx rest s) :
    frame tx s = .ok rx (afterEvents rest (wholeFrame tx rx) s) := by
  obtain ⟨hw, hs⟩ := hp
  have := exchange_bytes tx rx rest (csAssert s) hlen h
  rw [frame, this, andThen_ok]
  simp [afterEvents, csDeassert, csAssert, hs, wholeFrame, ← hw]

/-- A frame of which the environment answers the first exchanges with bytes and then reports a bus fault. -/
theorem frame_fault (tx rx : List Byte) (b : Byte) (rest : List Reply) (s : State) (hp : PortReady s)
    (hb : tx[rx.length]? = some b) (hf : s.env.params.busCanFault = true)
    (h : s.env.script = rx.map Reply.byte ++ .fault :: rest) :
    frame tx s = .stop (raise .busFault (insideCut rest tx rx b s)) := by
  obtain ⟨hw, hs⟩ := hp
  have := exchange_fault tx rx b rest (csAssert s) hb hf h
  rw [frame, this, andThen_stop]
  simp [afterEvents, insideCut, csAssert, hs]

/-! ### The word frames, answered -/

theorem writeWord_bytes (reg : Addr) (v : Word) (rx : List Byte) (rest : List Reply) (s : State) (hp : PortReady s)
    (hlen : rx.length = 7) (h : Answers rx rest s) :
    writeWord reg v s = .ok () (afterEvents rest (wholeFrame (writeTx reg v) rx) s) := by
  rw [writeWord_eq_frame, frame_bytes (writeTx reg v) rx rest s hp hlen h]
  rfl

@[simp] theorem readTx_length (p : Params) (reg : Addr) : (readTx p reg).length = readSkip p + 4 := by
  unfold readTx readSkip
  cases p.wordRead <;> rfl

theorem Reading.rx_eq (r : Reading) : r.rx = r.skipped ++ le32 r.value := rfl

@[simp] theorem Reading.rx_length (r : Reading) : r.rx.length = r.skipped.length + 4 := by simp [Reading.rx_eq]

theorem readWord_bytes (reg : Addr) (r : Reading) (rest : List Reply) (s : State) (hp : PortReady s)
    (hlen : r.skipped.length = readSkip s.env.params) (h : Answers r.rx rest s) :
    readWord reg s = .ok r.value (afterEvents rest (wholeFrame (readTx s.env.params reg) r.rx) s) := by
  have := frame_bytes (readTx s.env.params reg) r.rx rest s hp (by simp [hlen]) h
  simp [readWord_eq_frame, this, Reading.rx_eq, ← hlen]

theorem writeWord_fault (reg : Addr) (v : Word) (rx : List Byte) (b : Byte) (rest : List Reply) (s : State)
    (hp : PortReady s) (hb : (writeTx reg v)[rx.length]? = some b) (hf : s.env.params.busCanFault = true)
    (h : s.env.script = rx.map Reply.byte ++ .fault :: rest) :
    writeWord reg v s = .stop (raise .busFault (insideCut rest (writeTx reg v) rx b s)) := by
  simp [writeWord_eq_frame, frame_fault _ rx b rest s hp hb hf h]

theorem readWord_fault (reg : Addr) (rx : List Byte) (b : Byte) (rest : List Reply) (s : State)
    (hp : PortReady s) (hb : (readTx s.env.params reg)[rx.length]? = some b)
    (hf : s.env.params.busCanFault = true) (h : s.env.script = rx.map Reply.byte ++ .fault :: rest) :
    readWord reg s = .stop (raise .busFault (insideCut rest (readTx s.env.params reg) rx b s)) := by
  simp [readWord_eq_frame, frame_fault _ rx b rest s hp hb hf h]

/-! ### The word frames, whatever is answered -/

/-- What a whole-frame operation with a result can do. -/
def FrameCases {α : Type} (r : Run α) (s : State) : Prop :=
  (∃ a t, r = .ok a t ∧ Framed s t) ∨
  (∃ t, r = .stop (raise .busFault t) ∧ Inside s t ∧ s.env.params.busCanFault = true) ∨
  (∃ t, r = .stop (blockReset t) ∧ Inside s t ∧ Reply.reset ∈ s.env.script)

theorem writeWord_cases (reg : Addr) (v : Word) (s : State) : FrameCases (writeWord reg v s) s := by
  rw [writeWord_eq_frame]
  rcases frame_cases (writeTx reg v) s with ⟨rx, t, h1, h2, _⟩ | ⟨rx, b, t, h1, h2, _, _, h3, _⟩ |
    ⟨rx, t, h1, h2, _, h3, _⟩
  · exact .inl ⟨(), t, by simp [h1], h2⟩
  · exact .inr (.inl ⟨t, by simp [h1], h2, h3⟩)
  · exact .inr (.inr ⟨t, by simp [h1], h2, h3⟩)

theorem readWord_cases (reg : Addr) (s : State) : FrameCases (readWord reg s) s := by
  rw [readWord_eq_frame]
  rcases frame_cases (readTx s.env.params reg) s with ⟨rx, t, h1, h2, _⟩ | ⟨rx, b, t, h1, h2, _, _, h3, _⟩ |
    ⟨rx, t, h1, h2, _, h3, _⟩
  · exact .inl ⟨_, t, by rw [h1]; rfl, h2⟩
  · exact .inr (.inl ⟨t, by simp [h1], h2, h3⟩)
  · exact .inr (.inr ⟨t, by simp [h1], h2, h3⟩)

theorem resetSqiFrame_cases (s : State) : FrameCases (resetSqiFrame s) s := by
  rw [resetSqiFrame_eq_frame]
  rcases frame_cases [0xFF] s with ⟨rx, t, h1, h2, _⟩ | ⟨rx, b, t, h1, h2, _, _, h3, _⟩ |
    ⟨rx, t, h1, h2, _, h3, _⟩
  · exact .inl ⟨(), t, by rw [h1]; rfl, h2⟩
  · exact .inr (.inl ⟨t, by rw [h1]; rfl, h2, h3⟩)
  · exact .inr (.inr ⟨t, by rw [h1]; rfl, h2, h3⟩)

end Sys2Proof.Machine
end

