-- ==== Sys2Proof/Laws/Ops.lean ====
section
/-! SUPPORT. The shared operations of Machine/Ops.lean, Poller.lean and Csr.lean: for each, what it does to every group
of fields, or everything it can do, said once. -/

namespace Sys2Proof.Machine

/-! ### Chip-select -/

theorem csDeassert_of_closed {s : State} (h : s.wire.cs = false) : csDeassert s = s := by simp [csDeassert, h]

@[simp] theorem csDeassert_cs (s : State) : (csDeassert s).wire.cs = false := by
  unfold csDeassert
  split <;> simp_all

@[simp] theorem csDeassert_seq (s : State) : (csDeassert s).seq = s.seq := by unfold csDeassert; split <;> rfl
@[simp] theorem csDeassert_latch (s : State) : (csDeassert s).latch = s.latch := by unfold csDeassert; split <;> rfl
@[simp] theorem csDeassert_vis (s : State) : (csDeassert s).vis = s.vis := by unfold csDeassert; split <;> rfl
@[simp] theorem csDeassert_work (s : State) : (csDeassert s).work = s.work := by unfold csDeassert; split <;> rfl
@[simp] theorem csDeassert_buf (s : State) : (csDeassert s).buf = s.buf := by unfold csDeassert; split <;> rfl
@[simp] theorem csDeassert_params (s : State) : (csDeassert s).env.params = s.env.params := by
  unfold csDeassert; split <;> rfl
@[simp] theorem csDeassert_script (s : State) : (csDeassert s).env.script = s.env.script := by
  unfold csDeassert; split <;> rfl
@[simp] theorem csDeassert_inputs (s : State) : (csDeassert s).env.inputs = s.env.inputs := by
  unfold csDeassert; split <;> rfl
@[simp] theorem csDeassert_resetIn (s : State) : (csDeassert s).env.resetIn = s.env.resetIn := by
  unfold csDeassert; split <;> rfl
@[simp] theorem csDeassert_fresh (s : State) : (csDeassert s).env.fresh = s.env.fresh := by
  unfold csDeassert; split <;> rfl
theorem csDeassert_trace (s : State) :
    (csDeassert s).trace = s.trace ++ (if s.wire.cs then [.csDeassert] else []) := by
  unfold csDeassert; split <;> simp_all

/-- With no burst open, a de-asserted chip-select leaves the wire between frames. -/
theorem csDeassert_wire_idle {s : State} (h : s.wire.cs = s.wire.burst.isSome) :
    (csDeassert s).wire = Wire.idle := by
  unfold csDeassert
  split
  · rfl
  · rename_i hc
    cases hw : s.wire with
    | mk cs burst =>
      rw [hw] at h hc
      cases burst <;> simp_all

/-! ### Fault entry (R236) -/

@[simp] theorem faultEntry_seq (c : Cause) (s : State) : (faultEntry c s).seq = ⟨.idle, .nobody, false⟩ := rfl
@[simp] theorem faultEntry_status (c : Cause) (s : State) : (faultEntry c s).vis.status = causeCode c := rfl
@[simp] theorem faultEntry_faultSeen (c : Cause) (s : State) : (faultEntry c s).vis.faultSeen = true := rfl
@[simp] theorem faultEntry_alEvent (c : Cause) (s : State) : (faultEntry c s).vis.alEvent = s.vis.alEvent := by
  simp [faultEntry, scrambleRbuf]
@[simp] theorem faultEntry_latch (c : Cause) (s : State) : (faultEntry c s).latch = s.latch := csDeassert_latch s
@[simp] theorem faultEntry_work (c : Cause) (s : State) : (faultEntry c s).work = s.work := csDeassert_work s
@[simp] theorem faultEntry_wbuf (c : Cause) (s : State) : (faultEntry c s).buf.wbuf = s.buf.wbuf := by
  simp [faultEntry, scrambleRbuf]
@[simp] theorem faultEntry_res (c : Cause) (s : State) : (faultEntry c s).buf.res = s.buf.res := by
  simp [faultEntry, scrambleRbuf]
theorem faultEntry_wire (c : Cause) (s : State) : (faultEntry c s).wire = (csDeassert s).wire := rfl
@[simp] theorem faultEntry_cs (c : Cause) (s : State) : (faultEntry c s).wire.cs = false := csDeassert_cs s
@[simp] theorem faultEntry_params (c : Cause) (s : State) : (faultEntry c s).env.params = s.env.params :=
  csDeassert_params s
@[simp] theorem faultEntry_script (c : Cause) (s : State) : (faultEntry c s).env.script = s.env.script :=
  csDeassert_script s
@[simp] theorem faultEntry_inputs (c : Cause) (s : State) : (faultEntry c s).env.inputs = s.env.inputs :=
  csDeassert_inputs s
@[simp] theorem faultEntry_resetIn (c : Cause) (s : State) : (faultEntry c s).env.resetIn = s.env.resetIn :=
  csDeassert_resetIn s
theorem faultEntry_sim (c : Cause) (s : State) : (faultEntry c s).env.sim = (csDeassert s).env.sim := rfl
theorem faultEntry_trace (c : Cause) (s : State) :
    (faultEntry c s).trace = (csDeassert s).trace ++ [.rsp (causeCode c) none s.vis.alEvent] := by
  have h : (faultEntry c s).trace = (csDeassert s).trace ++ [.rsp (causeCode c) none (csDeassert s).vis.alEvent] := rfl
  rw [h, csDeassert_vis]

/-- A faulted operation leaves a canonical peripheral canonical. -/
theorem faultEntry_simOk {c : Cause} {s : State} (h : SimOk s) : SimOk (faultEntry c s) := simOk_csDeassert h

/-! ### Normal completion (R238) -/

@[simp] theorem complete_seq (s : State) : (complete s).seq = ⟨.idle, .nobody, false⟩ := rfl
@[simp] theorem complete_vis (s : State) : (complete s).vis = { s.vis with status := 0 } := rfl
@[simp] theorem complete_latch (s : State) : (complete s).latch = s.latch := rfl
@[simp] theorem complete_work (s : State) : (complete s).work = s.work := rfl
@[simp] theorem complete_buf (s : State) : (complete s).buf = s.buf := rfl
@[simp] theorem complete_wire (s : State) : (complete s).wire = s.wire := rfl
@[simp] theorem complete_env (s : State) : (complete s).env = s.env := rfl
@[simp] theorem complete_trace (s : State) :
    (complete s).trace =
      s.trace ++ [.rsp 0 (if s.latch.op = .read then some s.buf.rbuf else none) s.vis.alEvent] := rfl

/-! ### Block reset (R260) -/

@[simp] theorem blockReset_seq (s : State) : (blockReset s).seq = State.reset.seq := rfl
@[simp] theorem blockReset_latch (s : State) : (blockReset s).latch = State.reset.latch := rfl
@[simp] theorem blockReset_work (s : State) : (blockReset s).work = State.reset.work := rfl
@[simp] theorem blockReset_buf (s : State) : (blockReset s).buf = State.reset.buf := rfl
@[simp] theorem blockReset_wire (s : State) : (blockReset s).wire = Wire.idle := rfl
@[simp] theorem blockReset_status (s : State) : (blockReset s).vis.status = 0 := rfl
@[simp] theorem blockReset_faultSeen (s : State) : (blockReset s).vis.faultSeen = false := rfl
@[simp] theorem blockReset_resetIn (s : State) : (blockReset s).env.resetIn = .off := rfl
@[simp] theorem blockReset_params (s : State) : (blockReset s).env.params = s.env.params := csDeassert_params s
@[simp] theorem blockReset_script (s : State) : (blockReset s).env.script = s.env.script := csDeassert_script s
@[simp] theorem blockReset_inputs (s : State) : (blockReset s).env.inputs = s.env.inputs := csDeassert_inputs s
theorem blockReset_trace (s : State) : (blockReset s).trace = (csDeassert s).trace := rfl
theorem blockReset_simOk {s : State} (h : SimOk s) : SimOk (blockReset s) := simOk_csDeassert h

/-! ### What ends an operation -/

theorem unlessReset_of_ne {f : State → State} {s : State} (h : s.env.resetIn ≠ .beforeRsp) :
    unlessReset f s = f s := if_neg h
theorem unlessReset_of_eq {f : State → State} {s : State} (h : s.env.resetIn = .beforeRsp) :
    unlessReset f s = blockReset s := if_pos h

/-- Raising a fault is fault entry, unless block reset comes before the response. -/
theorem raise_cases (c : Cause) (s : State) :
    (s.env.resetIn ≠ .beforeRsp ∧ raise c s = faultEntry c s) ∨
    (s.env.resetIn = .beforeRsp ∧ raise c s = blockReset s) := by
  by_cases h : s.env.resetIn = .beforeRsp
  · exact .inr ⟨h, unlessReset_of_eq h⟩
  · exact .inl ⟨h, unlessReset_of_ne h⟩

/-- The last line of a host operation is completion, unless block reset comes before the response. -/
theorem finish_cases (s : State) :
    (s.env.resetIn ≠ .beforeRsp ∧ finish s = complete s) ∨
    (s.env.resetIn = .beforeRsp ∧ finish s = blockReset s) := by
  by_cases h : s.env.resetIn = .beforeRsp
  · exact .inr ⟨h, unlessReset_of_eq h⟩
  · exact .inl ⟨h, unlessReset_of_ne h⟩

/-- However an operation ends, the block is idle with nothing in progress and its parameters and inputs are kept. -/
@[simp] theorem raise_seq (c : Cause) (s : State) : (raise c s).seq = ⟨.idle, .nobody, false⟩ := by
  rcases raise_cases c s with ⟨_, h⟩ | ⟨_, h⟩ <;> rw [h] <;> rfl
@[simp] theorem raise_params (c : Cause) (s : State) : (raise c s).env.params = s.env.params := by
  rcases raise_cases c s with ⟨_, h⟩ | ⟨_, h⟩ <;> simp [h]
@[simp] theorem raise_inputs (c : Cause) (s : State) : (raise c s).env.inputs = s.env.inputs := by
  rcases raise_cases c s with ⟨_, h⟩ | ⟨_, h⟩ <;> simp [h]
@[simp] theorem raise_script (c : Cause) (s : State) : (raise c s).env.script = s.env.script := by
  rcases raise_cases c s with ⟨_, h⟩ | ⟨_, h⟩ <;> simp [h]
@[simp] theorem raise_cs (c : Cause) (s : State) : (raise c s).wire.cs = false := by
  rcases raise_cases c s with ⟨_, h⟩ | ⟨_, h⟩ <;> simp [h]
theorem raise_simOk {c : Cause} {s : State} (h : SimOk s) : SimOk (raise c s) := by
  rcases raise_cases c s with ⟨_, e⟩ | ⟨_, e⟩ <;> rw [e]
  · exact faultEntry_simOk h
  · exact blockReset_simOk h
@[simp] theorem finish_seq (s : State) : (finish s).seq = ⟨.idle, .nobody, false⟩ := by
  rcases finish_cases s with ⟨_, h⟩ | ⟨_, h⟩ <;> rw [h] <;> rfl
@[simp] theorem finish_params (s : State) : (finish s).env.params = s.env.params := by
  rcases finish_cases s with ⟨_, h⟩ | ⟨_, h⟩ <;> simp [h]
@[simp] theorem finish_inputs (s : State) : (finish s).env.inputs = s.env.inputs := by
  rcases finish_cases s with ⟨_, h⟩ | ⟨_, h⟩ <;> simp [h]
@[simp] theorem finish_script (s : State) : (finish s).env.script = s.env.script := by
  rcases finish_cases s with ⟨_, h⟩ | ⟨_, h⟩ <;> simp [h]
theorem finish_simOk {s : State} (h : SimOk s) : SimOk (finish s) := by
  rcases finish_cases s with ⟨_, e⟩ | ⟨_, e⟩ <;> rw [e]
  · exact h
  · exact blockReset_simOk h

/-- No peripheral is attached after reset, and an untouched memory or register file is canonical (R85). -/
theorem reset_simOk : SimOk State.reset := by
  intro e h
  simp [State.reset] at h

theorem emptyMemory_wf : Memory.wf [] := ⟨⟨.nil, by simp⟩, by simp⟩

/-- At its start the reference peripheral reads zero everywhere (R85). -/
@[simp] theorem simEsc_start_mem (b a : Nat) (k : Bool) (w : Word) (x : Nat) :
    memGet (SimEsc.start b a k w).mem x = 0 := by simp [SimEsc.start, memGet, sparseGet]
@[simp] theorem simEsc_start_reg (b a : Nat) (k : Bool) (w : Word) (r : Addr) :
    simReg (SimEsc.start b a k w) r = 0 := rfl

/-! ### Bursts -/

/-- What part of an operation can do inside an open frame, or when it opens one. -/
def InsideCases {α : Type} (r : Run α) (s : State) (done : State → Prop) : Prop :=
  (∃ a t, r = .ok a t ∧ done t) ∨
  (∃ t, r = .stop (raise .busFault t) ∧ s.env.params.busCanFault = true ∧ t.vis = s.vis ∧ t.latch = s.latch ∧
    t.work = s.work ∧ t.buf = s.buf ∧ t.env.params = s.env.params ∧ t.env.inputs = s.env.inputs ∧
    t.env.script <:+ s.env.script ∧ (s.wire.cs = true → t.wire = s.wire) ∧ (SimOk s → SimOk t)) ∨
  (∃ t, r = .stop (blockReset t) ∧ Reply.reset ∈ s.env.script ∧ t.env.params = s.env.params ∧
    t.env.inputs = s.env.inputs ∧ t.env.script <:+ s.env.script ∧ (SimOk s → SimOk t))

/-- `send` inside a frame: what was received is not kept. -/
theorem send_cases (tx : List Byte) (s : State) : InsideCases (send tx s) s (Exchanged s) := by
  unfold send
  rcases exchange_cases tx s with ⟨rx, t, h1, h2, _⟩ | ⟨rx, b, t, h1, h2, _, _, h3, _⟩ | ⟨rx, t, h1, h2, _, h3, _⟩
  · exact .inl ⟨(), t, by simp [h1], h2⟩
  · exact .inr (.inl ⟨t, by simp [h1], h3, h2.same.vis, h2.same.latch, h2.same.work, h2.same.buf, h2.same.params,
      h2.same.inputs, h2.script, fun _ => h2.same.wire, h2.simOk⟩)
  · exact .inr (.inr ⟨t, by simp [h1], h3, h2.same.params, h2.same.inputs, h2.script, h2.simOk⟩)

/-- `BURST_PUSH` (R146). -/
theorem burstPush_cases (v : Word) (s : State) : InsideCases (burstPush v s) s (Exchanged s) := send_cases _ s

/-- `BURST_POP` (R149). -/
theorem burstPop_cases (s : State) : InsideCases (burstPop s) s (Exchanged s) := by
  unfold burstPop recv4
  rcases exchange_cases (fill4 s.env.params) s with ⟨rx, t, h1, h2, _⟩ | ⟨rx, b, t, h1, h2, _, _, h3, _⟩ |
    ⟨rx, t, h1, h2, _, h3, _⟩
  · exact .inl ⟨_, t, by rw [h1]; rfl, h2⟩
  · exact .inr (.inl ⟨t, by rw [h1]; rfl, h3, h2.same.vis, h2.same.latch, h2.same.work, h2.same.buf,
      h2.same.params, h2.same.inputs, h2.script, fun _ => h2.same.wire, h2.simOk⟩)
  · exact .inr (.inr ⟨t, by rw [h1]; rfl, h3, h2.same.params, h2.same.inputs, h2.script, h2.simOk⟩)

/-! ### One poll (R162) -/

/-- The state after a poll has read `v`. -/
def polled (v : Word) (s : State) : State := (s.setWord v).setPolls (s.work.polls + 1)

/-- Everything one iteration of a poll loop can do: the flag seen; the limit reached; neither; or its frame cut by a
bus fault or block reset. -/
theorem pollOnce_cases (kind : PollKind) (reg : Addr) (s : State) :
    (∃ v t, readWord reg s = .ok v t ∧ Framed s t ∧
      (pollReady kind v = true ∧
          pollOnce kind reg s =
            .ok true (if kind = .fifoAvail then loadFifoCnt v (polled v t) else polled v t) ∨
        pollReady kind v = false ∧ limitReached s.env.params (s.work.polls + 1) = true ∧
          pollOnce kind reg s = .stop (raise .deviceUnresponsive (polled v t)) ∨
        pollReady kind v = false ∧ limitReached s.env.params (s.work.polls + 1) = false ∧
          pollOnce kind reg s = .ok false (polled v t))) ∨
    (∃ t, pollOnce kind reg s = .stop (raise .busFault t) ∧ Inside s t ∧ s.env.params.busCanFault = true) ∨
    (∃ t, pollOnce kind reg s = .stop (blockReset t) ∧ Inside s t ∧ Reply.reset ∈ s.env.script) := by
  rcases readWord_cases reg s with ⟨v, t, h1, h2⟩ | ⟨t, h1, h2, h3⟩ | ⟨t, h1, h2, h3⟩
  · refine .inl ⟨v, t, h1, h2, ?_⟩
    have e : pollOnce kind reg s =
        if pollReady kind v then .ok true (if kind = .fifoAvail then loadFifoCnt v (polled v t) else polled v t)
        else if limitReached s.env.params (s.work.polls + 1) then
          .stop (raise .deviceUnresponsive (polled v t))
        else .ok false (polled v t) := by
      simp only [pollOnce, h1, andThen_ok, polled, h2.work]
      simp [h2.params]
    rw [e]
    cases hr : pollReady kind v
    · cases hl : limitReached s.env.params (s.work.polls + 1)
      · exact .inr (.inr ⟨rfl, rfl, rfl⟩)
      · exact .inr (.inl ⟨rfl, rfl, rfl⟩)
    · exact .inl ⟨rfl, rfl⟩
  · exact .inr (.inl ⟨t, by simp [pollOnce, h1], h2, h3⟩)
  · exact .inr (.inr ⟨t, by simp [pollOnce, h1], h2, h3⟩)

/-- The limit of R162, read by its number. -/
theorem limitReached_iff (p : Params) (n : Nat) : limitReached p n = true ↔ ∃ l, p.pollLimit = some l ∧ l ≤ n := by
  unfold limitReached
  cases p.pollLimit <;> simp

/-! ### Entering a CSR access (R170) -/

theorem sizeCodeOf_isSome (n : Nat) : (sizeCodeOf n).isSome = true ↔ n = 1 ∨ n = 2 ∨ n = 4 := by
  unfold sizeCodeOf
  split <;> simp_all

theorem sizeCodeOf_sizeBytes (n : SizeCode) : sizeCodeOf (sizeBytes n) = some n := by cases n <;> rfl

/-- Entering a CSR access raises the length fault or moves to the first phase of the access. -/
theorem enterCsr_cases (s : State) :
    (sizeCodeOf (csrLen s) = none ∧ enterCsr s = .stop (raise .invalidLength s)) ∨
    ((sizeCodeOf (csrLen s)).isSome = true ∧
      enterCsr s = .ok () (s.toPhase (if csrDir s = .wr then .cData else .cCmd))) := by
  unfold enterCsr
  cases h : sizeCodeOf (csrLen s) <;> simp

/-! ### Chunks (R201, R202) -/

/-- A chunk is 1, 2 or 4 bytes and no more than remain. -/
theorem chunkSize_cases (a : Addr) (rem : BitVec 16) (h : rem ≠ 0) :
    (chunkSize a rem = 1 ∨ chunkSize a rem = 2 ∨ chunkSize a rem = 4) ∧ (chunkSize a rem).toNat ≤ rem.toNat := by
  have h0 : rem.toNat ≠ 0 := fun e => h (BitVec.eq_of_toNat_eq (by simpa using e))
  have h4 : min rem.toNat 4 = 1 ∨ min rem.toNat 4 = 2 ∨ min rem.toNat 4 = 3 ∨ min rem.toNat 4 = 4 := by omega
  unfold chunkSize
  cases a.getLsbD 0 <;> cases a.getLsbD 1 <;> rcases h4 with h4 | h4 | h4 | h4 <;> simp [h4] <;> omega

end Sys2Proof.Machine
end

