-- ==== Sys2Proof/Laws/PerInstr.lean ====
section
/-! SUPPORT. Statements made per instruction: one lemma for every constructor of `Instr`. -/

namespace Sys2Proof.Laws.TableWidth

open Sys2Proof Sys2Proof.Machine

/-- The `width` column of spec/opcode_table.json in whole bytes (30_encoding.md R128): 2 bits take 1 byte, 34 bits 5. -/
def tableBytes : Instr → Nat
  | .writeWord _ _ => 7
  | .serialReadWord _ => 7
  | .fastReadWord _ => 8
  | .readWord _ => 0
  | .burstOpenWrite => 3
  | .burstPush _ => 4
  | .burstOpenRead => 4
  | .burstPop => 4
  | .burstClose => 0
  | .resetSqiFrame => 1
  | .csrcmdRead _ _ => 4
  | .csrcmdWrite _ _ => 4
  | .pramcmdAbort _ => 4
  | .pramcmdStart _ => 4
  | .pramAddrlen _ _ _ => 4
  | .pramStatus _ _ => 4
  | .csrStatus _ => 4
  | .csrDataWord _ _ _ => 4
  | .pramFirstWord _ _ _ _ => 4
  | .pramNextWord _ _ _ => 4
  | .init => 1
  | .reset => 1
  | .read _ _ => 5
  | .write _ _ => 5
  | .pollBusyClear _ => 0
  | .pollFifoAvail _ => 0
  | .pollEqual _ _ => 0
  | .csrRead _ _ => 0
  | .csrWrite _ _ => 0
  | .pramSetup _ _ _ => 0
  | .pramRead _ _ => 0
  | .pramWrite _ _ => 0
  | .chunk _ _ => 0
  | .alRefresh => 0

/-- How many bytes follow an operation's table width: the data of a WRITE (log 17). -/
def extraBytes : Instr → Nat
  | .write _ data => data.length
  | .writeWord _ _ | .serialReadWord _ | .fastReadWord _ | .readWord _ | .burstOpenWrite | .burstPush _ |
  .burstOpenRead | .burstPop | .burstClose | .resetSqiFrame | .csrcmdRead _ _ | .csrcmdWrite _ _ |
  .pramcmdAbort _ | .pramcmdStart _ | .pramAddrlen _ _ _ | .pramStatus _ _ | .csrStatus _ | .csrDataWord _ _ _ |
  .pramFirstWord _ _ _ _ | .pramNextWord _ _ _ | .init | .reset | .read _ _ | .pollBusyClear _ |
  .pollFifoAvail _ | .pollEqual _ _ | .csrRead _ _ | .csrWrite _ _ | .pramSetup _ _ _ | .pramRead _ _ |
  .pramWrite _ _ | .chunk _ _ | .alRefresh => 0

/-- The encoding of `i` has as many bytes as its table width takes, and those that follow it; a row of width 0 has no
bytes and is entered by its name. -/
def Statement (i : Instr) : Prop :=
  ∀ p : Params,
    match encode p i with
    | .coded _ bytes => tableBytes i ≠ 0 ∧ bytes.length = tableBytes i + extraBytes i
    | .named j => tableBytes i = 0 ∧ j = i

theorem writeWord (reg : Addr) (value : Word) : Statement (.writeWord reg value) :=
  fun _ => ⟨Nat.succ_ne_zero _, rfl⟩

theorem serialReadWord (reg : Addr) : Statement (.serialReadWord reg) :=
  fun _ => ⟨Nat.succ_ne_zero _, rfl⟩

theorem fastReadWord (reg : Addr) : Statement (.fastReadWord reg) :=
  fun _ => ⟨Nat.succ_ne_zero _, rfl⟩

theorem readWord (reg : Addr) : Statement (.readWord reg) := fun _ => ⟨rfl, rfl⟩

theorem burstOpenWrite : Statement (.burstOpenWrite) :=
  fun _ => ⟨Nat.succ_ne_zero _, rfl⟩

theorem burstPush (value : Word) : Statement (.burstPush value) :=
  fun _ => ⟨Nat.succ_ne_zero _, rfl⟩

theorem burstOpenRead : Statement (.burstOpenRead) :=
  fun _ => ⟨Nat.succ_ne_zero _, rfl⟩

theorem burstPop : Statement (.burstPop) :=
  fun _ => ⟨Nat.succ_ne_zero _, rfl⟩

theorem burstClose : Statement (.burstClose) := fun _ => ⟨rfl, rfl⟩

theorem resetSqiFrame : Statement (.resetSqiFrame) :=
  fun _ => ⟨Nat.succ_ne_zero _, rfl⟩

theorem csrcmdRead (size : SizeCode) (addr : Addr) : Statement (.csrcmdRead size addr) :=
  fun _ => ⟨Nat.succ_ne_zero _, rfl⟩

theorem csrcmdWrite (size : SizeCode) (addr : Addr) : Statement (.csrcmdWrite size addr) :=
  fun _ => ⟨Nat.succ_ne_zero _, rfl⟩

theorem pramcmdAbort (dir : Dir) : Statement (.pramcmdAbort dir) :=
  fun _ => ⟨Nat.succ_ne_zero _, rfl⟩

theorem pramcmdStart (dir : Dir) : Statement (.pramcmdStart dir) :=
  fun _ => ⟨Nat.succ_ne_zero _, rfl⟩

theorem pramAddrlen (dir : Dir) (len : BitVec 16) (addr : Addr) : Statement (.pramAddrlen dir len addr) :=
  fun _ => ⟨Nat.succ_ne_zero _, rfl⟩

theorem pramStatus (dir : Dir) (v : Word) : Statement (.pramStatus dir v) :=
  fun _ => ⟨Nat.succ_ne_zero _, rfl⟩

theorem csrStatus (v : Word) : Statement (.csrStatus v) :=
  fun _ => ⟨Nat.succ_ne_zero _, rfl⟩

theorem csrDataWord (dir : Dir) (size : SizeCode) (v : Word) : Statement (.csrDataWord dir size v) :=
  fun _ => ⟨Nat.succ_ne_zero _, rfl⟩

theorem pramFirstWord (dir : Dir) (fbp : BitVec 2) (n0 : Nat) (v : Word) : Statement (.pramFirstWord dir fbp n0 v) :=
  fun _ => ⟨Nat.succ_ne_zero _, rfl⟩

theorem pramNextWord (dir : Dir) (t : Nat) (v : Word) : Statement (.pramNextWord dir t v) :=
  fun _ => ⟨Nat.succ_ne_zero _, rfl⟩

theorem init : Statement (.init) :=
  fun _ => ⟨Nat.succ_ne_zero _, rfl⟩

theorem reset : Statement (.reset) :=
  fun _ => ⟨Nat.succ_ne_zero _, rfl⟩

theorem read (addr : Addr) (len : BitVec 16) : Statement (.read addr len) :=
  fun _ => ⟨Nat.succ_ne_zero _, rfl⟩

theorem write (addr : Addr) (data : List Byte) : Statement (.write addr data) := fun _ =>
  ⟨Nat.succ_ne_zero _, by simp [tableBytes, extraBytes]; omega⟩

theorem pollBusyClear (reg : Addr) : Statement (.pollBusyClear reg) := fun _ => ⟨rfl, rfl⟩

theorem pollFifoAvail (reg : Addr) : Statement (.pollFifoAvail reg) := fun _ => ⟨rfl, rfl⟩

theorem pollEqual (reg : Addr) (expected : Word) : Statement (.pollEqual reg expected) := fun _ => ⟨rfl, rfl⟩

theorem csrRead (addr : Addr) (n : Nat) : Statement (.csrRead addr n) := fun _ => ⟨rfl, rfl⟩

theorem csrWrite (addr : Addr) (data : List Byte) : Statement (.csrWrite addr data) := fun _ => ⟨rfl, rfl⟩

theorem pramSetup (dir : Dir) (addr : Addr) (len : BitVec 16) : Statement (.pramSetup dir addr len) := fun _ => ⟨rfl, rfl⟩

theorem pramRead (addr : Addr) (len : BitVec 16) : Statement (.pramRead addr len) := fun _ => ⟨rfl, rfl⟩

theorem pramWrite (addr : Addr) (data : List Byte) : Statement (.pramWrite addr data) := fun _ => ⟨rfl, rfl⟩

theorem chunk (a : Addr) (rem : BitVec 16) : Statement (.chunk a rem) := fun _ => ⟨rfl, rfl⟩

theorem alRefresh : Statement (.alRefresh) := fun _ => ⟨rfl, rfl⟩

end Sys2Proof.Laws.TableWidth
end

