-- ==== Sys2Proof/Laws/SimFrames.lean ====
section
/-! SUPPORT. The frames of the block against the reference peripheral: a word write performs one register write, a word
read one register read (20_memory.md R86), whatever its registers do. -/

namespace Sys2Proof.Machine

/-! ### The frame in progress touches no register operation -/

/-- `e` with another frame in progress. -/
def SimEsc.inFrame (e : SimEsc) (f : Option SimFrame) : SimEsc := { e with frame := f }

theorem simRegWrite_inFrame (e : SimEsc) (f : Option SimFrame) (a : Addr) (v : Word) :
    simRegWrite (e.inFrame f) a v = (simRegWrite e a v).inFrame f := by
  unfold simRegWrite SimEsc.inFrame
  dsimp only
  split
  · unfold simCsrCommand; split
    · dsimp only; split <;> rfl
    · rfl
  · split
    · unfold simReadCommand; split <;> [skip; split] <;> rfl
    · split
      · unfold simWriteCommand; split <;> [skip; split] <;> rfl
      · split
        · cases h : e.wrCtx <;> simp [simFifoWrite, simSetReg, h]
        · rfl

theorem simRegRead_inFrame (e : SimEsc) (f : Option SimFrame) (a : Addr) :
    simRegRead (e.inFrame f) a = ((simRegRead e a).1, (simRegRead e a).2.inFrame f) := by
  unfold simRegRead SimEsc.inFrame
  split
  · unfold simReadCsrCmd simReg; dsimp only; split <;> [skip; split] <;> rfl
  · split
    · unfold simReadRdCmd; dsimp only
      split <;> [rfl; (split <;> [split; skip])] <;> rfl
    · split
      · unfold simReadWrCmd
        cases h : e.wrCtx <;> simp only
        · split <;> simp [h]
        · split
          · simp
          · split
            · split <;> simp [h]
            · simp [h]
      · split
        · cases h : e.rdFifo <;> simp [simFifoRead, h]
        · split
          · rfl
          · split <;> rfl

/-! ### Exchanges with an attached peripheral -/

/-- The bytes an attached peripheral answers to `tx`, and what it becomes. -/
def simExchanges : List Byte → SimEsc → List Byte × SimEsc
  | [], e => ([], e)
  | b :: bs, e =>
    let r := simExchange e b
    let rs := simExchanges bs r.2
    (r.1 :: rs.1, rs.2)

theorem simExchanges_append (xs ys : List Byte) (e : SimEsc) :
    simExchanges (xs ++ ys) e =
      ((simExchanges xs e).1 ++ (simExchanges ys (simExchanges xs e).2).1,
        (simExchanges ys (simExchanges xs e).2).2) := by
  induction xs generalizing e with
  | nil => rfl
  | cons x xs ih => simp [simExchanges, ih]

theorem simExchanges_length (tx : List Byte) (e : SimEsc) : (simExchanges tx e).1.length = tx.length := by
  induction tx generalizing e with
  | nil => rfl
  | cons x xs ih => simp [simExchanges, ih]

/-- The attached peripheral answers alone: nothing is scripted and the bus cannot fault. -/
def SimAlone (e : SimEsc) (s : State) : Prop :=
  s.env.sim = some e ∧ s.env.script = [] ∧ s.env.params.busCanFault = false

theorem exchange_sim (tx : List Byte) (e : SimEsc) (s : State) (h : SimAlone e s) :
    exchange tx s = .ok (simExchanges tx e).1
      { s with
        env.sim := some (simExchanges tx e).2
        trace := s.trace ++ exchanged tx (simExchanges tx e).1 } := by
  induction tx generalizing e s with
  | nil => simp [exchange, simExchanges, ← h.1]
  | cons b bs ih =>
    obtain ⟨h1, h2, h3⟩ := h
    have hx : xfer b s = .ok (simExchange e b).1
        (State.log (.xfer b (simExchange e b).1) { s with env.sim := some (simExchange e b).2 }) := by
      simp [xfer, react, deviceAnswer, h1, h2, h3]
    have := ih (simExchange e b).2
      (State.log (.xfer b (simExchange e b).1) { s with env.sim := some (simExchange e b).2 }) ⟨rfl, h2, h3⟩
    rw [exchange, hx, andThen_ok, this, andThen_ok]
    simp [simExchanges, State.log]

/-- A frame of the block and the attached peripheral, which is between frames before and after. -/
theorem frame_sim (tx : List Byte) (e : SimEsc) (s : State) (h : SimAlone e s) (hw : s.wire = Wire.idle) :
    frame tx s = .ok (simExchanges tx (simFrameStart e)).1
      { s with
        env.sim := some (simFrameEnd (simExchanges tx (simFrameStart e)).2)
        trace := s.trace ++ wholeFrame tx (simExchanges tx (simFrameStart e)).1 } := by
  have := exchange_sim tx (simFrameStart e) (csAssert s) ⟨by simp [csAssert, h.1], h.2.1, h.2.2⟩
  rw [frame, this, andThen_ok]
  simp [csDeassert, csAssert, wholeFrame, ← hw]

/-! ### One exchange, by the place in the frame -/

@[simp] theorem SimEsc.inFrame_inFrame (e : SimEsc) (f g : Option SimFrame) :
    (e.inFrame f).inFrame g = e.inFrame g := rfl

theorem simFrameStart_eq (e : SimEsc) : simFrameStart e = e.inFrame (some ⟨0, 0, 0, [], 0⟩) := rfl

theorem simFrameEnd_inFrame (e : SimEsc) (f : Option SimFrame) : simFrameEnd (e.inFrame f) = e.inFrame none := rfl

theorem SimEsc.inFrame_none {e : SimEsc} (h : e.frame = none) : e.inFrame none = e := by
  cases e; simp_all [SimEsc.inFrame]

theorem simExchange_opcode (e : SimEsc) (op0 : Byte) (a : Addr) (g : List Byte) (d : Word) (b : Byte) :
    simExchange (e.inFrame (some ⟨0, op0, a, g, d⟩)) b = (0, e.inFrame (some ⟨1, b, a, g, d⟩)) := rfl

theorem simExchange_addrHigh (e : SimEsc) (op : Byte) (a : Addr) (g : List Byte) (d : Word) (b : Byte)
    (h : op ≠ 0xFF) :
    simExchange (e.inFrame (some ⟨1, op, a, g, d⟩)) b =
      ((0 : Byte), e.inFrame (some ⟨2, op, b.zeroExtend 16 <<< 8, g, d⟩)) := by
  simp only [simExchange, SimEsc.inFrame]
  rw [if_neg (by decide), if_neg h]; rfl

theorem simExchange_addrLow (e : SimEsc) (op : Byte) (a : Addr) (g : List Byte) (d : Word) (b : Byte)
    (h : op ≠ 0xFF) :
    simExchange (e.inFrame (some ⟨2, op, a, g, d⟩)) b =
      (0, e.inFrame (some ⟨3, op, a ||| b.zeroExtend 16, g, d⟩)) := by
  simp only [simExchange, SimEsc.inFrame]
  rw [if_neg (by decide), if_neg h]; rfl

theorem simExchange_dummy (e : SimEsc) (a : Addr) (g : List Byte) (d : Word) (b : Byte) :
    simExchange (e.inFrame (some ⟨3, 0x0B, a, g, d⟩)) b = (0, e.inFrame (some ⟨4, 0x0B, a, g, d⟩)) := rfl

/-- A payload byte of a write that does not end its group. -/
theorem simExchange_write (e : SimEsc) (n : Nat) (a : Addr) (g : List Byte) (d : Word) (b : Byte) (hn : 3 ≤ n)
    (hg : g.length < 3) :
    simExchange (e.inFrame (some ⟨n, 0x02, a, g, d⟩)) b = (0, e.inFrame (some ⟨n + 1, 0x02, a, g ++ [b], d⟩)) := by
  simp only [simExchange, SimEsc.inFrame]
  rw [if_neg (by omega), if_neg (by decide), if_neg (by omega), if_neg (by omega), if_pos (by trivial)]
  simp only [simPayloadIn]
  rw [if_neg (by simp; omega)]

/-- The last payload byte of a group of a write. -/
theorem simExchange_writeLast (e : SimEsc) (n : Nat) (a : Addr) (g : List Byte) (d : Word) (b : Byte) (hn : 3 ≤ n)
    (hg : g.length = 3) :
    simExchange (e.inFrame (some ⟨n, 0x02, a, g, d⟩)) b =
      (0, (simRegWrite e a (wordOf (g ++ [b]))).inFrame (some ⟨n + 1, 0x02, a, [], d⟩)) := by
  have hr := simRegWrite_inFrame e (some ⟨n, 0x02, a, g, d⟩) a (wordOf (g ++ [b]))
  simp only [simExchange, SimEsc.inFrame] at hr ⊢
  rw [if_neg (by omega), if_neg (by decide), if_neg (by omega), if_neg (by omega), if_pos (by trivial)]
  simp only [simPayloadIn]
  rw [if_pos (by simp; omega), hr]

/-- A payload exchange of a read is the peripheral's payload exchange. -/
theorem simExchange_read (e : SimEsc) (op : Byte) (skip n : Nat) (a : Addr) (g : List Byte) (d : Word) (b : Byte)
    (hop : op = 0x0B ∧ skip = 4 ∨ op = 0x03 ∧ skip = 3) (hn : skip ≤ n) :
    simExchange (e.inFrame (some ⟨n, op, a, g, d⟩)) b =
      simPayloadOut (e.inFrame (some ⟨n, op, a, g, d⟩)) ⟨n, op, a, g, d⟩ (n - skip) := by
  simp only [simExchange, SimEsc.inFrame]
  rcases hop with ⟨rfl, rfl⟩ | ⟨rfl, rfl⟩
  · rw [if_neg (by omega), if_neg (by decide), if_neg (by omega), if_neg (by omega), if_neg (by decide),
      if_pos (by trivial), if_neg (by omega)]
  · rw [if_neg (by omega), if_neg (by decide), if_neg (by omega), if_neg (by omega), if_neg (by decide),
      if_neg (by decide), if_pos (by trivial)]

theorem simPayloadOut_first (e : SimEsc) (f : SimFrame) (k : Nat) (h : k % 4 = 0) :
    simPayloadOut (e.inFrame (some f)) f k =
      (lane 0 (simRegRead e f.addr).1, (simRegRead e f.addr).2.inFrame
        (some ⟨f.count + 1, f.opcode, f.addr, f.group, (simRegRead e f.addr).1⟩)) := by
  have hr := simRegRead_inFrame e (some f) f.addr
  simp only [simPayloadOut, h, ↓reduceIte, hr]
  rfl

theorem simPayloadOut_later (e : SimEsc) (f : SimFrame) (k : Nat) (h : k % 4 ≠ 0) :
    simPayloadOut (e.inFrame (some f)) f k =
      (lane (k % 4) f.data, e.inFrame (some ⟨f.count + 1, f.opcode, f.addr, f.group, f.data⟩)) := by
  simp only [simPayloadOut, h, ↓reduceIte]
  rfl

/-! ### The word frames -/

/-- The header of a frame, as the peripheral sees it. -/
theorem simExchanges_header (op : Byte) (a : Addr) (e : SimEsc) (h : op ≠ 0xFF) :
    simExchanges [op, a.extractLsb' 8 8, a.extractLsb' 0 8] (simFrameStart e) =
      ([0, 0, 0], e.inFrame (some ⟨3, op, a, [], 0⟩)) := by
  have ha : (a.extractLsb' 8 8).zeroExtend 16 <<< 8 ||| (a.extractLsb' 0 8).zeroExtend 16 = a := addrOf_be16 a
  simp only [simExchanges, simFrameStart_eq, simExchange_opcode, simExchange_addrHigh _ _ _ _ _ _ h,
    simExchange_addrLow _ _ _ _ _ _ h, ha]

/-- Four bytes written after a write header, or after any number of whole groups: one register write. -/
theorem simExchanges_write (e : SimEsc) (n : Nat) (a : Addr) (d v : Word) (hn : 3 ≤ n) :
    simExchanges (le32 v) (e.inFrame (some ⟨n, 0x02, a, [], d⟩)) =
      ([0, 0, 0, 0], (simRegWrite e a v).inFrame (some ⟨n + 4, 0x02, a, [], d⟩)) := by
  have hv : wordOf [lane 0 v, lane 1 v, lane 2 v, lane 3 v] = v := wordOf_le32 v
  simp only [le32, simExchanges]
  rw [simExchange_write _ _ _ _ _ _ hn (by simp), simExchange_write _ _ _ _ _ _ (by omega) (by simp),
    simExchange_write _ _ _ _ _ _ (by omega) (by simp), simExchange_writeLast _ _ _ _ _ _ (by omega) (by simp)]
  simp only [List.nil_append, List.cons_append, hv]

/-- `WRITE_WORD` against the peripheral: one register write (R86, R87). -/
theorem writeWord_sim (reg : Addr) (v : Word) (e : SimEsc) (s : State) (h : SimAlone e s) (hf : e.frame = none)
    (hw : s.wire = Wire.idle) :
    writeWord reg v s = .ok ()
      { s with
        env.sim := some (simRegWrite e reg v)
        trace := s.trace ++ wholeFrame (writeTx reg v) (List.replicate 7 0) } := by
  have hx : simExchanges (writeTx reg v) (simFrameStart e) =
      (List.replicate 7 0, (simRegWrite e reg v).inFrame (some ⟨7, 0x02, reg, [], 0⟩)) := by
    have : writeTx reg v = [0x02, reg.extractLsb' 8 8, reg.extractLsb' 0 8] ++ le32 v := rfl
    rw [this, simExchanges_append, simExchanges_header _ _ _ (by decide),
      simExchanges_write _ _ _ _ _ (Nat.le_refl 3)]
    rfl
  have hnone : (simRegWrite e reg v).inFrame none = simRegWrite e reg v := by
    rw [← simRegWrite_inFrame, SimEsc.inFrame_none hf]
  rw [writeWord_eq_frame, frame_sim _ e s h hw, hx, thenDo_ok, simFrameEnd_inFrame, hnone]
  rfl

/-- Four exchanges after a read header, or after any number of whole groups: one register read. -/
theorem simExchanges_read (e : SimEsc) (op : Byte) (skip n : Nat) (a : Addr) (g : List Byte) (d : Word)
    (b0 b1 b2 b3 : Byte) (hop : op = 0x0B ∧ skip = 4 ∨ op = 0x03 ∧ skip = 3) (hn : skip ≤ n)
    (h4 : (n - skip) % 4 = 0) :
    simExchanges [b0, b1, b2, b3] (e.inFrame (some ⟨n, op, a, g, d⟩)) =
      (le32 (simRegRead e a).1,
        (simRegRead e a).2.inFrame (some ⟨n + 4, op, a, g, (simRegRead e a).1⟩)) := by
  have h5 : (n + 1 - skip) % 4 = 1 := by omega
  have h6 : (n + 1 + 1 - skip) % 4 = 2 := by omega
  have h7 : (n + 1 + 1 + 1 - skip) % 4 = 3 := by omega
  have later (x : SimEsc) (k : Nat) (v : Word) (b : Byte) (hk : skip ≤ k) (h : (k - skip) % 4 ≠ 0) :
      simExchange (x.inFrame (some ⟨k, op, a, g, v⟩)) b =
        (lane ((k - skip) % 4) v, x.inFrame (some ⟨k + 1, op, a, g, v⟩)) := by
    rw [simExchange_read _ _ _ _ _ _ _ _ hop hk, simPayloadOut_later _ _ _ h]
  have first : simExchange (e.inFrame (some ⟨n, op, a, g, d⟩)) b0 =
      (lane 0 (simRegRead e a).1, (simRegRead e a).2.inFrame (some ⟨n + 1, op, a, g, (simRegRead e a).1⟩)) := by
    rw [simExchange_read _ _ _ _ _ _ _ _ hop hn, simPayloadOut_first _ _ _ h4]
  simp only [simExchanges]
  rw [first, later _ (n + 1) _ _ (by omega) (by omega), later _ (n + 1 + 1) _ _ (by omega) (by omega),
    later _ (n + 1 + 1 + 1) _ _ (by omega) (by omega), h5, h6, h7]
  rfl

/-- A read frame against the peripheral, up to its first data byte. -/
theorem simExchanges_readHeader (p : Params) (a : Addr) (e : SimEsc) :
    ∃ op, (op = 0x0B ∧ readSkip p = 4 ∨ op = 0x03 ∧ readSkip p = 3) ∧
      simExchanges ((readTx p a).take (readSkip p)) (simFrameStart e) =
        (List.replicate (readSkip p) 0, e.inFrame (some ⟨readSkip p, op, a, [], 0⟩)) := by
  cases hp : p.wordRead
  · refine ⟨0x03, .inr ⟨rfl, by simp [readSkip, hp]⟩, ?_⟩
    have := simExchanges_header 0x03 a e (by decide)
    simp only [readTx, readSkip, hp, List.take]
    exact this
  · refine ⟨0x0B, .inl ⟨rfl, by simp [readSkip, hp]⟩, ?_⟩
    have h1 := simExchanges_header 0x0B a e (by decide)
    have h2 : (readTx p a).take (readSkip p) =
        [0x0B, a.extractLsb' 8 8, a.extractLsb' 0 8] ++ [p.dummyByte] := by simp [readTx, readSkip, hp]
    rw [h2, simExchanges_append, h1]
    simp only [simExchanges, simExchange_dummy, readSkip, hp]
    rfl

/-- `READ_WORD` against the peripheral: one register read (R86, R87). -/
theorem readWord_sim (reg : Addr) (e : SimEsc) (s : State) (h : SimAlone e s) (hf : e.frame = none)
    (hw : s.wire = Wire.idle) :
    readWord reg s = .ok (simRegRead e reg).1
      { s with
        env.sim := some (simRegRead e reg).2
        trace := s.trace ++ wholeFrame (readTx s.env.params reg)
          (List.replicate (readSkip s.env.params) 0 ++ le32 (simRegRead e reg).1) } := by
  obtain ⟨op, hop, hh⟩ := simExchanges_readHeader s.env.params reg e
  have hx : simExchanges (readTx s.env.params reg) (simFrameStart e) =
      (List.replicate (readSkip s.env.params) 0 ++ le32 (simRegRead e reg).1,
        (simRegRead e reg).2.inFrame
          (some ⟨readSkip s.env.params + 4, op, reg, [], (simRegRead e reg).1⟩)) := by
    have ht : readTx s.env.params reg = (readTx s.env.params reg).take (readSkip s.env.params) ++
        [s.env.params.fillByte, s.env.params.fillByte, s.env.params.fillByte, s.env.params.fillByte] := by
      unfold readTx readSkip
      cases s.env.params.wordRead <;> rfl
    rw [ht, simExchanges_append, hh, simExchanges_read _ _ _ _ _ _ _ _ _ _ _ hop (Nat.le_refl _) (by simp)]
  have hnone : (simRegRead e reg).2.inFrame none = (simRegRead e reg).2 := by
    have := simRegRead_inFrame e none reg
    rw [SimEsc.inFrame_none hf] at this
    exact (congrArg Prod.snd this).symm
  rw [readWord_eq_frame, frame_sim _ e s h hw, hx, andThen_ok, simFrameEnd_inFrame, hnone]
  have hd : (List.replicate (readSkip s.env.params) (0 : Byte) ++ le32 (simRegRead e reg).1).drop
      (readSkip s.env.params) = le32 (simRegRead e reg).1 := by
    rw [List.drop_append_of_le_length (by simp)]
    simp
  rw [hd, wordOf_le32]

end Sys2Proof.Machine
end

