-- ==== Sys2Proof/Tests/Slice0.lean ====
section
/-! SUPPORT. The model's own tests: ill-formed operations are refused, words written out from the spec's encodings
decode, single steps do what the spec's examples say, and every statement's hypotheses are met by a concrete state.
Expected values are the spec's (the examples of its rules, 95_test_vectors.md, or its formulas by hand). -/

namespace Sys2Proof.Tests

open Sys2Proof Sys2Proof.Machine

/-! ### Ill-formed operations are refused (WellFormed.lean), one for each check -/

theorem test_wf_csrDataWord_lanes : Instr.wf (.csrDataWord .wr .two 0x00010203) = false := by decide
theorem test_wf_csrDataWord_ok : Instr.wf (.csrDataWord .wr .two 0x00000203) = true := by decide
theorem test_wf_pramFirstWord_noLane : Instr.wf (.pramFirstWord .rd 0 0 0) = false := by decide
theorem test_wf_pramFirstWord_tooMany : Instr.wf (.pramFirstWord .rd 3 2 0) = false := by decide
theorem test_wf_pramFirstWord_lanes : Instr.wf (.pramFirstWord .wr 2 2 0x02010001) = false := by decide
theorem test_wf_pramNextWord_noLane : Instr.wf (.pramNextWord .rd 0 0) = false := by decide
theorem test_wf_pramNextWord_tooMany : Instr.wf (.pramNextWord .rd 5 0) = false := by decide
theorem test_wf_pramNextWord_lanes : Instr.wf (.pramNextWord .wr 3 0x01000000) = false := by decide
theorem test_wf_read_empty : Instr.wf (.read 0x0120 0) = false := by decide
theorem test_wf_read_wraps : Instr.wf (.read 0xFFFF 2) = false := by decide
theorem test_wf_read_top : Instr.wf (.read 0xFFFF 1) = true := by decide
theorem test_wf_write_empty : Instr.wf (.write 0x0120 []) = false := by decide
theorem test_wf_pollBusyClear_reg : Instr.wf (.pollBusyClear 0x300) = false := by decide
theorem test_wf_pollFifoAvail_reg : Instr.wf (.pollFifoAvail 0x304) = false := by decide
theorem test_wf_pramRead_range : Instr.wf (.pramRead 0x1000 0) = false := by decide
theorem test_wf_pramWrite_range : Instr.wf (.pramWrite 0xFFFF [1, 2]) = false := by decide
theorem test_wf_chunk_nothing : Instr.wf (.chunk 0x0120 0) = false := by decide

/-! ### Decoding, from the encodings of 30_encoding.md -/

/-- R140's example. -/
theorem test_decode_WRITE_WORD : decode .frame [0x02, 0x03, 0x04, 0x20, 0x02, 0x01, 0xC0] =
    .ok (.writeWord 0x304 0xC0010220) := by decide
/-- R141's example. -/
theorem test_decode_SERIAL_READ_WORD : decode .frame [0x03, 0x00, 0x64, 0, 0, 0, 0] = .ok (.serialReadWord 0x064) := by
  decide
/-- R142's example. -/
theorem test_decode_FAST_READ_WORD : decode .frame [0x0B, 0x03, 0x04, 0, 0, 0, 0, 0] =
    .ok (.fastReadWord 0x304) := by decide
theorem test_decode_BURST_OPEN_WRITE : decode .frame [0x02, 0x00, 0x20] = .ok .burstOpenWrite := by decide
theorem test_decode_BURST_OPEN_READ : decode .frame [0x0B, 0x00, 0x00, 0x00] = .ok .burstOpenRead := by decide
/-- R146's example. -/
theorem test_decode_BURST_PUSH : decode .writeBurst [0x03, 0x04, 0x05, 0x06] = .ok (.burstPush 0x06050403) := by decide
theorem test_decode_BURST_POP : decode .readBurst [0, 0, 0, 0] = .ok .burstPop := by decide
theorem test_decode_RESET_SQI_FRAME : decode .frame [0xFF] = .ok .resetSqiFrame := by decide
/-- `11000000000000ss a…`: `s = 1`, address 0x0220 (R110). -/
theorem test_decode_CSRCMD_READ : decode .csrCmd [0xC0, 0x01, 0x02, 0x20] = .ok (.csrcmdRead .two 0x0220) := by decide
/-- `10000000000000ss a…`: `s = 2`, address 0x0120 (R110). -/
theorem test_decode_CSRCMD_WRITE : decode .csrCmd [0x80, 0x02, 0x01, 0x20] = .ok (.csrcmdWrite .four 0x0120) := by
  decide
theorem test_decode_PRAMCMD_ABORT : decode (.pramCmd .rd) [0x40, 0, 0, 0] = .ok (.pramcmdAbort .rd) := by decide
theorem test_decode_PRAMCMD_START : decode (.pramCmd .wr) [0x80, 0, 0, 0] = .ok (.pramcmdStart .wr) := by decide
/-- `l… a…`: 6 bytes at 0x1002 (R114, R181's example). -/
theorem test_decode_PRAM_ADDRLEN : decode (.addrLen .wr) [0x00, 0x06, 0x10, 0x02] = .ok (.pramAddrlen .wr 6 0x1002) := by
  decide
theorem test_decode_PRAM_STATUS : decode (.pramStatus .rd) [0x80, 0x02, 0x00, 0x01] = .ok (.pramStatus .rd 0x80020001) := by
  decide
theorem test_decode_CSR_STATUS : decode .csrStatus [0x40, 0x01, 0x02, 0x20] = .ok (.csrStatus 0x40010220) := by decide
/-- R115: two payload bytes, lanes 2 and 3 zero. -/
theorem test_decode_CSR_DATA_WORD : decode (.csrData .wr .two) [0x00, 0x00, 0xBB, 0xAA] =
    .ok (.csrDataWord .wr .two 0x0000BBAA) := by decide
/-- R185's example: bytes 01 02 in lanes 2 and 3. -/
theorem test_decode_PRAM_FIRST_WORD : decode (.firstWord .wr 2 2) [0x02, 0x01, 0x00, 0x00] =
    .ok (.pramFirstWord .wr 2 2 0x02010000) := by decide
theorem test_decode_PRAM_NEXT_WORD : decode (.nextWord .wr 4) [0x06, 0x05, 0x04, 0x03] =
    .ok (.pramNextWord .wr 4 0x06050403) := by decide
/-- R125: `00`, `01`, `10`, `11`; the packing into bytes is log 32. -/
theorem test_decode_INIT : decode .hostRequest [0x00] = .ok .init := by decide
theorem test_decode_RESET : decode .hostRequest [0x01] = .ok .reset := by decide
theorem test_decode_READ : decode .hostRequest [0x02, 0x0F, 0x01, 0x00, 0x06] = .ok (.read 0x0F01 6) := by decide
theorem test_decode_WRITE : decode .hostRequest [0x03, 0x01, 0x22, 0x00, 0x02, 0xAA, 0xBB] =
    .ok (.write 0x0122 [0xAA, 0xBB]) := by decide
/-- A row of width 0 is entered by its name (R128). -/
theorem test_decode_AL_REFRESH : decodeToken (.named .alRefresh) = .ok .alRefresh := by decide
theorem test_decode_named_with_encoding : decodeToken (.named .init) = .error .hasEncoding := by decide

/-! Rejections (R120, R107, R106). -/

theorem test_reject_opcode : decode .frame [0x05, 0, 0] = .error .unknownOpcode := by decide
theorem test_reject_emptyFrame : decode .frame [] = .error .emptyFrame := by decide
theorem test_reject_length : decode .frame [0x02, 0x03, 0x04, 0x20] = .error .frameLength := by decide
theorem test_reject_burstAddress : decode .frame [0x02, 0x00, 0x24] = .error .burstAddress := by decide
theorem test_reject_wordLength : decode .csrStatus [0x02, 0x00, 0x24] = .error .wordLength := by decide
theorem test_reject_sizeCode3 : decode .csrCmd [0x80, 0x03, 0x01, 0x20] = .error .sizeCode3 := by decide
theorem test_reject_csrBits : decode .csrCmd [0x84, 0x00, 0x01, 0x20] = .error .csrCommandBits := by decide
theorem test_reject_pramBits : decode (.pramCmd .rd) [0xC0, 0, 0, 0] = .error .pramCommandBits := by decide
theorem test_reject_lanes : decode (.csrData .wr .one) [0x00, 0x00, 0x01, 0xAA] = .error .unusedLanes := by decide
theorem test_reject_laneRange : decode (.nextWord .rd 5) [0, 0, 0, 0] = .error .laneRange := by decide
theorem test_reject_request : decode .hostRequest [0x03, 0x01, 0x22, 0x00, 0x02, 0xAA] = .error .hostRequestForm := by
  decide

/-! ### States for the tests -/

/-- The example parameters of 00_scope.md R7, with a bus that can fault or cannot. -/
def params (faults : Bool) : Params := ⟨some 3, 0x0220, .fast, 0x00, 0x00, 0x87654321, 0x40, false, faults⟩

/-- A block at rest whose environment answers `script`. -/
def resting (script : List Reply) (faults : Bool := true) : State :=
  { State.reset with
    vis := ⟨0x0004, 0, false⟩
    env := ⟨params faults, script, none, [], .off, 1⟩ }

/-- The block inside an open burst. -/
def inBurst (d : Dir) (script : List Reply) : State :=
  { resting script with
    seq := ⟨.pBWord, .burst, false⟩
    wire := ⟨true, some d⟩ }

/-- A block at rest whose reset input is applied before the next response. -/
def beforeRsp (script : List Reply) : State := { resting script with env.resetIn := .beforeRsp }

/-- Scripted bytes. -/
def bytes (bs : List Byte) : List Reply := bs.map Reply.byte

/-- Answers of these bytes, then a bus fault. -/
def cutAt (bs : List Byte) : List Reply := bytes bs ++ Reply.fault :: []

/-- The bytes sent in a step. -/
def sent : Result → List Byte
  | .next s => s.trace.filterMap fun e => match e with
    | .xfer mosi _ => some mosi
    | .xferFault mosi => some mosi
    | .req _ _ _ _ | .csAssert | .csDeassert | .rsp _ _ _ => none
  | .fault _ | .refused _ => []

/-- A projection of the next state. -/
def got {α : Type} (f : State → α) (dflt : α) : Result → α
  | .next s => f s
  | .fault _ | .refused _ => dflt

/-! ### Single steps -/

/-- R140's example. -/
theorem test_WRITE_WORD : sent (exec (.writeWord 0x304 0xC0010220) (resting (bytes [1, 2, 3, 4, 5, 6, 7]))) =
    [0x02, 0x03, 0x04, 0x20, 0x02, 0x01, 0xC0] := by decide
/-- A bus fault at the third exchange: code 1, and no further byte (R231, R236). -/
theorem test_WRITE_WORD_fault :
    sent (exec (.writeWord 0x304 0xC0010220) (resting (cutAt [1, 2]))) = [0x02, 0x03, 0x04] ∧
      got (fun s => s.vis.status) 0 (exec (.writeWord 0x304 0xC0010220) (resting (cutAt [1, 2]))) = 1 := by
  decide
/-- R141's example. -/
theorem test_SERIAL_READ_WORD :
    got (fun s => s.work.word) 0 (exec (.serialReadWord 0x064)
      (resting (bytes [9, 9, 9, 0x21, 0x43, 0x65, 0x87]))) = 0x87654321 := by decide
theorem test_SERIAL_READ_WORD_bytes :
    sent (exec (.serialReadWord 0x064) (resting (bytes [9, 9, 9, 0x21, 0x43, 0x65, 0x87]))) =
      [0x03, 0x00, 0x64, 0x00, 0x00, 0x00, 0x00] := by decide
/-- R142's example. -/
theorem test_FAST_READ_WORD :
    got (fun s => s.work.word) 0 (exec (.fastReadWord 0x304)
      (resting (bytes [9, 9, 9, 9, 0x20, 0x02, 0x01, 0x40]))) = 0x40010220 := by decide
/-- R143: the decided opcode is 0x0B. -/
theorem test_READ_WORD : sent (exec (.readWord 0x304) (resting (bytes [9, 9, 9, 9, 0x20, 0x02, 0x01, 0x40]))) =
    [0x0B, 0x03, 0x04, 0x00, 0x00, 0x00, 0x00, 0x00] := by decide
theorem test_BURST_OPEN_WRITE : sent (exec .burstOpenWrite (resting (bytes [1, 2, 3]))) = [0x02, 0x00, 0x20] ∧
    got (fun s => s.wire.cs) false (exec .burstOpenWrite (resting (bytes [1, 2, 3]))) = true := by decide
/-- R146's example. -/
theorem test_BURST_PUSH : sent (exec (.burstPush 0x06050403) (inBurst .wr (bytes [1, 2, 3, 4]))) =
    [0x03, 0x04, 0x05, 0x06] := by decide
theorem test_BURST_OPEN_READ : sent (exec .burstOpenRead (resting (bytes [1, 2, 3, 4]))) = [0x0B, 0x00, 0x00, 0x00] := by
  decide
/-- R149's example. -/
theorem test_BURST_POP : got (fun s => s.work.word) 0 (exec .burstPop (inBurst .rd (bytes [3, 4, 5, 6]))) =
    0x06050403 := by decide
theorem test_BURST_CLOSE : got (fun s => (s.wire.cs, s.busy)) (true, true) (exec .burstClose (inBurst .rd [])) =
    (false, false) := by decide
theorem test_RESET_SQI_FRAME : sent (exec .resetSqiFrame (resting (bytes [1]))) = [0xFF] := by decide
/-- R171's example. -/
theorem test_CSRCMD_READ : sent (exec (.csrcmdRead .two 0x0220) (resting (bytes [1, 2, 3, 4, 5, 6, 7]))) =
    [0x02, 0x03, 0x04, 0x20, 0x02, 0x01, 0xC0] := by decide
/-- R172's example. -/
theorem test_CSRCMD_WRITE : sent (exec (.csrcmdWrite .four 0x0120) (resting (bytes [1, 2, 3, 4, 5, 6, 7]))) =
    [0x02, 0x03, 0x04, 0x20, 0x01, 0x02, 0x80] := by decide
/-- R181's example. -/
theorem test_PRAMCMD_ABORT : sent (exec (.pramcmdAbort .wr) (resting (bytes [1, 2, 3, 4, 5, 6, 7]))) =
    [0x02, 0x03, 0x14, 0x00, 0x00, 0x00, 0x40] := by decide
theorem test_PRAMCMD_START : sent (exec (.pramcmdStart .wr) (resting (bytes [1, 2, 3, 4, 5, 6, 7]))) =
    [0x02, 0x03, 0x14, 0x00, 0x00, 0x00, 0x80] := by decide
theorem test_PRAM_ADDRLEN : sent (exec (.pramAddrlen .wr 6 0x1002) (resting (bytes [1, 2, 3, 4, 5, 6, 7]))) =
    [0x02, 0x03, 0x10, 0x02, 0x10, 0x06, 0x00] := by decide
/-- R161's example: the count of 0x80020001 is 2; a word with bit 0 clear leaves the count. -/
theorem test_PRAM_STATUS : got (fun s => s.work.fifoCnt) 0 (exec (.pramStatus .wr 0x80020001) (resting [])) = 2 ∧
    got (fun s => s.work.fifoCnt) 9 (exec (.pramStatus .wr 0x80020000) (resting [])) = 0 := by decide
theorem test_CSR_STATUS : got (fun s => s.work.word) 0 (exec (.csrStatus 0x40010220) (resting [])) = 0x40010220 := by
  decide
/-- R171's example: `04 00 00 00` gives the bytes 04 00. -/
theorem test_CSR_DATA_WORD : got (fun s => s.buf.res) [] (exec (.csrDataWord .rd .two 0x00000004) (resting [])) =
    [0x04, 0x00] := by decide
theorem test_CSR_DATA_WORD_write :
    sent (exec (.csrDataWord .wr .four 0x44332211) (resting (bytes [1, 2, 3, 4, 5, 6, 7]))) =
      [0x02, 0x03, 0x00, 0x11, 0x22, 0x33, 0x44] := by decide
/-- R185's and R184's examples. -/
theorem test_PRAM_FIRST_WORD :
    sent (exec (.pramFirstWord .wr 2 2 0x02010000) (resting (bytes [1, 2, 3, 4, 5, 6, 7]))) =
      [0x02, 0x00, 0x20, 0x00, 0x00, 0x01, 0x02] := by decide
theorem test_PRAM_FIRST_WORD_read :
    got (fun s => (s.buf.res, s.work.fifoCnt)) ([], 0) (exec (.pramFirstWord .rd 1 3 0xA3A2A1A0) (resting [])) =
      ([0xA1, 0xA2, 0xA3], 31) := by decide
theorem test_PRAM_NEXT_WORD :
    sent (exec (.pramNextWord .wr 4 0x06050403) (inBurst .wr (bytes [1, 2, 3, 4]))) = [0x03, 0x04, 0x05, 0x06] := by
  decide
theorem test_PRAM_NEXT_WORD_read :
    got (fun s => s.buf.res) [] (exec (.pramNextWord .rd 2 0xA7A6A5A4) (resting [])) = [0xA4, 0xA5] := by decide
theorem test_INIT : got (fun s => (s.seq.ph, s.latch.op)) (.idle, .reset) (exec .init (resting [])) =
    (.iReset, .init) := by decide
/-- R221's example: REQ(RESET), RSP(OK), nothing between. -/
theorem test_RESET : got (fun s => s.trace) [] (exec .reset (resting [])) =
    [.req .reset 0 0 [], .rsp 0 none 0x0004] := by decide
/-- R260: block reset between REQ and RSP; no response. -/
theorem test_RESET_blockReset :
    got (fun s => (s.trace, s.busy)) ([], true) (exec .reset (beforeRsp [])) =
      ([.req .reset 0 0 []], false) := by decide
theorem test_READ : got (fun s => (s.seq.ph, s.latch)) (.idle, ⟨.init, 0, 0⟩) (exec (.read 0x0F01 6) (resting [])) =
    (.rDispatch, ⟨.read, 0x0F01, 6⟩) := by decide
theorem test_READ_refused : exec (.read 0xFFFF 2) (resting []) = .refused .notAdmitted := by rfl
theorem test_WRITE :
    got (fun s => (s.buf.wbuf, s.latch)) ([], ⟨.init, 0, 0⟩) (exec (.write 0x0122 [0xAA, 0xBB]) (resting [])) =
      ([0xAA, 0xBB], ⟨.write, 0x0122, 2⟩) := by decide
/-- R160: 0x7FFFFFFF is ready, 0x80000000 is not. -/
theorem test_POLL_BUSY_CLEAR :
    got (fun s => (s.busy, s.work.polls)) (true, 0) (exec (.pollBusyClear 0x304)
      (resting (bytes [9, 9, 9, 9, 0xFF, 0xFF, 0xFF, 0x7F]))) = (false, 1) := by decide
theorem test_POLL_BUSY_CLEAR_notYet :
    got (fun s => (s.busy, s.work.polls)) (false, 0) (exec (.pollBusyClear 0x304)
      (resting (bytes [9, 9, 9, 9, 0x00, 0x00, 0x00, 0x80]))) = (true, 1) := by decide
/-- R161's example. -/
theorem test_POLL_FIFO_AVAIL :
    got (fun s => (s.busy, s.work.fifoCnt)) (true, 0) (exec (.pollFifoAvail 0x314)
      (resting (bytes [9, 9, 9, 9, 0x01, 0x00, 0x02, 0x80]))) = (false, 2) := by decide
/-- R163's example. -/
theorem test_POLL_EQUAL :
    got (fun s => s.busy) true (exec (.pollEqual 0x064 0x87654321)
      (resting (bytes [9, 9, 9, 9, 0x21, 0x43, 0x65, 0x87]))) = false := by decide
/-- R171's example: the first frame. -/
theorem test_CSR_READ : sent (exec (.csrRead 0x0220 2) (resting (bytes [1, 2, 3, 4, 5, 6, 7]))) =
    [0x02, 0x03, 0x04, 0x20, 0x02, 0x01, 0xC0] := by decide
/-- R170: a length of 3 is INVALID_LENGTH before any frame. -/
theorem test_CSR_READ_invalid :
    got (fun s => (s.trace, s.vis.status)) ([], 0) (exec (.csrRead 0x0220 3) (resting [])) =
      ([.rsp 3 none 0x0004], 3) := by decide
/-- R172's example: the first frame is the data word. -/
theorem test_CSR_WRITE : sent (exec (.csrWrite 0x0120 [0x11, 0x22, 0x33, 0x44]) (resting (bytes [1, 2, 3, 4, 5, 6, 7]))) =
    [0x02, 0x03, 0x00, 0x11, 0x22, 0x33, 0x44] := by decide
/-- R181's example: the first frame is the abort. -/
theorem test_PRAM_SETUP : sent (exec (.pramSetup .wr 0x1002 6) (resting (bytes [1, 2, 3, 4, 5, 6, 7]))) =
    [0x02, 0x03, 0x14, 0x00, 0x00, 0x00, 0x40] := by decide
/-- R181: its operands are any 16 bits; a length of 0 and a range past 0xFFFF are no stop. -/
theorem test_PRAM_SETUP_anyRange :
    sent (exec (.pramSetup .wr 0xFFFF 2) (resting (bytes [1, 2, 3, 4, 5, 6, 7]))) =
      [0x02, 0x03, 0x14, 0x00, 0x00, 0x00, 0x40] ∧
    sent (exec (.pramSetup .rd 0x1002 0) (resting (bytes [1, 2, 3, 4, 5, 6, 7]))) =
      [0x02, 0x03, 0x0C, 0x00, 0x00, 0x00, 0x40] := by decide
theorem test_PRAM_READ : sent (exec (.pramRead 0x1001 7) (resting (bytes [1, 2, 3, 4, 5, 6, 7]))) =
    [0x02, 0x03, 0x0C, 0x00, 0x00, 0x00, 0x40] := by decide
theorem test_PRAM_WRITE : sent (exec (.pramWrite 0x1002 [1, 2, 3, 4, 5, 6]) (resting (bytes [1, 2, 3, 4, 5, 6, 7]))) =
    [0x02, 0x03, 0x14, 0x00, 0x00, 0x00, 0x40] := by decide
/-- R202's table, rows 0 and 2, where a second test decides. -/
theorem test_CHUNK : got (fun s => s.work.size) 0 (exec (.chunk 0x0120 3) (resting [])) = 1 ∧
    got (fun s => s.work.size) 0 (exec (.chunk 0x0122 4) (resting [])) = 2 := by decide
/-- R206's example: the first frame. -/
theorem test_AL_REFRESH : sent (exec .alRefresh (resting (bytes [1, 2, 3, 4, 5, 6, 7]))) =
    [0x02, 0x03, 0x04, 0x20, 0x02, 0x01, 0xC0] := by decide
/-- R86 to R89: the reference peripheral answers a poll with bit 31 set while busy. -/
theorem test_simEsc_poll :
    (simRegRead { (⟨[], [(0x304, 0xC0010220)], 1, 0, 0, 0, 0, [], none, 1, 0, false, 0, none⟩ : SimEsc) with
      stuck := false } 0x304).1 = 0xC0010220 := by decide
/-- A token presented to the block is run by the next step (R26). -/
theorem test_step_runs : got (fun s => s.seq.ph) .idle
    (step { resting [] with env.inputs := [.coded .hostRequest [0x02, 0x0F, 0x01, 0x00, 0x06]] }) = .rDispatch := by
  decide

/-! ### The hypotheses of every statement are met

One theorem for each statement that has hypotheses (and one for each clause, at a boundary of its range). -/

/-- A reading of the fast read. -/
def reading (v : Word) : Reading := ⟨[9, 9, 9, 9], v⟩

/-- Two readings that are not ready and one that is: the most that POLL_LIMIT = 3 admits. -/
def busyAnswers : PollAnswers := ⟨[reading 0x80000000, reading 0xFFFFFFFF], reading 0x7FFFFFFF⟩
def availAnswers : PollAnswers := ⟨[reading 0x80000000, reading 0xFFFFFFFE], reading 0x80020001⟩
def equalAnswers : PollAnswers := ⟨[reading 0], reading 0x87654321⟩

/-- The block at rest with a script of the bytes `bs` is answered by them. -/
theorem answered (bs : List Byte) : Answers bs [] (resting (bytes bs)) := by simp [Answers, resting, bytes]

/-- The byte sent after the first `n`. -/
def nextSent (tx : List Byte) (n : Nat) : Option Byte := tx[n]?

/-- The environment answers the bytes `rx` and then `cut`, as the statements about faults require. -/
def CutBy (cut : Reply) (rx : List Byte) (s : State) : Prop := s.env.script = rx.map Reply.byte ++ cut :: []

/-- Seven bytes. -/
def seven : List Byte := [1, 2, 3, 4, 5, 6, 7]

def csrAnswers : CsrAnswers := ⟨seven, seven, busyAnswers, reading 0x00000004⟩
def setupAnswers : SetupAnswers := ⟨seven, busyAnswers, seven, seven, availAnswers⟩

theorem limit_two (b : Bool) : LimitAllows (params b) 2 := by
  intro l h
  cases h
  decide

theorem busyAnswers_fit (b : Bool) : busyAnswers.Fit (params b) notBusy :=
  ⟨by unfold Fitting; decide +revert, by decide, by decide, limit_two b⟩

theorem availAnswers_fit (b : Bool) : availAnswers.Fit (params b) fifoAvailable :=
  ⟨by unfold Fitting; decide +revert, by decide, by decide, limit_two b⟩

theorem csrAnswers_fitRead (b : Bool) : csrAnswers.FitRead (params b) := ⟨rfl, busyAnswers_fit b, rfl⟩

theorem csrAnswers_fitWrite (b : Bool) : csrAnswers.FitWrite (params b) := ⟨rfl, rfl, busyAnswers_fit b⟩

theorem setupAnswers_fit (b : Bool) : setupAnswers.Fit (params b) :=
  ⟨rfl, busyAnswers_fit b, rfl, rfl, availAnswers_fit b⟩

/-- A reference peripheral with something in its memory, busy for two polls. -/
def sim : SimEsc := ⟨[(0x0220, 0x04), (0xFFFF, 0xAA)], [(0x300, 0x44332211)], 0, 0, 0, 0, 0, [],
  some ⟨0x1002, 6, 0, 2⟩, 2, 2, false, 0x87654321, none⟩

/-- A block at rest with that peripheral. -/
def withSim : State := { resting [] false with env.sim := some sim }

theorem sim_ready : SimReady sim withSim := ⟨rfl, rfl, rfl, rfl, rfl, limit_two false, limit_two false⟩

theorem sim_wf : SimWf sim := by unfold SimWf; decide

/-- A block at rest to which the tokens `ts` are presented. -/
def presented (ts : List Token) : State := { resting [] with env.inputs := ts }

/-- A request token: READ 0x0F01, 6. -/
def readToken : Token := .coded .hostRequest [0x02, 0x0F, 0x01, 0x00, 0x06]

theorem witness_InvariantIsKept : BlockInv (presented [readToken]) ∧ ∃ t, step (presented [readToken]) = .next t :=
  ⟨by unfold BlockInv; simp [presented, resting, State.reset], _, rfl⟩

/-- The data fetch of a CSR read, just before it: the last poll has shown bit 31 clear. -/
def fetching (script : List Reply) : State :=
  { resting script with
    seq := ⟨.cFetch, .host, true⟩
    latch := ⟨.read, 0x1000, 1⟩ }

theorem witness_PollInvariantIsKept : BlockInv (fetching (bytes (reading 5).rx)) ∧
    PollInv (fetching (bytes (reading 5).rx)) ∧ ∃ t, step (fetching (bytes (reading 5).rx)) = .next t :=
  ⟨by unfold BlockInv; simp [fetching, resting, State.reset], by unfold PollInv; simp [fetching, resting, State.reset],
    _, rfl⟩

theorem witness_StepRunsThePresentedOperation :
    ((presented [readToken]).env.resetIn = .off ∧ (presented [readToken]).accepting = true ∧
      (presented [readToken]).env.inputs = readToken :: [] ∧ decodeToken readToken = .ok (.read 0x0F01 6)) ∧
    ((presented [.coded .frame [0x05]]).accepting = true ∧
      decodeToken (.coded .frame [0x05]) = .error .unknownOpcode) ∧
    ((resting []).env.resetIn = .off ∧ (resting []).accepting = true ∧ (resting []).env.inputs = []) ∧
    (inBurst .wr []).accepting = true := by decide

/-- A READ just accepted, at the last CSR address or the first PRAM address. -/
def dispatching (addr : Addr) : State :=
  { resting [] with
    seq := ⟨.rDispatch, .host, false⟩
    latch := ⟨.read, addr, 4⟩ }

theorem witness_BusyBlockServesNoOtherRequest : (dispatching 0x0FFF).env.resetIn = .off ∧
    (dispatching 0x0FFF).accepting = false ∧ Reply.reset ∉ (dispatching 0x0FFF).env.script := by decide

theorem witness_DecodeOfEncode : Instr.wf (.write 0xFFFE [1, 2]) = true ∧ Instr.wf (.pramFirstWord .wr 3 1 0xAA000000) = true := by
  decide

theorem witness_BitsHaveOneMeaning :
    (Space.csrCmd ≠ .frame ∧ Space.csrCmd ≠ .readBurst ∧
      decode .csrCmd [0xC0, 0x02, 0xFF, 0xFF] = .ok (.csrcmdRead .four 0xFFFF)) ∧
    (Space.frame ≠ .hostRequest ∧ decode .frame [0xFF] = .ok .resetSqiFrame) := by decide

theorem witness_ReservedEncodingsAreRefused :
    ((0x00 : Byte) ≠ 0x02 ∧ (0x00 : Byte) ≠ 0x03 ∧ (0x00 : Byte) ≠ 0x0B ∧ (0x00 : Byte) ≠ 0xFF) ∧
    ((0x7FFFFFFF : Word).getLsbD 31 = false) ∧ ((0x80040000 : Word).extractLsb' 18 12 ≠ 0) ∧
    ((0x80030000 : Word).getLsbD 31 = true ∧ (0x80030000 : Word).extractLsb' 18 12 = 0 ∧
      (0x80030000 : Word).extractLsb' 16 2 = 3) ∧
    ((0xC0000000 : Word) ≠ 0x40000000 ∧ (0xC0000000 : Word) ≠ 0x80000000) := by decide

theorem witness_WriteWordSendsItsFrame :
    (PortReady (resting (bytes seven)) ∧ seven.length = 7 ∧ Answers seven [] (resting (bytes seven))) ∧
    (PortReady (resting (cutAt (seven.take 6))) ∧
      (resting (cutAt (seven.take 6))).env.params.busCanFault = true ∧
      nextSent (writeTx 0x304 0xC0010220) (seven.take 6).length = some 0xC0 ∧
      CutBy .fault (seven.take 6) (resting (cutAt (seven.take 6)))) :=
  ⟨⟨⟨rfl, rfl⟩, rfl, rfl⟩, ⟨rfl, rfl⟩, rfl, rfl, rfl⟩

theorem witness_FastReadWordReceivesItsValue :
    (PortReady (resting (bytes [9, 9, 9, 9, 0x20, 0x02, 0x01, 0x40])) ∧ ([9, 9, 9, 9] : List Byte).length = 4 ∧
      Answers ([9, 9, 9, 9] ++ [(0x40010220 : Word).extractLsb' 0 8, (0x40010220 : Word).extractLsb' 8 8,
        (0x40010220 : Word).extractLsb' 16 8, (0x40010220 : Word).extractLsb' 24 8]) []
        (resting (bytes [9, 9, 9, 9, 0x20, 0x02, 0x01, 0x40]))) ∧
    (PortReady (resting (cutAt seven)) ∧ (resting (cutAt seven)).env.params.busCanFault = true ∧
      nextSent ([0x0B, 0x03, 0x04, 0x00, 0x00, 0x00, 0x00, 0x00] : List Byte) seven.length = some 0x00 ∧
      CutBy .fault seven (resting (cutAt seven))) :=
  ⟨⟨⟨rfl, rfl⟩, rfl, rfl⟩, ⟨rfl, rfl⟩, rfl, rfl, rfl⟩

/-- The same block with the serial word read. -/
def serial (script : List Reply) : State :=
  { resting script with env.params := { params true with wordRead := .serial } }

theorem witness_OtherReadsReceiveTheirValue :
    (PortReady (resting (bytes [9, 9, 9, 0x21, 0x43, 0x65, 0x87])) ∧ ([9, 9, 9] : List Byte).length = 3 ∧
      Answers ([9, 9, 9] ++ [(0x87654321 : Word).extractLsb' 0 8, (0x87654321 : Word).extractLsb' 8 8,
        (0x87654321 : Word).extractLsb' 16 8, (0x87654321 : Word).extractLsb' 24 8]) []
        (resting (bytes [9, 9, 9, 0x21, 0x43, 0x65, 0x87]))) ∧
    (PortReady (resting (cutAt (seven.take 6))) ∧
      nextSent ([0x03, 0x00, 0x64, 0x00, 0x00, 0x00, 0x00] : List Byte) (seven.take 6).length = some 0x00 ∧
      CutBy .fault (seven.take 6) (resting (cutAt (seven.take 6)))) ∧
    ((resting []).env.params.wordRead = .fast ∧ (serial []).env.params.wordRead = .serial) ∧
    (PortReady (serial (bytes [9, 9, 9, 1, 0, 0, 0])) ∧ (⟨[9, 9, 9], 1⟩ : Reading).skipped.length = 3 ∧
      readSkip (serial []).env.params = 3 ∧
      Answers (Reading.rx ⟨[9, 9, 9], 1⟩) [] (serial (bytes [9, 9, 9, 1, 0, 0, 0]))) :=
  ⟨⟨⟨rfl, rfl⟩, rfl, rfl⟩, ⟨⟨rfl, rfl⟩, rfl, rfl⟩, ⟨rfl, rfl⟩, ⟨rfl, rfl⟩, rfl, rfl, rfl⟩

theorem witness_BurstOpenWriteSendsItsHeader :
    (PortReady (resting (bytes [1, 2, 3])) ∧ ([1, 2, 3] : List Byte).length = 3 ∧
      Answers [1, 2, 3] [] (resting (bytes [1, 2, 3]))) ∧
    (PortReady (resting (cutAt [1, 2])) ∧ (resting (cutAt [1, 2])).env.params.busCanFault = true ∧
      nextSent ([0x02, 0x00, 0x20] : List Byte) ([1, 2] : List Byte).length = some 0x20 ∧
      CutBy .fault [1, 2] (resting (cutAt [1, 2]))) :=
  ⟨⟨⟨rfl, rfl⟩, rfl, rfl⟩, ⟨rfl, rfl⟩, rfl, rfl, rfl⟩

theorem witness_BurstOpenReadSendsItsHeader :
    (PortReady (resting (bytes [1, 2, 3, 4])) ∧ ([1, 2, 3, 4] : List Byte).length = 4 ∧
      Answers [1, 2, 3, 4] [] (resting (bytes [1, 2, 3, 4]))) ∧
    (PortReady (resting (cutAt [1, 2, 3])) ∧
      (resting (cutAt [1, 2, 3])).env.params.busCanFault = true ∧
      nextSent ([0x0B, 0x00, 0x00, 0x00] : List Byte) ([1, 2, 3] : List Byte).length = some 0x00 ∧
      CutBy .fault [1, 2, 3] (resting (cutAt [1, 2, 3]))) :=
  ⟨⟨⟨rfl, rfl⟩, rfl, rfl⟩, ⟨rfl, rfl⟩, rfl, rfl, rfl⟩

theorem witness_BurstPushSendsOneWord :
    ((inBurst .wr (bytes [1, 2, 3, 4])).wire = ⟨true, some .wr⟩ ∧ (inBurst .wr (bytes [1, 2, 3, 4])).env.sim = none ∧
      ([1, 2, 3, 4] : List Byte).length = 4 ∧ Answers [1, 2, 3, 4] [] (inBurst .wr (bytes [1, 2, 3, 4]))) ∧
    ((inBurst .wr (cutAt [1, 2, 3])).wire = ⟨true, some .wr⟩ ∧
      (inBurst .wr (cutAt [1, 2, 3])).env.params.busCanFault = true ∧
      nextSent ([3, 4, 5, 6] : List Byte) ([1, 2, 3] : List Byte).length = some 6 ∧
      CutBy .fault [1, 2, 3] (inBurst .wr (cutAt [1, 2, 3]))) :=
  ⟨⟨rfl, rfl, rfl, rfl⟩, rfl, rfl, rfl, rfl⟩

theorem witness_BurstPopReceivesOneWord :
    ((inBurst .rd (bytes [3, 4, 5, 6])).wire = ⟨true, some .rd⟩ ∧ (inBurst .rd (bytes [3, 4, 5, 6])).env.sim = none ∧
      Answers [(0x06050403 : Word).extractLsb' 0 8, (0x06050403 : Word).extractLsb' 8 8,
        (0x06050403 : Word).extractLsb' 16 8, (0x06050403 : Word).extractLsb' 24 8] []
        (inBurst .rd (bytes [3, 4, 5, 6]))) ∧
    ((inBurst .rd (cutAt [1, 2, 3])).wire = ⟨true, some .rd⟩ ∧
      (inBurst .rd (cutAt [1, 2, 3])).env.params.busCanFault = true ∧ ([1, 2, 3] : List Byte).length < 4 ∧
      (0x00 : Byte) = (inBurst .rd (cutAt [1, 2, 3])).env.params.fillByte ∧
      CutBy .fault [1, 2, 3] (inBurst .rd (cutAt [1, 2, 3]))) :=
  ⟨⟨rfl, rfl, rfl⟩, rfl, rfl, by decide, rfl, rfl⟩

theorem witness_BurstCloseEndsTheFrame : (inBurst .rd []).wire.cs = true ∧
    ((resting []).wire.cs = false ∧ (resting []).seq.caller ≠ .burst) := by decide

theorem witness_WholeFramesLeaveTheBlockAlone : Calm (resting [.device, .fault] false) ∧
    (resting [.device, .fault] false).wire = Wire.idle ∧
    frameTx (params false) (.pramAddrlen .rd 0xFFFF 0x1000) = some [0x02, 0x03, 0x08, 0x00, 0x10, 0xFF, 0xFF] ∧
    frameTx (params false) .resetSqiFrame = some [0xFF] :=
  ⟨⟨rfl, by decide⟩, rfl, rfl, rfl⟩

theorem witness_BusFaultEndsEveryFrame : PortReady (resting (cutAt [])) ∧
    (resting (cutAt [])).env.params.busCanFault = true ∧
    frameTx (params true) .resetSqiFrame = some [0xFF] ∧ nextSent ([0xFF] : List Byte) ([] : List Byte).length = some 0xFF ∧
    CutBy .fault ([] : List Byte) (resting (cutAt [])) :=
  ⟨⟨rfl, rfl⟩, rfl, rfl, rfl, rfl⟩

theorem witness_FrameOperationsStopOutsideTheirPlace :
    ((inBurst .rd []).wire.cs = true ∧ frameTx (params true) .resetSqiFrame = some [0xFF]) ∧
    (inBurst .rd []).wire.burst ≠ some .wr ∧ (inBurst .wr []).wire.burst ≠ some .rd := by decide

theorem witness_CommandWords : PortReady (resting (bytes seven)) ∧ seven.length = 7 ∧
    Answers seven [] (resting (bytes seven)) := ⟨⟨rfl, rfl⟩, rfl, rfl⟩

theorem witness_CsrDataWordIsSentOrTaken :
    (PortReady (resting (bytes seven)) ∧ seven.length = 7 ∧ Answers seven [] (resting (bytes seven))) ∧
    (PortReady (resting (cutAt (seven.take 6))) ∧
      (resting (cutAt (seven.take 6))).env.params.busCanFault = true ∧
      nextSent (writeTx 0x300 0x44332211) (seven.take 6).length = some 0x44 ∧
      CutBy .fault (seven.take 6) (resting (cutAt (seven.take 6)))) :=
  ⟨⟨⟨rfl, rfl⟩, rfl, rfl⟩, ⟨rfl, rfl⟩, rfl, rfl, rfl⟩

theorem witness_PramFirstWordIsSentOrTaken :
    (PortReady (resting (bytes seven)) ∧ seven.length = 7 ∧ Answers seven [] (resting (bytes seven))) ∧
    (PortReady (resting (cutAt [])) ∧ (resting (cutAt [])).env.params.busCanFault = true ∧
      nextSent (writeTx 0x020 0x02010000) ([] : List Byte).length = some 0x02 ∧
      CutBy .fault ([] : List Byte) (resting (cutAt []))) ∧
    (1 ≤ 1 ∧ (3 : BitVec 2).toNat + 1 ≤ 4) :=
  ⟨⟨⟨rfl, rfl⟩, rfl, rfl⟩, ⟨⟨rfl, rfl⟩, rfl, rfl, rfl⟩, by decide⟩

theorem witness_PramNextWordIsSentOrTaken :
    ((inBurst .wr (bytes [1, 2, 3, 4])).wire = ⟨true, some .wr⟩ ∧ (inBurst .wr (bytes [1, 2, 3, 4])).env.sim = none ∧
      ([1, 2, 3, 4] : List Byte).length = 4 ∧ Answers [1, 2, 3, 4] [] (inBurst .wr (bytes [1, 2, 3, 4]))) ∧
    ((inBurst .wr (cutAt [])).wire = ⟨true, some .wr⟩ ∧ (inBurst .wr (cutAt [])).env.params.busCanFault = true ∧
      nextSent ([3, 4, 5, 6] : List Byte) ([] : List Byte).length = some 3 ∧
      CutBy .fault ([] : List Byte) (inBurst .wr (cutAt []))) ∧ 1 ≤ 4 ∧ 4 ≤ 4 :=
  ⟨⟨rfl, rfl, rfl, rfl⟩, ⟨rfl, rfl, rfl, rfl⟩, by decide⟩

/-- Three readings of which none is ready: POLL_LIMIT of them, for each of the three tests. -/
def never : List Reading := [reading 0x80000000, reading 0x80000002]

theorem witness_polls_ready :
    (Resting (resting (bytes (readingsRx busyAnswers.all))) ∧ busyAnswers.Fit (params true) notBusy ∧
      Answers (readingsRx busyAnswers.all) [] (resting (bytes (readingsRx busyAnswers.all)))) ∧
    (Resting (resting (bytes (readingsRx availAnswers.all))) ∧ availAnswers.Fit (params true) fifoAvailable ∧
      Answers (readingsRx availAnswers.all) [] (resting (bytes (readingsRx availAnswers.all)))) ∧
    (Resting (resting (bytes (readingsRx equalAnswers.all))) ∧
      equalAnswers.Fit (params true) (fun v => v == 0x87654321) ∧
      Answers (readingsRx equalAnswers.all) [] (resting (bytes (readingsRx equalAnswers.all)))) :=
  ⟨⟨⟨rfl, rfl, rfl⟩, busyAnswers_fit true, answered _⟩, ⟨⟨rfl, rfl, rfl⟩, availAnswers_fit true, answered _⟩,
    ⟨rfl, rfl, rfl⟩,
    ⟨by unfold Fitting; decide, by decide, by decide, by intro l h; cases h; decide⟩, answered _⟩

theorem witness_polls_limit :
    Resting (resting (bytes (readingsRx (never ++ [reading 0x80000000])))) ∧
    Fitting (params true) (never ++ [reading 0x80000000]) ∧
    (∀ x ∈ never ++ [reading 0x80000000], notBusy x.value = false ∧ fifoAvailable x.value = false ∧
      (x.value == 0x87654321) = false) ∧
    (params true).pollLimit = some (never.length + 1) ∧
    Answers (readingsRx (never ++ [reading 0x80000000])) []
      (resting (bytes (readingsRx (never ++ [reading 0x80000000])))) :=
  ⟨⟨rfl, rfl, rfl⟩, by unfold Fitting; decide, by decide, rfl, answered _⟩

/-- A bus fault at the last exchange of the POLL_LIMIT-th reading. -/
theorem witness_polls_fault :
    Resting (resting (cutAt (readingsRx never ++ seven))) ∧
    (resting (cutAt (readingsRx never ++ seven))).env.params.busCanFault = true ∧
    Fitting (params true) never ∧ (∀ x ∈ never, notBusy x.value = false ∧ fifoAvailable x.value = false ∧
      (x.value == 0x87654321) = false) ∧ LimitAllows (params true) never.length ∧
    nextSent (readTx (params true) 0x304) seven.length = some 0x00 ∧
    CutBy .fault (readingsRx never ++ seven) (resting (cutAt (readingsRx never ++ seven))) :=
  ⟨⟨rfl, rfl, rfl⟩, rfl, by unfold Fitting; decide, by decide, limit_two true, rfl, rfl⟩

/-- A CSR read of a host READ, polling without a limit. -/
def polling : State :=
  { resting (bytes (readingsRx never)) with
    seq := ⟨.cPoll, .host, false⟩
    env := ⟨{ params true with pollLimit := none }, bytes (readingsRx never), none, [], .off, 1⟩ }

theorem witness_UnboundedPollNeverEnds : InPoll .busyClear 0x304 polling ∧ polling.env.resetIn = .off ∧
    PortReady polling ∧ polling.env.params.pollLimit = none ∧ Fitting polling.env.params never ∧
    (∀ r ∈ never, staysIn .busyClear r.value) ∧ Answers (readingsRx never) [] polling :=
  ⟨.inr ⟨(fun _ _ h => nomatch h), by decide, .inl ⟨rfl, rfl, rfl⟩⟩, rfl, ⟨rfl, rfl⟩, rfl, by unfold Fitting; decide,
    by unfold staysIn; decide, rfl⟩

/-- The other loops, and readings that keep the block in them. -/
theorem witness_UnboundedPollNeverEnds_loops :
    InPoll .busyClear 0x314 { polling with seq := ⟨.pPollBusy, .host, false⟩, latch.op := .write } ∧
    InPoll .fifoAvail 0x30C { polling with seq := ⟨.pPollAvail, .pramRead 0x1000 1, false⟩ } ∧
    InPoll (.equal 0x87654321) 0x064 { polling with seq := ⟨.iPoll, .host, false⟩ } ∧
    InPoll (.equal 0) 0x304 { polling with seq := ⟨.iPoll, .poll (.equal 0) 0x304, false⟩ } ∧
    (∀ r ∈ never, staysIn .fifoAvail r.value ∧ staysIn (.equal 0x87654321) r.value ∧ staysIn (.equal 0) r.value) :=
  ⟨.inr ⟨(fun _ _ h => nomatch h), by decide, .inr (.inl ⟨rfl, rfl, rfl⟩)⟩,
    .inr ⟨(fun _ _ h => nomatch h), by decide, .inr (.inr (.inl ⟨rfl, rfl, rfl⟩))⟩,
    .inr ⟨(fun _ _ h => nomatch h), by decide, .inr (.inr (.inr ⟨rfl, rfl, rfl⟩))⟩,
    .inl ⟨rfl, by decide⟩, by unfold staysIn; decide⟩

theorem witness_CsrReadRuns : Resting (resting (bytes csrAnswers.readRx)) ∧ csrAnswers.FitRead (params true) ∧
    Answers csrAnswers.readRx [] (resting (bytes csrAnswers.readRx)) :=
  ⟨⟨rfl, rfl, rfl⟩, csrAnswers_fitRead true, answered _⟩

theorem witness_CsrWriteRuns : Resting (resting (bytes csrAnswers.writeRx)) ∧ csrAnswers.FitWrite (params true) ∧
    Answers csrAnswers.writeRx [] (resting (bytes csrAnswers.writeRx)) ∧
    ([0x11, 0x22] : List Byte).length = (match SizeCode.two with | .one => 1 | .two => 2 | .four => 4) ∧
    le32 0x00002211 = [0x11, 0x22] ++ List.replicate (4 - ([0x11, 0x22] : List Byte).length) 0 :=
  ⟨⟨rfl, rfl, rfl⟩, csrAnswers_fitWrite true, answered _, rfl, by decide⟩

theorem witness_InvalidLengthComesBeforeAnyFrame : (resting []).seq.ph = .idle ∧ (resting []).wire = Wire.idle ∧
    (resting []).env.resetIn ≠ .beforeRsp ∧
    0 ≠ 1 ∧ 0 ≠ 2 ∧ 0 ≠ 4 ∧ ([] : List Byte).length = 0 ∧ ([1, 2, 3] : List Byte).length = 3 := by decide

theorem witness_PramSetupRuns : Resting (resting (bytes setupAnswers.rx)) ∧ setupAnswers.Fit (params true) ∧
    Answers setupAnswers.rx [] (resting (bytes setupAnswers.rx)) :=
  ⟨⟨rfl, rfl, rfl⟩, setupAnswers_fit true, answered _⟩

/-- R184's example: 7 bytes at 0x1001, one word after the first. -/
theorem witness_PramReadRuns :
    Resting (resting (bytes (setupAnswers.rx ++ (reading 0xA3A2A1A0).rx ++ [1, 2, 3, 4] ++ [0xA7A6A5A4].flatMap le32))) ∧
    1 ≤ (7 : BitVec 16).toNat ∧ (0x1001 : Addr).toNat + (7 : BitVec 16).toNat ≤ 0x10000 ∧
    setupAnswers.Fit (params true) ∧ (reading 0xA3A2A1A0).skipped.length = readSkip (params true) ∧
    ([1, 2, 3, 4] : List Byte).length = 4 ∧ ([0xA7A6A5A4] : List Word).length = laterWords 0x1001 7 ∧
    ((reading 0xA3A2A1A0).value :: [0xA7A6A5A4]).getLast? = some 0xA7A6A5A4 ∧
    Answers (setupAnswers.rx ++ (reading 0xA3A2A1A0).rx ++ [1, 2, 3, 4] ++ [0xA7A6A5A4].flatMap le32) []
      (resting (bytes (setupAnswers.rx ++ (reading 0xA3A2A1A0).rx ++ [1, 2, 3, 4] ++ [0xA7A6A5A4].flatMap le32))) :=
  ⟨⟨rfl, rfl, rfl⟩, by decide, by decide, setupAnswers_fit true, rfl, rfl, rfl, rfl, answered _⟩

/-- R185's example: 01 02 03 04 05 06 at 0x1002. -/
theorem witness_PramWriteRuns :
    Resting (resting (bytes (setupAnswers.rx ++ seven ++ seven))) ∧ 1 ≤ ([1, 2, 3, 4, 5, 6] : List Byte).length ∧
    ([1, 2, 3, 4, 5, 6] : List Byte).length ≤ 65535 ∧
    (0x1002 : Addr).toNat + ([1, 2, 3, 4, 5, 6] : List Byte).length ≤ 0x10000 ∧ setupAnswers.Fit (params true) ∧
    seven.length = 7 ∧ seven.length = 3 + 4 * laterWords 0x1002 6 ∧
    (pramStream 0x1002 [1, 2, 3, 4, 5, 6]).drop (4 * laterWords 0x1002 6) = le32 0x06050403 ∧
    Answers (setupAnswers.rx ++ seven ++ seven) [] (resting (bytes (setupAnswers.rx ++ seven ++ seven))) :=
  ⟨⟨rfl, rfl, rfl⟩, by decide, by decide, by decide, setupAnswers_fit true, rfl, rfl, by decide, answered _⟩

theorem witness_ChunkFollowsTheThreeTests : 1 ≤ (1 : BitVec 16).toNat ∧ 1 ≤ (0xFFFF : BitVec 16).toNat := by decide

theorem witness_ChunksAreAlignedAndSumToTheLength : 1 ≤ (0xFFFF : BitVec 16).toNat ∧
    (0x0001 : Addr).toNat + (0xFFFF : BitVec 16).toNat ≤ 0x10000 := by decide

theorem witness_RequestsAreLatchedOrRefused :
    ((resting []).busy = false ∧ 1 ≤ (1 : BitVec 16).toNat ∧ (0xFFFF : Addr).toNat + (1 : BitVec 16).toNat ≤ 0x10000) ∧
    (1 ≤ ([1] : List Byte).length ∧ ([1] : List Byte).length ≤ 65535 ∧
      (0xFFFF : Addr).toNat + ([1] : List Byte).length ≤ 0x10000) ∧
    (dispatching 0x0FFF).busy = true ∧ (0x10000 < (0xFFFF : Addr).toNat + (2 : BitVec 16).toNat) ∧
    ([] : List Byte).length = 0 := by decide

theorem witness_TheFirstAddressDecidesThePath :
    ((dispatching 0x1000).seq.ph = .rDispatch ∧ (dispatching 0x1000).seq.caller = .host ∧
      (dispatching 0x1000).env.resetIn = .off ∧ 0x1000 ≤ (dispatching 0x1000).latch.reqAddr.toNat) ∧
    ((dispatching 0x0FFF).seq.ph = .rDispatch ∧ (dispatching 0x0FFF).seq.caller = .host ∧
      (dispatching 0x0FFF).env.resetIn = .off ∧ (dispatching 0x0FFF).latch.reqAddr.toNat < 0x1000) := by decide

/-- A host operation at its next chunk: 2 bytes left at 0x0122. -/
def chunking (op : HostOp) (script : List Reply) : State :=
  { resting script with
    seq := ⟨.rChunk, .host, false⟩
    latch := ⟨op, 0x0122, 2⟩
    work := ⟨0x0122, 2, 0, 0, 0, 0, 0, 0⟩
    buf := ⟨[0xAA, 0xBB], [], []⟩ }

theorem witness_OneChunkOfAReadRuns :
    (chunking .read (bytes csrAnswers.readRx)).seq = ⟨.rChunk, .host, false⟩ ∧
    (chunking .read (bytes csrAnswers.readRx)).latch.op = .read ∧
    (chunking .read (bytes csrAnswers.readRx)).wire = Wire.idle ∧
    (chunking .read (bytes csrAnswers.readRx)).env.resetIn = .off ∧
    (chunking .read (bytes csrAnswers.readRx)).env.sim = none ∧
    (chunking .read (bytes csrAnswers.readRx)).work.rem ≠ 0 ∧ (chunkSize 0x0122 2).toNat = sizeBytes .two ∧
    csrAnswers.FitRead (params true) ∧ Answers csrAnswers.readRx [] (chunking .read (bytes csrAnswers.readRx)) :=
  ⟨rfl, rfl, rfl, rfl, rfl, by decide, rfl, csrAnswers_fitRead true, answered csrAnswers.readRx⟩

theorem witness_OneChunkOfAWriteRuns :
    (chunking .write (bytes csrAnswers.writeRx)).seq = ⟨.rChunk, .host, false⟩ ∧
    (chunking .write (bytes csrAnswers.writeRx)).latch.op = .write ∧
    (chunking .write (bytes csrAnswers.writeRx)).env.sim = none ∧
    (chunking .write (bytes csrAnswers.writeRx)).work.rem ≠ 0 ∧ (chunkSize 0x0122 2).toNat = sizeBytes .two ∧
    (0 : BitVec 16).toNat + sizeBytes .two ≤ ([0xAA, 0xBB] : List Byte).length ∧
    le32 0x0000BBAA = (([0xAA, 0xBB] : List Byte).drop (0 : BitVec 16).toNat).take (sizeBytes .two) ++
      List.replicate (4 - sizeBytes .two) 0 ∧
    csrAnswers.FitWrite (params true) ∧ Answers csrAnswers.writeRx [] (chunking .write (bytes csrAnswers.writeRx)) :=
  ⟨rfl, rfl, rfl, by decide, rfl, by decide, by decide, csrAnswers_fitWrite true, answered csrAnswers.writeRx⟩

/-- A host READ whose data have all been moved. -/
def refreshing : State := { chunking .read (bytes csrAnswers.readRx) with seq := ⟨.rAlev, .host, false⟩ }

theorem witness_TheRefreshEndsEveryReadAndWrite :
    (refreshing.seq = ⟨.rAlev, .host, false⟩ ∧ refreshing.wire = Wire.idle ∧ refreshing.env.resetIn = .off ∧
      refreshing.env.sim = none ∧ csrAnswers.FitRead refreshing.env.params ∧ Answers csrAnswers.readRx [] refreshing) ∧
    (Resting (resting (bytes csrAnswers.readRx)) ∧ Answers csrAnswers.readRx [] (resting (bytes csrAnswers.readRx))) :=
  ⟨⟨rfl, rfl, rfl, rfl, csrAnswers_fitRead true, answered csrAnswers.readRx⟩, ⟨rfl, rfl, rfl⟩, answered _⟩

/-- The data fetch of a refresh that brings another mirror. -/
theorem witness_TheMirrorIsWrittenOnlyByTheRefresh :
    (fetching (bytes (reading 5).rx)).env.resetIn = .off ∧ Reply.reset ∉ (fetching (bytes (reading 5).rx)).env.script ∧
    got (fun t => t.vis.alEvent) 0x0004 (step (fetching (bytes (reading 5).rx))) ≠
      (fetching (bytes (reading 5).rx)).vis.alEvent := by decide

theorem witness_InitRuns : Resting (resting (bytes (seven ++ readingsRx equalAnswers.all))) ∧ seven.length = 7 ∧
    equalAnswers.Fit (params true) (fun v => v == (params true).byteTestExpected) ∧
    Answers ((if (params true).initSendResetSqi then [0x00] else []) ++ seven ++ readingsRx equalAnswers.all) []
      (resting (bytes (seven ++ readingsRx equalAnswers.all))) :=
  ⟨⟨rfl, rfl, rfl⟩, rfl, ⟨by unfold Fitting; decide, by decide, by decide, by intro l h; cases h; decide⟩,
    answered (seven ++ readingsRx equalAnswers.all)⟩

theorem witness_ResetRequestIsANoOp : (resting []).busy = false ∧ (resting []).env.resetIn ≠ .beforeRsp := by decide

/-- A bus fault in mid-operation: STATUS changes. -/
theorem witness_StatusIsWrittenOnlyWithAResponse :
    (fetching (cutAt [])).env.resetIn = .off ∧ Reply.reset ∉ (fetching (cutAt [])).env.script ∧
    got (fun t => (t.vis.status, t.vis.faultSeen)) (0, false) (step (fetching (cutAt []))) = (1, true) := by decide

theorem witness_EventsAndParametersAreKept : ∃ t, step (fetching [.reset]) = .next t := ⟨_, rfl⟩

theorem witness_PhasesFollowTheTable :
    (BlockInv (dispatching 0x1000) ∧ PollInv (dispatching 0x1000) ∧ (dispatching 0x1000).env.resetIn = .off ∧
      (dispatching 0x1000).accepting = false ∧ ∃ t, step (dispatching 0x1000) = .next t) ∧
    ((resting []).seq.ph = .idle ∧ ∃ t, exec (.read 0x1000 4) (resting []) = .next t) :=
  ⟨⟨by unfold BlockInv; simp [dispatching, resting, State.reset],
    by unfold PollInv; simp [dispatching, resting, State.reset], rfl, rfl, _, rfl⟩, rfl, _, rfl⟩

theorem witness_FifoCountIsInformational : (∃ t, step (dispatching 0x1000) = .next t) ∧
    step (presented [.named .burstPop]) = .refused (.undecodable .hasEncoding) ∧
    step (presented [.coded .readBurst [0, 0, 0, 0]]) = .fault .noReadBurst := ⟨⟨_, rfl⟩, rfl, rfl⟩

theorem witness_EveryRequestEnds : (resting []).env.params.pollLimit = some 3 ∧ 1 ≤ 3 ∧ (resting []).seq.ph = .idle ∧
    (resting []).env.resetIn = .off ∧ 1 ≤ (1 : BitVec 16).toNat ∧
    (0xFFFF : Addr).toNat + (1 : BitVec 16).toNat ≤ 0x10000 := by decide

/-- Answers of these bytes, then block reset. -/
def resetAt (bs : List Byte) : List Reply := bytes bs ++ Reply.reset :: []

theorem witness_BlockResetAbandonsEverything :
    ({ inBurst .wr [] with env.resetIn := .now } : State).env.resetIn = .now ∧
    (PortReady (resting (resetAt seven)) ∧
      frameTx (params true) (.readWord 0x304) = some [0x0B, 0x03, 0x04, 0x00, 0x00, 0x00, 0x00, 0x00] ∧
      seven.length < 8 ∧ CutBy .reset seven (resting (resetAt seven))) ∧
    ((inBurst .wr (resetAt [1, 2, 3])).env.sim = none ∧ (inBurst .wr (resetAt [1, 2, 3])).wire = ⟨true, some .wr⟩ ∧
      (inBurst .rd (resetAt [1, 2, 3])).wire = ⟨true, some .rd⟩ ∧ ([1, 2, 3] : List Byte).length < 4 ∧
      CutBy .reset [1, 2, 3] (inBurst .rd (resetAt [1, 2, 3]))) :=
  ⟨rfl, ⟨⟨rfl, rfl⟩, rfl, by decide, rfl⟩, rfl, rfl, rfl, by decide, rfl⟩

/-- Reset before the response: of RESET, at the end of a refresh, at the end of INIT, of a fault. -/
theorem witness_BlockResetAbandonsEverything_beforeRsp :
    ((beforeRsp []).busy = false ∧ (beforeRsp []).wire = Wire.idle ∧ (beforeRsp []).env.resetIn = .beforeRsp) ∧
    (PortReady { beforeRsp (bytes (reading 5).rx) with seq := ⟨.cFetch, .host, true⟩ } ∧
      (reading 5).skipped.length = readSkip (params true) ∧ Answers (reading 5).rx [] (beforeRsp (bytes (reading 5).rx))) ∧
    (reading 0x87654321).value = (params true).byteTestExpected :=
  ⟨by decide, ⟨⟨rfl, rfl⟩, rfl, rfl⟩, rfl⟩

theorem witness_withThePeripheral : SimReady sim withSim ∧ SimWf sim ∧ withSim.wire = Wire.idle ∧
    withSim.seq.ph = .idle ∧ withSim.env.resetIn = .off ∧ sim.wrCtx = some ⟨0x1002, 6, 0, 2⟩ ∧
    0x1002 + 6 ≤ 0x10000 :=
  ⟨sim_ready, sim_wf, rfl, rfl, rfl, rfl, by decide⟩

theorem witness_hostRequestsWithThePeripheral : SimReady sim withSim ∧ SimWf sim ∧
    (1 ≤ (1 : BitVec 16).toNat ∧ (0xFFFF : Addr).toNat + (1 : BitVec 16).toNat ≤ 0x10000) ∧
    (1 ≤ ([1, 2] : List Byte).length ∧ ([1, 2] : List Byte).length ≤ 65535 ∧
      (0x0FFF : Addr).toNat + ([1, 2] : List Byte).length ≤ 0x10000) :=
  ⟨sim_ready, sim_wf, by decide, by decide⟩

end Sys2Proof.Tests
end

section
/-! PROOF of O50. "`t` comes after `s`": the trace of `t` begins with that of `s`, and the parameters are the same. The
relation is reflexive and transitive, so it is shown once for each state operation and each exchange, and passes through
`andThen` and `thenDo` to every phase and to every meaning. -/

namespace Sys2Proof.Machine

/-- The events of `s` are the first events of `t` (R12), and the parameters are the same (R7). -/
structure Extends (s t : State) : Prop where
  trace : s.trace <+: t.trace
  params : t.env.params = s.env.params

theorem Extends.trans {s t u : State} (h : Extends s t) (k : Extends t u) : Extends s u :=
  ⟨h.trace.trans k.trace, k.params.trans h.params⟩

theorem Extends.of_append {s t : State} (evs : List Event) (ht : t.trace = s.trace ++ evs)
    (hp : t.env.params = s.env.params) : Extends s t :=
  ⟨⟨evs, ht.symm⟩, hp⟩

/-- A change of anything but the trace and the parameters. -/
theorem Extends.of_eq {s t : State} (ht : t.trace = s.trace) (hp : t.env.params = s.env.params) : Extends s t :=
  .of_append [] (by simpa using ht) hp

theorem Extends.refl (s : State) : Extends s s := .of_eq rfl rfl

/-! ### State operations -/

theorem toPhase_extends (p : Phase) (s : State) : Extends s (s.toPhase p) := .of_eq rfl rfl
theorem enter_extends (c : Caller) (p : Phase) (s : State) : Extends s (s.enter c p) := .of_eq rfl rfl
theorem toIdle_extends (s : State) : Extends s s.toIdle := .of_eq rfl rfl
theorem setWord_extends (v : Word) (s : State) : Extends s (s.setWord v) := .of_eq rfl rfl
theorem setSize_extends (n : BitVec 3) (s : State) : Extends s (s.setSize n) := .of_eq rfl rfl
theorem countDown_extends (s : State) : Extends s s.countDown := .of_eq rfl rfl
theorem beginPoll_extends (p : Phase) (s : State) : Extends s (beginPoll p s) := .of_eq rfl rfl
theorem polled_extends (v : Word) (s : State) : Extends s (polled v s) := .of_eq rfl rfl

theorem loadFifoCnt_extends (v : Word) (s : State) : Extends s (loadFifoCnt v s) := by
  unfold loadFifoCnt
  split
  · exact .of_eq rfl rfl
  · exact .refl s

theorem csAssert_extends (s : State) : Extends s (csAssert s) := .of_append _ (csAssert_trace s) rfl

theorem csDeassert_extends (s : State) : Extends s (csDeassert s) :=
  .of_append _ (csDeassert_trace s) (csDeassert_params s)

/-! ### The end of an operation -/

theorem faultEntry_extends (c : Cause) (s : State) : Extends s (faultEntry c s) :=
  (csDeassert_extends s).trans (.of_append _ (faultEntry_trace c s) (by simp))

theorem complete_extends (s : State) : Extends s (complete s) := .of_append _ (complete_trace s) rfl

/-- Block reset keeps the record of what happened and the parameters (R261, R263). -/
theorem blockReset_extends (s : State) : Extends s (blockReset s) :=
  (csDeassert_extends s).trans (.of_eq (blockReset_trace s) (by simp))

theorem raise_extends (c : Cause) (s : State) : Extends s (raise c s) := by
  rcases raise_cases c s with ⟨_, h⟩ | ⟨_, h⟩ <;> rw [h]
  · exact faultEntry_extends c s
  · exact blockReset_extends s

theorem finish_extends (s : State) : Extends s (finish s) := by
  rcases finish_cases s with ⟨_, h⟩ | ⟨_, h⟩ <;> rw [h]
  · exact complete_extends s
  · exact blockReset_extends s

/-! ### Sequencing -/

theorem andThen_extends {α β : Type} {s : State} {r : Run α} {f : α → State → Run β}
    (hr : Extends s (finalState r)) (hf : ∀ a t, Extends t (finalState (f a t))) :
    Extends s (finalState (andThen r f)) := by
  cases r with
  | ok a t => exact hr.trans (hf a t)
  | stop t => exact hr

theorem thenDo_extends {α : Type} {s : State} {r : Run α} {f : State → State}
    (hr : Extends s (finalState r)) (hf : ∀ t, Extends t (f t)) : Extends s (finalState (thenDo r f)) := by
  cases r with
  | ok a t => exact hr.trans (hf t)
  | stop t => exact hr

/-! ### Exchanges and frames -/

theorem exchange_extends (tx : List Byte) (s : State) : Extends s (finalState (exchange tx s)) := by
  rcases exchange_cases tx s with ⟨rx, t, he, hx, _, ht⟩ | ⟨rx, b, t, he, hx, _, _, _, ht⟩ |
    ⟨rx, t, he, hx, _, _, ht⟩ <;> rw [he]
  · exact .of_append _ ht hx.same.params
  · exact (Extends.of_append _ ht hx.same.params).trans (raise_extends .busFault t)
  · exact (Extends.of_append _ ht hx.same.params).trans (blockReset_extends t)

theorem send_extends (bs : List Byte) (s : State) : Extends s (finalState (send bs s)) :=
  andThen_extends (exchange_extends bs s) fun _ t => .refl t

theorem recv4_extends (s : State) : Extends s (finalState (recv4 s)) :=
  andThen_extends (exchange_extends _ s) fun _ t => .refl t

/-- What is sent after chip-select has been asserted. -/
theorem sendAsserted_extends (bs : List Byte) (s : State) : Extends s (finalState (send bs (csAssert s))) :=
  (csAssert_extends s).trans (send_extends bs _)

theorem writeWord_extends (reg : Addr) (v : Word) (s : State) : Extends s (finalState (writeWord reg v s)) :=
  thenDo_extends (sendAsserted_extends _ s) csDeassert_extends

theorem readFrame_extends (header : List Byte) (s : State) : Extends s (finalState (readFrame header s)) :=
  andThen_extends (sendAsserted_extends header s) fun _ t =>
    andThen_extends (recv4_extends t) fun _ u => csDeassert_extends u

theorem readWord_extends (reg : Addr) (s : State) : Extends s (finalState (readWord reg s)) := by
  unfold readWord
  split
  · exact readFrame_extends _ s
  · exact readFrame_extends _ s

theorem burstOpen_extends (dir : Dir) (s : State) : Extends s (finalState (burstOpen dir s)) :=
  thenDo_extends (sendAsserted_extends _ s) fun _ => .of_eq rfl rfl

theorem resetSqiFrame_extends (s : State) : Extends s (finalState (resetSqiFrame s)) :=
  thenDo_extends (sendAsserted_extends _ s) csDeassert_extends

theorem storeWord_extends {s : State} {r : Run Word} (h : Extends s (finalState r)) :
    Extends s (finalState (storeWord r)) :=
  andThen_extends h setWord_extends

theorem holdBurst_extends (s : State) : Extends s (holdBurst s) := by
  unfold holdBurst
  split
  · exact enter_extends _ _ s
  · exact .refl s

theorem releaseBurst_extends (s : State) : Extends s (releaseBurst s) := by
  unfold releaseBurst
  split
  · exact toIdle_extends s
  · exact .refl s

theorem sendCsrData_extends (v : Word) (s : State) : Extends s (finalState (sendCsrData v s)) :=
  (setWord_extends v s).trans (writeWord_extends _ v _)

theorem takeCsrData_extends (n : Nat) (v : Word) (s : State) : Extends s (takeCsrData n v s) := .of_eq rfl rfl

theorem sendFirstWord_extends (v : Word) (s : State) : Extends s (finalState (sendFirstWord v s)) :=
  thenDo_extends ((setWord_extends v s).trans (writeWord_extends _ v _)) countDown_extends

theorem takeFirstWord_extends (fbp : BitVec 2) (n0 : Nat) (v : Word) (s : State) :
    Extends s (takeFirstWord fbp n0 v s) := .of_eq rfl rfl

theorem sendNextWord_extends (v : Word) (s : State) : Extends s (finalState (sendNextWord v s)) :=
  thenDo_extends ((setWord_extends v s).trans (send_extends _ _)) countDown_extends

theorem takeNextWord_extends (t : Nat) (v : Word) (s : State) : Extends s (takeNextWord t v s) := .of_eq rfl rfl

/-! ### The poller -/

theorem pollOnce_extends (kind : PollKind) (reg : Addr) (s : State) :
    Extends s (finalState (pollOnce kind reg s)) := by
  refine andThen_extends (readWord_extends reg s) fun v t => (polled_extends v t).trans ?_
  dsimp only
  split
  · split
    · exact loadFifoCnt_extends v _
    · exact .refl _
  · split
    · exact raise_extends _ _
    · exact .refl _

theorem visitPoll_extends (kind : PollKind) (reg : Addr) {done : State → State} (s : State)
    (hd : ∀ t, Extends t (done t)) : Extends s (finalState (visitPoll kind reg done s)) :=
  andThen_extends (pollOnce_extends kind reg s) fun ended t => by
    cases ended with
    | true => exact hd t
    | false => exact .refl t

theorem enterPoll_extends (kind : PollKind) (reg : Addr) (s : State) :
    Extends s (finalState (enterPoll kind reg s)) :=
  have started : Extends s ((s.enter (.poll kind reg) (pollPhase kind reg)).setPolls 0) := .of_eq rfl rfl
  started.trans (visitPoll_extends kind reg _ toIdle_extends)

/-! ### The CSR accessor -/

theorem chunkDone_extends (s : State) : Extends s (chunkDone s) := by
  unfold chunkDone
  split <;> exact .of_eq rfl rfl

theorem refreshDone_extends (s : State) : Extends s (refreshDone s) := by
  have mirrored : Extends s (s.setAlEvent (mirrorOf s.buf.res)) := .of_eq rfl rfl
  refine mirrored.trans ?_
  unfold refreshDone
  dsimp only
  split
  · exact finish_extends _
  · exact toIdle_extends _

theorem csrReturn_extends (s : State) : Extends s (csrReturn s) := by
  unfold csrReturn
  split
  · exact refreshDone_extends s
  · split
    · exact chunkDone_extends s
    · exact toIdle_extends s

theorem csrReady_extends (s : State) : Extends s (csrReady s) := by
  unfold csrReady
  split
  · exact toPhase_extends _ s
  · exact csrReturn_extends s

theorem enterCsr_extends (s : State) : Extends s (finalState (enterCsr s)) := by
  rcases enterCsr_cases s with ⟨_, h⟩ | ⟨_, h⟩ <;> rw [h]
  · exact raise_extends _ s
  · exact toPhase_extends _ s

theorem visitCData_extends (s : State) : Extends s (finalState (visitCData s)) :=
  thenDo_extends (sendCsrData_extends _ s) (toPhase_extends _)

theorem visitCCmd_extends (s : State) : Extends s (finalState (visitCCmd s)) := by
  unfold visitCCmd
  split
  · exact raise_extends _ s
  · exact thenDo_extends (writeWord_extends _ _ s) (beginPoll_extends _)

theorem visitCFetch_extends (s : State) : Extends s (finalState (visitCFetch s)) :=
  andThen_extends (readWord_extends _ s) fun v t => (takeCsrData_extends _ v t).trans (csrReturn_extends _)

/-! ### The PRAM accessor -/

theorem visitPAbort_extends (s : State) : Extends s (finalState (visitPAbort s)) :=
  thenDo_extends (writeWord_extends _ _ s) (beginPoll_extends _)

theorem setupDone_extends (s : State) : Extends s (setupDone s) := by
  unfold setupDone
  split
  · exact toIdle_extends s
  · exact toPhase_extends _ s

theorem firstDone_extends (n0 : Nat) (s : State) : Extends s (firstDone n0 s) := .of_eq rfl rfl

theorem visitPFirst_extends (s : State) : Extends s (finalState (visitPFirst s)) := by
  have placed : Extends s { s with work.fbp := firstBytePos (pramAddr s) } := .of_eq rfl rfl
  refine placed.trans ?_
  unfold visitPFirst
  dsimp only
  split
  · exact andThen_extends (readWord_extends _ _) fun v t =>
      (takeFirstWord_extends _ _ v t).trans (firstDone_extends _ _)
  · exact thenDo_extends (sendFirstWord_extends _ _) (firstDone_extends _)

theorem wordDone_extends (t : Nat) (s : State) : Extends s (wordDone t s) := .of_eq rfl rfl

theorem visitPBWord_extends (s : State) : Extends s (finalState (visitPBWord s)) := by
  unfold visitPBWord
  split
  · exact andThen_extends (recv4_extends s) fun v t => (takeNextWord_extends _ v t).trans (wordDone_extends _ _)
  · exact thenDo_extends (sendNextWord_extends _ s) (wordDone_extends _)

theorem pramReturn_extends (s : State) : Extends s (pramReturn s) := by
  unfold pramReturn
  split
  · split <;> exact .of_eq rfl rfl
  · exact toIdle_extends s

/-! ### The router -/

theorem acceptRequest_extends (op : HostOp) (addr : Addr) (len : BitVec 16) (wdata : List Byte) (s : State) :
    Extends s (acceptRequest op addr len wdata s) := .of_append [.req op addr len wdata] rfl rfl

theorem acceptBare_extends (op : HostOp) (s : State) : Extends s (acceptBare op s) :=
  .of_append [.req op 0 0 []] rfl rfl

theorem visitRDispatch_extends (s : State) : Extends s (finalState (visitRDispatch s)) := by
  unfold visitRDispatch
  split <;> exact .of_eq rfl rfl

theorem visitRChunk_extends (s : State) : Extends s (finalState (visitRChunk s)) := by
  unfold visitRChunk
  split
  · exact toPhase_extends _ s
  · exact (setSize_extends _ s).trans (enterCsr_extends _)

theorem visitRAlev_extends (s : State) : Extends s (finalState (visitRAlev s)) :=
  have marked : Extends s { s with seq.refresh := true } := .of_eq rfl rfl
  marked.trans (enterCsr_extends _)

/-! ### A visit to a phase -/

theorem visitPhase_extends (s : State) : Extends s (finalState (visitPhase s)) := by
  unfold visitPhase
  cases s.seq.ph with
  | idle => exact .refl s
  | rDispatch => exact visitRDispatch_extends s
  | rChunk => exact visitRChunk_extends s
  | cData => exact visitCData_extends s
  | cCmd => exact visitCCmd_extends s
  | cPoll => exact visitPoll_extends _ _ s csrReady_extends
  | cFetch => exact visitCFetch_extends s
  | pAbort => exact visitPAbort_extends s
  | pPollBusy => exact visitPoll_extends _ _ s (toPhase_extends _)
  | pAddrLen => exact thenDo_extends (writeWord_extends _ _ s) (toPhase_extends _)
  | pStart => exact thenDo_extends (writeWord_extends _ _ s) (beginPoll_extends _)
  | pPollAvail => exact visitPoll_extends _ _ s setupDone_extends
  | pFirst => exact visitPFirst_extends s
  | pBOpen => exact thenDo_extends (burstOpen_extends _ s) fun t => toPhase_extends _ t
  | pBWord => exact visitPBWord_extends s
  | pBClose => exact (csDeassert_extends s).trans (pramReturn_extends _)
  | rAlev => exact visitRAlev_extends s
  | iSqi => exact thenDo_extends (resetSqiFrame_extends s) (toPhase_extends _)
  | iReset => exact thenDo_extends (writeWord_extends _ _ s) (beginPoll_extends _)
  | iPoll => exact visitPoll_extends _ _ s finish_extends

theorem visit_extends (s : State) : Extends s (finalState (visit s)) := by
  unfold visit
  split
  · exact visitPoll_extends _ _ s toIdle_extends
  · exact visitPhase_extends s

/-! ### The meaning of an operation -/

/-- The next state, where there is one, comes after `s`. -/
def NextExtends (s : State) (r : Result) : Prop := ∀ t, r = .next t → Extends s t

theorem Extends.next {s t : State} (h : Extends s t) : NextExtends s (.next t) := by
  rintro _ ⟨⟩
  exact h

theorem nextExtends_fault (s : State) (f : Fault) : NextExtends s (.fault f) := by rintro _ ⟨⟩

theorem nextExtends_refused (s : State) (r : Refusal) : NextExtends s (.refused r) := by rintro _ ⟨⟩

theorem Extends.whenFrameClosed {s t : State} (h : Extends s t) : NextExtends s (whenFrameClosed s t) := by
  unfold Machine.whenFrameClosed
  split
  · exact nextExtends_fault s _
  · exact h.next

theorem Extends.whenIdle {s t : State} (h : Extends s t) : NextExtends s (whenIdle s t) := by
  unfold Machine.whenIdle
  split
  · exact nextExtends_refused s _
  · exact h.next

theorem Extends.whenAdmitted {s t : State} (addr : Addr) (len : Nat) (h : Extends s t) :
    NextExtends s (whenAdmitted addr len s t) := by
  unfold Machine.whenAdmitted
  split
  · exact nextExtends_refused s _
  · split
    · exact h.next
    · exact nextExtends_refused s _

/-- A word of a burst: the model stops where no burst of its direction is open (log 18). -/
theorem Extends.whenBurst {s t : State} (dir : Dir) (f : Fault) (h : Extends s t) :
    NextExtends s (if s.wire.burst = some dir then .next t else .fault f) := by
  split
  · exact h.next
  · exact nextExtends_fault s f

theorem exec_extends (i : Instr) (s : State) : NextExtends s (exec i s) := by
  cases i with
  | writeWord reg value => exact (writeWord_extends reg value s).whenFrameClosed
  | serialReadWord reg => exact (storeWord_extends (readFrame_extends _ s)).whenFrameClosed
  | fastReadWord reg => exact (storeWord_extends (readFrame_extends _ s)).whenFrameClosed
  | readWord reg => exact (storeWord_extends (readWord_extends reg s)).whenFrameClosed
  | burstOpenWrite => exact (thenDo_extends (burstOpen_extends _ s) holdBurst_extends).whenFrameClosed
  | burstPush value => exact (send_extends _ s).whenBurst .wr _
  | burstOpenRead => exact (thenDo_extends (burstOpen_extends _ s) holdBurst_extends).whenFrameClosed
  | burstPop => exact (storeWord_extends (recv4_extends s)).whenBurst .rd _
  | burstClose => exact ((csDeassert_extends s).trans (releaseBurst_extends _)).next
  | resetSqiFrame => exact (resetSqiFrame_extends s).whenFrameClosed
  | csrcmdRead size addr => exact (writeWord_extends _ _ s).whenFrameClosed
  | csrcmdWrite size addr => exact (writeWord_extends _ _ s).whenFrameClosed
  | pramcmdAbort dir => exact (writeWord_extends _ _ s).whenFrameClosed
  | pramcmdStart dir => exact (writeWord_extends _ _ s).whenFrameClosed
  | pramAddrlen dir len addr => exact (writeWord_extends _ _ s).whenFrameClosed
  | pramStatus dir v => exact ((setWord_extends v s).trans (loadFifoCnt_extends v _)).next
  | csrStatus v => exact (setWord_extends v s).next
  | csrDataWord dir size v =>
    cases dir with
    | wr => exact (sendCsrData_extends v s).whenFrameClosed
    | rd => exact (takeCsrData_extends _ v s).next
  | pramFirstWord dir fbp n0 v =>
    cases dir with
    | wr => exact (sendFirstWord_extends v s).whenFrameClosed
    | rd => exact (takeFirstWord_extends fbp n0 v s).next
  | pramNextWord dir t v =>
    cases dir with
    | wr => exact (sendNextWord_extends v s).whenBurst .wr _
    | rd => exact (takeNextWord_extends t v s).next
  | init => exact ((acceptBare_extends .init s).trans (enter_extends _ _ _)).whenIdle
  | reset => exact ((acceptBare_extends .reset s).trans (finish_extends _)).whenIdle
  | read addr len => exact ((acceptRequest_extends _ _ _ _ s).trans (enter_extends _ _ _)).whenAdmitted _ _
  | write addr data =>
    have buffered : Extends s { s with buf.wbuf := data } := .of_eq rfl rfl
    exact ((buffered.trans (acceptRequest_extends _ _ _ _ _)).trans (enter_extends _ _ _)).whenAdmitted _ _
  | pollBusyClear reg => exact (enterPoll_extends _ reg s).whenIdle
  | pollFifoAvail reg => exact (enterPoll_extends _ reg s).whenIdle
  | pollEqual reg expected => exact (enterPoll_extends _ reg s).whenIdle
  | csrRead addr n =>
    exact ((enter_extends _ _ s).trans
      (andThen_extends (enterCsr_extends _) fun _ t => visitCCmd_extends t)).whenIdle
  | csrWrite addr data =>
    exact ((enter_extends _ _ s).trans
      (andThen_extends (enterCsr_extends _) fun _ t => visitCData_extends t)).whenIdle
  | pramSetup dir addr len => exact ((enter_extends _ _ s).trans (visitPAbort_extends _)).whenIdle
  | pramRead addr len => exact ((enter_extends _ _ s).trans (visitPAbort_extends _)).whenIdle
  | pramWrite addr data => exact ((enter_extends _ _ s).trans (visitPAbort_extends _)).whenIdle
  | chunk a rem => exact (setSize_extends _ s).next
  | alRefresh =>
    exact ((enter_extends _ _ s).trans
      (andThen_extends (visitRAlev_extends _) fun _ t => visitCCmd_extends t)).whenIdle

/-! ### A step -/

theorem consume_extends (rest : List Token) (s : State) : Extends s (s.consume rest) := .of_eq rfl rfl

theorem step_extends (s : State) : NextExtends s (step s) := by
  unfold step
  split
  · exact (blockReset_extends s).next
  · split
    · split
      · exact (Extends.refl s).next
      · split
        · exact nextExtends_refused s _
        · exact fun t ht => (consume_extends _ s).trans (exec_extends _ _ t ht)
    · exact (visit_extends s).next

/-- Settles O50: a step is block reset, an operation presented, or a visit to a phase, and each of them is made of
operations that leave the parameters and touch the trace only by appending to it. -/
theorem eventsAndParametersAreKept : Obligations.EventsAndParametersAreKept := fun s t hstep =>
  ⟨(step_extends s t hstep).trace, (step_extends s t hstep).params⟩

end Sys2Proof.Machine
end

section
/-! SUPPORT for the statements about a busy block (O6, O45, O49, O51, O53). What a part of an operation can do is said
once, as a postcondition of its `Run`: it goes on, and only the wire, the working registers and the sequencer have
changed; or it has ended in a fault or a block reset. The rules pass through `andThen` and `thenDo`. -/

namespace Sys2Proof.Machine

/-- `t` comes after `s` in an operation that has not ended: what the host sees and what it has presented are the same
(R20, R21, R25, R26), and so are the parameters and the reset input; the script was used from its front. -/
structure Kept (s t : State) : Prop where
  latch : t.latch = s.latch
  vis : t.vis = s.vis
  wbuf : t.buf.wbuf = s.buf.wbuf
  params : t.env.params = s.env.params
  inputs : t.env.inputs = s.env.inputs
  resetIn : t.env.resetIn = s.env.resetIn
  script : t.env.script <:+ s.env.script

/-- Besides, the sequencer and the counts of bytes it goes by stand still. -/
structure Still (s t : State) : Prop extends Kept s t where
  seq : t.seq = s.seq
  rem : t.work.rem = s.work.rem
  size : t.work.size = s.work.size

theorem Kept.refl (s : State) : Kept s s := ⟨rfl, rfl, rfl, rfl, rfl, rfl, List.suffix_refl _⟩

theorem Kept.trans {s t u : State} (h : Kept s t) (k : Kept t u) : Kept s u :=
  ⟨k.latch.trans h.latch, k.vis.trans h.vis, k.wbuf.trans h.wbuf, k.params.trans h.params,
    k.inputs.trans h.inputs, k.resetIn.trans h.resetIn, k.script.trans h.script⟩

/-- A change of the sequencer, the working registers, the wire or the other buffers. -/
theorem Kept.change {s t u : State} (h : Kept s t) (latch : u.latch = t.latch := by rfl)
    (vis : u.vis = t.vis := by rfl) (wbuf : u.buf.wbuf = t.buf.wbuf := by rfl) (env : u.env = t.env := by rfl) :
    Kept s u :=
  h.trans ⟨latch, vis, wbuf, by rw [env], by rw [env], by rw [env], by rw [env]⟩

theorem Still.refl (s : State) : Still s s := ⟨.refl s, rfl, rfl, rfl⟩

theorem Still.trans {s t u : State} (h : Still s t) (k : Still t u) : Still s u :=
  ⟨h.toKept.trans k.toKept, k.seq.trans h.seq, k.rem.trans h.rem, k.size.trans h.size⟩

/-- A change of the other working registers, the wire or the other buffers. -/
theorem Still.change {s t u : State} (h : Still s t) (latch : u.latch = t.latch := by rfl)
    (vis : u.vis = t.vis := by rfl) (wbuf : u.buf.wbuf = t.buf.wbuf := by rfl) (env : u.env = t.env := by rfl)
    (seq : u.seq = t.seq := by rfl) (rem : u.work.rem = t.work.rem := by rfl)
    (size : u.work.size = t.work.size := by rfl) : Still s u :=
  h.trans ⟨(Kept.refl t).change latch vis wbuf env, seq, rem, size⟩

theorem Exchanged.still {s t : State} (h : Exchanged s t) : Still s t :=
  ⟨⟨h.same.latch, h.same.vis, by rw [h.same.buf], h.same.params, h.same.inputs, h.same.resetIn, h.script⟩,
    h.same.seq, by rw [h.same.work], by rw [h.same.work]⟩

theorem Framed.still {s t : State} (h : Framed s t) : Still s t :=
  ⟨⟨h.latch, h.vis, by rw [h.buf], h.params, h.inputs, h.resetIn, h.script⟩,
    h.seq, by rw [h.work], by rw [h.work]⟩

theorem Inside.still {s t : State} (h : Inside s t) : Still s t :=
  ⟨⟨h.latch, h.vis, by rw [h.buf], h.params, h.inputs, h.resetIn, h.script⟩,
    h.seq, by rw [h.work], by rw [h.work]⟩

/-! ### What part of an operation can do -/

/-- How an operation ends before its last line: by a fault, or by a block reset the script holds. -/
inductive Stopped (s : State) : State → Prop
  | fault (c : Cause) {u : State} (kept : Kept s u) : Stopped s (raise c u)
  | reset {u : State} (inputs : u.env.inputs = s.env.inputs) (strikes : Reply.reset ∈ s.env.script) :
      Stopped s (blockReset u)

/-- Part of an operation begun in `s` goes on in a state of `post`, or has ended. -/
def Reaches {α : Type} (s : State) (post : α → State → Prop) : Run α → Prop
  | .ok a t => post a t
  | .stop t => Stopped s t

theorem Stopped.of_kept {s t u : State} (k : Kept s t) (h : Stopped t u) : Stopped s u := by
  cases h with
  | fault c kept => exact .fault c (k.trans kept)
  | reset inputs strikes => exact .reset (inputs.trans k.inputs) (k.script.subset strikes)

section Rules

variable {α β : Type} {s t : State} {r : Run α} {post : α → State → Prop}

theorem Reaches.of_kept (k : Kept s t) (h : Reaches t post r) : Reaches s post r := by
  cases r with
  | ok a u => exact h
  | stop u => exact Stopped.of_kept k h

theorem Reaches.mono {post' : α → State → Prop} (h : Reaches s post r) (hp : ∀ a t, post a t → post' a t) :
    Reaches s post' r := by
  cases r with
  | ok a u => exact hp a u h
  | stop u => exact h

theorem Reaches.andThen {f : α → State → Run β} {post' : β → State → Prop} (h : Reaches s post r)
    (hf : ∀ a t, post a t → Reaches s post' (f a t)) : Reaches s post' (andThen r f) := by
  cases r with
  | ok a u => exact hf a u h
  | stop u => exact h

theorem Reaches.thenDo {f : State → State} {post' : State → Prop} (h : Reaches s post r)
    (hf : ∀ a t, post a t → post' (f t)) : Reaches s (fun _ => post') (thenDo r f) := by
  cases r with
  | ok a u => exact hf a u h
  | stop u => exact h

theorem FrameCases.reaches (h : FrameCases r s) : Reaches s (fun _ => Still s) r := by
  rcases h with ⟨a, t, rfl, ht⟩ | ⟨t, rfl, ht, -⟩ | ⟨t, rfl, ht, hr⟩
  · exact ht.still
  · exact .fault .busFault ht.still.toKept
  · exact .reset ht.inputs hr

end Rules

/-! ### Without a reset the last line of an operation is its response -/

theorem raise_of_off {c : Cause} {s : State} (h : s.env.resetIn = .off) : raise c s = faultEntry c s :=
  unlessReset_of_ne (by simp [h])

theorem finish_of_off {s : State} (h : s.env.resetIn = .off) : finish s = complete s :=
  unlessReset_of_ne (by simp [h])

/-! ### Exchanges and frames -/

theorem exchange_reaches (tx : List Byte) (s : State) : Reaches s (fun _ => Still s) (exchange tx s) := by
  rcases exchange_cases tx s with ⟨rx, t, h, ht, -⟩ | ⟨rx, b, t, h, ht, -⟩ | ⟨rx, t, h, ht, -, hr, -⟩ <;>
    rw [h]
  · exact ht.still
  · exact .fault .busFault ht.still.toKept
  · exact .reset ht.same.inputs hr

theorem send_reaches (tx : List Byte) (s : State) : Reaches s (fun _ => Still s) (send tx s) :=
  (exchange_reaches tx s).andThen fun _ _ h => h

theorem recv4_reaches (s : State) : Reaches s (fun _ => Still s) (recv4 s) :=
  (exchange_reaches _ s).andThen fun _ _ h => h

theorem writeWord_reaches (reg : Addr) (v : Word) (s : State) : Reaches s (fun _ => Still s) (writeWord reg v s) :=
  (writeWord_cases reg v s).reaches

theorem readWord_reaches (reg : Addr) (s : State) : Reaches s (fun _ => Still s) (readWord reg s) :=
  (readWord_cases reg s).reaches

theorem csAssert_still (s : State) : Still s (csAssert s) :=
  ⟨⟨rfl, rfl, rfl, rfl, rfl, rfl, List.suffix_refl _⟩, rfl, rfl, rfl⟩

theorem csDeassert_still (s : State) : Still s (csDeassert s) :=
  ⟨⟨by simp, by simp, by simp, by simp, by simp, by simp, by simp⟩, by simp, by simp, by simp⟩

/-- What is sent after chip-select has been asserted. -/
theorem sendAsserted_reaches (tx : List Byte) (s : State) :
    Reaches s (fun _ => Still s) (send tx (csAssert s)) :=
  ((send_reaches tx _).of_kept (csAssert_still s).toKept).mono fun _ _ h => (csAssert_still s).trans h

theorem readFrame_reaches (header : List Byte) (s : State) : Reaches s (fun _ => Still s) (readFrame header s) :=
  (sendAsserted_reaches header s).andThen fun _ t ht =>
    ((recv4_reaches t).of_kept ht.toKept).andThen fun _ u hu => (ht.trans hu).trans (csDeassert_still u)

theorem burstOpen_reaches (dir : Dir) (s : State) : Reaches s (fun _ => Still s) (burstOpen dir s) :=
  (sendAsserted_reaches _ s).thenDo fun _ _ h => h.change

theorem resetSqiFrame_reaches (s : State) : Reaches s (fun _ => Still s) (resetSqiFrame s) :=
  (resetSqiFrame_cases s).reaches

theorem setWord_still (v : Word) (s : State) : Still s (s.setWord v) := (Still.refl s).change

theorem sendCsrData_reaches (v : Word) (s : State) : Reaches s (fun _ => Still s) (sendCsrData v s) :=
  ((writeWord_reaches _ v _).of_kept (setWord_still v s).toKept).mono fun _ _ h => (setWord_still v s).trans h

theorem sendFirstWord_reaches (v : Word) (s : State) : Reaches s (fun _ => Still s) (sendFirstWord v s) :=
  ((writeWord_reaches _ v _).of_kept (setWord_still v s).toKept).thenDo fun _ _ h =>
    ((setWord_still v s).trans h).change

theorem sendNextWord_reaches (v : Word) (s : State) : Reaches s (fun _ => Still s) (sendNextWord v s) :=
  ((send_reaches _ _).of_kept (setWord_still v s).toKept).thenDo fun _ _ h =>
    ((setWord_still v s).trans h).change

/-! ### The poller -/

theorem loadFifoCnt_still (v : Word) (s : State) : Still s (loadFifoCnt v s) := by
  unfold loadFifoCnt
  split
  · exact (Still.refl s).change
  · exact .refl s

/-- One more poll has been counted, and the limit admits another (R162). -/
def PollsOn (s t : State) : Prop :=
  Still s t ∧ t.work.polls = s.work.polls + 1 ∧ limitReached s.env.params (s.work.polls + 1) = false

/-- A visit to a polling phase reads once; the loop is over, or it goes on within the limit (R162, R164). -/
theorem visitPoll_reaches {post : State → Prop} (kind : PollKind) (reg : Addr) {done : State → State} (s : State)
    (hover : ∀ t, Still s t → post (done t)) (hon : ∀ t, PollsOn s t → post t) :
    Reaches s (fun _ => post) (visitPoll kind reg done s) := by
  unfold visitPoll
  rcases pollOnce_cases kind reg s with ⟨v, t, -, ht, hpoll⟩ | ⟨t, h, ht, -⟩ | ⟨t, h, ht, hr⟩
  · have counted : Still s (polled v t) := ht.still.change
    rcases hpoll with ⟨-, h⟩ | ⟨-, -, h⟩ | ⟨-, hlimit, h⟩ <;> rw [h]
    · refine hover _ ?_
      split
      · exact counted.trans (loadFifoCnt_still v _)
      · exact counted
    · exact .fault .deviceUnresponsive counted.toKept
    · exact hon _ ⟨counted, by simp [polled, ht.work], hlimit⟩
  · rw [h]
    exact .fault .busFault ht.still.toKept
  · rw [h]
    exact .reset ht.inputs hr

end Sys2Proof.Machine
end

section
/-! SUPPORT for the statements about a busy block (O6, O45, O49, O51, O53). What a visit to a phase can do (R33), said
once for all phases. -/

namespace Sys2Proof.Machine

/-- The operation moves to the phase `p` with `n` bytes remaining. -/
structure To (s : State) (p : Phase) (n : BitVec 16) (t : State) : Prop where
  seq : t.seq = { s.seq with ph := p }
  rem : t.work.rem = n
  size : t.work.size = s.work.size

/-- What follows a visit to the phase `p` when the operation has not ended: the table of R33, with what the visit does
to the counts of bytes and of polls. -/
def Follows (s : State) : Phase → State → Prop
  | .idle, t => t = s
  | .rDispatch, t => To s .pAbort s.work.rem t ∨ To s .rChunk s.latch.reqLen t
  | .rChunk, t =>
    (s.work.rem = 0 ∧ To s .rAlev s.work.rem t) ∨
    (s.work.rem ≠ 0 ∧ (t.seq = { s.seq with ph := .cData } ∨ t.seq = { s.seq with ph := .cCmd }) ∧
      t.work.rem = s.work.rem ∧ t.work.size = chunkSize s.work.addr s.work.rem)
  | .cData, t => To s .cCmd s.work.rem t
  | .cCmd, t => To s .cPoll s.work.rem t ∧ t.work.polls = 0
  | .cPoll, t =>
    PollsOn s t ∨ To s .cFetch s.work.rem t ∨
      (s.seq.refresh = false ∧ To s .rChunk (s.work.rem - s.work.size.zeroExtend 16) t)
  | .cFetch, t => s.seq.refresh = false ∧ To s .rChunk (s.work.rem - s.work.size.zeroExtend 16) t
  | .pAbort, t => To s .pPollBusy s.work.rem t ∧ t.work.polls = 0
  | .pPollBusy, t => PollsOn s t ∨ To s .pAddrLen s.work.rem t
  | .pAddrLen, t => To s .pStart s.work.rem t
  | .pStart, t => To s .pPollAvail s.work.rem t ∧ t.work.polls = 0
  | .pPollAvail, t => PollsOn s t ∨ To s .pFirst s.work.rem t
  | .pFirst, t =>
    To s .pBOpen (pramLen s - BitVec.ofNat 16 (firstCount (pramAddr s) (pramLen s).toNat)) t
  | .pBOpen, t => To s (if s.work.rem = 0 then .pBClose else .pBWord) s.work.rem t
  | .pBWord, t =>
    let n := s.work.rem - BitVec.ofNat 16 (min 4 s.work.rem.toNat)
    To s (if n = 0 then .pBClose else .pBWord) n t
  | .pBClose, t => To s .rAlev s.work.rem t
  | .rAlev, t => t.seq = { s.seq with ph := .cCmd, refresh := true }
  | .iSqi, t => To s .iReset s.work.rem t
  | .iReset, t => To s .iPoll s.work.rem t ∧ t.work.polls = 0
  | .iPoll, t => PollsOn s t

/-- The data fetch of a refresh: one whole frame, then the end of the refresh (R206). -/
inductive RefreshEnds (s : State) : State → Prop
  | intro {u : State} (ph : s.seq.ph = .cFetch) (refresh : s.seq.refresh = true) (kept : Kept s u)
      (tx rx : List Byte) (trace : u.trace = s.trace ++ wholeFrame tx rx) : RefreshEnds s (refreshDone u)

/-- Everything a visit to the phase `p` can do: a phase follows, or control goes back to the caller, or the host
operation completes, or it ends early, or the refresh ends. -/
inductive Visited (s : State) (p : Phase) : State → Prop
  | follows {t : State} (kept : Kept s t) (next : Follows s p t) : Visited s p t
  | returns {t : State} (kept : Kept s t) (idle : t.seq.ph = .idle) : Visited s p t
  | completes {u : State} (kept : Kept s u) : Visited s p (finish u)
  | stops {t : State} (h : Stopped s t) : Visited s p t
  | refreshes {t : State} (h : RefreshEnds s t) : Visited s p t

theorem Reaches.final {α : Type} {s : State} {r : Run α} {post : State → Prop} (h : Reaches s (fun _ => post) r)
    (hstop : ∀ t, Stopped s t → post t) : post (finalState r) := by
  cases r with
  | ok a t => exact h
  | stop t => exact hstop t h

/-! ### What ends a visit -/

theorem Still.toPhase {s t : State} (h : Still s t) (p : Phase) : To s p s.work.rem (t.toPhase p) :=
  ⟨by simp [State.toPhase, h.seq], h.rem, h.size⟩

theorem Still.beginPoll {s t : State} (h : Still s t) (p : Phase) :
    To s p s.work.rem (Machine.beginPoll p t) ∧ (Machine.beginPoll p t).work.polls = 0 :=
  ⟨⟨by simp [Machine.beginPoll, State.toPhase, h.seq], h.rem, h.size⟩, rfl⟩

theorem Still.returns {s t : State} {p : Phase} (h : Still s t) : Visited s p t.toIdle := .returns h.toKept.change rfl

theorem chunkDone_kept (s : State) : Kept s (chunkDone s) := by
  unfold chunkDone
  split <;> exact (Kept.refl s).change

theorem Still.chunkDone {s t : State} (h : Still s t) :
    To s .rChunk (s.work.rem - s.work.size.zeroExtend 16) (Machine.chunkDone t) := by
  rw [← h.rem, ← h.size]
  unfold Machine.chunkDone
  split
  · exact ⟨by simp [h.seq], rfl, h.size⟩
  · exact ⟨by simp [h.seq], rfl, h.size⟩

/-- Outside a refresh a CSR access goes back to the router, or ends where it was entered by itself. -/
theorem csrReturn_of_not_refresh {s : State} (h : s.seq.refresh = false) :
    csrReturn s = chunkDone s ∨ csrReturn s = s.toIdle := by
  unfold csrReturn
  rw [if_neg (by simp [h])]
  split
  · exact .inl rfl
  · exact .inr rfl

theorem csrReturn_of_refresh {s : State} (h : s.seq.refresh = true) : csrReturn s = refreshDone s := if_pos h

/-- The access of a refresh is a read (R206). -/
theorem csrDir_of_refresh {s : State} (h : s.seq.refresh = true) : csrDir s = .rd := if_pos h

theorem Still.csrReturn {s t : State} {p : Phase} (h : Still s t) (hr : s.seq.refresh = false)
    (hp : ∀ u, s.seq.refresh = false ∧ To s .rChunk (s.work.rem - s.work.size.zeroExtend 16) u → Follows s p u) :
    Visited s p (Machine.csrReturn t) := by
  rcases csrReturn_of_not_refresh (s := t) (by rw [h.seq, hr]) with e | e <;> rw [e]
  · exact .follows (h.toKept.trans (chunkDone_kept t)) (hp _ ⟨hr, h.chunkDone⟩)
  · exact h.returns

theorem Still.csrReady {s t : State} (h : Still s t) : Visited s .cPoll (Machine.csrReady t) := by
  unfold Machine.csrReady
  split
  · exact .follows h.toKept.change (.inr (.inl (h.toPhase .cFetch)))
  · rename_i hd
    have hr : t.seq.refresh = false := by
      by_contra hr
      exact hd (csrDir_of_refresh (by simpa using hr))
    exact h.csrReturn (by rw [← h.seq, hr]) fun _ k => .inr (.inr k)

/-- The last line of a refresh entered by itself only writes the mirror; that of a host operation completes it. -/
theorem refreshDone_cases (s : State) :
    refreshDone s = finish (s.setAlEvent (mirrorOf s.buf.res)) ∨
    refreshDone s = (s.setAlEvent (mirrorOf s.buf.res)).toIdle := by
  unfold refreshDone
  dsimp only
  split
  · exact .inl rfl
  · exact .inr rfl

theorem readWord_trace {reg : Addr} {s t : State} {v : Word} (h : readWord reg s = .ok v t) :
    ∃ tx rx, t.trace = s.trace ++ wholeFrame tx rx := by
  rw [readWord_eq_frame] at h
  rcases frame_cases (readTx s.env.params reg) s with ⟨rx, u, hf, -, -, ht⟩ | ⟨rx, b, u, hf, -⟩ | ⟨rx, u, hf, -⟩ <;>
    rw [hf] at h <;> cases h
  exact ⟨_, _, ht⟩

/-! ### The phases of the CSR accessor -/

theorem enterCsr_reaches (s : State) :
    Reaches s (fun _ t => t = s.toPhase (if csrDir s = .wr then .cData else .cCmd)) (enterCsr s) := by
  rcases enterCsr_cases s with ⟨-, h⟩ | ⟨-, h⟩ <;> rw [h]
  · exact .fault .invalidLength (.refl s)
  · exact rfl

theorem visitCData_reaches (s : State) :
    Reaches s (fun _ t => Kept s t ∧ To s .cCmd s.work.rem t) (visitCData s) :=
  (sendCsrData_reaches _ s).thenDo fun _ _ h => ⟨h.toKept.change, h.toPhase _⟩

theorem visitCCmd_reaches (s : State) :
    Reaches s (fun _ t => Kept s t ∧ To s .cPoll s.work.rem t ∧ t.work.polls = 0) (visitCCmd s) := by
  unfold visitCCmd
  split
  · exact .fault .invalidLength (.refl s)
  · exact (writeWord_reaches _ _ s).thenDo fun _ _ h => ⟨h.toKept.change, h.beginPoll _⟩

theorem visitCFetch_reaches (s : State) (hp : s.seq.ph = .cFetch) :
    Reaches s (fun _ => Visited s .cFetch) (visitCFetch s) := by
  have hread := readWord_reaches csrDataReg s
  unfold visitCFetch
  cases h : readWord csrDataReg s with
  | stop t => rw [h] at hread; exact hread
  | ok v t =>
    rw [h] at hread
    have taken : Still s (takeCsrData (csrLen t) v t) := hread.change
    cases hr : s.seq.refresh with
    | false => exact taken.csrReturn hr fun _ k => k
    | true =>
      obtain ⟨tx, rx, htrace⟩ := readWord_trace h
      have hreturn := csrReturn_of_refresh (s := takeCsrData (csrLen t) v t) (by rw [taken.seq, hr])
      show Visited s .cFetch (csrReturn _)
      rw [hreturn]
      exact .refreshes (.intro hp hr taken.toKept tx rx htrace)

/-! ### The phases of the PRAM accessor -/

theorem visitPAbort_reaches (s : State) :
    Reaches s (fun _ t => Kept s t ∧ To s .pPollBusy s.work.rem t ∧ t.work.polls = 0) (visitPAbort s) :=
  (writeWord_reaches _ _ s).thenDo fun _ _ h => ⟨h.toKept.change, h.beginPoll _⟩

theorem Still.setupDone {s t : State} (h : Still s t) : Visited s .pPollAvail (Machine.setupDone t) := by
  unfold Machine.setupDone
  split
  · exact h.returns
  · exact .follows h.toKept.change (.inr (h.toPhase _))

/-- The operands of a PRAM access stand in the latch and the caller (log 26). -/
theorem pramLen_congr {s t : State} (hs : t.seq = s.seq) (hl : t.latch = s.latch) : pramLen t = pramLen s := by
  unfold pramLen
  rw [hs, hl]

theorem Still.firstDone {s t : State} {n : Nat} (h : Still s t) :
    Kept s (Machine.firstDone n t) ∧ To s .pBOpen (pramLen s - BitVec.ofNat 16 n) (Machine.firstDone n t) :=
  ⟨h.toKept.change, by simp [Machine.firstDone, h.seq],
    by simp [Machine.firstDone, pramLen_congr h.seq h.latch], h.size⟩

theorem visitPFirst_reaches (s : State) :
    Reaches s (fun _ t => Kept s t ∧
      To s .pBOpen (pramLen s - BitVec.ofNat 16 (firstCount (pramAddr s) (pramLen s).toNat)) t) (visitPFirst s) := by
  have placed : Still s { s with work.fbp := firstBytePos (pramAddr s) } := (Still.refl s).change
  unfold visitPFirst
  dsimp only
  split
  · exact ((readWord_reaches _ _).of_kept placed.toKept).andThen fun _ _ h =>
      Still.firstDone (placed.trans h).change
  · exact ((sendFirstWord_reaches _ _).of_kept placed.toKept).thenDo fun _ _ h =>
      Still.firstDone (placed.trans h)

theorem Still.burstNext {s t : State} (h : Still s t) :
    To s (if s.work.rem = 0 then .pBClose else .pBWord) s.work.rem (Machine.burstNext t) := by
  unfold Machine.burstNext
  rw [h.rem]
  exact h.toPhase _

theorem Still.wordDone {s t : State} {n : Nat} (h : Still s t) :
    Kept s (Machine.wordDone n t) ∧
      To s (if s.work.rem - BitVec.ofNat 16 n = 0 then .pBClose else .pBWord) (s.work.rem - BitVec.ofNat 16 n)
        (Machine.wordDone n t) := by
  refine ⟨h.toKept.change, ?_⟩
  unfold Machine.wordDone
  rw [h.rem]
  exact ⟨by simp [Machine.burstNext, State.toPhase, h.seq], rfl, h.size⟩

theorem visitPBWord_reaches (s : State) :
    Reaches s (fun _ t => Kept s t ∧ Follows s .pBWord t) (visitPBWord s) := by
  unfold visitPBWord
  split
  · exact (recv4_reaches s).andThen fun _ _ h => Still.wordDone h.change
  · exact (sendNextWord_reaches _ s).thenDo fun _ _ h => h.wordDone

theorem Still.pramReturn {s t : State} (h : Still s t) : Visited s .pBClose (Machine.pramReturn t) := by
  unfold Machine.pramReturn
  split
  · refine .follows (h.toKept.trans ?_) (Still.toPhase ?_ _)
    · split <;> exact (Kept.refl t).change
    · split
      · exact h.change
      · exact h
  · exact h.returns

/-! ### The phases of the router -/

theorem visitRDispatch_reaches (s : State) : Reaches s (fun _ => Visited s .rDispatch) (visitRDispatch s) := by
  unfold visitRDispatch
  split
  · exact .follows (Kept.refl s).change (.inl ((Still.refl s).toPhase _))
  · exact .follows (Kept.refl s).change (.inr ⟨rfl, rfl, rfl⟩)

theorem visitRChunk_reaches (s : State) : Reaches s (fun _ => Visited s .rChunk) (visitRChunk s) := by
  unfold visitRChunk
  split
  · rename_i h0
    exact .follows (Kept.refl s).change (.inl ⟨h0, (Still.refl s).toPhase _⟩)
  · rename_i h0
    refine ((enterCsr_reaches _).of_kept (Kept.refl s).change).mono ?_
    rintro _ _ rfl
    refine .follows (Kept.refl s).change (.inr ⟨h0, ?_, rfl, rfl⟩)
    split
    · exact .inl rfl
    · exact .inr rfl

theorem visitRAlev_reaches (s : State) :
    Reaches s (fun _ t => Kept s t ∧ t.seq = { s.seq with ph := .cCmd, refresh := true }) (visitRAlev s) :=
  ((enterCsr_reaches _).of_kept (Kept.refl s).change).mono fun _ _ h => h ▸ ⟨(Kept.refl s).change, rfl⟩

/-! ### Every phase -/

theorem Reaches.visits {α : Type} {s : State} {p : Phase} {r : Run α}
    (h : Reaches s (fun _ t => Kept s t ∧ Follows s p t) r) : Reaches s (fun _ => Visited s p) r :=
  h.mono fun _ _ ⟨kept, next⟩ => .follows kept next

theorem PollsOn.follows {s t : State} {p : Phase} (h : PollsOn s t) (hp : PollsOn s t → Follows s p t) :
    Visited s p t :=
  .follows h.1.toKept (hp h)

theorem visitPhase_visited (s : State) : Visited s s.seq.ph (finalState (visitPhase s)) := by
  unfold visitPhase
  refine Reaches.final (s := s) ?_ fun _ => .stops
  cases hp : s.seq.ph with
  | idle => exact .follows (.refl s) rfl
  | rDispatch => exact visitRDispatch_reaches s
  | rChunk => exact visitRChunk_reaches s
  | cData => exact (visitCData_reaches s).visits
  | cCmd => exact (visitCCmd_reaches s).visits
  | cPoll => exact visitPoll_reaches _ _ s (fun _ h => h.csrReady) fun _ h => h.follows .inl
  | cFetch => exact visitCFetch_reaches s hp
  | pAbort => exact (visitPAbort_reaches s).visits
  | pPollBusy =>
    exact visitPoll_reaches _ _ s (fun _ h => .follows h.toKept.change (.inr (h.toPhase _))) fun _ h =>
      h.follows .inl
  | pAddrLen =>
    exact (writeWord_reaches _ _ s).thenDo fun _ _ h => .follows h.toKept.change (h.toPhase _)
  | pStart =>
    exact (writeWord_reaches _ _ s).thenDo fun _ _ h => .follows h.toKept.change (h.beginPoll _)
  | pPollAvail => exact visitPoll_reaches _ _ s (fun _ h => h.setupDone) fun _ h => h.follows .inl
  | pFirst => exact (visitPFirst_reaches s).visits
  | pBOpen => exact (burstOpen_reaches _ s).thenDo fun _ _ h => .follows h.toKept.change h.burstNext
  | pBWord => exact (visitPBWord_reaches s).visits
  | pBClose => exact (csDeassert_still s).pramReturn
  | rAlev => exact (visitRAlev_reaches s).visits
  | iSqi => exact (resetSqiFrame_reaches s).thenDo fun _ _ h => .follows h.toKept.change (h.toPhase _)
  | iReset =>
    exact (writeWord_reaches _ _ s).thenDo fun _ _ h => .follows h.toKept.change (h.beginPoll _)
  | iPoll => exact visitPoll_reaches _ _ s (fun _ h => .completes h.toKept) fun _ h => h.follows id

/-- A visit goes by the phase; a poll entered by itself goes on with its own loop (log 28). -/
theorem visit_cases (s : State) :
    Visited s s.seq.ph (finalState (visit s)) ∨
    ((∃ kind reg, s.seq.caller = .poll kind reg) ∧ PollsOn s (finalState (visit s))) := by
  unfold visit
  split
  · rename_i kind reg hcaller
    refine (visitPoll_reaches (post := fun t => Visited s s.seq.ph t ∨ PollsOn s t) kind reg s
      (fun _ h => .inl h.returns) fun _ h => .inr h).final (fun _ h => .inl (.stops h)) |>.imp_right ?_
    exact fun h => ⟨⟨kind, reg, hcaller⟩, h⟩
  · exact .inl (visitPhase_visited s)

theorem Stopped.idle {s t : State} (h : Stopped s t) : t.seq.ph = .idle := by
  cases h with
  | fault c kept => simp
  | reset inputs strikes => rfl

theorem refreshDone_idle (s : State) : (refreshDone s).seq.ph = .idle := by
  rcases refreshDone_cases s with e | e <;> simp [e]

/-- After a visit the block is idle, or one of the phases of the table follows. -/
theorem Visited.idle_or_follows {s t : State} {p : Phase} (h : Visited s p t) :
    t.seq.ph = .idle ∨ Kept s t ∧ Follows s p t := by
  cases h with
  | follows kept next => exact .inr ⟨kept, next⟩
  | returns kept idle => exact .inl idle
  | completes kept => exact .inl (by simp)
  | stops h => exact .inl h.idle
  | refreshes h =>
    cases h with
    | intro ph refresh kept tx rx trace => exact .inl (refreshDone_idle _)

end Sys2Proof.Machine
end

section
/-! PROOFS of O5, O40 and O6: what a step runs, what the acceptance of a request writes, and what a visit leaves. -/

namespace Sys2Proof.Machine

/-! ### What a step runs -/

theorem step_presented {s : State} {token : Token} {rest : List Token} {i : Instr} (hr : s.env.resetIn = .off)
    (ha : s.accepting = true) (hin : s.env.inputs = token :: rest) (hd : decodeToken token = .ok i) :
    step s = exec i (s.consume rest) := by
  simp [step, hr, ha, hin, hd]

theorem step_undecodable {s : State} {token : Token} {rest : List Token} {why : Reject}
    (hr : s.env.resetIn = .off) (ha : s.accepting = true) (hin : s.env.inputs = token :: rest)
    (hd : decodeToken token = .error why) : step s = .refused (.undecodable why) := by
  simp [step, hr, ha, hin, hd]

theorem step_nothing_presented {s : State} (hr : s.env.resetIn = .off) (ha : s.accepting = true)
    (hin : s.env.inputs = []) : step s = .next s := by
  simp [step, hr, ha, hin]

theorem step_busy {s : State} (hr : s.env.resetIn = .off) (ha : s.accepting = false) :
    step s = .next (finalState (visit s)) := by
  simp [step, hr, ha]

/-- Settles O5: the three branches of `step` that an accepting block takes without a reset. -/
theorem stepRunsThePresentedOperation : Obligations.StepRunsThePresentedOperation :=
  ⟨fun _ _ _ _ => step_presented, fun _ _ _ _ => step_undecodable, fun _ => step_nothing_presented⟩

/-! ### Acceptance of a request -/

theorem whenIdle_of_busy {s t : State} (h : s.busy = true) : whenIdle s t = .refused .busy := if_pos h

theorem whenIdle_of_free {s t : State} (h : s.busy = false) : whenIdle s t = .next t := if_neg (by simp [h])

theorem whenAdmitted_of_busy {addr : Addr} {len : Nat} {s t : State} (h : s.busy = true) :
    whenAdmitted addr len s t = .refused .busy := if_pos h

theorem whenIdle_next {s t u : State} (h : whenIdle s t = .next u) : u = t := by
  unfold whenIdle at h
  split at h <;> cases h
  rfl

theorem whenAdmitted_next {addr : Addr} {len : Nat} {s t u : State} (h : whenAdmitted addr len s t = .next u) :
    u = t := by
  unfold whenAdmitted at h
  split at h
  · cases h
  · split at h <;> cases h
    rfl

/-- The range of R71, in numbers. -/
theorem admitted_iff (addr : Addr) (len : Nat) :
    admitted addr len = true ↔ 1 ≤ len ∧ len ≤ 65535 ∧ addr.toNat + len ≤ 0x10000 := by
  simp [admitted, and_assoc]

theorem whenAdmitted_of_range {addr : Addr} {len : Nat} {s t : State} (h : s.busy = false) (h1 : 1 ≤ len)
    (h2 : len ≤ 65535) (h3 : addr.toNat + len ≤ 0x10000) : whenAdmitted addr len s t = .next t := by
  simp [whenAdmitted, h, (admitted_iff addr len).2 ⟨h1, h2, h3⟩]

theorem whenAdmitted_of_outside {addr : Addr} {len : Nat} {s t : State} (h : s.busy = false)
    (hout : len = 0 ∨ 65535 < len ∨ 0x10000 < addr.toNat + len) :
    whenAdmitted addr len s t = .refused .notAdmitted := by
  have hno : ¬ admitted addr len = true := by
    rw [admitted_iff]
    omega
  simp [whenAdmitted, h, hno]

/-- The length of a READ request has 16 bits (R25). -/
theorem len_le (len : BitVec 16) : len.toNat ≤ 65535 := by omega

/-- Settles O40: the guard of the two requests, in each of its three cases. -/
theorem requestsAreLatchedOrRefused : Obligations.RequestsAreLatchedOrRefused := by
  refine ⟨fun addr len s hb h1 h2 => ?_, fun addr data s hb h1 h2 h3 => ?_, fun addr len data s hb => ?_,
    fun addr len s hb hout => ?_, fun addr data s hb hout => ?_⟩
  · exact whenAdmitted_of_range hb h1 (len_le len) h2
  · exact whenAdmitted_of_range hb h1 h2 h3
  · exact ⟨whenAdmitted_of_busy hb, whenAdmitted_of_busy hb, whenIdle_of_busy hb, whenIdle_of_busy hb⟩
  · exact whenAdmitted_of_outside hb (hout.imp_right .inr)
  · exact whenAdmitted_of_outside hb hout

/-! ### What a visit leaves -/

/-- The presented tokens stay; the latch and `WBUF` stay too, unless block reset strikes. -/
def KeepsRequest (s t : State) : Prop :=
  t.env.inputs = s.env.inputs ∧
    (Reply.reset ∉ s.env.script → t.latch = s.latch ∧ t.buf.wbuf = s.buf.wbuf)

theorem Kept.keepsRequest {s t : State} (h : Kept s t) : KeepsRequest s t := ⟨h.inputs, fun _ => ⟨h.latch, h.wbuf⟩⟩

/-- A change of anything but the request. -/
theorem KeepsRequest.change {s t u : State} (h : KeepsRequest s t) (inputs : u.env.inputs = t.env.inputs := by rfl)
    (latch : u.latch = t.latch := by rfl) (wbuf : u.buf.wbuf = t.buf.wbuf := by rfl) : KeepsRequest s u := by
  unfold KeepsRequest
  rw [inputs, latch, wbuf]
  exact h

theorem Stopped.keepsRequest {s t : State} (hr : s.env.resetIn = .off) (h : Stopped s t) : KeepsRequest s t := by
  cases h with
  | fault c kept =>
    rw [raise_of_off (kept.resetIn.trans hr)]
    exact kept.keepsRequest.change (by simp) (by simp) (by simp)
  | reset inputs strikes => exact ⟨by simp [inputs], fun h => absurd strikes h⟩

/-- The end of a refresh writes the mirror and, for a host operation, completes it (R206). -/
theorem refreshDone_keepsRequest {s t : State} (hr : s.env.resetIn = .off) (h : Kept s t) :
    KeepsRequest s (refreshDone t) := by
  rcases refreshDone_cases t with e | e <;> rw [e]
  · rw [finish_of_off (by simp [h.resetIn, hr])]
    exact h.keepsRequest.change
  · exact h.keepsRequest.change

theorem visit_keepsRequest {s : State} (hr : s.env.resetIn = .off) : KeepsRequest s (finalState (visit s)) := by
  rcases visit_cases s with h | ⟨-, h⟩
  · generalize finalState (visit s) = t at h
    cases h with
    | follows kept next => exact kept.keepsRequest
    | returns kept idle => exact kept.keepsRequest
    | completes kept =>
      rw [finish_of_off (kept.resetIn.trans hr)]
      exact kept.keepsRequest.change
    | stops h => exact h.keepsRequest hr
    | refreshes h =>
      cases h with
      | intro ph refresh kept tx rx trace => exact refreshDone_keepsRequest hr kept
  · exact h.1.toKept.keepsRequest

/-- Settles O6: without a reset a busy block visits its phase, and a visit leaves what was presented and latched. -/
theorem busyBlockServesNoOtherRequest : Obligations.BusyBlockServesNoOtherRequest := fun _ hr ha =>
  ⟨_, step_busy hr ha, visit_keepsRequest hr⟩

end Sys2Proof.Machine
end

section
/-! PROOF of O51. The table of phases (R33) is what the visits do: each phase that follows one is listed there. -/

namespace Sys2Proof.Machine

/-- The phases a poll may run in by itself are those that may follow themselves (log 28). -/
theorem pollPhase_mem_successors (kind : PollKind) (reg : Addr) :
    pollPhase kind reg ∈ successors (pollPhase kind reg) := by
  cases kind with
  | busyClear =>
    unfold pollPhase
    dsimp only
    split <;> decide
  | fifoAvail => simp [pollPhase, successors]
  | equal expected => simp [pollPhase, successors]

theorem To.ph {s t : State} {p : Phase} {n : BitVec 16} (h : To s p n t) : t.seq.ph = p := by rw [h.seq]

theorem PollsOn.ph {s t : State} (h : PollsOn s t) : t.seq.ph = s.seq.ph := by rw [h.1.seq]

/-- What follows a visit is a row of the table. -/
theorem Follows.ph_mem {s t : State} (h : Follows s s.seq.ph t) (hbusy : s.seq.ph ≠ .idle) :
    t.seq.ph ∈ successors s.seq.ph := by
  cases hp : s.seq.ph <;> rw [hp] at h
  case idle => exact absurd hp hbusy
  case rDispatch => rcases h with h | h <;> simp [h.ph, successors]
  case rChunk =>
    rcases h with ⟨-, h⟩ | ⟨-, h | h, -⟩
    · simp [h.ph, successors]
    · simp [h, successors]
    · simp [h, successors]
  case cPoll =>
    rcases h with h | h | ⟨-, h⟩
    · simp [h.ph, hp, successors]
    · simp [h.ph, successors]
    · simp [h.ph, successors]
  case pPollBusy => rcases h with h | h <;> simp [h.ph, hp, successors]
  case pPollAvail => rcases h with h | h <;> simp [h.ph, hp, successors]
  case iPoll => simp [PollsOn.ph h, hp, successors]
  case cFetch => simp [h.2.ph, successors]
  case cCmd | pAbort | pStart | iReset => simp [h.1.ph, successors]
  case cData | pAddrLen | pFirst | pBClose | iSqi => simp [To.ph h, successors]
  case pBOpen | pBWord =>
    rw [To.ph h]
    split <;> simp [successors]
  case rAlev => simp [show t.seq = _ from h, successors]

theorem busy_of_not_accepting {s : State} (h : s.accepting = false) : s.seq.ph ≠ .idle := by
  intro hp
  simp [State.accepting, hp] at h

/-- The host operations, accepted by an idle block, begin in a phase the table gives, or have completed (R221). -/
theorem host_request_ph {i : Instr} {s t : State}
    (hi : i = .init ∨ i = .reset ∨ (∃ addr len, i = .read addr len) ∨ ∃ addr data, i = .write addr data)
    (h : exec i s = .next t) : t.seq.ph = .idle ∨ t.seq.ph ∈ successors .idle := by
  rcases hi with rfl | rfl | ⟨addr, len, rfl⟩ | ⟨addr, data, rfl⟩
  · rw [whenIdle_next h, State.enter_seq_ph]
    split <;> simp [successors]
  · rw [whenIdle_next h]
    exact .inl (by simp)
  · rw [whenAdmitted_next h]
    exact .inr (by simp [successors])
  · rw [whenAdmitted_next h]
    exact .inr (by simp [successors])

/-- Settles O51: the visit of a busy block, and the acceptance of a host request, phase by phase. -/
theorem phasesFollowTheTable : Obligations.PhasesFollowTheTable := by
  refine ⟨fun s t _ hpoll hr ha hstep => ?_, fun i s t _ hi hexec => host_request_ph hi hexec⟩
  obtain rfl : finalState (visit s) = t := by simpa [step_busy hr ha] using hstep
  rcases visit_cases s with h | ⟨⟨kind, reg, hcaller⟩, h⟩
  · exact h.idle_or_follows.imp_right fun h => h.2.ph_mem (busy_of_not_accepting ha)
  · obtain ⟨-, -, -, hphase⟩ := hpoll
    rw [h.ph, hphase kind reg hcaller]
    exact .inr (pollPhase_mem_successors kind reg)

end Sys2Proof.Machine
end

section
/-! PROOF of O53. A measure of a host operation in progress that every visit makes smaller: the visits each phase can
still lead to, when every poll loop takes as long as its limit admits (R35, R162). -/

namespace Sys2Proof.Machine

/-- A host operation in progress, or ended, that no block reset input is about to strike, under the limit `limit`. -/
structure InHand (limit : Nat) (s : State) : Prop where
  caller : s.seq.caller = .host
  resetIn : s.env.resetIn = .off
  pollLimit : s.env.params.pollLimit = some limit

/-- A bound on the visits left when the router is about to take the next chunk, with `rem` bytes remaining: for each
byte one chunk, then the refresh. -/
def chunkVisits (limit : Nat) (rem : BitVec 16) : Nat := rem.toNat * (limit + 5) + (limit + 5)

/-- A bound on the visits left after the CSR access in progress: none after a refresh, else the rest of the chunks. -/
def afterCsr (limit : Nat) (s : State) : Nat :=
  if s.seq.refresh then 0 else chunkVisits limit (s.work.rem - s.work.size.zeroExtend 16)

/-- A bound on the visits a host operation in progress still takes. -/
def visitsLeft (limit : Nat) (s : State) : Nat :=
  match s.seq.ph with
  | .idle => 0
  | .rDispatch => s.latch.reqLen.toNat * (limit + 5) + 3 * limit + 14
  | .rChunk => chunkVisits limit s.work.rem
  | .cData => afterCsr limit s + limit + 4
  | .cCmd => afterCsr limit s + limit + 3
  | .cPoll => afterCsr limit s + (limit - s.work.polls) + 2
  | .cFetch => afterCsr limit s + 1
  | .pAbort => s.latch.reqLen.toNat + 3 * limit + 13
  | .pPollBusy => s.latch.reqLen.toNat + 2 * limit + (limit - s.work.polls) + 12
  | .pAddrLen => s.latch.reqLen.toNat + 2 * limit + 11
  | .pStart => s.latch.reqLen.toNat + 2 * limit + 10
  | .pPollAvail => s.latch.reqLen.toNat + limit + (limit - s.work.polls) + 9
  | .pFirst => s.latch.reqLen.toNat + limit + 8
  | .pBOpen => s.work.rem.toNat + limit + 7
  | .pBWord => s.work.rem.toNat + limit + 6
  | .pBClose => limit + 5
  | .rAlev => limit + 4
  | .iSqi => limit + 3
  | .iReset => limit + 2
  | .iPoll => limit - s.work.polls + 1

/-! ### What becomes smaller -/

/-- A poll that goes on has come nearer to the limit (R162). -/
theorem PollsOn.nearer {limit : Nat} {s t : State} (h : PollsOn s t) (hl : s.env.params.pollLimit = some limit) :
    limit - t.work.polls < limit - s.work.polls := by
  obtain ⟨-, hpolls, hreached⟩ := h
  have : ¬ limit ≤ s.work.polls + 1 := by simpa [limitReached, hl] using hreached
  omega

/-- A chunk takes at least one byte and no more than remain (R201). -/
theorem chunk_toNat_lt {a : Addr} {rem : BitVec 16} (h : rem ≠ 0) :
    (rem - (chunkSize a rem).zeroExtend 16).toNat + 1 ≤ rem.toNat := by
  obtain ⟨hsize, hle⟩ := chunkSize_cases a rem h
  have hpos : 1 ≤ (chunkSize a rem).toNat := by rcases hsize with e | e | e <;> simp [e]
  have hz : ((chunkSize a rem).zeroExtend 16).toNat = (chunkSize a rem).toNat := by
    simp
    omega
  rw [BitVec.toNat_sub_of_le (by rw [BitVec.le_def, hz]; exact hle), hz]
  omega

theorem chunkVisits_chunk {limit : Nat} {a : Addr} {rem : BitVec 16} (h : rem ≠ 0) :
    chunkVisits limit (rem - (chunkSize a rem).zeroExtend 16) + limit + 4 < chunkVisits limit rem := by
  have hmul := Nat.mul_le_mul_right (limit + 5) (chunk_toNat_lt (a := a) h)
  rw [Nat.add_mul] at hmul
  unfold chunkVisits
  omega

theorem min_four_toNat (n : BitVec 16) : (BitVec.ofNat 16 (min 4 n.toNat)).toNat = min 4 n.toNat := by
  simp

/-- A word of the burst takes up to four bytes of those that remain (R184, R185). -/
theorem burstWord_toNat (n : BitVec 16) :
    (n - BitVec.ofNat 16 (min 4 n.toNat)).toNat = n.toNat - min 4 n.toNat := by
  rw [BitVec.toNat_sub_of_le (by rw [BitVec.le_def, min_four_toNat]; omega), min_four_toNat]

/-- The first word of a transfer takes bytes of the request only (R183). -/
theorem firstWord_toNat_le (addr : Addr) (n : BitVec 16) :
    (n - BitVec.ofNat 16 (firstCount addr n.toNat)).toNat ≤ n.toNat := by
  have hle : firstCount addr n.toNat ≤ n.toNat := Nat.min_le_right _ _
  have hof : (BitVec.ofNat 16 (firstCount addr n.toNat)).toNat = firstCount addr n.toNat := by
    simp
    omega
  rw [BitVec.toNat_sub_of_le (by rw [BitVec.le_def, hof]; exact hle)]
  omega

theorem pramLen_of_host {s : State} (h : s.seq.caller = .host) : pramLen s = s.latch.reqLen := by
  unfold pramLen
  rw [h]

theorem afterCsr_congr {limit : Nat} {s t : State} (hr : t.seq.refresh = s.seq.refresh)
    (hrem : t.work.rem = s.work.rem) (hsize : t.work.size = s.work.size) : afterCsr limit t = afterCsr limit s := by
  unfold afterCsr
  rw [hr, hrem, hsize]

theorem To.afterCsr {limit : Nat} {s t : State} {p : Phase} (h : To s p s.work.rem t) :
    Machine.afterCsr limit t = Machine.afterCsr limit s :=
  afterCsr_congr (by rw [h.seq]) h.rem h.size

theorem Still.afterCsr {limit : Nat} {s t : State} (h : Still s t) :
    Machine.afterCsr limit t = Machine.afterCsr limit s :=
  afterCsr_congr (by rw [h.seq]) h.rem h.size

theorem afterCsr_of_refresh {limit : Nat} {s : State} (h : s.seq.refresh = true) : afterCsr limit s = 0 := if_pos h

theorem afterCsr_le (limit : Nat) (s : State) :
    afterCsr limit s ≤ chunkVisits limit (s.work.rem - s.work.size.zeroExtend 16) := by
  unfold afterCsr
  split
  · exact Nat.zero_le _
  · exact Nat.le_refl _

theorem afterCsr_of_chunk {limit : Nat} {s : State} (h : s.seq.refresh = false) :
    afterCsr limit s = chunkVisits limit (s.work.rem - s.work.size.zeroExtend 16) := by
  simp [afterCsr, h]

/-- Every visit that does not end the operation leaves fewer to come. -/
theorem Follows.visitsLeft_lt {limit : Nat} {s t : State} (h : Follows s s.seq.ph t) (hin : InHand limit s)
    (kept : Kept s t) (hbusy : s.seq.ph ≠ .idle) : visitsLeft limit t < visitsLeft limit s := by
  cases hp : s.seq.ph <;> rw [hp] at h
  case idle => exact absurd hp hbusy
  case rDispatch =>
    rcases h with h | h
    · simp only [visitsLeft, hp, h.ph, kept.latch]
      have := Nat.le_mul_of_pos_right s.latch.reqLen.toNat (show 0 < limit + 5 by omega)
      omega
    · simp only [visitsLeft, hp, h.ph, h.rem, chunkVisits]
      omega
  case rChunk =>
    rcases h with ⟨h0, h⟩ | ⟨h0, hph, hrem, hsize⟩
    · simp only [visitsLeft, hp, h.ph, chunkVisits]
      omega
    · have hnext : afterCsr limit t + limit + 4 < chunkVisits limit s.work.rem := by
        have hle := afterCsr_le limit t
        rw [hrem, hsize] at hle
        have := chunkVisits_chunk (limit := limit) (a := s.work.addr) h0
        omega
      rcases hph with h | h <;> simp only [visitsLeft, hp, h] <;> omega
  case cData => simp only [visitsLeft, hp, To.ph h, To.afterCsr h]; omega
  case cCmd => simp only [visitsLeft, hp, h.1.ph, h.1.afterCsr, h.2]; omega
  case cPoll =>
    rcases h with h | h | ⟨hr, h⟩
    · have := h.nearer hin.pollLimit
      simp only [visitsLeft, h.ph, hp, h.1.afterCsr]
      omega
    · simp only [visitsLeft, hp, h.ph, h.afterCsr]
      omega
    · simp only [visitsLeft, hp, h.ph, h.rem, afterCsr_of_chunk hr]
      omega
  case cFetch =>
    obtain ⟨hr, h⟩ := h
    simp only [visitsLeft, hp, h.ph, h.rem, afterCsr_of_chunk hr]
    omega
  case pAbort => simp only [visitsLeft, hp, h.1.ph, h.2, kept.latch]; omega
  case pPollBusy =>
    rcases h with h | h
    · have := h.nearer hin.pollLimit
      simp only [visitsLeft, h.ph, hp, kept.latch]
      omega
    · simp only [visitsLeft, hp, h.ph, kept.latch]
      omega
  case pAddrLen => simp only [visitsLeft, hp, To.ph h, kept.latch]; omega
  case pStart => simp only [visitsLeft, hp, h.1.ph, h.2, kept.latch]; omega
  case pPollAvail =>
    rcases h with h | h
    · have := h.nearer hin.pollLimit
      simp only [visitsLeft, h.ph, hp, kept.latch]
      omega
    · simp only [visitsLeft, hp, h.ph, kept.latch]
      omega
  case pFirst =>
    have := firstWord_toNat_le (pramAddr s) s.latch.reqLen
    simp only [visitsLeft, hp, To.ph h, To.rem h, pramLen_of_host hin.caller]
    omega
  case pBOpen =>
    by_cases h0 : s.work.rem = 0 <;> simp only [visitsLeft, hp, To.ph h, To.rem h, h0, if_true, if_false] <;> omega
  case pBWord =>
    have hn := burstWord_toNat s.work.rem
    dsimp only [Follows] at h
    generalize s.work.rem - BitVec.ofNat 16 (min 4 s.work.rem.toNat) = n at h hn
    by_cases h0 : n = 0
    · simp only [visitsLeft, hp, h.ph, h0, if_true]
      omega
    · have : n.toNat ≠ 0 := fun e => h0 (BitVec.eq_of_toNat_eq e)
      simp only [visitsLeft, hp, h.ph, h.rem, h0, if_false]
      omega
  case pBClose => simp only [visitsLeft, hp, To.ph h]; omega
  case rAlev =>
    have hseq : t.seq = { s.seq with ph := .cCmd, refresh := true } := h
    simp only [visitsLeft, hp, hseq, afterCsr_of_refresh (limit := limit) (s := t) (by rw [hseq])]
    omega
  case iSqi => simp only [visitsLeft, hp, To.ph h]; omega
  case iReset => simp only [visitsLeft, hp, h.1.ph, h.2]; omega
  case iPoll =>
    have := PollsOn.nearer h hin.pollLimit
    simp only [visitsLeft, PollsOn.ph h, hp]
    omega

/-! ### The run -/

theorem run_succ {M : Host.Core} {k : Nat} {s t : M.State} (h : M.step s = .next t) :
    M.run (k + 1) s = M.run k t := by
  simp only [Host.Core.run, h]

theorem stepN_succ {k : Nat} {s t : State} (h : step s = .next t) : stepN (k + 1) s = stepN k t :=
  run_succ (M := core) h

theorem To.caller {s t : State} {p : Phase} {n : BitVec 16} (h : To s p n t) : t.seq.caller = s.seq.caller := by
  rw [h.seq]

theorem PollsOn.caller {s t : State} (h : PollsOn s t) : t.seq.caller = s.seq.caller := by rw [h.1.seq]

/-- The operation stays on behalf of whom it was entered (R33). -/
theorem Follows.caller {s t : State} {p : Phase} (h : Follows s p t) : t.seq.caller = s.seq.caller := by
  cases p
  case idle => rw [show t = s from h]
  case rDispatch => rcases h with h | h <;> exact h.caller
  case rChunk =>
    rcases h with ⟨-, h⟩ | ⟨-, h | h, -⟩
    · exact h.caller
    · rw [h]
    · rw [h]
  case cPoll => rcases h with h | h | ⟨-, h⟩ <;> exact h.caller
  case pPollBusy | pPollAvail => rcases h with h | h <;> exact h.caller
  case iPoll => exact PollsOn.caller h
  case cFetch => exact h.2.caller
  case cCmd | pAbort | pStart | iReset => exact h.1.caller
  case cData | pAddrLen | pFirst | pBOpen | pBWord | pBClose | iSqi => exact To.caller h
  case rAlev => rw [show t.seq = _ from h]

theorem InHand.follows {limit : Nat} {s t : State} (hin : InHand limit s) (kept : Kept s t)
    (h : Follows s s.seq.ph t) : InHand limit t :=
  ⟨h.caller.trans hin.caller, kept.resetIn.trans hin.resetIn, by rw [kept.params, hin.pollLimit]⟩

theorem InHand.not_accepting {limit : Nat} {s : State} (h : InHand limit s) (hbusy : s.seq.ph ≠ .idle) :
    s.accepting = false := by
  simp [State.accepting, h.caller, hbusy]

/-- A step of a host operation in progress ends it, or leaves fewer visits to come. -/
theorem InHand.step {limit : Nat} {s : State} (hin : InHand limit s) (hbusy : s.seq.ph ≠ .idle) :
    ∃ t, Machine.step s = .next t ∧
      (t.seq.ph = .idle ∨ InHand limit t ∧ visitsLeft limit t < visitsLeft limit s) := by
  refine ⟨_, step_busy hin.resetIn (hin.not_accepting hbusy), ?_⟩
  rcases visit_cases s with h | ⟨⟨kind, reg, hcaller⟩, -⟩
  · exact h.idle_or_follows.imp_right fun ⟨kept, h⟩ => ⟨hin.follows kept h, h.visitsLeft_lt hin kept hbusy⟩
  · rw [hin.caller] at hcaller
    cases hcaller

theorem visitsLeft_pos (limit : Nat) {s : State} (hbusy : s.seq.ph ≠ .idle) : 0 < visitsLeft limit s := by
  unfold visitsLeft
  cases hp : s.seq.ph
  case idle => exact absurd hp hbusy
  all_goals simp [chunkVisits]

/-- So it ends within the measure. -/
theorem InHand.ends {limit n : Nat} {s : State} (hin : InHand limit s) (hn : visitsLeft limit s ≤ n) :
    ∃ k t, k ≤ n ∧ stepN k s = .next t ∧ t.seq.ph = .idle := by
  by_cases hidle : s.seq.ph = .idle
  · exact ⟨0, s, Nat.zero_le n, rfl, hidle⟩
  have hpos := visitsLeft_pos limit hidle
  obtain ⟨t, hstep, hdone | ⟨hin', hlt⟩⟩ := hin.step hidle
  · exact ⟨1, t, by omega, stepN_succ hstep, hdone⟩
  · obtain ⟨k, u, hk, hrun, hu⟩ := hin'.ends (n := n - 1) (by omega)
    exact ⟨k + 1, u, by omega, (stepN_succ hstep).trans hrun, hu⟩
termination_by n
decreasing_by omega

/-- The measure of an accepted READ or WRITE, against the bound. -/
theorem request_bound (len limit : Nat) : len * (limit + 5) + 3 * limit + 14 ≤ (len + 3) * (limit + 6) := by
  have : (len + 3) * (limit + 6) = len * (limit + 5) + 3 * limit + len + 18 := by ring
  omega

/-- A READ or WRITE that has been accepted ends within the bound. -/
theorem accepted_ends {limit : Nat} {s a : State} (len : Nat) (hseq : a.seq = ⟨.rDispatch, .host, false⟩)
    (hlen : a.latch.reqLen.toNat = len) (henv : a.env = s.env) (hr : s.env.resetIn = .off)
    (hlimit : s.env.params.pollLimit = some limit) :
    ∃ k t, k ≤ (len + 3) * (limit + 6) ∧ stepN k a = .next t ∧ t.seq.ph = .idle := by
  have hin : InHand limit a := ⟨by rw [hseq], by rw [henv, hr], by rw [henv, hlimit]⟩
  exact hin.ends (by simpa [visitsLeft, hseq, hlen] using request_bound len limit)

/-- Settles O53: an accepted request is in hand, and its measure is within the bound. -/
theorem everyRequestEnds : Obligations.EveryRequestEnds := by
  intro limit s hlimit _ hidle hr
  have hfree : s.busy = false := by simp [State.busy, hidle]
  refine ⟨fun addr len h1 h2 => ?_, fun addr data h1 h2 h3 => ?_, ?_⟩
  · obtain ⟨k, t, hk, hrun⟩ := accepted_ends (s := s)
      (a := (acceptRequest .read addr len [] s).enter .host .rDispatch) len.toNat rfl rfl rfl hr hlimit
    exact ⟨_, k, t, whenAdmitted_of_range hfree h1 (len_le len) h2, hk, hrun⟩
  · obtain ⟨k, t, hk, hrun⟩ := accepted_ends (s := s)
      (a := (acceptRequest .write addr (BitVec.ofNat 16 data.length) data { s with buf.wbuf := data }).enter
        .host .rDispatch) data.length rfl (by simp [acceptRequest]; omega) rfl hr hlimit
    exact ⟨_, k, t, whenAdmitted_of_range hfree h1 h2 h3, hk, hrun⟩
  · have hin : InHand limit
        ((acceptBare .init s).enter .host (if s.env.params.initSendResetSqi then .iSqi else .iReset)) :=
      ⟨rfl, hr, hlimit⟩
    obtain ⟨k, t, hk, hrun⟩ := hin.ends (n := limit + 3) (by
      cases hsqi : s.env.params.initSendResetSqi <;> simp [visitsLeft])
    exact ⟨_, k, t, whenIdle_of_free hfree, hk, hrun⟩

end Sys2Proof.Machine
end

section
/-! PROOFS of O45 and O49. What a step without a reset does to the registers the host sees (R20, R21, R22), said once:
it leaves them, or ends in fault entry or in normal completion, or is the data fetch of a refresh. -/

namespace Sys2Proof.Machine

/-- No block reset is applied and the script holds none. -/
structure Unreset (s : State) : Prop where
  resetIn : s.env.resetIn = .off
  script : Reply.reset ∉ s.env.script

/-- `t` shows `v`, or what fault entry or normal completion made of it. -/
inductive Shows (v : Visible) : State → Prop
  | same {t : State} (vis : t.vis = v) : Shows v t
  | faulted (c : Cause) {u : State} (vis : u.vis = v) : Shows v (faultEntry c u)
  | completed {u : State} (vis : u.vis = v) : Shows v (complete u)

theorem Kept.shows {s t : State} (h : Kept s t) : Shows s.vis t := .same h.vis

theorem Stopped.shows {s t : State} (hn : Unreset s) (h : Stopped s t) : Shows s.vis t := by
  cases h with
  | fault c kept =>
    rw [raise_of_off (kept.resetIn.trans hn.resetIn)]
    exact .faulted c kept.vis
  | reset inputs strikes => exact absurd strikes hn.script

theorem Kept.finish_shows {s t : State} (hn : Unreset s) (h : Kept s t) : Shows s.vis (finish t) := by
  rw [finish_of_off (h.resetIn.trans hn.resetIn)]
  exact .completed h.vis

theorem Reaches.shows {α : Type} {s : State} {r : Run α} (h : Reaches s (fun _ => Kept s) r) (hn : Unreset s) :
    Shows s.vis (finalState r) :=
  (h.mono fun _ _ => Kept.shows).final fun _ => Stopped.shows hn

/-! ### A visit -/

theorem visit_shows {s : State} (hn : Unreset s) :
    Shows s.vis (finalState (visit s)) ∨ RefreshEnds s (finalState (visit s)) := by
  rcases visit_cases s with h | ⟨-, h⟩
  · generalize finalState (visit s) = t at h
    cases h with
    | follows kept next => exact .inl kept.shows
    | returns kept idle => exact .inl kept.shows
    | completes kept => exact .inl (kept.finish_shows hn)
    | stops h => exact .inl (h.shows hn)
    | refreshes h => exact .inr h
  · exact .inl h.1.toKept.shows

/-! ### The meaning of an operation -/

/-- The next state, where there is one, satisfies `post`. -/
def NextIs (post : State → Prop) (r : Result) : Prop := ∀ t, r = .next t → post t

theorem nextIs_next {post : State → Prop} {t : State} (h : post t) : NextIs post (.next t) := by
  rintro _ ⟨⟩
  exact h

theorem nextIs_whenFrameClosed {post : State → Prop} {s t : State} (h : post t) :
    NextIs post (whenFrameClosed s t) := by
  unfold whenFrameClosed
  split
  · rintro _ ⟨⟩
  · exact nextIs_next h

theorem nextIs_whenIdle {post : State → Prop} {s t : State} (h : post t) : NextIs post (whenIdle s t) :=
  fun _ ht => whenIdle_next ht ▸ h

theorem nextIs_whenAdmitted {post : State → Prop} {addr : Addr} {len : Nat} {s t : State} (h : post t) :
    NextIs post (whenAdmitted addr len s t) :=
  fun _ ht => whenAdmitted_next ht ▸ h

/-- A word of a burst: the model stops where no burst of its direction is open (log 18). -/
theorem nextIs_whenBurst {post : State → Prop} {s t : State} {dir : Dir} {f : Fault} (h : post t) :
    NextIs post (if s.wire.burst = some dir then .next t else .fault f) := by
  split
  · exact nextIs_next h
  · rintro _ ⟨⟩

theorem Reaches.kept {α : Type} {s : State} {r : Run α} (h : Reaches s (fun _ => Still s) r) :
    Reaches s (fun _ => Kept s) r :=
  h.mono fun _ _ => Still.toKept

theorem Reaches.left {α : Type} {s : State} {r : Run α} {post : α → State → Prop}
    (h : Reaches s (fun a t => Kept s t ∧ post a t) r) : Reaches s (fun _ => Kept s) r :=
  h.mono fun _ _ => And.left

theorem Reaches.after {α : Type} {s t : State} {r : Run α} (h : Reaches t (fun _ => Kept t) r) (k : Kept s t) :
    Reaches s (fun _ => Kept s) r :=
  (h.of_kept k).mono fun _ _ => k.trans

theorem Reaches.andThen_kept {α β : Type} {s : State} {r : Run α} {f : α → State → Run β}
    (h : Reaches s (fun _ => Kept s) r) (hf : ∀ a t, Reaches t (fun _ => Kept t) (f a t)) :
    Reaches s (fun _ => Kept s) (Machine.andThen r f) :=
  h.andThen fun a t k => (hf a t).after k

theorem storeWord_kept {s : State} {r : Run Word} (h : Reaches s (fun _ => Still s) r) :
    Reaches s (fun _ => Kept s) (storeWord r) :=
  h.kept.andThen_kept fun _ t => (Kept.refl t).change

theorem holdBurst_kept (s : State) : Kept s (holdBurst s) := by
  unfold holdBurst
  split
  · exact (Kept.refl s).change
  · exact .refl s

theorem releaseBurst_kept (s : State) : Kept s (releaseBurst s) := by
  unfold releaseBurst
  split
  · exact (Kept.refl s).change
  · exact .refl s

theorem openAndHold_kept (dir : Dir) (s : State) :
    Reaches s (fun _ => Kept s) (thenDo (burstOpen dir s) holdBurst) :=
  (burstOpen_reaches dir s).thenDo fun _ t h => h.toKept.trans (holdBurst_kept t)

theorem enterPoll_kept (kind : PollKind) (reg : Addr) (s : State) :
    Reaches s (fun _ => Kept s) (enterPoll kind reg s) :=
  (visitPoll_reaches kind reg _ (fun _ h => h.toKept.change) fun _ h => h.1.toKept).after (Kept.refl s).change

theorem enterCsr_kept (s : State) : Reaches s (fun _ => Kept s) (enterCsr s) :=
  (enterCsr_reaches s).mono fun _ _ h => h ▸ (Kept.refl s).change

theorem enter_kept (c : Caller) (p : Phase) (s : State) : Kept s (s.enter c p) := (Kept.refl s).change

/-- No meaning of an operation writes what the host sees but by a fault, or, for RESET, by its completion. -/
theorem exec_shows {s : State} (hn : Unreset s) (i : Instr) : NextIs (Shows s.vis) (exec i s) := by
  cases i with
  | writeWord | csrcmdRead | csrcmdWrite | pramcmdAbort | pramcmdStart | pramAddrlen =>
    exact nextIs_whenFrameClosed ((writeWord_reaches _ _ s).kept.shows hn)
  | serialReadWord reg => exact nextIs_whenFrameClosed ((storeWord_kept (readFrame_reaches _ s)).shows hn)
  | fastReadWord reg => exact nextIs_whenFrameClosed ((storeWord_kept (readFrame_reaches _ s)).shows hn)
  | readWord reg => exact nextIs_whenFrameClosed ((storeWord_kept (readWord_reaches reg s)).shows hn)
  | burstOpenWrite => exact nextIs_whenFrameClosed ((openAndHold_kept .wr s).shows hn)
  | burstOpenRead => exact nextIs_whenFrameClosed ((openAndHold_kept .rd s).shows hn)
  | burstPush value => exact nextIs_whenBurst ((send_reaches _ s).kept.shows hn)
  | burstPop => exact nextIs_whenBurst ((storeWord_kept (recv4_reaches s)).shows hn)
  | burstClose => exact nextIs_next ((csDeassert_still s).toKept.trans (releaseBurst_kept _)).shows
  | resetSqiFrame => exact nextIs_whenFrameClosed ((resetSqiFrame_reaches s).kept.shows hn)
  | pramStatus dir v => exact nextIs_next ((setWord_still v s).trans (loadFifoCnt_still v _)).toKept.shows
  | csrStatus | chunk => exact nextIs_next (.same rfl)
  | csrDataWord dir size v =>
    cases dir with
    | wr => exact nextIs_whenFrameClosed ((sendCsrData_reaches v s).kept.shows hn)
    | rd => exact nextIs_next (.same rfl)
  | pramFirstWord dir fbp n0 v =>
    cases dir with
    | wr => exact nextIs_whenFrameClosed ((sendFirstWord_reaches v s).kept.shows hn)
    | rd => exact nextIs_next (.same rfl)
  | pramNextWord dir t v =>
    cases dir with
    | wr => exact nextIs_whenBurst ((sendNextWord_reaches v s).kept.shows hn)
    | rd => exact nextIs_next (.same rfl)
  | init => exact nextIs_whenIdle (.same rfl)
  | reset =>
    have completed : Shows s.vis (finish (acceptBare .reset s)) :=
      Kept.finish_shows (s := acceptBare .reset s) ⟨hn.resetIn, hn.script⟩ (.refl _)
    exact nextIs_whenIdle completed
  | read | write => exact nextIs_whenAdmitted (.same rfl)
  | pollBusyClear | pollFifoAvail | pollEqual => exact nextIs_whenIdle ((enterPoll_kept _ _ s).shows hn)
  | csrRead addr n =>
    have first := (enterCsr_kept (s.enter (.csrRead addr n) .cCmd)).andThen_kept fun _ t => (visitCCmd_reaches t).left
    exact nextIs_whenIdle ((first.after (enter_kept _ _ s)).shows hn)
  | csrWrite addr data =>
    have first :=
      (enterCsr_kept (s.enter (.csrWrite addr data) .cData)).andThen_kept fun _ t => (visitCData_reaches t).left
    exact nextIs_whenIdle ((first.after (enter_kept _ _ s)).shows hn)
  | pramSetup | pramRead | pramWrite =>
    exact nextIs_whenIdle (((visitPAbort_reaches _).left.after (enter_kept _ _ s)).shows hn)
  | alRefresh =>
    have first :=
      (visitRAlev_reaches (s.enter .alRefresh .rAlev)).left.andThen_kept fun _ t => (visitCCmd_reaches t).left
    exact nextIs_whenIdle ((first.after (enter_kept _ _ s)).shows hn)

/-! ### A step -/

/-- What a step without a reset can show. -/
theorem step_shows {s t : State} (hn : Unreset s) (h : step s = .next t) : Shows s.vis t ∨ RefreshEnds s t := by
  cases ha : s.accepting with
  | false =>
    obtain rfl : finalState (visit s) = t := by simpa [step_busy hn.resetIn ha] using h
    exact visit_shows hn
  | true =>
    refine .inl ?_
    cases hin : s.env.inputs with
    | nil =>
      obtain rfl : s = t := by simpa [step_nothing_presented hn.resetIn ha hin] using h
      exact .same rfl
    | cons token rest =>
      cases hd : decodeToken token with
      | error why => simp [step_undecodable hn.resetIn ha hin hd] at h
      | ok i =>
        have taken : Unreset (s.consume rest) := ⟨hn.resetIn, hn.script⟩
        exact exec_shows taken i t (step_presented hn.resetIn ha hin hd ▸ h)

/-! ### The mirror -/

theorem Shows.alEvent {v : Visible} {t : State} (h : Shows v t) : t.vis.alEvent = v.alEvent := by
  cases h with
  | same vis => rw [vis]
  | faulted c vis => simp [vis]
  | completed vis => simp [vis]

theorem mem_exchanged {e : Event} {tx rx : List Byte} (h : e ∈ exchanged tx rx) : ∃ b m, e = .xfer b m := by
  induction tx generalizing rx with
  | nil => simp [exchanged] at h
  | cons b tx ih =>
    cases rx with
    | nil => simp [exchanged] at h
    | cons m rx =>
      rcases List.mem_cons.1 h with rfl | h
      · exact ⟨b, m, rfl⟩
      · exact ih h

/-- Nothing faults in a whole frame. -/
theorem xferFault_notMem_wholeFrame (b : Byte) (tx rx : List Byte) : .xferFault b ∉ wholeFrame tx rx := by
  intro h
  have : Event.xferFault b ∈ exchanged tx rx := by simpa [wholeFrame] using h
  obtain ⟨_, _, ⟨⟩⟩ := mem_exchanged this

/-- Nothing is answered to the host in a whole frame. -/
theorem rsp_notMem_wholeFrame (code : BitVec 2) (data : Option (List Byte)) (al : BitVec 16) (tx rx : List Byte) :
    .rsp code data al ∉ wholeFrame tx rx := by
  intro h
  have : Event.rsp code data al ∈ exchanged tx rx := by simpa [wholeFrame] using h
  obtain ⟨_, _, ⟨⟩⟩ := mem_exchanged this

/-- Without a reset the last line of a refresh completes the host operation, or ends the refresh entered by itself. -/
theorem refreshDone_of_off {s : State} (h : s.env.resetIn = .off) :
    refreshDone s = complete (s.setAlEvent (mirrorOf s.buf.res)) ∨
    refreshDone s = (s.setAlEvent (mirrorOf s.buf.res)).toIdle := by
  rw [← finish_of_off (s := s.setAlEvent (mirrorOf s.buf.res)) h]
  exact refreshDone_cases s

/-- Settles O45: what a step shows has the mirror it had, unless the step is the data fetch of a refresh; and that is
one whole frame, and the response of a completion at most. -/
theorem theMirrorIsWrittenOnlyByTheRefresh : Obligations.TheMirrorIsWrittenOnlyByTheRefresh := by
  intro s t hr hscript hstep hdiffers
  rcases step_shows ⟨hr, hscript⟩ hstep with h | h
  · exact absurd h.alEvent hdiffers
  cases h with
  | @intro u ph refresh kept tx rx trace =>
    refine ⟨ph, refresh, refreshDone_idle u, ?_⟩
    rcases refreshDone_of_off (kept.resetIn.trans hr) with e | e <;> rw [e]
    · refine ⟨by simp [kept.vis], by simp [trace, xferFault_notMem_wholeFrame], fun code data al hmem => ?_⟩
      rw [complete_trace, State.setAlEvent_trace, trace, List.append_assoc, List.drop_left] at hmem
      rcases List.mem_append.1 hmem with hframe | hresponse
      · exact absurd hframe (rsp_notMem_wholeFrame code data al tx rx)
      · cases List.mem_singleton.1 hresponse
        exact ⟨rfl, rfl⟩
    · simp [kept.vis, trace, xferFault_notMem_wholeFrame, rsp_notMem_wholeFrame]

/-! ### The status -/

/-- The block is idle, and the last event is the response with its status and its mirror, without data if it reports a
fault (R236, R238). -/
def Responded (t : State) : Prop :=
  t.seq.ph = .idle ∧ ∃ data, t.trace.getLast? = some (.rsp t.vis.status data t.vis.alEvent) ∧
    (t.vis.status ≠ 0 → data = none)

theorem complete_responded (s : State) : Responded (complete s) :=
  ⟨rfl, if s.latch.op = .read then some s.buf.rbuf else none, by simp, fun h => absurd rfl h⟩

theorem faultEntry_responded (c : Cause) (s : State) : Responded (faultEntry c s) :=
  ⟨rfl, none, by simp [faultEntry_trace], fun _ => rfl⟩

/-- From what `v` shows to what `t` shows: the status and the fault flag stay, or a response has been given; and the
flag is not cleared. -/
def StatusKept (v : Visible) (t : State) : Prop :=
  (t.vis.status ≠ v.status ∨ t.vis.faultSeen ≠ v.faultSeen → Responded t) ∧
    (v.faultSeen = true → t.vis.faultSeen = true)

theorem StatusKept.of_eq {v : Visible} {t : State} (hs : t.vis.status = v.status)
    (hf : t.vis.faultSeen = v.faultSeen) : StatusKept v t :=
  ⟨fun h => absurd h (by simp [hs, hf]), fun h => hf.trans h⟩

theorem complete_statusKept {v : Visible} {s : State} (hf : s.vis.faultSeen = v.faultSeen) :
    StatusKept v (complete s) :=
  ⟨fun _ => complete_responded s, fun h => hf.trans h⟩

theorem Shows.statusKept {v : Visible} {t : State} (h : Shows v t) : StatusKept v t := by
  cases h with
  | same vis => exact .of_eq (by rw [vis]) (by rw [vis])
  | faulted c vis => exact ⟨fun _ => faultEntry_responded c _, fun _ => rfl⟩
  | completed vis => exact complete_statusKept (by rw [vis])

theorem RefreshEnds.statusKept {s t : State} (hr : s.env.resetIn = .off) (h : RefreshEnds s t) :
    StatusKept s.vis t := by
  cases h with
  | @intro u ph refresh kept tx rx trace =>
    rcases refreshDone_of_off (kept.resetIn.trans hr) with e | e <;> rw [e]
    · exact complete_statusKept (by simp [kept.vis])
    · exact .of_eq (by simp [kept.vis]) (by simp [kept.vis])

/-- Settles O49: of what a step can show, only fault entry and completion write the status or the flag, and both give
the response as their last event. -/
theorem statusIsWrittenOnlyWithAResponse : Obligations.StatusIsWrittenOnlyWithAResponse := fun _ _ hr hscript hstep =>
  (step_shows ⟨hr, hscript⟩ hstep).elim Shows.statusKept (RefreshEnds.statusKept hr)

end Sys2Proof.Machine
end

section
/-! PROOF of O4. The phases that rely on what a poll has shown are entered from their poll alone, in the step in which
it sees its flag; every other step leads to a phase that relies on nothing (R33, R74). -/

namespace Sys2Proof.Machine

/-- The phases entered on the word of the last poll. -/
def guardedPhases : List Phase := [.pAddrLen, .pStart, .cFetch, .pFirst]

/-- A sequencer of which `PollInv` asks nothing about the last word polled. -/
def Unguarded (q : Seq) : Prop :=
  q.ph ∉ guardedPhases ∧ ∀ kind reg, q.caller = .poll kind reg → q.ph = pollPhase kind reg

theorem Unguarded.pollInv {s : State} (h : Unguarded s.seq) : PollInv s := by
  obtain ⟨hph, hpoll⟩ := h
  simp only [guardedPhases, List.mem_cons, List.not_mem_nil, or_false, not_or] at hph
  obtain ⟨haddr, hstart, hfetch, hfirst⟩ := hph
  exact ⟨fun h => (h.elim haddr hstart).elim, fun h => absurd h hfetch, fun h => absurd h hfirst, hpoll⟩

theorem unguarded_atRest : Unguarded Seq.atRest := ⟨by decide, by simp⟩

/-- The operation in progress is no poll entered by itself. -/
def NoPoll (q : Seq) : Prop := ∀ kind reg, q.caller ≠ .poll kind reg

theorem NoPoll.unguarded {q : Seq} {p : Phase} (h : NoPoll q) (hp : p ∉ guardedPhases := by decide) :
    Unguarded { q with ph := p } :=
  ⟨hp, fun kind reg hc => absurd hc (h kind reg)⟩

theorem pollPhase_unguarded (kind : PollKind) (reg : Addr) : pollPhase kind reg ∉ guardedPhases := by
  cases kind with
  | busyClear =>
    unfold pollPhase
    dsimp only
    split <;> decide
  | fifoAvail => simp [pollPhase, guardedPhases]
  | equal expected => simp [pollPhase, guardedPhases]

theorem Stopped.unguarded {s t : State} (h : Stopped s t) : Unguarded t.seq := by
  cases h with
  | fault c kept => simpa using unguarded_atRest
  | reset inputs strikes => exact unguarded_atRest

theorem Reaches.unguarded {α : Type} {s : State} {r : Run α} (h : Reaches s (fun _ t => Unguarded t.seq) r) :
    Unguarded (finalState r).seq :=
  Reaches.final (post := fun t => Unguarded t.seq) (h.mono fun _ _ => id) fun _ => Stopped.unguarded

/-! ### The meaning of an operation -/

theorem Reaches.still_unguarded {α : Type} {s : State} {r : Run α} (h : Reaches s (fun _ => Still s) r)
    (hs : Unguarded s.seq) : Unguarded (finalState r).seq :=
  Reaches.unguarded (h.mono fun _ _ k => k.seq ▸ hs)

theorem storeWord_still {s : State} {r : Run Word} (h : Reaches s (fun _ => Still s) r) :
    Reaches s (fun _ => Still s) (storeWord r) :=
  h.andThen fun v t k => k.trans (setWord_still v t)

theorem openAndHold_unguarded (dir : Dir) {s : State} (hs : Unguarded s.seq) :
    Unguarded (finalState (thenDo (burstOpen dir s) holdBurst)).seq := by
  refine Reaches.unguarded ((burstOpen_reaches dir s).thenDo fun _ t h => ?_)
  unfold holdBurst
  split
  · exact ⟨by simp [guardedPhases], by simp⟩
  · exact h.seq ▸ hs

theorem releaseBurst_unguarded {s : State} (hs : Unguarded s.seq) : Unguarded (releaseBurst s).seq := by
  unfold releaseBurst
  split
  · exact unguarded_atRest
  · exact hs

theorem enterPoll_unguarded (kind : PollKind) (reg : Addr) (s : State) :
    Unguarded (finalState (enterPoll kind reg s)).seq := by
  have entered : Unguarded ((s.enter (.poll kind reg) (pollPhase kind reg)).setPolls 0).seq := by
    refine ⟨pollPhase_unguarded kind reg, ?_⟩
    rintro _ _ ⟨⟩
    rfl
  exact Reaches.unguarded (visitPoll_reaches kind reg _ (fun _ _ => unguarded_atRest) fun _ h => h.1.seq ▸ entered)

/-- A phase that relies on nothing follows. -/
theorem To.unguarded {s t : State} {p : Phase} {n : BitVec 16} (h : To s p n t) (hs : NoPoll s.seq)
    (hp : p ∉ guardedPhases := by decide) : Unguarded t.seq :=
  h.seq ▸ hs.unguarded hp

theorem Reaches.andThen_unguarded {α β : Type} {s : State} {r : Run α} {f : α → State → Run β}
    {post : α → State → Prop} (h : Reaches s post r)
    (hf : ∀ a t, post a t → Unguarded (finalState (f a t)).seq) :
    Unguarded (finalState (Machine.andThen r f)).seq := by
  cases r with
  | ok a t => exact hf a t h
  | stop t => exact Stopped.unguarded h

theorem enterCsr_noPoll {s : State} (h : NoPoll s.seq) : Reaches s (fun _ t => NoPoll t.seq) (enterCsr s) :=
  (enterCsr_reaches s).mono fun _ _ e => e ▸ h

theorem visitCCmd_unguarded {s : State} (h : NoPoll s.seq) : Unguarded (finalState (visitCCmd s)).seq :=
  Reaches.unguarded ((visitCCmd_reaches s).mono fun _ _ k => k.2.1.unguarded h)

theorem visitCData_unguarded {s : State} (h : NoPoll s.seq) : Unguarded (finalState (visitCData s)).seq :=
  Reaches.unguarded ((visitCData_reaches s).mono fun _ _ k => k.2.unguarded h)

theorem visitPAbort_unguarded {s : State} (h : NoPoll s.seq) : Unguarded (finalState (visitPAbort s)).seq :=
  Reaches.unguarded ((visitPAbort_reaches s).mono fun _ _ k => k.2.1.unguarded h)

/-- An operation entered from a sequencer that relies on no poll leaves one. -/
theorem exec_unguarded {s : State} (hs : Unguarded s.seq) (i : Instr) :
    NextIs (fun t => Unguarded t.seq) (exec i s) := by
  cases i with
  | writeWord | csrcmdRead | csrcmdWrite | pramcmdAbort | pramcmdStart | pramAddrlen =>
    exact nextIs_whenFrameClosed ((writeWord_reaches _ _ s).still_unguarded hs)
  | serialReadWord reg => exact nextIs_whenFrameClosed ((storeWord_still (readFrame_reaches _ s)).still_unguarded hs)
  | fastReadWord reg => exact nextIs_whenFrameClosed ((storeWord_still (readFrame_reaches _ s)).still_unguarded hs)
  | readWord reg => exact nextIs_whenFrameClosed ((storeWord_still (readWord_reaches reg s)).still_unguarded hs)
  | burstOpenWrite => exact nextIs_whenFrameClosed (openAndHold_unguarded .wr hs)
  | burstOpenRead => exact nextIs_whenFrameClosed (openAndHold_unguarded .rd hs)
  | burstPush value => exact nextIs_whenBurst ((send_reaches _ s).still_unguarded hs)
  | burstPop => exact nextIs_whenBurst ((storeWord_still (recv4_reaches s)).still_unguarded hs)
  | burstClose => exact nextIs_next (releaseBurst_unguarded ((csDeassert_seq s).symm ▸ hs))
  | resetSqiFrame => exact nextIs_whenFrameClosed ((resetSqiFrame_reaches s).still_unguarded hs)
  | pramStatus dir v => exact nextIs_next ((loadFifoCnt_still v (s.setWord v)).seq ▸ hs)
  | csrStatus | chunk => exact nextIs_next hs
  | csrDataWord dir size v =>
    cases dir with
    | wr => exact nextIs_whenFrameClosed ((sendCsrData_reaches v s).still_unguarded hs)
    | rd => exact nextIs_next hs
  | pramFirstWord dir fbp n0 v =>
    cases dir with
    | wr => exact nextIs_whenFrameClosed ((sendFirstWord_reaches v s).still_unguarded hs)
    | rd => exact nextIs_next hs
  | pramNextWord dir t v =>
    cases dir with
    | wr => exact nextIs_whenBurst ((sendNextWord_reaches v s).still_unguarded hs)
    | rd => exact nextIs_next hs
  | init =>
    refine nextIs_whenIdle ⟨?_, by simp⟩
    rw [State.enter_seq_ph]
    split <;> decide
  | reset => exact nextIs_whenIdle ((finish_seq (acceptBare .reset s)).symm ▸ unguarded_atRest)
  | read | write => exact nextIs_whenAdmitted ⟨by simp [guardedPhases], by simp⟩
  | pollBusyClear | pollFifoAvail | pollEqual => exact nextIs_whenIdle (enterPoll_unguarded _ _ s)
  | csrRead addr n =>
    have entered : NoPoll (s.enter (.csrRead addr n) .cCmd).seq := by simp [NoPoll]
    exact nextIs_whenIdle ((enterCsr_noPoll entered).andThen_unguarded fun _ _ h => visitCCmd_unguarded h)
  | csrWrite addr data =>
    have entered : NoPoll (s.enter (.csrWrite addr data) .cData).seq := by simp [NoPoll]
    exact nextIs_whenIdle ((enterCsr_noPoll entered).andThen_unguarded fun _ _ h => visitCData_unguarded h)
  | pramSetup | pramRead | pramWrite => exact nextIs_whenIdle (visitPAbort_unguarded (by simp [NoPoll]))
  | alRefresh =>
    have entered : NoPoll { (s.enter .alRefresh .rAlev).seq with refresh := true } := by simp [NoPoll]
    exact nextIs_whenIdle (Reaches.andThen_unguarded (enterCsr_noPoll entered) fun _ _ h => visitCCmd_unguarded h)

/-! ### A visit -/

/-- The word that ends the loop of a poll has passed its test (R162). -/
theorem visitPoll_ready {post : State → Prop} (kind : PollKind) (reg : Addr) {done : State → State} (s : State)
    (hover : ∀ t, Still s t → pollReady kind t.work.word = true → post (done t))
    (hon : ∀ t, Still s t → post t) :
    Reaches s (fun _ => post) (visitPoll kind reg done s) := by
  unfold visitPoll
  rcases pollOnce_cases kind reg s with ⟨v, t, -, ht, hpoll⟩ | ⟨t, h, ht, -⟩ | ⟨t, h, ht, hr⟩
  · have counted : Still s (polled v t) := ht.still.change
    rcases hpoll with ⟨hready, h⟩ | ⟨-, -, h⟩ | ⟨-, -, h⟩ <;> rw [h]
    · refine hover _ ?_ ?_
      · split
        · exact counted.trans (loadFifoCnt_still v _)
        · exact counted
      · have hword : (loadFifoCnt v (polled v t)).work.word = v := by
          unfold loadFifoCnt
          split <;> rfl
        split
        · rwa [hword]
        · exact hready
    · exact .fault .deviceUnresponsive counted.toKept
    · exact hon _ counted
  · rw [h]
    exact .fault .busFault ht.still.toKept
  · rw [h]
    exact .reset ht.inputs hr

/-- A guarded phase entered on the word that it relies on. -/
theorem pollInv_toPhase {t : State} (h : NoPoll t.seq) (p : Phase)
    (hbusy : p = .pAddrLen ∨ p = .pStart ∨ p = .cFetch → busyBit t.work.word = false)
    (havail : p = .pFirst → availBit t.work.word = true) : PollInv (t.toPhase p) :=
  ⟨fun hp => hbusy (hp.imp_right .inl), fun hp => hbusy (.inr (.inr hp)), havail,
    fun kind reg hc => absurd hc (h kind reg)⟩

theorem chunkDone_seq (s : State) : (chunkDone s).seq = { s.seq with ph := .rChunk } := by
  unfold chunkDone
  dsimp only
  split <;> rfl

theorem refreshDone_seq (s : State) : (refreshDone s).seq = Seq.atRest := by
  rcases refreshDone_cases s with e | e <;> rw [e]
  · exact finish_seq _
  · rfl

theorem csrReturn_unguarded {s : State} (h : NoPoll s.seq) : Unguarded (csrReturn s).seq := by
  cases hr : s.seq.refresh with
  | true =>
    rw [csrReturn_of_refresh hr, refreshDone_seq]
    exact unguarded_atRest
  | false =>
    rcases csrReturn_of_not_refresh hr with e | e <;> rw [e]
    · rw [chunkDone_seq]
      exact h.unguarded
    · exact unguarded_atRest

theorem csrReady_pollInv {t : State} (h : NoPoll t.seq) (hw : busyBit t.work.word = false) :
    PollInv (csrReady t) := by
  unfold csrReady
  split
  · exact pollInv_toPhase h .cFetch (fun _ => hw) (by simp)
  · exact (csrReturn_unguarded h).pollInv

theorem setupDone_pollInv {t : State} (h : NoPoll t.seq) (hw : availBit t.work.word = true) :
    PollInv (setupDone t) := by
  unfold setupDone
  split
  · exact unguarded_atRest.pollInv
  · exact pollInv_toPhase h .pFirst (by simp) fun _ => hw

theorem pramReturn_unguarded {s : State} (h : NoPoll s.seq) : Unguarded (pramReturn s).seq := by
  unfold pramReturn
  split
  · split <;> exact h.unguarded (p := .rAlev)
  · exact unguarded_atRest

theorem Still.noPoll {s t : State} (h : Still s t) (hs : NoPoll s.seq) : NoPoll t.seq := h.seq ▸ hs

theorem Reaches.pollInv {α : Type} {s : State} {r : Run α} (h : Reaches s (fun _ => PollInv) r) :
    PollInv (finalState r) :=
  h.final fun _ hstop => hstop.unguarded.pollInv

theorem Reaches.to_pollInv {α : Type} {s : State} {r : Run α} {p : Phase} {n : BitVec 16}
    (h : Reaches s (fun _ => To s p n) r) (hs : NoPoll s.seq) (hp : p ∉ guardedPhases := by decide) :
    Reaches s (fun _ => PollInv) r :=
  h.mono fun _ _ k => (k.unguarded hs hp).pollInv

theorem visitRDispatch_pollInv {s : State} (h : NoPoll s.seq) :
    Reaches s (fun _ => PollInv) (visitRDispatch s) := by
  unfold visitRDispatch
  split
  · exact Unguarded.pollInv (s := s.toPhase .pAbort) (h.unguarded (p := .pAbort))
  · exact Unguarded.pollInv (h.unguarded (p := .rChunk))

theorem visitRChunk_pollInv {s : State} (h : NoPoll s.seq) : Reaches s (fun _ => PollInv) (visitRChunk s) := by
  unfold visitRChunk
  split
  · exact Unguarded.pollInv (s := s.toPhase .rAlev) (h.unguarded (p := .rAlev))
  · refine ((enterCsr_reaches _).of_kept (Kept.refl s).change).mono ?_
    rintro _ _ rfl
    refine Unguarded.pollInv (h.unguarded (p := _) ?_)
    split <;> decide

/-- The address/length word keeps the word that showed the command register not busy (R181). -/
theorem visitPAddrLen_pollInv {s : State} (h : NoPoll s.seq) (hw : busyBit s.work.word = false) :
    Reaches s (fun _ => PollInv) (visitPAddrLen s) := by
  unfold visitPAddrLen sendAddrLen
  rcases writeWord_cases (addrLenReg (pramDir s)) (addrLenWord (pramLen s) (pramAddr s)) s with
    ⟨a, t, e, ht⟩ | ⟨t, e, ht, -⟩ | ⟨t, e, ht, hr⟩ <;> rw [e]
  · exact pollInv_toPhase (ht.still.noPoll h) .pStart (fun _ => by rwa [ht.work]) (by simp)
  · exact .fault .busFault ht.still.toKept
  · exact .reset ht.inputs hr

/-- A phase that relies on nothing and stays. -/
theorem Still.pollInv {s t : State} (k : Still s t) (h : NoPoll s.seq) (hp : s.seq.ph ∉ guardedPhases) : PollInv t :=
  Unguarded.pollInv (k.seq ▸ h.unguarded hp)

theorem visitCPoll_pollInv {s : State} (h : NoPoll s.seq) (hp : s.seq.ph ∉ guardedPhases) :
    Reaches s (fun _ => PollInv) (visitCPoll s) :=
  visitPoll_ready _ _ s (fun _ k hr => csrReady_pollInv (k.noPoll h) (by simpa [pollReady] using hr)) fun _ k =>
    k.pollInv h hp

theorem visitCFetch_pollInv {s : State} (h : NoPoll s.seq) : Reaches s (fun _ => PollInv) (visitCFetch s) :=
  (readWord_reaches _ s).andThen fun v t k =>
    Unguarded.pollInv (s := csrReturn (takeCsrData (csrLen t) v t)) (csrReturn_unguarded (k.noPoll h))

theorem visitPPollBusy_pollInv {s : State} (h : NoPoll s.seq) (hp : s.seq.ph ∉ guardedPhases) :
    Reaches s (fun _ => PollInv) (visitPPollBusy s) :=
  visitPoll_ready _ _ s
    (fun _ k hr => pollInv_toPhase (k.noPoll h) .pAddrLen (fun _ => by simpa [pollReady] using hr) (by simp))
    fun _ k => k.pollInv h hp

theorem visitPPollAvail_pollInv {s : State} (h : NoPoll s.seq) (hp : s.seq.ph ∉ guardedPhases) :
    Reaches s (fun _ => PollInv) (visitPPollAvail s) :=
  visitPoll_ready _ _ s (fun _ k hr => setupDone_pollInv (k.noPoll h) hr) fun _ k => k.pollInv h hp

theorem visitIPoll_pollInv {s : State} (h : NoPoll s.seq) (hp : s.seq.ph ∉ guardedPhases) :
    Reaches s (fun _ => PollInv) (visitIPoll s) :=
  visitPoll_ready _ _ s (fun t _ _ => Unguarded.pollInv ((finish_seq t).symm ▸ unguarded_atRest)) fun _ k =>
    k.pollInv h hp

theorem visitPhase_pollInv {s : State} (hinv : PollInv s) (h : NoPoll s.seq) : PollInv (finalState (visitPhase s)) := by
  unfold visitPhase
  refine Reaches.pollInv (s := s) ?_
  have free {p : Phase} (hp : s.seq.ph = p) (hfree : p ∉ guardedPhases := by decide) : s.seq.ph ∉ guardedPhases :=
    hp ▸ hfree
  cases hp : s.seq.ph with
  | idle => exact hinv
  | rDispatch => exact visitRDispatch_pollInv h
  | rChunk => exact visitRChunk_pollInv h
  | cData => exact ((visitCData_reaches s).mono fun _ _ => And.right).to_pollInv h
  | cCmd => exact ((visitCCmd_reaches s).mono fun _ _ k => k.2.1).to_pollInv h
  | cPoll => exact visitCPoll_pollInv h (free hp)
  | cFetch => exact visitCFetch_pollInv h
  | pAbort => exact ((visitPAbort_reaches s).mono fun _ _ k => k.2.1).to_pollInv h
  | pPollBusy => exact visitPPollBusy_pollInv h (free hp)
  | pAddrLen => exact visitPAddrLen_pollInv h (hinv.1 (.inl hp))
  | pStart => exact (writeWord_reaches _ _ s).thenDo fun _ _ k => ((k.beginPoll _).1.unguarded h).pollInv
  | pPollAvail => exact visitPPollAvail_pollInv h (free hp)
  | pFirst => exact ((visitPFirst_reaches s).mono fun _ _ => And.right).to_pollInv h
  | pBOpen =>
    refine (burstOpen_reaches _ s).thenDo fun _ _ k => (k.burstNext.unguarded h ?_).pollInv
    split <;> decide
  | pBWord =>
    refine ((visitPBWord_reaches s).mono fun _ _ => And.right).to_pollInv h ?_
    split <;> decide
  | pBClose => exact (pramReturn_unguarded ((csDeassert_still s).noPoll h)).pollInv
  | rAlev =>
    have marked : Unguarded { s.seq with ph := .cCmd, refresh := true } :=
      NoPoll.unguarded (q := { s.seq with refresh := true }) h
    exact (visitRAlev_reaches s).mono fun _ _ k => Unguarded.pollInv (k.2 ▸ marked)
  | iSqi => exact (resetSqiFrame_reaches s).thenDo fun _ _ k => ((k.toPhase _).unguarded h).pollInv
  | iReset => exact (writeWord_reaches _ _ s).thenDo fun _ _ k => ((k.beginPoll _).1.unguarded h).pollInv
  | iPoll => exact visitIPoll_pollInv h (free hp)

theorem visit_pollInv {s : State} (hinv : PollInv s) : PollInv (finalState (visit s)) := by
  unfold visit
  split
  · rename_i kind reg hcaller
    obtain ⟨-, -, -, hphase⟩ := hinv
    have hs : Unguarded s.seq := ⟨hphase kind reg hcaller ▸ pollPhase_unguarded kind reg, hphase⟩
    exact (visitPoll_ready kind reg s (fun _ _ _ => unguarded_atRest.pollInv)
      fun _ k => Unguarded.pollInv (k.seq ▸ hs)).pollInv
  · rename_i hcaller
    exact visitPhase_pollInv hinv hcaller

/-! ### A step -/

/-- Where the block accepts, it relies on no poll: it is idle, or inside a burst opened by itself. -/
theorem unguarded_of_accepting {s : State} (hinv : BlockInv s) (ha : s.accepting = true) : Unguarded s.seq := by
  obtain ⟨-, -, hidle, hburst, -, -⟩ := hinv
  simp only [State.accepting, Bool.or_eq_true, decide_eq_true_eq] at ha
  rcases ha with hp | hc
  · exact ⟨by simp [hp, guardedPhases], by simp [(hidle hp).1]⟩
  · exact ⟨by simp [(hburst hc).1, guardedPhases], by simp [hc]⟩

/-- Settles O4: a step is block reset, which leaves the block idle; or an operation accepted where nothing relies on a
poll; or a visit, which enters a phase that does only from its poll, or from the address/length word. -/
theorem pollInvariantIsKept : Obligations.PollInvariantIsKept := by
  intro s t hblock hpoll hstep
  unfold step at hstep
  split at hstep
  · cases hstep
    exact unguarded_atRest.pollInv
  · split at hstep
    · rename_i ha
      have hs := unguarded_of_accepting hblock ha
      split at hstep
      · cases hstep
        exact hpoll
      · split at hstep
        · cases hstep
        · rename_i rest _ _ i _
          exact (exec_unguarded (s := s.consume rest) hs i t hstep).pollInv
    · cases hstep
      exact visit_pollInv hpoll

end Sys2Proof.Machine
end

section
/-! PROOFS of O2, O19, O55, O56 and O57: the state after reset; what a whole-frame operation leaves; and what single
frames do to the reference peripheral. -/

namespace Sys2Proof.Machine

/-! ### After reset -/

theorem simEsc_start_wf (b a : Nat) (k : Bool) (w : Word) : SimWf (SimEsc.start b a k w) :=
  ⟨emptyMemory_wf, .nil, by simp [SimEsc.start]⟩

/-- The block of the reset state meets its part of the invariants, whatever canonical peripheral is attached. -/
theorem reset_blockInv {s : State} (hseq : s.seq = Seq.atRest) (hwire : s.wire = Wire.idle)
    (hstatus : s.vis.status = 0) (hsim : SimOk s) : BlockInv s := by
  refine ⟨?_, ?_, ?_, ?_, ?_, hsim⟩ <;> simp [hseq, hwire, hstatus]

/-- Settles O2: after reset nothing is in progress, and an untouched peripheral is canonical. -/
theorem resetMeetsInvariants : Obligations.ResetMeetsInvariants := by
  refine ⟨reset_blockInv rfl rfl rfl reset_simOk, unguarded_atRest.pollInv, ?_⟩
  rintro b a k w _ rfl
  refine ⟨reset_blockInv rfl rfl rfl ?_, unguarded_atRest.pollInv, simEsc_start_mem b a k w, simEsc_start_reg b a k w⟩
  rintro _ ⟨⟩
  exact simEsc_start_wf b a k w

/-! ### Whole-frame operations -/

/-- What a whole-frame operation does with the bytes received: a read takes the last four as `WORD` (R141 to R143). -/
def keepWord (i : Instr) (tx rx : List Byte) (t : State) : State :=
  if readsWord i then t.setWord (wordOf (rx.drop (tx.length - 4))) else t

theorem whenFrameClosed_of_closed {s t : State} (h : s.wire.cs = false) : whenFrameClosed s t = .next t :=
  if_neg (by simp [h])

theorem finalState_discard (r : Run (List Byte)) :
    finalState (thenDo r id) = finalState (andThen r fun _ t => .ok () t) := by
  cases r <;> rfl

theorem finalState_storeWord (r : Run (List Byte)) (n : Nat) :
    finalState (storeWord (andThen r fun rx t => .ok (wordOf (rx.drop n)) t)) =
      finalState (andThen r fun rx t => .ok () (t.setWord (wordOf (rx.drop n)))) := by
  cases r <;> rfl

/-- Every whole-frame operation is the frame of its bytes, and then `keepWord`. -/
theorem exec_frame {i : Instr} {tx : List Byte} {s : State} (hw : s.wire.cs = false)
    (htx : frameTx s.env.params i = some tx) :
    exec i s = .next (finalState (andThen (frame tx s) fun rx t => .ok () (keepWord i tx rx t))) := by
  have written (reg : Addr) (v : Word) : whenFrameClosed s (finalState (writeWord reg v s)) =
      .next (finalState (andThen (frame (writeTx reg v) s) fun _ t => .ok () t)) := by
    rw [whenFrameClosed_of_closed hw, writeWord_eq_frame, finalState_discard]
  cases i <;> simp only [frameTx, reduceCtorEq] at htx
  case writeWord reg v => cases htx; exact written reg v
  case csrcmdRead n a => cases htx; exact written 0x304 _
  case csrcmdWrite n a => cases htx; exact written 0x304 _
  case pramcmdAbort d => cases d <;> cases htx <;> exact written _ _
  case pramcmdStart d => cases d <;> cases htx <;> exact written _ _
  case pramAddrlen d len a => cases d <;> cases htx <;> exact written _ _
  case resetSqiFrame =>
    cases htx
    exact (whenFrameClosed_of_closed hw).trans (by rw [resetSqiFrame_eq_frame, finalState_discard]; rfl)
  case serialReadWord reg =>
    cases htx
    exact (whenFrameClosed_of_closed hw).trans
      (by rw [serialReadWord, readFrame_eq_frame, finalState_storeWord]; rfl)
  case fastReadWord reg =>
    cases htx
    exact (whenFrameClosed_of_closed hw).trans
      (by rw [fastReadWord, readFrame_eq_frame, finalState_storeWord]; rfl)
  case readWord reg =>
    cases htx
    refine (whenFrameClosed_of_closed hw).trans ?_
    rw [readWord_eq_frame, finalState_storeWord]
    simp [keepWord, readsWord]

/-- Where no bus fault and no block reset can strike, every frame is exchanged to its end. -/
theorem frame_calm (tx : List Byte) {s : State} (h : Calm s) :
    ∃ rx t, frame tx s = .ok rx t ∧ Framed s t ∧ rx.length = tx.length ∧ t.trace = s.trace ++ wholeFrame tx rx := by
  obtain ⟨hfault, hreset⟩ := h
  rcases frame_cases tx s with h | ⟨rx, b, t, -, -, -, -, hf, -⟩ | ⟨rx, t, -, -, -, hr, -⟩
  · exact h
  · simp [hfault] at hf
  · exact absurd hr hreset

/-- `le32(word_of(bytes)) = bytes` for any four bytes (R10). -/
theorem le32_wordOf_of_length {bs : List Byte} (h : bs.length = 4) : le32 (wordOf bs) = bs := by
  match bs, h with
  | [b0, b1, b2, b3], _ => exact le32_wordOf b0 b1 b2 b3

/-- A read frame has four bytes of data. -/
theorem four_le_length_of_readsWord {p : Params} {i : Instr} {tx : List Byte} (htx : frameTx p i = some tx)
    (hr : readsWord i = true) : 4 ≤ tx.length := by
  cases i <;> simp only [readsWord, reduceCtorEq] at hr <;> cases htx
  case serialReadWord reg => simp
  case fastReadWord reg => simp
  case readWord reg => simp

/-- Settles O19: the operation is its frame, which is exchanged to its end, and the frame touches no register. -/
theorem wholeFramesLeaveTheBlockAlone : Obligations.WholeFramesLeaveTheBlockAlone := by
  intro i tx s hcalm hw htx
  obtain ⟨rx, t, hframe, ht, hlen, htrace⟩ := frame_calm tx hcalm
  have hexec : exec i s = .next (keepWord i tx rx t) := by
    rw [exec_frame (by simp [hw]) htx, hframe, andThen_ok, finalState_ok]
  cases hr : readsWord i with
  | false =>
    have hkeep : keepWord i tx rx t = t := by simp [keepWord, hr]
    rw [hkeep] at hexec
    exact ⟨t, rx, s.work.word, hexec, hlen, htrace, ht.seq, ht.latch, ht.vis, ht.buf, ht.wire, ht.work, ht.params,
      ht.inputs, ht.resetIn, by simp, fun _ => rfl⟩
  | true =>
    have hkeep : keepWord i tx rx t = t.setWord (wordOf (rx.drop (tx.length - 4))) := by simp [keepWord, hr]
    have hfour : (rx.drop (tx.length - 4)).length = 4 := by
      have := four_le_length_of_readsWord htx hr
      rw [List.length_drop, hlen]
      omega
    rw [hkeep] at hexec
    refine ⟨_, rx, wordOf (rx.drop (tx.length - 4)), hexec, hlen, htrace, ht.seq, ht.latch, ht.vis, ht.buf, ht.wire,
      ?_, ht.params, ht.inputs, ht.resetIn, fun _ => (le32_wordOf_of_length hfour).symm, by simp⟩
    rw [← ht.work]
    rfl

/-! ### Single frames against the reference peripheral -/

theorem SimReady.alone {e : SimEsc} {s : State} (h : SimReady e s) : SimAlone e s := by
  obtain ⟨hsim, hscript, hfault, -⟩ := h
  exact ⟨hsim, hscript, hfault⟩

theorem SimReady.between {e : SimEsc} {s : State} (h : SimReady e s) : e.frame = none := by
  obtain ⟨-, -, -, hframe, -⟩ := h
  exact hframe

/-- Settles O55: the two word frames against the peripheral, each run by itself. -/
theorem wordFramesReachThePeripheral : Obligations.WordFramesReachThePeripheral := by
  intro reg v e s hready hw
  have hclosed : s.wire.cs = false := by simp [hw]
  refine ⟨(whenFrameClosed_of_closed hclosed).trans ?_, (whenFrameClosed_of_closed hclosed).trans ?_⟩
  · rw [writeWord_sim reg v e s hready.alone hready.between hw, finalState_ok]
  · rw [readWord_sim reg e s hready.alone hready.between hw]
    rfl

/-- A word frame written by itself leaves the peripheral as the register write does (R87). -/
theorem writeWord_sim_final (reg : Addr) (v : Word) {e : SimEsc} {s : State} (h : SimReady e s)
    (hw : s.wire = Wire.idle) :
    ∃ t, whenFrameClosed s (finalState (writeWord reg v s)) = .next t ∧ t.env.sim = some (simRegWrite e reg v) :=
  ⟨_, (whenFrameClosed_of_closed (by simp [hw])).trans
    (by rw [writeWord_sim reg v e s h.alone h.between hw, finalState_ok]), rfl⟩

/-! ### The registers and commands of the peripheral -/

/-- A register read after a register is set (R85). -/
theorem simReg_simSetReg {e : SimEsc} (h : SimWf e) (a b : Addr) (v : Word) :
    simReg (simSetReg e a v) b = if b = a then v else simReg e b := by
  simp only [simReg, simSetReg, sparseGet_sparsePut h.2, BitVec.toNat_inj]

theorem simSize_csrCmdWord (d : Dir) (n : SizeCode) (a : Addr) : simSize (csrCmdWord d n a) = sizeBytes n := by
  obtain ⟨-, -, -, hsize, -⟩ := csrCmdWord_fields d n a
  unfold simSize
  rw [hsize]
  cases n <;> rfl

/-- A CSR write command stores the low lanes of `CSR_DATA` (R88). -/
theorem simRegWrite_csrWrite {e : SimEsc} (h : SimWf e) (n : SizeCode) (a : Addr) :
    simRegWrite e csrCmdReg (csrCmdWord .wr n a) =
      { simSetReg e csrCmdReg (csrCmdWord .wr n a) with
        mem := memWrite a.toNat (lanes 0 (sizeBytes n) (simReg e csrDataReg)) e.mem
        csrBusy := e.busyPolls } := by
  obtain ⟨hbusy, hread, -, -, haddr⟩ := csrCmdWord_fields .wr n a
  have hdata := simReg_simSetReg h csrCmdReg csrDataReg (csrCmdWord .wr n a)
  rw [if_neg (by decide)] at hdata
  simp only [simRegWrite, if_true, simCsrCommand, hbusy, hread, haddr, simSize_csrCmdWord, hdata, simSetReg_mem]
  rfl

/-- A CSR read command loads `CSR_DATA` from memory (R88). -/
theorem simRegWrite_csrRead (e : SimEsc) (n : SizeCode) (a : Addr) :
    simRegWrite e csrCmdReg (csrCmdWord .rd n a) =
      { simSetReg (simSetReg e csrCmdReg (csrCmdWord .rd n a)) csrDataReg
          (wordOf (memRead e.mem a.toNat (sizeBytes n))) with
        csrBusy := e.busyPolls } := by
  obtain ⟨hbusy, hread, -, -, haddr⟩ := csrCmdWord_fields .rd n a
  simp only [simRegWrite, if_true, simCsrCommand, hbusy, hread, haddr, simSize_csrCmdWord, simSetReg_mem]
  rfl

theorem getD_lanes (p n i : Nat) (v : Word) (h : i < n) : (lanes p n v).getD i 0 = lane (p + i) v := by
  rw [List.getD_eq_getElem _ _ (by simpa using h), getElem_lanes p n i v h]

theorem getD_memRead (m : Memory) (a n i : Nat) :
    (memRead m a n).getD i 0 = if i < n then memGet m (a + i) else 0 := by
  split
  · rename_i h
    rw [List.getD_eq_getElem _ _ (by simpa using h)]
    simp [memRead]
  · rename_i h
    exact List.getD_eq_default _ _ (by simpa using h)

/-- Settles O56: what the two commands do to the peripheral, byte by byte. -/
theorem csrCommandsMoveMemory : Obligations.CsrCommandsMoveMemory := by
  intro n a e s hready hwf hw
  constructor
  · obtain ⟨t, hexec, hsim⟩ := writeWord_sim_final csrCmdReg (csrCmdWord .wr n a) hready hw
    refine ⟨t, _, hexec, hsim, fun x hx => ?_⟩
    simp only [simRegWrite_csrWrite hwf, memGet_memWrite hwf.1, lanes_length, hx, and_true]
    split
    · rename_i hin
      rw [getD_lanes _ _ _ _ (by omega), Nat.zero_add]
      rfl
    · rfl
  · obtain ⟨t, hexec, hsim⟩ := writeWord_sim_final csrCmdReg (csrCmdWord .rd n a) hready hw
    refine ⟨t, _, hexec, hsim, fun x => ?_, fun j hj => ?_⟩
    · rw [simRegWrite_csrRead]
      rfl
    · have hreg : sparseGet (simRegWrite e csrCmdReg (csrCmdWord .rd n a)).reg 0x300 =
          wordOf (memRead e.mem a.toNat (sizeBytes n)) := by
        have h := simReg_simSetReg (simSetReg_wf csrCmdReg (csrCmdWord .rd n a) hwf) csrDataReg csrDataReg
          (wordOf (memRead e.mem a.toNat (sizeBytes n)))
        rw [if_pos rfl] at h
        rw [simRegWrite_csrRead]
        exact h
      rw [hreg, ← lane_eq_extract, wordOf, lane_packAt _ _ _ hj, if_pos (Nat.zero_le j), Nat.sub_zero, getD_memRead]

/-! ### The FIFO of a write transfer -/

/-- The address of lane 0 of the word a write transfer is at (R93). -/
def WrCtx.wordAddr (c : WrCtx) : Nat := c.addr - c.addr % 4 + 4 * c.k

/-- A byte read after one lane of a FIFO word was offered to memory (R93). -/
theorem memGet_simStoreLane {m : Memory} (h : Memory.wf m) (c : WrCtx) (v : Word) (j x : Nat) (hx : x < 0x10000) :
    memGet (simStoreLane c v m j) x =
      if x = c.wordAddr + j ∧ c.addr ≤ x ∧ x < c.addr + c.len then lane j v else memGet m x := by
  have e : simStoreLane c v m j =
      if c.addr ≤ c.wordAddr + j ∧ c.wordAddr + j < c.addr + c.len then memPut (c.wordAddr + j) (lane j v) m else m :=
    rfl
  rw [e]
  split
  · rename_i hin
    rw [memGet_memPut h]
    by_cases hxj : x = c.wordAddr + j
    · subst hxj
      simp [hx, hin]
    · simp [hxj]
  · rename_i hout
    rw [if_neg]
    rintro ⟨rfl, hin⟩
    exact hout hin

/-- A byte read after a whole FIFO word: its lanes in the programmed range, and no other (R93). -/
theorem memGet_fifoWord {m : Memory} (h : Memory.wf m) (c : WrCtx) (v : Word) (x : Nat) (hx : x < 0x10000) :
    memGet ((List.range 4).foldl (simStoreLane c v) m) x =
      if c.wordAddr ≤ x ∧ x < c.wordAddr + 4 ∧ c.addr ≤ x ∧ x < c.addr + c.len then lane (x - c.wordAddr) v
      else memGet m x := by
  have h1 := simStoreLane_wf c v 0 h
  have h2 := simStoreLane_wf c v 1 h1
  have h3 := simStoreLane_wf c v 2 h2
  have hrange : List.range 4 = [0, 1, 2, 3] := rfl
  simp only [hrange, List.foldl_cons, List.foldl_nil]
  rw [memGet_simStoreLane h3 _ _ _ _ hx, memGet_simStoreLane h2 _ _ _ _ hx, memGet_simStoreLane h1 _ _ _ _ hx,
    memGet_simStoreLane h _ _ _ _ hx]
  by_cases hin : c.addr ≤ x ∧ x < c.addr + c.len
  · simp only [hin, and_true]
    by_cases hword : c.wordAddr ≤ x ∧ x < c.wordAddr + 4
    · obtain ⟨j, rfl⟩ := Nat.exists_eq_add_of_le hword.1
      have hj : j = 0 ∨ j = 1 ∨ j = 2 ∨ j = 3 := by omega
      rcases hj with rfl | rfl | rfl | rfl <;> simp
    · rw [if_neg (by omega), if_neg (by omega), if_neg (by omega), if_neg (by omega), if_neg hword]
  · simp [hin]

/-- A word written to the FIFO of a write transfer (R93). -/
theorem simRegWrite_fifo {e : SimEsc} {c : WrCtx} (h : e.wrCtx = some c) (v : Word) :
    simRegWrite e (fifoReg .wr) v =
      { simSetReg e (fifoReg .wr) v with
        mem := (List.range 4).foldl (simStoreLane c v) e.mem
        wrCtx := some { c with k := c.k + 1 } } := by
  unfold simRegWrite
  dsimp only
  rw [if_neg (by decide), if_neg (by decide), if_neg (by decide), if_pos rfl]
  simp [simFifoWrite, simSetReg, h]

/-- Settles O57: the word frame is one write of the FIFO register, and that stores the lanes in the range. -/
theorem fifoWordStoresItsLanes : Obligations.FifoWordStoresItsLanes := by
  intro fbp n0 v c e s hready hwf hw hctx _
  have hsent := writeWord_sim (fifoReg .wr) v e (s.setWord v) hready.alone hready.between hw
  refine ⟨_, simRegWrite e (fifoReg .wr) v, (whenFrameClosed_of_closed (by simp [hw])).trans
    (by rw [sendFirstWord, hsent, thenDo_ok, finalState_ok]), rfl, ?_, fun x hx => ?_⟩
  · rw [simRegWrite_fifo hctx]
  · rw [simRegWrite_fifo hctx]
    exact memGet_fifoWord hwf.1 c v x hx

end Sys2Proof.Machine
end

section
/-! SUPPORT for the runs of READ and WRITE against the reference peripheral (O60; R83, R95). A host operation served by
an attached `SimESC` between its frames; what each frame and each poll loop leaves of that; and the CSR accesses, the
chunks and the refresh made of them. -/

namespace Sys2Proof.Machine

/-! ### Runs -/

/-- `t` comes some steps after `s`. -/
abbrev Runs : State → State → Prop := Relation.ReflTransGen fun s t => step s = .next t

theorem Runs.stepN {s t : State} (h : Runs s t) : ∃ k, Machine.stepN k s = .next t := by
  induction h using Relation.ReflTransGen.head_induction_on with
  | refl => exact ⟨0, rfl⟩
  | head hstep _ ih =>
    obtain ⟨k, hk⟩ := ih
    exact ⟨k + 1, (stepN_succ hstep).trans hk⟩

theorem Runs.of_step {s t : State} (h : step s = .next t) : Runs s t := .single h

/-- A step of a host operation in progress is a visit to its phase. -/
theorem step_host {s : State} (hc : s.seq.caller = .host) (hr : s.env.resetIn = .off) (hp : s.seq.ph ≠ .idle) :
    step s = .next (finalState (visitPhase s)) := by
  rw [step_busy hr (by simp [State.accepting, hc, hp])]
  unfold visit
  rw [hc]

/-! ### A host operation served by the peripheral -/

/-- The test knobs of the peripheral are the same, and it is in a frame where it was (R85). -/
structure SameKnobs (e e' : SimEsc) : Prop where
  frame : e'.frame = e.frame
  stuck : e'.stuck = e.stuck
  busyPolls : e'.busyPolls = e.busyPolls
  availPolls : e'.availPolls = e.availPolls

theorem SameKnobs.trans {e e' e'' : SimEsc} (h : SameKnobs e e') (k : SameKnobs e' e'') : SameKnobs e e'' :=
  ⟨k.frame.trans h.frame, k.stuck.trans h.stuck, k.busyPolls.trans h.busyPolls, k.availPolls.trans h.availPolls⟩

theorem simRegWrite_knobs (e : SimEsc) (a : Addr) (v : Word) : SameKnobs e (simRegWrite e a v) := by
  have same : SameKnobs e (simSetReg e a v) := ⟨rfl, rfl, rfl, rfl⟩
  refine same.trans ?_
  unfold simRegWrite
  dsimp only
  split
  · unfold simCsrCommand
    split
    · dsimp only
      split <;> exact ⟨rfl, rfl, rfl, rfl⟩
    · exact ⟨rfl, rfl, rfl, rfl⟩
  · split
    · unfold simReadCommand
      split <;> [skip; split] <;> exact ⟨rfl, rfl, rfl, rfl⟩
    · split
      · unfold simWriteCommand
        split <;> [skip; split] <;> exact ⟨rfl, rfl, rfl, rfl⟩
      · split
        · unfold simFifoWrite
          split <;> exact ⟨rfl, rfl, rfl, rfl⟩
        · exact ⟨rfl, rfl, rfl, rfl⟩

theorem simReadCsrCmd_knobs (e : SimEsc) : SameKnobs e (simReadCsrCmd e).2 := by
  unfold simReadCsrCmd
  dsimp only
  split <;> [skip; split] <;> exact ⟨rfl, rfl, rfl, rfl⟩

theorem simReadRdCmd_knobs (e : SimEsc) : SameKnobs e (simReadRdCmd e).2 := by
  unfold simReadRdCmd
  split <;> [skip; (split <;> [split; skip])] <;> exact ⟨rfl, rfl, rfl, rfl⟩

theorem simReadWrCmd_knobs (e : SimEsc) : SameKnobs e (simReadWrCmd e).2 := by
  unfold simReadWrCmd
  split
  · exact ⟨rfl, rfl, rfl, rfl⟩
  · split
    · exact ⟨rfl, rfl, rfl, rfl⟩
    · split <;> [split; skip] <;> exact ⟨rfl, rfl, rfl, rfl⟩

theorem simRegRead_knobs (e : SimEsc) (a : Addr) : SameKnobs e (simRegRead e a).2 := by
  unfold simRegRead
  split
  · exact simReadCsrCmd_knobs e
  · split
    · exact simReadRdCmd_knobs e
    · split
      · exact simReadWrCmd_knobs e
      · split
        · unfold simFifoRead
          split <;> exact ⟨rfl, rfl, rfl, rfl⟩
        · split <;> [skip; split] <;> exact ⟨rfl, rfl, rfl, rfl⟩

/-- A host operation is in progress, its wire between frames, and the peripheral `e` answers it alone. -/
structure Serving (e : SimEsc) (s : State) : Prop where
  caller : s.seq.caller = .host
  resetIn : s.env.resetIn = .off
  wire : s.wire = Wire.idle
  ready : SimReady e s
  wf : SimWf e

theorem Serving.step {e : SimEsc} {s : State} (h : Serving e s) (hp : s.seq.ph ≠ .idle) :
    Machine.step s = .next (finalState (visitPhase s)) :=
  step_host h.caller h.resetIn hp

/-- A change of the block that touches neither the wire nor the environment. -/
theorem Serving.change {e : SimEsc} {s t : State} (h : Serving e s) (caller : t.seq.caller = s.seq.caller := by rfl)
    (wire : t.wire = s.wire := by rfl) (env : t.env = s.env := by rfl) : Serving e t :=
  ⟨caller.trans h.caller, by rw [env, h.resetIn], wire.trans h.wire, by
    unfold SimReady
    rw [env]
    exact h.ready, h.wf⟩

/-- The peripheral has become `e'`, with the same knobs. -/
theorem Serving.serve {e e' : SimEsc} {s t : State} (h : Serving e s) (knobs : SameKnobs e e') (wf : SimWf e')
    (caller : t.seq.caller = s.seq.caller := by rfl) (wire : t.wire = s.wire := by rfl)
    (env : t.env = { s.env with sim := some e' } := by rfl) : Serving e' t := by
  obtain ⟨hcaller, hreset, hwire, ⟨-, hscript, hfault, hframe, hstuck, hbusy, havail⟩, -⟩ := h
  refine ⟨caller.trans hcaller, by rw [env, hreset], wire.trans hwire, ?_, wf⟩
  refine ⟨by rw [env], by rw [env, hscript], by rw [env, hfault], knobs.frame.trans hframe, knobs.stuck.trans hstuck,
    ?_, ?_⟩ <;> rw [env]
  · rw [knobs.busyPolls]
    exact hbusy
  · rw [knobs.availPolls]
    exact havail

/-- `WRITE_WORD` is one register write, and the block is the same (R86). -/
theorem Serving.writeWord {e : SimEsc} {s : State} (h : Serving e s) (reg : Addr) (v : Word) :
    ∃ t, Machine.writeWord reg v s = .ok () t ∧ SameBlock s t ∧ Serving (simRegWrite e reg v) t :=
  ⟨_, writeWord_sim reg v e s h.ready.alone h.ready.between h.wire, ⟨rfl, rfl, rfl, rfl, rfl, rfl, rfl, rfl, rfl⟩,
    h.serve (simRegWrite_knobs e reg v) (simRegWrite_wf reg v h.wf)⟩

/-- `READ_WORD` is one register read, and the block is the same (R86). -/
theorem Serving.readWord {e : SimEsc} {s : State} (h : Serving e s) (reg : Addr) :
    ∃ t, Machine.readWord reg s = .ok (simRegRead e reg).1 t ∧ SameBlock s t ∧ Serving (simRegRead e reg).2 t :=
  ⟨_, readWord_sim reg e s h.ready.alone h.ready.between h.wire, ⟨rfl, rfl, rfl, rfl, rfl, rfl, rfl, rfl, rfl⟩,
    h.serve (simRegRead_knobs e reg) (simRegRead_wf reg h.wf)⟩

/-! ### What stays during a host operation -/

/-- The request, what the host sees, and the parameters. -/
structure Carried (s t : State) : Prop where
  latch : t.latch = s.latch
  vis : t.vis = s.vis
  wbuf : t.buf.wbuf = s.buf.wbuf
  params : t.env.params = s.env.params

/-- Besides, what the router goes by, and the bytes of a READ so far. -/
structure Quiet (s t : State) : Prop extends Carried s t where
  refresh : t.seq.refresh = s.seq.refresh
  rbuf : t.buf.rbuf = s.buf.rbuf
  addr : t.work.addr = s.work.addr
  rem : t.work.rem = s.work.rem
  cur : t.work.cur = s.work.cur
  size : t.work.size = s.work.size

theorem Carried.trans {s t u : State} (h : Carried s t) (k : Carried t u) : Carried s u :=
  ⟨k.latch.trans h.latch, k.vis.trans h.vis, k.wbuf.trans h.wbuf, k.params.trans h.params⟩

theorem Quiet.trans {s t u : State} (h : Quiet s t) (k : Quiet t u) : Quiet s u :=
  ⟨h.toCarried.trans k.toCarried, k.refresh.trans h.refresh, k.rbuf.trans h.rbuf, k.addr.trans h.addr,
    k.rem.trans h.rem, k.cur.trans h.cur, k.size.trans h.size⟩

theorem SameBlock.quiet {s t : State} (h : SameBlock s t) : Quiet s t :=
  ⟨⟨h.latch, h.vis, by rw [h.buf], h.params⟩, by rw [h.seq], by rw [h.buf], by rw [h.work], by rw [h.work],
    by rw [h.work], by rw [h.work]⟩

theorem toPhase_quiet (p : Phase) (s : State) : Quiet s (s.toPhase p) :=
  ⟨⟨rfl, rfl, rfl, rfl⟩, rfl, rfl, rfl, rfl, rfl, rfl⟩

theorem beginPoll_quiet (p : Phase) (s : State) : Quiet s (beginPoll p s) :=
  ⟨⟨rfl, rfl, rfl, rfl⟩, rfl, rfl, rfl, rfl, rfl, rfl⟩

theorem setWord_quiet (v : Word) (s : State) : Quiet s (s.setWord v) :=
  ⟨⟨rfl, rfl, rfl, rfl⟩, rfl, rfl, rfl, rfl, rfl, rfl⟩

theorem takeCsrData_quiet (n : Nat) (v : Word) (s : State) : Quiet s (takeCsrData n v s) :=
  ⟨⟨rfl, rfl, rfl, rfl⟩, rfl, rfl, rfl, rfl, rfl, rfl⟩

/-! ### Poll loops -/

/-- The peripheral shows the flag of a poll at the read after `n` that do not, and is then `e'`. -/
inductive ReadyAfter (kind : PollKind) (reg : Addr) : Nat → SimEsc → SimEsc → Prop
  | now {e : SimEsc} (h : pollReady kind (simRegRead e reg).1 = true) : ReadyAfter kind reg 0 e (simRegRead e reg).2
  | later {n : Nat} {e e' : SimEsc} (h : pollReady kind (simRegRead e reg).1 = false)
      (next : ReadyAfter kind reg n (simRegRead e reg).2 e') : ReadyAfter kind reg (n + 1) e e'

/-- A countdown: each read that is not ready takes one off. -/
theorem readyAfter_countdown {kind : PollKind} {reg : Addr} (f : Nat → SimEsc)
    (later : ∀ n, ∃ w, simRegRead (f (n + 1)) reg = (w, f n) ∧ pollReady kind w = false)
    (now : ∃ w, simRegRead (f 0) reg = (w, f 0) ∧ pollReady kind w = true) (n : Nat) :
    ReadyAfter kind reg n (f n) (f 0) := by
  induction n with
  | zero =>
    obtain ⟨w, hread, hw⟩ := now
    have := ReadyAfter.now (kind := kind) (reg := reg) (e := f 0) (by rw [hread]; exact hw)
    rwa [hread] at this
  | succ n ih =>
    obtain ⟨w, hread, hw⟩ := later n
    exact .later (by rw [hread]; exact hw) (by rw [hread]; exact ih)

theorem polled_quiet (v : Word) (s : State) : Quiet s (polled v s) :=
  ⟨⟨rfl, rfl, rfl, rfl⟩, rfl, rfl, rfl, rfl, rfl, rfl⟩

theorem loadFifoCnt_quiet (v : Word) (s : State) : Quiet s (loadFifoCnt v s) := by
  unfold loadFifoCnt
  split <;> exact ⟨⟨rfl, rfl, rfl, rfl⟩, rfl, rfl, rfl, rfl, rfl, rfl⟩

theorem Serving.loadFifoCnt {e : SimEsc} {s : State} (h : Serving e s) (v : Word) :
    Serving e (Machine.loadFifoCnt v s) := by
  unfold Machine.loadFifoCnt
  split <;> exact h.change

/-- A read of a poll loop that shows the flag ends it. -/
theorem Serving.poll_ready {e : SimEsc} {s : State} (h : Serving e s) {kind : PollKind} {reg : Addr}
    (done : State → State) (hw : pollReady kind (simRegRead e reg).1 = true) :
    ∃ u, visitPoll kind reg done s = .ok () (done u) ∧ Quiet s u ∧ u.seq = s.seq ∧
      Serving (simRegRead e reg).2 u := by
  obtain ⟨t, hread, same, serving⟩ := h.readWord reg
  have counted : Quiet s (polled (simRegRead e reg).1 t) := same.quiet.trans (polled_quiet _ t)
  have hpoll : visitPoll kind reg done s = .ok () (done
      (if kind = .fifoAvail then Machine.loadFifoCnt (simRegRead e reg).1 (polled (simRegRead e reg).1 t)
        else polled (simRegRead e reg).1 t)) := by
    simp only [visitPoll, pollOnce, hread, andThen_ok, hw, if_true]
    rfl
  refine ⟨_, hpoll, ?_⟩
  split
  · exact ⟨counted.trans (loadFifoCnt_quiet _ _), (loadFifoCnt_still _ _).seq.trans same.seq,
      Serving.loadFifoCnt (Serving.change serving) _⟩
  · exact ⟨counted, same.seq, serving.change⟩

/-- A read of a poll loop that does not show the flag goes on within the limit. -/
theorem Serving.poll_on {e : SimEsc} {s : State} (h : Serving e s) {kind : PollKind} {reg : Addr}
    (done : State → State) (hw : pollReady kind (simRegRead e reg).1 = false)
    (hlimit : limitReached s.env.params (s.work.polls + 1) = false) :
    ∃ u, visitPoll kind reg done s = .ok () u ∧ Quiet s u ∧ u.seq = s.seq ∧ u.work.polls = s.work.polls + 1 ∧
      Serving (simRegRead e reg).2 u := by
  obtain ⟨t, hread, same, serving⟩ := h.readWord reg
  have hlimit' : limitReached t.env.params (t.work.polls + 1) = false := by rw [same.params, same.work, hlimit]
  have hpoll : visitPoll kind reg done s = .ok () (polled (simRegRead e reg).1 t) := by
    simp only [visitPoll, pollOnce, hread, andThen_ok, hw, Bool.false_eq_true, if_false]
    rw [if_neg (by simp [hlimit'])]
    rfl
  exact ⟨_, hpoll, same.quiet.trans (polled_quiet _ t), same.seq, by simp [polled, same.work], serving.change⟩

theorem limitReached_of_allows {p : Params} {polls n : Nat} (h : LimitAllows p (polls + (n + 1))) :
    limitReached p (polls + 1) = false := by
  unfold limitReached
  cases hp : p.pollLimit with
  | none => rfl
  | some limit =>
    have := h limit hp
    simp
    omega

/-- A poll loop runs to the read that shows the flag. -/
theorem ReadyAfter.runs {kind : PollKind} {reg : Addr} {n : Nat} {e e' : SimEsc} (h : ReadyAfter kind reg n e e')
    {s : State} (hs : Serving e s) (done : State → State) (hp : s.seq.ph ≠ .idle)
    (hvisit : ∀ t, t.seq = s.seq → t.latch = s.latch → visitPhase t = visitPoll kind reg done t)
    (hlimit : LimitAllows s.env.params (s.work.polls + n)) :
    ∃ u, Runs s (done u) ∧ Quiet s u ∧ u.seq = s.seq ∧ Serving e' u := by
  induction h generalizing s with
  | now hw =>
    obtain ⟨u, hpoll, quiet, hseq, serving⟩ := hs.poll_ready done hw
    refine ⟨u, .of_step ?_, quiet, hseq, serving⟩
    rw [hs.step hp, hvisit s rfl rfl, hpoll, finalState_ok]
  | later hw next ih =>
    obtain ⟨t, hpoll, quiet, hseq, hpolls, serving⟩ := hs.poll_on done hw (limitReached_of_allows hlimit)
    have hstep : Machine.step s = .next t := by rw [hs.step hp, hvisit s rfl rfl, hpoll, finalState_ok]
    obtain ⟨u, hrun, quiet', hseq', serving'⟩ := ih serving (hseq ▸ hp)
      (fun v hv hl => hvisit v (hv.trans hseq) (hl.trans quiet.latch)) (by
        rw [quiet.params, hpolls]
        intro limit hl
        have := hlimit limit hl
        omega)
    exact ⟨u, .head hstep hrun, quiet.trans quiet', hseq'.trans hseq, serving'⟩

/-- A command is written to a register, and the poll of a register that follows runs to its end: the peripheral has
done the command, and counted down. -/
theorem Serving.command_runs {e e₁ e₂ : SimEsc} {s : State} (h : Serving e s) {cmd reg : Addr} {v : Word} {p : Phase}
    {kind : PollKind} {n : Nat} {done : State → State} (hp : s.seq.ph ≠ .idle) (hp' : p ≠ .idle)
    (hcommand : visitPhase s = thenDo (Machine.writeWord cmd v s) (beginPoll p))
    (hpoll : ∀ t, t.seq = { s.seq with ph := p } → t.latch = s.latch → visitPhase t = visitPoll kind reg done t)
    (he : simRegWrite e cmd v = e₁) (hready : ReadyAfter kind reg n e₁ e₂) (hlimit : LimitAllows s.env.params n) :
    ∃ u, Runs s (done u) ∧ Quiet s u ∧ u.seq = { s.seq with ph := p } ∧ Serving e₂ u := by
  obtain ⟨t, hwrite, same, serving⟩ := h.writeWord cmd v
  rw [he] at serving
  have hstep : Machine.step s = .next (beginPoll p t) := by rw [h.step hp, hcommand, hwrite, thenDo_ok, finalState_ok]
  have hseq : (beginPoll p t).seq = { s.seq with ph := p } := by rw [← same.seq]; rfl
  have begun : Serving e₁ (beginPoll p t) := serving.change
  have quiet := same.quiet.trans (beginPoll_quiet p t)
  obtain ⟨u, hrun, quiet', hseq', serving'⟩ := hready.runs begun done hp'
    (fun v hv hl => hpoll v (hv.trans hseq) (hl.trans quiet.latch)) (by
      rw [quiet.params]
      simpa [beginPoll] using hlimit)
  exact ⟨u, .head hstep hrun, quiet.trans quiet', hseq'.trans hseq, serving'⟩

/-! ### CSR accesses -/

theorem busyBit_withBusy (v : Word) : busyBit (withBusy v) = true := by
  simp [busyBit, withBusy]

theorem busyBit_withoutBusy (v : Word) : busyBit (withoutBusy v) = false := by
  simp [busyBit, withoutBusy]

/-- `CSR_CMD` shows busy for the reads the command has set, then not busy (R89). -/
theorem readyAfter_csrCmd {e : SimEsc} (h : e.stuck = false) :
    ReadyAfter .busyClear csrCmdReg e.csrBusy e { e with csrBusy := 0 } := by
  refine readyAfter_countdown (fun n => { e with csrBusy := n })
    (fun n => ⟨withBusy (simReg e csrCmdReg), ?_, by simp [pollReady, busyBit_withBusy]⟩)
    ⟨withoutBusy (simReg e csrCmdReg), ?_, by simp [pollReady, busyBit_withoutBusy]⟩ e.csrBusy
  · simp [simRegRead, simReadCsrCmd, h, simReg]
  · simp [simRegRead, simReadCsrCmd, h, simReg]

/-- The operands of a CSR access on behalf of a host operation stand in registers that stay (log 26). -/
theorem Quiet.csr_operands {s t : State} (h : Quiet s t) (hc : s.seq.caller = .host) (hc' : t.seq.caller = .host) :
    csrDir t = csrDir s ∧ csrAddr t = csrAddr s ∧ csrLen t = csrLen s := by
  refine ⟨?_, ?_, ?_⟩
  · simp only [csrDir, h.refresh, hc, hc', h.latch]
  · simp only [csrAddr, h.refresh, hc, hc', h.params, h.addr]
  · simp only [csrLen, h.refresh, hc, hc', h.size]

theorem simRegRead_csrData (e : SimEsc) : simRegRead e csrDataReg = (simReg e csrDataReg, e) := rfl

/-- From the command on, a CSR access of a host operation comes to its poll's end; the peripheral has done what the
command says, and shows it in `CSR_DATA`. -/
theorem csrCommand_runs {e : SimEsc} {s : State} {n : SizeCode} (h : Serving e s) (hp : s.seq.ph = .cCmd)
    (hn : csrLen s = sizeBytes n) :
    ∃ u, Runs s (csrReady u) ∧ Quiet s u ∧
      Serving { simRegWrite e csrCmdReg (csrCmdWord (csrDir s) n (csrAddr s)) with csrBusy := 0 } u := by
  generalize he : simRegWrite e csrCmdReg (csrCmdWord (csrDir s) n (csrAddr s)) = e₁
  have hbusy : e₁.csrBusy = e.busyPolls := by
    rw [← he]
    cases csrDir s with
    | rd => rw [simRegWrite_csrRead]
    | wr => rw [simRegWrite_csrWrite h.wf]
  obtain ⟨-, -, -, -, hstuck, hallows, -⟩ := h.ready
  have hready := readyAfter_csrCmd (e := e₁) (he ▸ (simRegWrite_knobs _ _ _).stuck.trans hstuck)
  rw [hbusy] at hready
  obtain ⟨u, hrun, quiet, -, serving⟩ := h.command_runs (by simp [hp]) (p := .cPoll) (by decide)
    (by simp only [visitPhase, hp, visitCCmd, hn, sizeCodeOf_sizeBytes]; rfl)
    (fun t ht _ => by simp only [visitPhase, ht]; rfl) he hready hallows
  exact ⟨u, hrun, quiet, serving⟩

/-- A word's lanes, after as many bytes as there are have been put into it. -/
theorem lanes_wordOf_memRead (m : Memory) (a p n : Nat) {k : Nat} (hk : k ≤ 4) (h : p + n ≤ k) :
    lanes p n (wordOf (memRead m a k)) = memRead m (a + p) n := by
  refine List.ext_getElem (by simp) fun i hi _ => ?_
  have hin : i < n := by simpa using hi
  rw [getElem_lanes _ _ _ _ hin, wordOf, lane_packAt _ _ _ (by omega), if_pos (Nat.zero_le _), Nat.sub_zero,
    getD_memRead, if_pos (by omega)]
  simp [memRead, Nat.add_assoc]

theorem sizeBytes_le (n : SizeCode) : sizeBytes n ≤ 4 := by cases n <;> decide

/-- A CSR read on behalf of a host operation returns the bytes of memory, and leaves it (R171). -/
theorem csrRead_runs {e : SimEsc} {s : State} {n : SizeCode} (h : Serving e s) (hp : s.seq.ph = .cCmd)
    (hd : csrDir s = .rd) (hn : csrLen s = sizeBytes n) :
    ∃ u e', Runs s (csrReturn u) ∧ Quiet s u ∧ Serving e' u ∧ e'.mem = e.mem ∧
      u.buf.res = memRead e.mem (csrAddr s).toNat (sizeBytes n) := by
  obtain ⟨t, hrun, quiet, serving⟩ := csrCommand_runs h hp hn
  obtain ⟨hd', -, hn'⟩ := quiet.csr_operands h.caller serving.caller
  rw [hd, simRegWrite_csrRead] at serving
  have hfetch : csrReady t = t.toPhase .cFetch := if_pos (hd'.trans hd)
  have fetching : Serving _ (t.toPhase .cFetch) := serving.change
  obtain ⟨u, hread, same, serving'⟩ := fetching.readWord csrDataReg
  rw [simRegRead_csrData] at hread serving'
  have quiet' : Quiet s u := (quiet.trans (toPhase_quiet _ t)).trans same.quiet
  have hlen : csrLen u = sizeBytes n :=
    (quiet'.csr_operands h.caller serving'.caller).2.2.trans hn
  have hdata : simReg (simSetReg (simSetReg e csrCmdReg (csrCmdWord .rd n (csrAddr s))) csrDataReg
      (wordOf (memRead e.mem (csrAddr s).toNat (sizeBytes n)))) csrDataReg =
      wordOf (memRead e.mem (csrAddr s).toNat (sizeBytes n)) := by
    rw [simReg_simSetReg (simSetReg_wf _ _ h.wf), if_pos rfl]
  have hstep := fetching.step (by simp)
  simp only [visitPhase, State.toPhase_seq_ph, visitCFetch, hread, andThen_ok, finalState_ok, hlen] at hstep
  refine ⟨_, _, (hfetch ▸ hrun).tail hstep, quiet'.trans (takeCsrData_quiet _ _ u), serving'.change, rfl, ?_⟩
  have hlanes := lanes_wordOf_memRead e.mem (csrAddr s).toNat 0 (sizeBytes n) (sizeBytes_le n) (by omega)
  rw [← hdata] at hlanes
  exact hlanes

/-- A CSR write on behalf of the router stores its bytes (R172). -/
theorem csrWrite_runs {e : SimEsc} {s : State} {n : SizeCode} (h : Serving e s) (hp : s.seq.ph = .cData)
    (hd : csrDir s = .wr) (hn : csrLen s = sizeBytes n) (hbytes : (csrBytes s).length = sizeBytes n) :
    ∃ u e', Runs s (csrReturn u) ∧ Quiet s u ∧ Serving e' u ∧
      e'.mem = memWrite (csrAddr s).toNat (csrBytes s) e.mem := by
  have worded : Serving e (s.setWord (packAt 0 (csrBytes s))) := h.change
  obtain ⟨t, hwrite, same, serving⟩ := worded.writeWord csrDataReg (packAt 0 (csrBytes s))
  have hstep : Machine.step s = .next (t.toPhase .cCmd) := by
    rw [h.step (by simp [hp])]
    simp only [visitPhase, hp, visitCData, sendCsrData, hwrite, thenDo_ok, finalState_ok]
  have quiet : Quiet s (t.toPhase .cCmd) := ((setWord_quiet _ s).trans same.quiet).trans (toPhase_quiet _ t)
  have commanding : Serving _ (t.toPhase .cCmd) := serving.change
  obtain ⟨hd', ha', hn'⟩ := quiet.csr_operands h.caller commanding.caller
  obtain ⟨u, hrun, quiet', serving'⟩ := csrCommand_runs commanding rfl (hn'.trans hn)
  rw [hd', hd, ha'] at serving'
  have quiet'' := quiet.trans quiet'
  have hdone : csrReady u = csrReturn u := by
    have := (quiet''.csr_operands h.caller serving'.caller).1.trans hd
    unfold csrReady
    rw [if_neg (by simp [this])]
  have hset : simRegWrite e csrDataReg (packAt 0 (csrBytes s)) = simSetReg e csrDataReg (packAt 0 (csrBytes s)) := rfl
  have hdata := simReg_simSetReg h.wf csrDataReg csrDataReg (packAt 0 (csrBytes s))
  rw [if_pos rfl] at hdata
  have hlanes := lanes_packAt (csrBytes s) 0 (by rw [hbytes]; exact (Nat.zero_add _).le.trans (sizeBytes_le n))
  refine ⟨u, _, .head hstep (hdone ▸ hrun), quiet'', serving', ?_⟩
  rw [hset, simRegWrite_csrWrite (simSetReg_wf _ _ h.wf), hdata, ← hbytes, hlanes]
  rfl

end Sys2Proof.Machine
end

section
/-! SUPPORT for O60: the chunks of a request on the CSR path and the refresh at its end (R201 to R206), served by the
reference peripheral. -/

namespace Sys2Proof.Machine

/-! ### One chunk -/

theorem csrReturn_host {s : State} (hc : s.seq.caller = .host) (hr : s.seq.refresh = false) :
    csrReturn s = chunkDone s := by
  unfold csrReturn
  rw [if_neg (by simp [hr]), hc]

/-- A chunk of `n` bytes has been served, and the cursors are advanced (R203, R204). -/
structure ChunkServed (n : Nat) (s t : State) : Prop extends Carried s t where
  ph : t.seq.ph = .rChunk
  refresh : t.seq.refresh = false
  addr : s.work.addr.toNat + n < 0x10000 → t.work.addr.toNat = s.work.addr.toNat + n
  cur : s.work.cur.toNat + n < 0x10000 → t.work.cur.toNat = s.work.cur.toNat + n
  rem : t.work.rem.toNat = s.work.rem.toNat - n

theorem chunkDone_work (s : State) :
    (chunkDone s).work = { s.work with
      addr := s.work.addr + s.work.size.zeroExtend 16
      cur := s.work.cur + s.work.size.zeroExtend 16
      rem := s.work.rem - s.work.size.zeroExtend 16 } := by
  unfold chunkDone
  split <;> rfl

theorem chunkDone_rbuf_of_read {s : State} (h : s.latch.op = .read) :
    (chunkDone s).buf.rbuf = s.buf.rbuf.take s.work.cur.toNat ++ s.buf.res := by
  simp [chunkDone, h]

theorem chunkDone_carried (s : State) : Carried s (chunkDone s) := by
  unfold chunkDone
  split <;> exact ⟨rfl, rfl, rfl, rfl⟩

theorem Serving.chunkDone {e : SimEsc} {s : State} (h : Serving e s) : Serving e (Machine.chunkDone s) := by
  unfold Machine.chunkDone
  split <;> exact h.change

theorem toNat_zeroExtend_size (n : BitVec 3) : (n.zeroExtend 16).toNat = n.toNat := by
  simp
  omega

/-- The cursors after a chunk whose size is no more than what remains. -/
theorem chunkServed_chunkDone {s u : State} (h : Quiet s u) (hr : s.seq.refresh = false)
    (hle : u.work.size.toNat ≤ s.work.rem.toNat) : ChunkServed u.work.size.toNat s (chunkDone u) := by
  refine ⟨h.toCarried.trans (chunkDone_carried u), by rw [chunkDone_seq], ?_, fun hlt => ?_, fun hlt => ?_, ?_⟩ <;>
    simp only [chunkDone_work, chunkDone_seq]
  · exact h.refresh.trans hr
  · rw [h.addr, BitVec.toNat_add, toNat_zeroExtend_size, Nat.mod_eq_of_lt hlt]
  · rw [h.cur, BitVec.toNat_add, toNat_zeroExtend_size, Nat.mod_eq_of_lt hlt]
  · rw [h.rem, BitVec.toNat_sub_of_le (by rw [BitVec.le_def, toNat_zeroExtend_size]; exact hle),
      toNat_zeroExtend_size]

/-- The router starts the next chunk: a CSR access of its size at its address (R201, R203, R204). -/
def startChunk (s : State) : State :=
  (s.setSize (chunkSize s.work.addr s.work.rem)).toPhase (if s.latch.op = .write then .cData else .cCmd)

/-- A chunk has one of the three sizes of R111, and no more bytes than remain (R202). -/
theorem chunkSize_sizeBytes (a : Addr) {rem : BitVec 16} (h : rem ≠ 0) :
    ∃ n, (chunkSize a rem).toNat = sizeBytes n ∧ sizeBytes n ≤ rem.toNat := by
  obtain ⟨hsize, hle⟩ := chunkSize_cases a rem h
  rcases hsize with e | e | e <;> rw [e] at hle ⊢
  · exact ⟨.one, rfl, hle⟩
  · exact ⟨.two, rfl, hle⟩
  · exact ⟨.four, rfl, hle⟩

/-- The operands of the CSR access a chunk is (log 26). -/
theorem startChunk_operands {s : State} (hc : s.seq.caller = .host) (hr : s.seq.refresh = false) :
    csrDir (startChunk s) = (if s.latch.op = .write then .wr else .rd) ∧ csrAddr (startChunk s) = s.work.addr ∧
      csrLen (startChunk s) = (chunkSize s.work.addr s.work.rem).toNat := by
  have hc' : (startChunk s).seq.caller = .host := hc
  have hr' : (startChunk s).seq.refresh = false := hr
  refine ⟨?_, ?_, ?_⟩
  · unfold csrDir
    rw [hr', hc']
    rfl
  · unfold csrAddr
    rw [hr', hc']
    rfl
  · unfold csrLen
    rw [hr', hc']
    rfl

theorem step_chunk {e : SimEsc} {s : State} (h : Serving e s) (hp : s.seq.ph = .rChunk) (hr : s.seq.refresh = false)
    (h0 : s.work.rem ≠ 0) : Machine.step s = .next (startChunk s) := by
  obtain ⟨n, hn, -⟩ := chunkSize_sizeBytes s.work.addr h0
  obtain ⟨hd, -, hlen⟩ := startChunk_operands h.caller hr
  have hlen' : csrLen (s.setSize (chunkSize s.work.addr s.work.rem)) = sizeBytes n := hlen.trans hn
  have hd' : csrDir (s.setSize (chunkSize s.work.addr s.work.rem)) = if s.latch.op = .write then .wr else .rd := hd
  rw [h.step (by simp [hp])]
  simp only [visitPhase, hp, visitRChunk, if_neg h0, enterCsr, hlen', sizeCodeOf_sizeBytes, hd', finalState_ok,
    startChunk]
  cases s.latch.op <;> rfl

/-- What the access of a chunk has done is done to the router's state: only the size and the phase were set. -/
theorem ChunkServed.of_start {n : Nat} {s t : State} (h : ChunkServed n (startChunk s) t) : ChunkServed n s t :=
  ⟨⟨h.latch, h.vis, h.wbuf, h.params⟩, h.ph, h.refresh, h.addr, h.cur, h.rem⟩

/-- A chunk of a READ: its bytes of memory go into `RBUF` (R203). -/
theorem readChunk_runs {e : SimEsc} {s : State} (h : Serving e s) (hp : s.seq.ph = .rChunk)
    (hr : s.seq.refresh = false) (hop : s.latch.op = .read) (h0 : s.work.rem ≠ 0) :
    ∃ n t e', 1 ≤ n ∧ n ≤ s.work.rem.toNat ∧ Runs s t ∧ ChunkServed n s t ∧ Serving e' t ∧ e'.mem = e.mem ∧
      t.buf.rbuf = s.buf.rbuf.take s.work.cur.toNat ++ memRead e.mem s.work.addr.toNat n := by
  obtain ⟨n, hn, hle⟩ := chunkSize_sizeBytes s.work.addr h0
  obtain ⟨hd, ha, hlen⟩ := startChunk_operands h.caller hr
  have starting : Serving e (startChunk s) := h.change
  obtain ⟨u, e', hrun, quiet, serving, hmem, hres⟩ :=
    csrRead_runs starting (by simp [startChunk, hop]) (by simp [hd, hop]) (hlen.trans hn)
  rw [csrReturn_host serving.caller (quiet.refresh.trans hr)] at hrun
  have hsize : u.work.size.toNat = sizeBytes n := by rw [quiet.size]; exact hn
  have served := chunkServed_chunkDone quiet hr (hsize ▸ hle)
  rw [hsize] at served
  refine ⟨sizeBytes n, _, e', by cases n <;> decide, hle, .head (step_chunk h hp hr h0) hrun, served.of_start,
    serving.chunkDone, hmem, ?_⟩
  rw [chunkDone_rbuf_of_read (by rw [quiet.latch]; exact hop), hres, quiet.rbuf, quiet.cur, ha]
  rfl

/-- A chunk of a WRITE: its bytes of `WBUF` go into memory (R204). -/
theorem writeChunk_runs {e : SimEsc} {s : State} (h : Serving e s) (hp : s.seq.ph = .rChunk)
    (hr : s.seq.refresh = false) (hop : s.latch.op = .write) (h0 : s.work.rem ≠ 0)
    (hbuf : s.work.cur.toNat + s.work.rem.toNat ≤ s.buf.wbuf.length) :
    ∃ n t e', 1 ≤ n ∧ n ≤ s.work.rem.toNat ∧ Runs s t ∧ ChunkServed n s t ∧ Serving e' t ∧
      e'.mem = memWrite s.work.addr.toNat ((s.buf.wbuf.drop s.work.cur.toNat).take n) e.mem := by
  obtain ⟨n, hn, hle⟩ := chunkSize_sizeBytes s.work.addr h0
  obtain ⟨hd, ha, hlen⟩ := startChunk_operands h.caller hr
  have hbytes : csrBytes (startChunk s) = (s.buf.wbuf.drop s.work.cur.toNat).take (sizeBytes n) := by
    have hc : (startChunk s).seq.caller = .host := h.caller
    unfold csrBytes
    rw [hc, ← hn]
    rfl
  have starting : Serving e (startChunk s) := h.change
  obtain ⟨u, e', hrun, quiet, serving, hmem⟩ :=
    csrWrite_runs starting (by simp [startChunk, hop]) (by simp [hd, hop]) (hlen.trans hn) (by
      rw [hbytes, List.length_take, List.length_drop]
      omega)
  rw [csrReturn_host serving.caller (quiet.refresh.trans hr)] at hrun
  have hsize : u.work.size.toNat = sizeBytes n := by rw [quiet.size]; exact hn
  have served := chunkServed_chunkDone quiet hr (hsize ▸ hle)
  rw [hsize] at served
  refine ⟨sizeBytes n, _, e', by cases n <;> decide, hle, .head (step_chunk h hp hr h0) hrun, served.of_start,
    serving.chunkDone, ?_⟩
  rw [hmem, ha, hbytes]

/-! ### All chunks -/

theorem memRead_add (m : Memory) (a i j : Nat) : memRead m a (i + j) = memRead m a i ++ memRead m (a + i) j := by
  simp [memRead, List.range_add, Nat.add_assoc]

theorem memWrite_append (a : Nat) (xs ys : List Byte) (m : Memory) :
    memWrite a (xs ++ ys) m = memWrite (a + xs.length) ys (memWrite a xs m) := by
  induction xs generalizing a m with
  | nil => rfl
  | cons x xs ih =>
    simp only [List.cons_append, memWrite, ih, List.length_cons]
    rw [show a + 1 + xs.length = a + (xs.length + 1) by omega]

/-- The bytes from `i` on, written as the next `n` of them and then the others. -/
theorem memWrite_drop (a i n : Nat) (bs : List Byte) (m : Memory) (h : i + n ≤ bs.length) :
    memWrite a (bs.drop i) m = memWrite (a + n) (bs.drop (i + n)) (memWrite a ((bs.drop i).take n) m) := by
  have hlen : ((bs.drop i).take n).length = n := by
    rw [List.length_take, List.length_drop]
    omega
  have happend := memWrite_append a ((bs.drop i).take n) ((bs.drop i).drop n) m
  rwa [List.take_append_drop, List.drop_drop, hlen] at happend

/-- With nothing remaining the router goes on to the refresh (R203, R204). -/
theorem step_chunks_done {e : SimEsc} {s : State} (h : Serving e s) (hp : s.seq.ph = .rChunk)
    (h0 : s.work.rem = 0) : Machine.step s = .next (s.toPhase .rAlev) := by
  rw [h.step (by simp [hp])]
  simp only [visitPhase, hp, visitRChunk, if_pos h0, finalState_ok]

/-- The cursors of the router within a request: the address and the bytes that remain stay in the address space, and
the bytes done and those that remain within 16 bits (R71). -/
def InRange (s : State) : Prop :=
  s.work.addr.toNat + s.work.rem.toNat ≤ 0x10000 ∧ s.work.cur.toNat + s.work.rem.toNat < 0x10000

theorem toNat_pos_of_ne_zero {x : BitVec 16} (h : x ≠ 0) : 0 < x.toNat :=
  Nat.pos_of_ne_zero fun e => h (BitVec.eq_of_toNat_eq e)

/-- Where bytes remain, the cursors after a chunk are those before it, advanced. -/
theorem ChunkServed.advance {n : Nat} {s t : State} (h : ChunkServed n s t) (hs : InRange s)
    (hle : n ≤ s.work.rem.toNat) :
    InRange t ∧ t.work.cur.toNat = s.work.cur.toNat + n ∧
      (t.work.rem.toNat ≠ 0 → t.work.addr.toNat = s.work.addr.toNat + n) := by
  obtain ⟨haddr, hcur⟩ := hs
  have hcur' := h.cur (by omega)
  have hrem := h.rem
  by_cases h0 : t.work.rem.toNat = 0
  · exact ⟨⟨by omega, by omega⟩, hcur', fun hne => absurd h0 hne⟩
  · have haddr' := h.addr (by omega)
    exact ⟨⟨by omega, by omega⟩, hcur', fun _ => haddr'⟩

/-- The chunks of a READ bring the remaining bytes of memory into `RBUF`, after those already there (R203; log 7). -/
theorem readChunks_run {e : SimEsc} {s : State} (h : Serving e s) (hp : s.seq.ph = .rChunk)
    (hr : s.seq.refresh = false) (hop : s.latch.op = .read) (hrange : InRange s)
    (hbuf : s.work.cur.toNat ≤ s.buf.rbuf.length) (hlast : s.work.rem = 0 → s.buf.rbuf.length = s.work.cur.toNat) :
    ∃ t e', Runs s t ∧ t.seq.ph = .rAlev ∧ Carried s t ∧ Serving e' t ∧ e'.mem = e.mem ∧
      t.buf.rbuf = s.buf.rbuf.take s.work.cur.toNat ++ memRead e.mem s.work.addr.toNat s.work.rem.toNat := by
  induction hk : s.work.rem.toNat using Nat.strong_induction_on generalizing s e with
  | _ k ih =>
    by_cases h0 : s.work.rem = 0
    · have hk0 : k = 0 := by rw [← hk, h0]; rfl
      exact ⟨_, e, .of_step (step_chunks_done h hp h0), rfl, (toPhase_quiet _ s).toCarried, h.change, rfl,
        by simp [hk0, memRead, ← hlast h0]⟩
    · obtain ⟨n, t, e₁, hpos, hle, hrun, served, serving, hmem, hrbuf⟩ := readChunk_runs h hp hr hop h0
      obtain ⟨hrange', hcur, haddr⟩ := served.advance hrange hle
      have hrem := served.rem
      have hlen : t.buf.rbuf.length = t.work.cur.toNat := by
        rw [hrbuf, List.length_append, List.length_take, memRead_length, hcur]
        omega
      obtain ⟨u, e₂, hrun', hph, carried, serving', hmem', hrbuf'⟩ := ih (k - n) (by omega) serving served.ph
        served.refresh (by rw [served.latch, hop]) hrange' hlen.ge (fun _ => hlen) (by omega)
      refine ⟨u, e₂, hrun.trans hrun', hph, served.toCarried.trans carried, serving', hmem'.trans hmem, ?_⟩
      rw [hrbuf', ← hlen, List.take_length, hrbuf, hmem, List.append_assoc, show k = n + (k - n) by omega, memRead_add]
      by_cases hlast : t.work.rem.toNat = 0
      · have : k - n = 0 := by omega
        simp [this, memRead]
      · rw [haddr hlast, Nat.add_sub_cancel_left]

/-- The chunks of a WRITE bring the remaining bytes of `WBUF` into memory (R204). -/
theorem writeChunks_run {e : SimEsc} {s : State} (h : Serving e s) (hp : s.seq.ph = .rChunk)
    (hr : s.seq.refresh = false) (hop : s.latch.op = .write) (hrange : InRange s)
    (hbuf : s.buf.wbuf.length = s.work.cur.toNat + s.work.rem.toNat) :
    ∃ t e', Runs s t ∧ t.seq.ph = .rAlev ∧ Carried s t ∧ Serving e' t ∧
      e'.mem = memWrite s.work.addr.toNat (s.buf.wbuf.drop s.work.cur.toNat) e.mem := by
  induction hk : s.work.rem.toNat using Nat.strong_induction_on generalizing s e with
  | _ k ih =>
    by_cases h0 : s.work.rem = 0
    · have hk0 : k = 0 := by rw [← hk, h0]; rfl
      refine ⟨_, e, .of_step (step_chunks_done h hp h0), rfl, (toPhase_quiet _ s).toCarried, h.change, ?_⟩
      rw [List.drop_of_length_le (by omega)]
      rfl
    · obtain ⟨n, t, e₁, hpos, hle, hrun, served, serving, hmem⟩ := writeChunk_runs h hp hr hop h0 (by omega)
      obtain ⟨hrange', hcur, haddr⟩ := served.advance hrange hle
      have hrem := served.rem
      obtain ⟨u, e₂, hrun', hph, carried, serving', hmem'⟩ := ih (k - n) (by omega) serving served.ph
        served.refresh (by rw [served.latch, hop]) hrange' (by rw [served.wbuf, hbuf]; omega) (by omega)
      refine ⟨u, e₂, hrun.trans hrun', hph, served.toCarried.trans carried, serving', ?_⟩
      rw [hmem', hmem, served.wbuf, hcur,
        memWrite_drop s.work.addr.toNat s.work.cur.toNat n s.buf.wbuf e.mem (by omega)]
      by_cases hlast : t.work.rem.toNat = 0
      · rw [List.drop_of_length_le (by omega)]
        rfl
      · rw [haddr hlast]

/-! ### The refresh -/

/-- The host operation in progress in `s` has completed in `t`, with a fresh mirror and `RBUF` as it was; the
peripheral, whose memory is `m`, can serve the next one (R206, R238, R95). -/
structure CompletedWith (m : Memory) (s t : State) : Prop where
  seq : t.seq = Seq.atRest
  wire : t.wire = Wire.idle
  resetIn : t.env.resetIn = .off
  params : t.env.params = s.env.params
  sim : ∃ e, SimReady e t ∧ SimWf e ∧ e.mem = m
  rbuf : t.buf.rbuf = s.buf.rbuf
  vis : t.vis = ⟨simAlEvent s.env.params m, 0, s.vis.faultSeen⟩
  rsp : t.trace.getLast? =
    some (.rsp 0 (if s.latch.op = .read then some s.buf.rbuf else none) (simAlEvent s.env.params m))

theorem mirrorOf_memRead (p : Params) (m : Memory) : mirrorOf (memRead m p.alEventAddr.toNat 2) = simAlEvent p m := by
  unfold mirrorOf
  rw [getD_memRead, getD_memRead]
  rfl

/-- The refresh at the end of a READ or WRITE reads the mirror and completes the operation (R206). -/
theorem refresh_runs {e : SimEsc} {s : State} (h : Serving e s) (hp : s.seq.ph = .rAlev) :
    ∃ t, Runs s t ∧ CompletedWith e.mem s t := by
  have hstep : Machine.step s = .next { s with seq.ph := .cCmd, seq.refresh := true } := by
    rw [h.step (by simp [hp])]
    simp only [visitPhase, hp]
    rfl
  have commanding : Serving e { s with seq.ph := .cCmd, seq.refresh := true } := h.change
  obtain ⟨u, e', hrun, quiet, serving, hmem, hres⟩ := csrRead_runs (n := .two) commanding rfl rfl rfl
  have hmirror : mirrorOf u.buf.res = simAlEvent s.env.params e.mem := by
    rw [hres]
    exact mirrorOf_memRead s.env.params e.mem
  have hdone : csrReturn u = complete (u.setAlEvent (simAlEvent s.env.params e.mem)) := by
    rw [csrReturn_of_refresh quiet.refresh]
    unfold refreshDone
    dsimp only
    rw [State.setAlEvent_seq, serving.caller, hmirror]
    exact finish_of_off serving.resetIn
  rw [hdone] at hrun
  refine ⟨_, .head hstep hrun, ⟨rfl, serving.wire, serving.resetIn, quiet.params, ⟨e', serving.ready, serving.wf, hmem⟩,
    quiet.rbuf, ?_, ?_⟩⟩
  · simp [State.setAlEvent, quiet.vis]
  · simp [quiet.latch, quiet.rbuf]

end Sys2Proof.Machine
end

section
/-! SUPPORT for O60: the setup of a PRAM access of a host operation, served by the reference peripheral (R181, R90 to
R92). -/

namespace Sys2Proof.Machine

/-! ### The command registers of the peripheral -/

/-- `m` words of memory from `x` on, as the FIFO of a read holds them (R90). -/
def fifoFrom (mem : Memory) (x m : Nat) : List Word := (List.range m).map fun k => wordOf (memRead mem (x + 4 * k) 4)

theorem fifoFrom_succ (mem : Memory) (x m : Nat) :
    fifoFrom mem x (m + 1) = wordOf (memRead mem x 4) :: fifoFrom mem (x + 4) m := by
  simp [fifoFrom, List.range_succ_eq_map, Function.comp_def, Nat.mul_add, Nat.add_assoc, Nat.add_comm 4]

/-- The reads that a PRAM command register still answers with busy (R91, R92). -/
def busyCount (d : Dir) (e : SimEsc) : Nat :=
  match d with
  | .rd => e.rdBusy
  | .wr => e.wrBusy

/-- The reads of it that a started transfer still answers with not available (R91, R92). -/
def availCount (d : Dir) (e : SimEsc) : Nat :=
  match d with
  | .rd => e.rdAv
  | .wr => e.wrAv

/-- No transfer of the direction is in progress (R90, R92). -/
def NoTransfer (d : Dir) (e : SimEsc) : Prop :=
  match d with
  | .rd => e.rdFifo = []
  | .wr => e.wrCtx = none

/-- A transfer of `ln` bytes at `ad` has been started, and no word of it moved (R90, R92). -/
def Started (d : Dir) (ad ln : Nat) (e : SimEsc) : Prop :=
  match d with
  | .rd => e.rdFifo = fifoFrom e.mem (ad - ad % 4) (fifoWords ad ln)
  | .wr => e.wrCtx = some ⟨ad, ln, 0, fifoWords ad ln⟩

/-- The abort ends the transfer and sets the countdown of the busy flag (R90, R92). -/
theorem simRegWrite_abort (d : Dir) (e : SimEsc) :
    ∃ e', simRegWrite e (pramCmdReg d) pramAbortWord = e' ∧ NoTransfer d e' ∧ busyCount d e' = e.busyPolls ∧
      e'.mem = e.mem := by
  cases d <;> exact ⟨_, rfl, rfl, rfl, rfl⟩

/-- The address/length register is a plain register (R87). -/
theorem simRegWrite_addrLen (d : Dir) (e : SimEsc) (v : Word) :
    simRegWrite e (addrLenReg d) v = simSetReg e (addrLenReg d) v := by
  cases d <;> rfl

/-- The start word programs the transfer of the address/length register (R90, R92). -/
theorem simRegWrite_start (d : Dir) {e : SimEsc} (h : SimWf e) {len : BitVec 16} {a : Addr}
    (hal : simReg e (addrLenReg d) = addrLenWord len a) :
    ∃ e', simRegWrite e (pramCmdReg d) pramStartWord = e' ∧ Started d a.toNat len.toNat e' ∧
      availCount d e' = e.availPolls ∧ busyCount d e' = busyCount d e ∧ e'.mem = e.mem := by
  obtain ⟨hlen, haddr⟩ := addrLenWord_fields len a
  have hreg : simReg (simSetReg e (pramCmdReg d) pramStartWord) (addrLenReg d) = addrLenWord len a := by
    rw [simReg_simSetReg h, if_neg (by cases d <;> decide), hal]
  refine ⟨_, rfl, ?_⟩
  cases d with
  | rd =>
    have hcmd : simRegWrite e (pramCmdReg .rd) pramStartWord =
        { simSetReg e (pramCmdReg .rd) pramStartWord with
          rdFifo := fifoFrom e.mem (a.toNat - a.toNat % 4) (fifoWords a.toNat len.toNat)
          rdAv := e.availPolls } := by
      have hrun : simRegWrite e (pramCmdReg .rd) pramStartWord =
        simReadCommand (simSetReg e (pramCmdReg .rd) pramStartWord) pramStartWord := rfl
      rw [hrun]
      simp only [simReadCommand, hreg, hlen, haddr]
      rfl
    rw [hcmd]
    exact ⟨rfl, rfl, rfl, rfl⟩
  | wr =>
    have hcmd : simRegWrite e (pramCmdReg .wr) pramStartWord =
        { simSetReg e (pramCmdReg .wr) pramStartWord with
          wrCtx := some ⟨a.toNat, len.toNat, 0, fifoWords a.toNat len.toNat⟩
          wrAv := e.availPolls } := by
      have hrun : simRegWrite e (pramCmdReg .wr) pramStartWord =
        simWriteCommand (simSetReg e (pramCmdReg .wr) pramStartWord) pramStartWord := rfl
      rw [hrun]
      simp only [simWriteCommand, hreg, hlen, haddr]
      rfl
    rw [hcmd]
    exact ⟨rfl, rfl, rfl, rfl⟩

theorem availBit_availWord (n : Nat) : availBit (availWord n) = true := by
  simp [availBit, availWord]

/-- With no transfer the command register shows busy for its countdown, then not busy (R91, R92). -/
theorem readyAfter_busy (d : Dir) {e : SimEsc} (h : NoTransfer d e) :
    ∃ e', ReadyAfter .busyClear (pramCmdReg d) (busyCount d e) e e' ∧ busyCount d e' = 0 ∧ e'.mem = e.mem := by
  cases d with
  | rd =>
    have hfifo : e.rdFifo = [] := h
    refine ⟨{ e with rdBusy := 0 }, readyAfter_countdown (fun n => { e with rdBusy := n })
      (fun n => ⟨0x80000000, ?_, rfl⟩) ⟨0, ?_, rfl⟩ e.rdBusy, rfl, rfl⟩
    · rfl
    · have hread : simRegRead { e with rdBusy := 0 } (pramCmdReg .rd) = simReadRdCmd { e with rdBusy := 0 } := rfl
      rw [hread]
      simp [simReadRdCmd, hfifo]
  | wr =>
    have hctx : e.wrCtx = none := h
    refine ⟨{ e with wrBusy := 0 }, readyAfter_countdown (fun n => { e with wrBusy := n })
      (fun n => ⟨0x80000000, ?_, rfl⟩) ⟨0, ?_, rfl⟩ e.wrBusy, rfl, rfl⟩
    · rfl
    · have hread : simRegRead { e with wrBusy := 0 } (pramCmdReg .wr) = simReadWrCmd { e with wrBusy := 0 } := rfl
      rw [hread]
      simp [simReadWrCmd, hctx]

theorem fifoWords_pos (ad : Nat) {ln : Nat} (h : 1 ≤ ln) : 0 < fifoWords ad ln := by
  unfold fifoWords
  omega

/-- A started transfer shows available after its countdown (R91, R92). -/
theorem readyAfter_avail (d : Dir) {e : SimEsc} {ad ln : Nat} (h : Started d ad ln e) (hbusy : busyCount d e = 0)
    (hln : 1 ≤ ln) :
    ∃ e', ReadyAfter .fifoAvail (pramCmdReg d) (availCount d e) e e' ∧ Started d ad ln e' ∧ e'.mem = e.mem := by
  have hpos := fifoWords_pos ad hln
  cases d with
  | rd =>
    have hfifo : e.rdFifo = fifoFrom e.mem (ad - ad % 4) (fifoWords ad ln) := h
    have hne : e.rdFifo ≠ [] := by
      rw [hfifo, ← List.length_pos_iff]
      simpa [fifoFrom] using hpos
    have hbusy' : e.rdBusy = 0 := hbusy
    have hread (n : Nat) : simRegRead { e with rdAv := n } (pramCmdReg .rd) = simReadRdCmd { e with rdAv := n } := rfl
    refine ⟨{ e with rdAv := 0 }, readyAfter_countdown (kind := .fifoAvail) (fun n => { e with rdAv := n })
      (fun n => ⟨0x80000000, ?_, rfl⟩) ⟨availWord e.rdFifo.length, ?_, availBit_availWord _⟩ e.rdAv, h, rfl⟩
    · rw [hread]
      simp [simReadRdCmd, hbusy', hne]
    · rw [hread]
      simp [simReadRdCmd, hbusy', hne]
  | wr =>
    have hctx : e.wrCtx = some ⟨ad, ln, 0, fifoWords ad ln⟩ := h
    have hbusy' : e.wrBusy = 0 := hbusy
    have hread (n : Nat) : simRegRead { e with wrAv := n } (pramCmdReg .wr) = simReadWrCmd { e with wrAv := n } := rfl
    refine ⟨{ e with wrAv := 0 }, readyAfter_countdown (kind := .fifoAvail) (fun n => { e with wrAv := n })
      (fun n => ⟨0x80000000, ?_, rfl⟩) ⟨availWord (fifoWords ad ln - 0), ?_, availBit_availWord _⟩ e.wrAv, h, rfl⟩
    · rw [hread]
      simp [simReadWrCmd, hbusy', hctx, hpos]
    · rw [hread]
      simp [simReadWrCmd, hbusy', hctx, hpos]

/-! ### The setup -/

/-- The operands of a PRAM access on behalf of a host operation are those of the request (log 26). -/
theorem pram_operands {s : State} (hc : s.seq.caller = .host) :
    pramDir s = (if s.latch.op = .write then .wr else .rd) ∧ pramAddr s = s.latch.reqAddr ∧
      pramLen s = s.latch.reqLen ∧ pramBytes s = s.buf.wbuf := by
  unfold pramDir pramAddr pramLen pramBytes
  rw [hc]
  exact ⟨rfl, rfl, rfl, rfl⟩

/-- Direction of a host operation's PRAM access, from its latch alone. -/
theorem pramDir_congr {s t : State} (hs : s.seq.caller = .host) (ht : t.seq.caller = .host)
    (hl : t.latch = s.latch) : pramDir t = pramDir s := by
  rw [(pram_operands hs).1, (pram_operands ht).1, hl]

/-- The abort of a host operation's PRAM access, and the poll that follows: the command register is not busy, and the
address/length word is next (R181). -/
theorem abort_runs {e : SimEsc} {s : State} {d : Dir} (h : Serving e s) (hp : s.seq.ph = .pAbort)
    (hd : pramDir s = d) :
    ∃ t e', Runs s t ∧ t.seq.ph = .pAddrLen ∧ Quiet s t ∧ Serving e' t ∧ e'.mem = e.mem ∧ busyCount d e' = 0 := by
  obtain ⟨e₁, he, hnone, hbusy, hmem⟩ := simRegWrite_abort d e
  obtain ⟨e₂, hready, hbusy₂, hmem₂⟩ := readyAfter_busy d hnone
  obtain ⟨-, -, -, -, -, hallows, -⟩ := h.ready
  obtain ⟨u, hrun, quiet, -, serving⟩ := h.command_runs (done := State.toPhase .pAddrLen) (by simp [hp])
    (p := .pPollBusy) (by decide) (by simp only [visitPhase, hp, ← hd]; rfl)
    (fun t ht hl => by
      have hdt : pramDir t = d := by rw [pramDir_congr h.caller (by rw [ht]; exact h.caller) hl, hd]
      simp only [visitPhase, ht, ← hdt]
      rfl)
    he hready (hbusy ▸ hallows)
  exact ⟨_, e₂, hrun, rfl, quiet.trans (toPhase_quiet _ u), serving.change, hmem₂.trans hmem, hbusy₂⟩

/-- The address/length word and the start word, and the poll that follows: the transfer is started and available, and
its first word is next (R181). -/
theorem start_runs {e : SimEsc} {s : State} {d : Dir} (h : Serving e s) (hp : s.seq.ph = .pAddrLen)
    (hd : pramDir s = d) (hbusy : busyCount d e = 0) (hlen : 1 ≤ s.latch.reqLen.toNat) :
    ∃ t e', Runs s t ∧ t.seq.ph = .pFirst ∧ Quiet s t ∧ Serving e' t ∧ e'.mem = e.mem ∧
      Started d s.latch.reqAddr.toNat s.latch.reqLen.toNat e' := by
  obtain ⟨-, haddr, hln, -⟩ := pram_operands h.caller
  obtain ⟨t, hwrite, same, serving⟩ := h.writeWord (addrLenReg d) (addrLenWord s.latch.reqLen s.latch.reqAddr)
  rw [simRegWrite_addrLen] at serving
  have hstep : Machine.step s = .next (t.toPhase .pStart) := by
    rw [h.step (by simp [hp])]
    simp only [visitPhase, hp, visitPAddrLen, sendAddrLen, hd, haddr, hln, hwrite, thenDo_ok, finalState_ok]
  have quiet := same.quiet.trans (toPhase_quiet .pStart t)
  have starting : Serving _ (t.toPhase .pStart) := serving.change
  have hdt : pramDir (t.toPhase .pStart) = d := by rw [pramDir_congr h.caller starting.caller quiet.latch, hd]
  obtain ⟨e₁, he, hstarted, havail, hbusy₁, hmem⟩ := simRegWrite_start d starting.wf
    (len := s.latch.reqLen) (a := s.latch.reqAddr) (by rw [simReg_simSetReg h.wf, if_pos rfl])
  have hbusy₂ : busyCount d e₁ = 0 := by
    rw [hbusy₁, ← hbusy]
    cases d <;> rfl
  obtain ⟨e₂, hready, hstarted₂, hmem₂⟩ := readyAfter_avail d hstarted hbusy₂ hlen
  obtain ⟨-, -, -, -, -, -, hallows⟩ := starting.ready
  obtain ⟨u, hrun, quiet', -, serving'⟩ := starting.command_runs (done := setupDone) (by simp)
    (p := .pPollAvail) (by decide) (by simp only [visitPhase, State.toPhase_seq_ph, ← hdt]; rfl)
    (fun v hv hl => by
      have hdv : pramDir v = d := by rw [pramDir_congr starting.caller (by rw [hv]; exact starting.caller) hl, hdt]
      simp only [visitPhase, hv, ← hdv]
      rfl)
    he hready (havail ▸ hallows)
  have hdone : setupDone u = u.toPhase .pFirst := by
    unfold setupDone
    rw [serving'.caller]
  exact ⟨u.toPhase .pFirst, e₂, .head hstep (hdone ▸ hrun), rfl, (quiet.trans quiet').trans (toPhase_quiet _ u),
    serving'.change, hmem₂.trans hmem, hstarted₂⟩

/-- `PRAM_SETUP` of a host operation: the transfer of the request is started, and its first word is next (R181). -/
theorem setup_runs {e : SimEsc} {s : State} {d : Dir} (h : Serving e s) (hp : s.seq.ph = .pAbort)
    (hd : pramDir s = d) (hlen : 1 ≤ s.latch.reqLen.toNat) :
    ∃ t e', Runs s t ∧ t.seq.ph = .pFirst ∧ Quiet s t ∧ Serving e' t ∧ e'.mem = e.mem ∧
      Started d s.latch.reqAddr.toNat s.latch.reqLen.toNat e' := by
  obtain ⟨t, e₁, hrun, hph, quiet, serving, hmem, hbusy⟩ := abort_runs h hp hd
  obtain ⟨u, e₂, hrun', hph', quiet', serving', hmem', hstarted⟩ := start_runs serving hph
    ((pramDir_congr h.caller serving.caller quiet.latch).trans hd) hbusy (by rw [quiet.latch]; exact hlen)
  rw [quiet.latch] at hstarted
  exact ⟨u, e₂, hrun.trans hrun', hph', quiet.trans quiet', serving', hmem'.trans hmem, hstarted⟩

end Sys2Proof.Machine
end

section
/-! SUPPORT for O60: the FIFO words of a PRAM access of a host operation, served by the reference peripheral: the first
in a word frame, the later ones in a burst (R183 to R187, R91, R93). -/

namespace Sys2Proof.Machine

/-! ### Bursts against the peripheral -/

/-- The frame of a burst, as the peripheral sees it between two words: the header received, and whole groups only
(R86, R145, R147). -/
def BetweenWords (d : Dir) (f : SimFrame) : Prop :=
  match d with
  | .rd => ∃ n v, f = ⟨n, 0x0B, fifoReg .rd, [], v⟩ ∧ 4 ≤ n ∧ (n - 4) % 4 = 0
  | .wr => ∃ n v, f = ⟨n, 0x02, fifoReg .wr, [], v⟩ ∧ 3 ≤ n

/-- The state with its burst cut out: what it would be if the frame had ended. -/
def betweenFrames (e : SimEsc) (s : State) : State := { s with wire := Wire.idle, env.sim := some e }

/-- A host operation is inside a burst of direction `d`, between two words; but for the open frame the peripheral `e`
serves it. -/
structure Bursting (d : Dir) (e : SimEsc) (s : State) : Prop where
  serving : Serving e (betweenFrames e s)
  wire : s.wire = ⟨true, some d⟩
  sim : ∃ f, s.env.sim = some (e.inFrame (some f)) ∧ BetweenWords d f

theorem Bursting.step {d : Dir} {e : SimEsc} {s : State} (h : Bursting d e s) (hp : s.seq.ph ≠ .idle) :
    Machine.step s = .next (finalState (visitPhase s)) :=
  step_host h.serving.caller h.serving.resetIn hp

theorem Bursting.caller {d : Dir} {e : SimEsc} {s : State} (h : Bursting d e s) : s.seq.caller = .host :=
  h.serving.caller

/-- A change of the block that touches neither the wire nor the environment. -/
theorem Bursting.change {d : Dir} {e : SimEsc} {s t : State} (h : Bursting d e s)
    (caller : t.seq.caller = s.seq.caller := by rfl) (wire : t.wire = s.wire := by rfl)
    (env : t.env = s.env := by rfl) : Bursting d e t :=
  ⟨h.serving.change caller rfl (by simp only [betweenFrames, env]), wire.trans h.wire, by rw [env]; exact h.sim⟩

/-- A word has been exchanged, and the peripheral has become `e'`. -/
theorem Bursting.next {d : Dir} {e e' : SimEsc} {s t : State} {f : SimFrame} (h : Bursting d e s)
    (knobs : SameKnobs e e') (wf : SimWf e') (between : BetweenWords d f)
    (caller : t.seq.caller = s.seq.caller := by rfl) (wire : t.wire = s.wire := by rfl)
    (env : t.env = { s.env with sim := some (e'.inFrame (some f)) } := by rfl) : Bursting d e' t :=
  ⟨h.serving.serve knobs wf caller rfl (by simp only [betweenFrames, env]), wire.trans h.wire, f, by rw [env], between⟩

/-- The exchanges of a burst with the peripheral, which is alone. -/
theorem Bursting.alone {d : Dir} {e : SimEsc} {s : State} {f : SimFrame} (h : Bursting d e s)
    (hf : s.env.sim = some (e.inFrame (some f))) : SimAlone (e.inFrame (some f)) s := by
  obtain ⟨-, hscript, hfault⟩ := h.serving.ready.alone
  exact ⟨hf, hscript, hfault⟩

/-- `BURST_POP` is one register read of the FIFO, and the block is the same (R86, R149). -/
theorem Bursting.pop {e : SimEsc} {s : State} (h : Bursting .rd e s) :
    ∃ t, burstPop s = .ok (simRegRead e (fifoReg .rd)).1 t ∧ SameBlock s t ∧
      Bursting .rd (simRegRead e (fifoReg .rd)).2 t := by
  obtain ⟨f, hsim, n, v, rfl, hn, h4⟩ := h.sim
  have hx := simExchanges_read e 0x0B 4 n (fifoReg .rd) [] v s.env.params.fillByte s.env.params.fillByte
    s.env.params.fillByte s.env.params.fillByte (.inl ⟨rfl, rfl⟩) hn h4
  have hpop : burstPop s = andThen (exchange [s.env.params.fillByte, s.env.params.fillByte, s.env.params.fillByte,
    s.env.params.fillByte] s) fun bs s => .ok (wordOf bs) s := rfl
  rw [exchange_sim _ _ s (h.alone hsim), hx, andThen_ok, wordOf_le32] at hpop
  exact ⟨_, hpop, ⟨rfl, rfl, rfl, rfl, rfl, rfl, rfl, rfl, rfl⟩,
    h.next (simRegRead_knobs e _) (simRegRead_wf _ h.serving.wf) ⟨n + 4, _, rfl, by omega, by omega⟩⟩

/-- `BURST_PUSH` is one register write of the FIFO, and the block is the same (R86, R146). -/
theorem Bursting.push {e : SimEsc} {s : State} (h : Bursting .wr e s) (v : Word) :
    ∃ t, burstPush v s = .ok () t ∧ SameBlock s t ∧ Bursting .wr (simRegWrite e (fifoReg .wr) v) t := by
  obtain ⟨f, hsim, n, d, rfl, hn⟩ := h.sim
  have hpush : burstPush v s = andThen (exchange (le32 v) s) fun _ s => .ok () s := rfl
  rw [exchange_sim _ _ s (h.alone hsim), simExchanges_write _ _ _ _ _ hn, andThen_ok] at hpush
  exact ⟨_, hpush, ⟨rfl, rfl, rfl, rfl, rfl, rfl, rfl, rfl, rfl⟩,
    h.next (simRegWrite_knobs e _ _) (simRegWrite_wf _ _ h.serving.wf) ⟨n + 4, d, rfl, by omega⟩⟩

/-- The header of a burst brings the peripheral to its first word (R145, R147). -/
theorem simExchanges_burstHeader (d : Dir) (p : Params) (e : SimEsc) :
    ∃ f, (simExchanges (burstHeader d p) (simFrameStart e)).2 = e.inFrame (some f) ∧ BetweenWords d f := by
  cases d with
  | wr =>
    have hx := simExchanges_header 0x02 (fifoReg .wr) e (by decide)
    exact ⟨_, congrArg Prod.snd hx, 3, 0, rfl, by omega⟩
  | rd =>
    have hx := simExchanges_header 0x0B (fifoReg .rd) e (by decide)
    have hh : burstHeader .rd p =
        [0x0B, (fifoReg .rd).extractLsb' 8 8, (fifoReg .rd).extractLsb' 0 8] ++ [p.dummyByte] := rfl
    refine ⟨⟨4, 0x0B, fifoReg .rd, [], 0⟩, ?_, 4, 0, rfl, by omega, rfl⟩
    rw [hh, simExchanges_append, hx]
    rfl

/-- `P_BOPEN`: the burst is open, and the block is otherwise the same (R145, R147). -/
theorem Serving.burstOpen {e : SimEsc} {s : State} (h : Serving e s) (d : Dir) :
    ∃ t, Machine.burstOpen d s = .ok () t ∧ Bursting d e t ∧ t.seq = s.seq ∧ t.latch = s.latch ∧ t.vis = s.vis ∧
      t.work = s.work ∧ t.buf = s.buf ∧ t.env.params = s.env.params := by
  obtain ⟨f, hf, between⟩ := simExchanges_burstHeader d s.env.params e
  obtain ⟨hsim, hscript, hfault⟩ := h.ready.alone
  have hx := exchange_sim (burstHeader d s.env.params) (simFrameStart e) (csAssert s)
    ⟨by simp [csAssert, hsim], hscript, hfault⟩
  have hopen : Machine.burstOpen d s =
    thenDo (andThen (exchange (burstHeader d s.env.params) (csAssert s)) fun _ s => .ok () s)
      fun s => { s with wire.burst := some d } := rfl
  rw [hx, andThen_ok, thenDo_ok, hf] at hopen
  have unchanged : { s.env with sim := some e } = s.env := by rw [← hsim]
  exact ⟨_, hopen, ⟨h.change rfl h.wire.symm unchanged, rfl, f, rfl, between⟩, rfl, rfl, rfl, rfl, rfl, rfl⟩

/-- `BURST_CLOSE` ends the frame: the peripheral is between frames again (R150). -/
theorem Bursting.close {d : Dir} {e : SimEsc} {s : State} (h : Bursting d e s) :
    Serving e (csDeassert s) := by
  obtain ⟨f, hsim, -⟩ := h.sim
  have hframe : e.inFrame none = e := SimEsc.inFrame_none h.serving.ready.between
  have hclose : csDeassert s = { betweenFrames e s with trace := s.trace ++ [.csDeassert] } := by
    simp [csDeassert, h.wire, hsim, simFrameEnd_inFrame, hframe, betweenFrames]
  rw [hclose]
  exact h.serving.change

end Sys2Proof.Machine
end

section
/-! SUPPORT for O60: the words of a PRAM transfer of a host operation, in order, and the accesses made of them (R184,
R185), served by the reference peripheral. -/

namespace Sys2Proof.Machine

/-! ### The first word -/

theorem firstBytePos_toNat (a : Addr) : (firstBytePos a).toNat = a.toNat % 4 := by
  simp [firstBytePos, BitVec.extractLsb'_toNat]

theorem firstCount_eq (a : Addr) (len : Nat) : firstCount a len = min (4 - a.toNat % 4) len := by
  rw [firstCount, firstBytePos_toNat]

theorem firstCount_le (a : Addr) (len : Nat) : firstCount a len ≤ len := Nat.min_le_right _ _

/-- The words after the first are those of the bytes after it (R187). -/
theorem fifoWords_eq_succ (a : Addr) {len : Nat} (h : 1 ≤ len) :
    fifoWords a.toNat len = (len - firstCount a len + 3) / 4 + 1 := by
  rw [firstCount_eq, fifoWords]
  omega

/-- Where bytes remain after the first word, they begin with the next whole word (R183). -/
theorem secondWord_addr (a : Addr) {len : Nat} (h : firstCount a len < len) :
    a.toNat - a.toNat % 4 + 4 = a.toNat + firstCount a len := by
  rw [firstCount_eq] at h ⊢
  omega

theorem fifoFrom_zero (m : Memory) (x : Nat) : fifoFrom m x 0 = [] := rfl

/-- The FIFO of a read just started: the first word, then the whole words of the bytes after it (R90, R187). -/
theorem fifoFrom_started (m : Memory) (a : Addr) {len : Nat} (h : 1 ≤ len) :
    fifoFrom m (a.toNat - a.toNat % 4) (fifoWords a.toNat len) =
      wordOf (memRead m (a.toNat - a.toNat % 4) 4) ::
        fifoFrom m (a.toNat + firstCount a len) ((len - firstCount a len + 3) / 4) := by
  rw [fifoWords_eq_succ a h, fifoFrom_succ]
  rcases Nat.lt_or_ge (firstCount a len) len with hlt | hge
  · rw [secondWord_addr a hlt]
  · have : (len - firstCount a len + 3) / 4 = 0 := by omega
    rw [this, fifoFrom_zero, fifoFrom_zero]

/-- A read of the FIFO takes its first word (R91). -/
theorem simRegRead_fifo {e : SimEsc} {w : Word} {ws : List Word} (h : e.rdFifo = w :: ws) :
    simRegRead e (fifoReg .rd) = (w, { e with rdFifo := ws }) := by
  have hread : simRegRead e (fifoReg .rd) = simFifoRead e := rfl
  rw [hread, simFifoRead, h]

/-- The count of bytes after the first word. -/
theorem afterFirst_toNat (a : Addr) (len : BitVec 16) :
    (len - BitVec.ofNat 16 (firstCount a len.toNat)).toNat = len.toNat - firstCount a len.toNat ∧
      (BitVec.ofNat 16 (firstCount a len.toNat)).toNat = firstCount a len.toNat := by
  have hle := firstCount_le a len.toNat
  have hof : (BitVec.ofNat 16 (firstCount a len.toNat)).toNat = firstCount a len.toNat := by
    rw [BitVec.toNat_ofNat, Nat.mod_eq_of_lt (by omega)]
  exact ⟨by rw [BitVec.toNat_sub_of_le (by rw [BitVec.le_def, hof]; exact hle), hof], hof⟩

/-- The block in `P_FIRST`, with the first-byte position of the request in `FBP` (R183). -/
def placeFirst (s : State) : State := { s with work.fbp := firstBytePos s.latch.reqAddr }

theorem visitPFirst_read {s : State} (hc : s.seq.caller = .host) (hd : pramDir s = .rd) :
    visitPFirst s = andThen (readWord (fifoReg .rd) (placeFirst s)) fun v t =>
      .ok () (firstDone (firstCount s.latch.reqAddr s.latch.reqLen.toNat)
        (takeFirstWord (firstBytePos s.latch.reqAddr) (firstCount s.latch.reqAddr s.latch.reqLen.toNat) v t)) := by
  obtain ⟨-, haddr, hln, -⟩ := pram_operands hc
  unfold visitPFirst
  rw [haddr, hln]
  dsimp only
  rw [show pramDir { s with work.fbp := firstBytePos s.latch.reqAddr } = .rd from hd]
  rfl

theorem visitPFirst_write {s : State} (hc : s.seq.caller = .host) (hd : pramDir s = .wr) :
    visitPFirst s = thenDo (sendFirstWord (packAt (firstBytePos s.latch.reqAddr).toNat
        (s.buf.wbuf.take (firstCount s.latch.reqAddr s.latch.reqLen.toNat))) (placeFirst s))
      (firstDone (firstCount s.latch.reqAddr s.latch.reqLen.toNat)) := by
  obtain ⟨-, haddr, hln, hbytes⟩ := pram_operands hc
  unfold visitPFirst
  rw [haddr, hln]
  dsimp only
  rw [show pramDir { s with work.fbp := firstBytePos s.latch.reqAddr } = .wr from hd,
    show pramBytes { s with work.fbp := firstBytePos s.latch.reqAddr } = s.buf.wbuf from hbytes]
  rfl

/-- `P_FIRST` of a READ: the first bytes of the range (R184). -/
theorem firstWord_read {e : SimEsc} {s : State} (h : Serving e s) (hp : s.seq.ph = .pFirst) (hd : pramDir s = .rd)
    (hlen : 1 ≤ s.latch.reqLen.toNat) (hstart : Started .rd s.latch.reqAddr.toNat s.latch.reqLen.toNat e) :
    ∃ t e', Machine.step s = .next t ∧ t.seq.ph = .pBOpen ∧ Carried s t ∧ Serving e' t ∧ e'.mem = e.mem ∧
      t.work.rem.toNat = s.latch.reqLen.toNat - firstCount s.latch.reqAddr s.latch.reqLen.toNat ∧
      t.buf.res = memRead e.mem s.latch.reqAddr.toNat (firstCount s.latch.reqAddr s.latch.reqLen.toNat) ∧
      e'.rdFifo = fifoFrom e.mem (s.latch.reqAddr.toNat + firstCount s.latch.reqAddr s.latch.reqLen.toNat)
        ((s.latch.reqLen.toNat - firstCount s.latch.reqAddr s.latch.reqLen.toNat + 3) / 4) := by
  have hfifo : e.rdFifo = _ := Eq.trans hstart (fifoFrom_started e.mem s.latch.reqAddr hlen)
  have placed : Serving e (placeFirst s) := h.change
  obtain ⟨t, hread, same, serving⟩ := placed.readWord (fifoReg .rd)
  rw [simRegRead_fifo hfifo] at hread serving
  have hstep := h.step (by simp [hp])
  simp only [visitPhase, hp, visitPFirst_read h.caller hd, hread, andThen_ok, finalState_ok] at hstep
  have hlent : pramLen t = s.latch.reqLen :=
    (pram_operands serving.caller).2.2.1.trans (congrArg Latch.reqLen same.latch)
  have hwbuf : t.buf.wbuf = s.buf.wbuf := congrArg Buffers.wbuf same.buf
  refine ⟨_, _, hstep, rfl, ⟨same.latch, same.vis, hwbuf, same.params⟩, serving.change, rfl, ?_, ?_, rfl⟩
  · have hrem := (afterFirst_toNat s.latch.reqAddr s.latch.reqLen).1
    rw [← hlent] at hrem ⊢
    exact hrem
  · have hpos : (firstBytePos s.latch.reqAddr).toNat + firstCount s.latch.reqAddr s.latch.reqLen.toNat ≤ 4 := by
      rw [firstBytePos_toNat, firstCount_eq]
      omega
    have hlanes := lanes_wordOf_memRead e.mem (s.latch.reqAddr.toNat - s.latch.reqAddr.toNat % 4)
      (firstBytePos s.latch.reqAddr).toNat (firstCount s.latch.reqAddr s.latch.reqLen.toNat) (Nat.le_refl 4) hpos
    rw [firstBytePos_toNat, Nat.sub_add_cancel (Nat.mod_le _ _), ← firstBytePos_toNat] at hlanes
    exact hlanes

/-- One lane after another: the lanes `p .. p + q - 1` of a FIFO word that all lie in the range (R93). -/
theorem foldl_simStoreLane_inside (c : WrCtx) (v : Word) (p q : Nat) (m : Memory)
    (h : ∀ j, p ≤ j → j < p + q → c.addr ≤ c.wordAddr + j ∧ c.wordAddr + j < c.addr + c.len) :
    (List.range' p q).foldl (simStoreLane c v) m = memWrite (c.wordAddr + p) (lanes p q v) m := by
  induction q generalizing p m with
  | zero => rfl
  | succ q ih =>
    have hlanes : lanes p (q + 1) v = lane p v :: lanes (p + 1) q v := by
      simp [lanes, List.range_succ_eq_map, Function.comp_def, Nat.add_assoc, Nat.add_comm 1]
    have hstore : simStoreLane c v m p = memPut (c.wordAddr + p) (lane p v) m :=
      if_pos (h p (Nat.le_refl p) (by omega))
    rw [List.range'_succ, List.foldl_cons, hstore, ih (p + 1) _ fun j h1 h2 => h j (by omega) (by omega), hlanes]
    rfl

/-- The lanes of a FIFO word that lie outside the range (R93). -/
theorem foldl_simStoreLane_outside (c : WrCtx) (v : Word) (js : List Nat) (m : Memory)
    (h : ∀ j ∈ js, ¬ (c.addr ≤ c.wordAddr + j ∧ c.wordAddr + j < c.addr + c.len)) :
    js.foldl (simStoreLane c v) m = m := by
  induction js with
  | nil => rfl
  | cons j js ih =>
    have hstore : simStoreLane c v m j = m := if_neg (h j (by simp))
    rw [List.foldl_cons, hstore, ih fun i hi => h i (by simp [hi])]

/-- A FIFO word whose payload is exactly its lanes in the range stores that payload (R93, R116, R117). -/
theorem fifoWord_memWrite (c : WrCtx) (p : Nat) (bs : List Byte) (m : Memory) (hp : p + bs.length ≤ 4)
    (h : ∀ j < 4, (c.addr ≤ c.wordAddr + j ∧ c.wordAddr + j < c.addr + c.len) ↔ p ≤ j ∧ j < p + bs.length) :
    (List.range 4).foldl (simStoreLane c (packAt p bs)) m = memWrite (c.wordAddr + p) bs m := by
  have hsplit : List.range 4 =
      List.range' 0 p ++ (List.range' p bs.length ++ List.range' (p + bs.length) (4 - (p + bs.length))) := by
    have h1 := List.range'_append_1 (s := p) (m := bs.length) (n := 4 - (p + bs.length))
    have h2 := List.range'_append_1 (s := 0) (m := p) (n := bs.length + (4 - (p + bs.length)))
    rw [Nat.zero_add] at h2
    rw [h1, h2, List.range_eq_range']
    congr 1
    omega
  rw [hsplit, List.foldl_append, List.foldl_append, foldl_simStoreLane_outside, foldl_simStoreLane_inside,
    foldl_simStoreLane_outside, lanes_packAt _ _ hp]
  · intro j hj hin
    obtain ⟨h1, h2⟩ := List.mem_range'_1.1 hj
    have := (h j (by omega)).1 hin
    omega
  · exact fun j h1 h2 => (h j (by omega)).2 ⟨h1, h2⟩
  · intro j hj hin
    obtain ⟨h1, h2⟩ := List.mem_range'_1.1 hj
    have := (h j (by omega)).1 hin
    omega

/-- The first word of a transfer stores the first bytes (R93, R116, R183). -/
theorem firstWord_memWrite (a : Addr) (nw : Nat) (data : List Byte) (m : Memory) :
    (List.range 4).foldl (simStoreLane ⟨a.toNat, data.length, 0, nw⟩
        (packAt (firstBytePos a).toNat (data.take (firstCount a data.length)))) m =
      memWrite a.toNat (data.take (firstCount a data.length)) m := by
  have htake : (data.take (firstCount a data.length)).length = firstCount a data.length := by
    rw [List.length_take, Nat.min_eq_left (firstCount_le _ _)]
  have hword : WrCtx.wordAddr ⟨a.toNat, data.length, 0, nw⟩ = a.toNat - a.toNat % 4 := rfl
  have hstore := fifoWord_memWrite ⟨a.toNat, data.length, 0, nw⟩ (a.toNat % 4) (data.take (firstCount a data.length)) m
    (by rw [htake, firstCount_eq]; omega) (fun j hj => by
      rw [htake, hword, firstCount_eq]
      dsimp only
      omega)
  rwa [hword, Nat.sub_add_cancel (Nat.mod_le _ _), ← firstBytePos_toNat] at hstore

/-- A later word of a transfer, at its byte `i`, stores the next bytes (R93, R117). -/
theorem nextWord_memWrite (c : WrCtx) (i : Nat) (bs : List Byte) (m : Memory) (hword : c.wordAddr = c.addr + i)
    (hi : i < c.len) (hbs : bs.length = min 4 (c.len - i)) :
    (List.range 4).foldl (simStoreLane c (packAt 0 bs)) m = memWrite (c.addr + i) bs m := by
  have hstore := fifoWord_memWrite c 0 bs m (by omega) (fun j hj => by
    rw [hbs, hword]
    omega)
  rwa [hword] at hstore

/-- `P_FIRST` of a WRITE: the first bytes of `WBUF` (R185). -/
theorem firstWord_write {e : SimEsc} {s : State} (h : Serving e s) (hp : s.seq.ph = .pFirst) (hd : pramDir s = .wr)
    (hbuf : s.buf.wbuf.length = s.latch.reqLen.toNat)
    (hstart : Started .wr s.latch.reqAddr.toNat s.latch.reqLen.toNat e) :
    ∃ t e' n0, n0 = firstCount s.latch.reqAddr s.latch.reqLen.toNat ∧ Machine.step s = .next t ∧
      t.seq.ph = .pBOpen ∧ Carried s t ∧ Serving e' t ∧
      t.work.rem.toNat = s.latch.reqLen.toNat - n0 ∧ t.work.cur.toNat = n0 ∧
      e'.mem = memWrite s.latch.reqAddr.toNat (s.buf.wbuf.take n0) e.mem ∧
      e'.wrCtx = some ⟨s.latch.reqAddr.toNat, s.latch.reqLen.toNat, 1,
        fifoWords s.latch.reqAddr.toNat s.latch.reqLen.toNat⟩ := by
  have hfirst := visitPFirst_write h.caller hd
  generalize hn0 : firstCount s.latch.reqAddr s.latch.reqLen.toNat = n0 at hfirst
  have hctx : e.wrCtx = some ⟨s.latch.reqAddr.toNat, s.latch.reqLen.toNat, 0,
    fifoWords s.latch.reqAddr.toNat s.latch.reqLen.toNat⟩ := hstart
  have placed : Serving e
    ((placeFirst s).setWord (packAt (firstBytePos s.latch.reqAddr).toNat (s.buf.wbuf.take n0))) := h.change
  obtain ⟨t, hwrite, same, serving⟩ := placed.writeWord (fifoReg .wr)
    (packAt (firstBytePos s.latch.reqAddr).toNat (s.buf.wbuf.take n0))
  rw [simRegWrite_fifo hctx] at serving
  have hstep := h.step (by simp [hp])
  simp only [visitPhase, hp, hfirst, sendFirstWord, hwrite, thenDo_ok, finalState_ok] at hstep
  have hlent : pramLen t.countDown = s.latch.reqLen := by
    rw [(pram_operands (s := t.countDown) serving.caller).2.2.1]
    exact congrArg Latch.reqLen same.latch
  obtain ⟨hrem, hcur⟩ := afterFirst_toNat s.latch.reqAddr s.latch.reqLen
  rw [hn0] at hrem hcur
  refine ⟨_, _, n0, rfl, hstep, rfl, ⟨same.latch, same.vis, congrArg Buffers.wbuf same.buf, same.params⟩,
    serving.change, ?_, hcur, ?_, rfl⟩
  · rw [← hlent] at hrem ⊢
    exact hrem
  · have hstore := firstWord_memWrite s.latch.reqAddr (fifoWords s.latch.reqAddr.toNat s.latch.reqLen.toNat)
      s.buf.wbuf e.mem
    rwa [hbuf, hn0] at hstore

/-! ### The later words -/

/-- The phase of a burst: another word while bytes remain (R184, R185). -/
def burstPhase (rem : BitVec 16) : Phase := if rem = 0 then .pBClose else .pBWord

/-- `P_BOPEN` of a host operation. -/
theorem burst_opens {e : SimEsc} {s : State} {d : Dir} (h : Serving e s) (hp : s.seq.ph = .pBOpen)
    (hd : pramDir s = d) :
    ∃ t, Machine.step s = .next t ∧ Bursting d e t ∧ Carried s t ∧ t.seq.ph = burstPhase t.work.rem ∧
      t.work = s.work ∧ t.buf = s.buf := by
  obtain ⟨t, hopen, bursting, -, hlatch, hvis, hwork, hbuf, hparams⟩ := h.burstOpen d
  have hstep := h.step (by simp [hp])
  simp only [visitPhase, hp, visitPBOpen, hd, hopen, thenDo_ok, finalState_ok] at hstep
  exact ⟨_, hstep, bursting.change, ⟨hlatch, hvis, by rw [← hbuf]; rfl, hparams⟩, rfl, hwork, hbuf⟩

/-- The cursors after a word of a burst (R184, R185). -/
theorem wordDone_work (n : Nat) (s : State) :
    (wordDone n s).work = { s.work with
      cur := s.work.cur + BitVec.ofNat 16 n, rem := s.work.rem - BitVec.ofNat 16 n } ∧
      (wordDone n s).seq.ph = burstPhase (wordDone n s).work.rem := ⟨rfl, rfl⟩

/-- A word of the burst of a READ: the next bytes of memory (R184). -/
theorem burstWord_read {e : SimEsc} {s : State} {x n : Nat} (h : Bursting .rd e s) (hp : s.seq.ph = .pBWord)
    (hop : s.latch.op = .read) (hfifo : e.rdFifo = fifoFrom e.mem x (n + 1)) :
    ∃ t e', Machine.step s = .next t ∧ t.seq.ph = burstPhase t.work.rem ∧ Carried s t ∧ Bursting .rd e' t ∧
      e'.mem = e.mem ∧ e'.rdFifo = fifoFrom e.mem (x + 4) n ∧
      t.work.rem.toNat = s.work.rem.toNat - min 4 s.work.rem.toNat ∧
      t.buf.res = s.buf.res ++ memRead e.mem x (min 4 s.work.rem.toNat) := by
  have hd : pramDir s = .rd := by simp [(pram_operands h.caller).1, hop]
  rw [fifoFrom_succ] at hfifo
  obtain ⟨t, hpop, same, bursting⟩ := h.pop
  rw [simRegRead_fifo hfifo] at hpop bursting
  have hstep := h.step (by simp [hp])
  simp only [visitPhase, hp, visitPBWord, hd, hpop, andThen_ok, finalState_ok] at hstep
  have hwbuf : t.buf.wbuf = s.buf.wbuf := congrArg Buffers.wbuf same.buf
  have hrem := burstWord_toNat s.work.rem
  have hlanes := lanes_wordOf_memRead e.mem x 0 (min 4 s.work.rem.toNat) (Nat.le_refl 4) (by omega)
  rw [Nat.add_zero] at hlanes
  refine ⟨_, _, hstep, rfl, ⟨same.latch, same.vis, hwbuf, same.params⟩, bursting.change, rfl, rfl, ?_, ?_⟩
  · rw [← hrem]
    simp [wordDone_work, takeNextWord, same.work]
  · rw [← hlanes, ← same.buf]
    rfl

/-- The burst of a READ brings the remaining bytes of memory into the result (R184). -/
theorem burstRead_runs {e : SimEsc} {s : State} {x : Nat} (h : Bursting .rd e s)
    (hp : s.seq.ph = burstPhase s.work.rem) (hop : s.latch.op = .read)
    (hfifo : e.rdFifo = fifoFrom e.mem x ((s.work.rem.toNat + 3) / 4)) :
    ∃ t e', Runs s t ∧ t.seq.ph = .pBClose ∧ Carried s t ∧ Bursting .rd e' t ∧ e'.mem = e.mem ∧
      t.buf.res = s.buf.res ++ memRead e.mem x s.work.rem.toNat := by
  induction hk : s.work.rem.toNat using Nat.strong_induction_on generalizing s e x with
  | _ k ih =>
    by_cases h0 : s.work.rem = 0
    · have hk0 : k = 0 := by rw [← hk, h0]; rfl
      exact ⟨s, e, .refl, by rw [hp, burstPhase, if_pos h0], ⟨rfl, rfl, rfl, rfl⟩, h, rfl, by simp [hk0, memRead]⟩
    · have hpos := toNat_pos_of_ne_zero h0
      rw [show (s.work.rem.toNat + 3) / 4 = (k - min 4 k + 3) / 4 + 1 by omega] at hfifo
      obtain ⟨t, e₁, hstep, hph, carried, bursting, hmem, hfifo', hrem, hres⟩ :=
        burstWord_read h (by rw [hp, burstPhase, if_neg h0]) hop hfifo
      rw [hk] at hrem hres
      rw [← hrem, ← hmem] at hfifo'
      obtain ⟨u, e₂, hrun, hph', carried', bursting', hmem', hres'⟩ := ih (k - min 4 k) (by omega) bursting hph
        (by rw [carried.latch, hop]) hfifo' hrem
      refine ⟨u, e₂, .head hstep hrun, hph', carried.trans carried', bursting', hmem'.trans hmem, ?_⟩
      rw [hres', hres, hmem, List.append_assoc]
      conv_rhs => rw [show k = min 4 k + (k - min 4 k) by omega, memRead_add]
      by_cases hlast : k - min 4 k = 0
      · simp [hlast, memRead]
      · rw [show min 4 k = 4 by omega]

/-- A word of the burst of a WRITE: the next bytes of `WBUF` (R185). -/
theorem burstWord_write {e : SimEsc} {s : State} {c : WrCtx} {n : Nat} (h : Bursting .wr e s)
    (hp : s.seq.ph = .pBWord) (hop : s.latch.op = .write) (hctx : e.wrCtx = some c)
    (hword : c.wordAddr = c.addr + s.work.cur.toNat) (hlen : c.len = s.work.cur.toNat + s.work.rem.toNat)
    (hrange : c.len < 0x10000) (hbuf : s.buf.wbuf.length = c.len) (h0 : 0 < s.work.rem.toNat)
    (hn : min 4 s.work.rem.toNat = n) :
    ∃ t e', Machine.step s = .next t ∧ t.seq.ph = burstPhase t.work.rem ∧ Carried s t ∧ Bursting .wr e' t ∧
      e'.mem = memWrite (c.addr + s.work.cur.toNat) ((s.buf.wbuf.drop s.work.cur.toNat).take n) e.mem ∧
      e'.wrCtx = some { c with k := c.k + 1 } ∧ t.work.rem.toNat = s.work.rem.toNat - n ∧
      t.work.cur.toNat = s.work.cur.toNat + n := by
  obtain ⟨hd, -, -, hbytes⟩ := pram_operands h.caller
  rw [hop, if_pos rfl] at hd
  have htake : ((s.buf.wbuf.drop s.work.cur.toNat).take n).length = min 4 (c.len - s.work.cur.toNat) := by
    rw [List.length_take, List.length_drop]
    omega
  have worded : Bursting .wr e (s.setWord (packAt 0 ((s.buf.wbuf.drop s.work.cur.toNat).take n))) := h.change
  obtain ⟨t, hpush, same, bursting⟩ := worded.push (packAt 0 ((s.buf.wbuf.drop s.work.cur.toNat).take n))
  rw [simRegWrite_fifo hctx, nextWord_memWrite c _ _ e.mem hword (by omega) htake] at bursting
  have hstep := h.step (by simp [hp])
  simp only [visitPhase, hp, visitPBWord, hd, hbytes, hn, sendNextWord, hpush, thenDo_ok, finalState_ok] at hstep
  have hwbuf : t.buf.wbuf = s.buf.wbuf := congrArg Buffers.wbuf same.buf
  have hrem := burstWord_toNat s.work.rem
  rw [hn] at hrem
  refine ⟨_, _, hstep, rfl, ⟨same.latch, same.vis, hwbuf, same.params⟩, bursting.change, rfl, rfl, ?_, ?_⟩
  · rw [← hrem]
    simp [wordDone_work, same.work]
  · have hcur : t.work.cur = s.work.cur := by rw [same.work]; rfl
    simp only [wordDone_work, State.countDown_work_cur, hcur, BitVec.toNat_add, BitVec.toNat_ofNat]
    omega

/-- The burst of a WRITE brings the remaining bytes of `WBUF` into memory (R185). -/
theorem burstWrite_runs {e : SimEsc} {s : State} {c : WrCtx} (h : Bursting .wr e s)
    (hp : s.seq.ph = burstPhase s.work.rem) (hop : s.latch.op = .write) (hctx : e.wrCtx = some c)
    (hword : s.work.rem ≠ 0 → c.wordAddr = c.addr + s.work.cur.toNat)
    (hlen : c.len = s.work.cur.toNat + s.work.rem.toNat) (hrange : c.len < 0x10000)
    (hbuf : s.buf.wbuf.length = c.len) :
    ∃ t e', Runs s t ∧ t.seq.ph = .pBClose ∧ Carried s t ∧ Bursting .wr e' t ∧
      e'.mem = memWrite (c.addr + s.work.cur.toNat) (s.buf.wbuf.drop s.work.cur.toNat) e.mem := by
  induction hk : s.work.rem.toNat using Nat.strong_induction_on generalizing s e c with
  | _ k ih =>
    by_cases h0 : s.work.rem = 0
    · have hk0 : k = 0 := by rw [← hk, h0]; rfl
      refine ⟨s, e, .refl, by rw [hp, burstPhase, if_pos h0], ⟨rfl, rfl, rfl, rfl⟩, h, ?_⟩
      rw [List.drop_of_length_le (by omega)]
      rfl
    · have hpos := toNat_pos_of_ne_zero h0
      have hword' := hword h0
      generalize hn : min 4 s.work.rem.toNat = n
      obtain ⟨t, e₁, hstep, hph, carried, bursting, hmem, hctx', hrem, hcur⟩ := burstWord_write h
        (by rw [hp, burstPhase, if_neg h0]) hop hctx hword' hlen hrange hbuf hpos hn
      have hnext (hne : t.work.rem ≠ 0) :
          WrCtx.wordAddr { c with k := c.k + 1 } = c.addr + t.work.cur.toNat := by
        have := toNat_pos_of_ne_zero hne
        simp only [WrCtx.wordAddr] at hword' ⊢
        omega
      obtain ⟨u, e₂, hrun, hph', carried', bursting', hmem'⟩ := ih (k - n) (by omega) bursting hph
        (by rw [carried.latch, hop]) hctx' hnext (by dsimp only; omega) hrange (by rw [carried.wbuf, hbuf])
        (by omega)
      refine ⟨u, e₂, .head hstep hrun, hph', carried.trans carried', bursting', ?_⟩
      rw [hmem', hmem, carried.wbuf, hcur,
        memWrite_drop (c.addr + s.work.cur.toNat) s.work.cur.toNat n s.buf.wbuf e.mem (by omega), Nat.add_assoc c.addr]

/-! ### The whole access -/

/-- `P_BCLOSE` of a host operation: the frame ends and the refresh is next; a READ takes its bytes (R184, R203). -/
theorem burst_closes {e : SimEsc} {s : State} {d : Dir} (h : Bursting d e s) (hp : s.seq.ph = .pBClose) :
    ∃ t, Machine.step s = .next t ∧ t.seq.ph = .rAlev ∧ Carried s t ∧ Serving e t ∧
      (s.latch.op = .read → t.buf.rbuf = s.buf.res) := by
  have closed : Serving e (csDeassert s) := h.close
  have carried : Carried s (csDeassert s) :=
    ⟨csDeassert_latch s, csDeassert_vis s, by rw [csDeassert_buf], csDeassert_params s⟩
  have hstep := h.step (by simp [hp])
  simp only [visitPhase, hp, visitPBClose, burstClose, finalState_ok] at hstep
  refine ⟨_, hstep, ?_⟩
  unfold pramReturn
  rw [closed.caller]
  dsimp only
  split
  · exact ⟨rfl, carried.trans ⟨rfl, rfl, rfl, rfl⟩, closed.change, fun _ => by simp⟩
  · rename_i hop
    refine ⟨rfl, carried.trans ⟨rfl, rfl, rfl, rfl⟩, closed.change, fun hread => absurd hread ?_⟩
    rwa [csDeassert_latch] at hop

/-- The PRAM access of a READ brings the bytes of memory into `RBUF`, and leaves memory (R184, R203). -/
theorem pramRead_runs {e : SimEsc} {s : State} (h : Serving e s) (hp : s.seq.ph = .pAbort)
    (hop : s.latch.op = .read) (hlen : 1 ≤ s.latch.reqLen.toNat) :
    ∃ t e', Runs s t ∧ t.seq.ph = .rAlev ∧ Carried s t ∧ Serving e' t ∧ e'.mem = e.mem ∧
      t.buf.rbuf = memRead e.mem s.latch.reqAddr.toNat s.latch.reqLen.toNat := by
  have hd : pramDir s = .rd := by simp [(pram_operands h.caller).1, hop]
  obtain ⟨t₁, e₁, hrun₁, hp₁, quiet₁, serving₁, hmem₁, hstart⟩ := setup_runs h hp hd hlen
  rw [← quiet₁.latch] at hstart hlen
  have hd₁ := (pramDir_congr h.caller serving₁.caller quiet₁.latch).trans hd
  obtain ⟨t₂, e₂, hstep₂, hp₂, carried₂, serving₂, hmem₂, hrem₂, hres₂, hfifo₂⟩ :=
    firstWord_read serving₁ hp₁ hd₁ hlen hstart
  have hd₂ := (pramDir_congr serving₁.caller serving₂.caller carried₂.latch).trans hd₁
  obtain ⟨t₃, hstep₃, bursting₃, carried₃, hp₃, hwork₃, hbuf₃⟩ := burst_opens serving₂ hp₂ hd₂
  have carried := (quiet₁.toCarried.trans carried₂).trans carried₃
  rw [← hrem₂, ← hmem₂, ← hwork₃] at hfifo₂
  obtain ⟨t₄, e₄, hrun₄, hp₄, carried₄, bursting₄, hmem₄, hres₄⟩ :=
    burstRead_runs bursting₃ hp₃ (by rw [carried.latch, hop]) hfifo₂
  obtain ⟨t₅, hstep₅, hp₅, carried₅, serving₅, hrbuf⟩ := burst_closes bursting₄ hp₄
  refine ⟨t₅, e₄, ((hrun₁.tail hstep₂).tail hstep₃).trans (hrun₄.tail hstep₅), hp₅,
    (carried.trans carried₄).trans carried₅, serving₅, hmem₄.trans (hmem₂.trans hmem₁), ?_⟩
  rw [hrbuf (by rw [carried₄.latch, carried.latch, hop]), hres₄, hbuf₃, hres₂, hwork₃, hrem₂, hmem₂, hmem₁,
    ← memRead_add, Nat.add_sub_cancel' (firstCount_le _ _), quiet₁.latch]

/-- The PRAM access of a WRITE brings the bytes of `WBUF` into memory (R185, R204). -/
theorem pramWrite_runs {e : SimEsc} {s : State} (h : Serving e s) (hp : s.seq.ph = .pAbort)
    (hop : s.latch.op = .write) (hlen : 1 ≤ s.latch.reqLen.toNat)
    (hbuf : s.buf.wbuf.length = s.latch.reqLen.toNat) :
    ∃ t e', Runs s t ∧ t.seq.ph = .rAlev ∧ Carried s t ∧ Serving e' t ∧
      e'.mem = memWrite s.latch.reqAddr.toNat s.buf.wbuf e.mem := by
  have hd : pramDir s = .wr := by simp [(pram_operands h.caller).1, hop]
  obtain ⟨t₁, e₁, hrun₁, hp₁, quiet₁, serving₁, hmem₁, hstart⟩ := setup_runs h hp hd hlen
  rw [← quiet₁.latch] at hstart hlen
  have hd₁ := (pramDir_congr h.caller serving₁.caller quiet₁.latch).trans hd
  obtain ⟨t₂, e₂, n0, hn0, hstep₂, hp₂, carried₂, serving₂, hrem₂, hcur₂, hmem₂, hctx₂⟩ :=
    firstWord_write serving₁ hp₁ hd₁ (by rw [quiet₁.wbuf, quiet₁.latch, hbuf]) hstart
  have hd₂ := (pramDir_congr serving₁.caller serving₂.caller carried₂.latch).trans hd₁
  obtain ⟨t₃, hstep₃, bursting₃, carried₃, hp₃, hwork₃, hbuf₃⟩ := burst_opens serving₂ hp₂ hd₂
  have carried := (quiet₁.toCarried.trans carried₂).trans carried₃
  have hle : n0 ≤ t₁.latch.reqLen.toNat := hn0 ▸ firstCount_le _ _
  rw [← hwork₃] at hrem₂ hcur₂
  obtain ⟨t₄, e₄, hrun₄, hp₄, carried₄, bursting₄, hmem₄⟩ :=
    burstWrite_runs bursting₃ hp₃ (by rw [carried.latch, hop]) hctx₂
      (fun hne => by
        have hpos := toNat_pos_of_ne_zero hne
        have := secondWord_addr t₁.latch.reqAddr (len := t₁.latch.reqLen.toNat) (by omega)
        rw [← hn0] at this
        rw [hcur₂]
        exact this)
      (by rw [hcur₂, hrem₂]; dsimp only; omega) t₁.latch.reqLen.isLt
      (by rw [carried.wbuf, hbuf, quiet₁.latch])
  obtain ⟨t₅, hstep₅, hp₅, carried₅, serving₅, -⟩ := burst_closes bursting₄ hp₄
  refine ⟨t₅, e₄, ((hrun₁.tail hstep₂).tail hstep₃).trans (hrun₄.tail hstep₅), hp₅,
    (carried.trans carried₄).trans carried₅, serving₅, ?_⟩
  have htake : (s.buf.wbuf.take n0).length = n0 := by
    rw [List.length_take, hbuf, ← quiet₁.latch]
    omega
  rw [hmem₄, hmem₂, carried.wbuf, hcur₂, quiet₁.wbuf, quiet₁.latch, hmem₁]
  conv_rhs => rw [← List.take_append_drop n0 s.buf.wbuf, memWrite_append, htake]

end Sys2Proof.Machine
end

section
/-! PROOF of O60. A whole READ and a whole WRITE against the reference peripheral, on the CSR path and the PRAM path
(R200, R203, R204, R95); and one after the other. -/

namespace Sys2Proof.Machine

/-- `R_DISPATCH` on the PRAM path (R200). -/
theorem step_dispatch_pram {e : SimEsc} {s : State} (h : Serving e s) (hp : s.seq.ph = .rDispatch)
    (hpram : isPram s.latch.reqAddr = true) : Machine.step s = .next (s.toPhase .pAbort) := by
  rw [h.step (by simp [hp])]
  simp only [visitPhase, hp, visitRDispatch, if_pos hpram, finalState_ok]

/-- The router's cursors at the start of a request on the CSR path (R200, R203, R204). -/
def firstChunk (s : State) : State :=
  { s with
    work.addr := s.latch.reqAddr
    work.cur := 0
    work.rem := s.latch.reqLen
    seq.ph := .rChunk }

/-- `R_DISPATCH` on the CSR path (R200). -/
theorem step_dispatch_csr {e : SimEsc} {s : State} (h : Serving e s) (hp : s.seq.ph = .rDispatch)
    (hcsr : isPram s.latch.reqAddr = false) : Machine.step s = .next (firstChunk s) := by
  rw [h.step (by simp [hp])]
  simp only [visitPhase, hp, visitRDispatch, hcsr, Bool.false_eq_true, if_false, finalState_ok]
  rfl

/-- The admitted range of a request, as the cursors begin (R71). -/
theorem firstChunk_inRange {s : State} (h : s.latch.reqAddr.toNat + s.latch.reqLen.toNat ≤ 0x10000) :
    InRange (firstChunk s) := by
  have hlen := s.latch.reqLen.isLt
  refine ⟨h, ?_⟩
  simp only [firstChunk]
  simpa using hlen

/-- A dispatched READ brings the bytes of memory into `RBUF`, and leaves memory (R203). -/
theorem dispatchedRead_runs {e : SimEsc} {s : State} (h : Serving e s) (hp : s.seq.ph = .rDispatch)
    (hr : s.seq.refresh = false) (hop : s.latch.op = .read) (hlen : 1 ≤ s.latch.reqLen.toNat)
    (hrange : s.latch.reqAddr.toNat + s.latch.reqLen.toNat ≤ 0x10000) :
    ∃ t e', Runs s t ∧ t.seq.ph = .rAlev ∧ Carried s t ∧ Serving e' t ∧ e'.mem = e.mem ∧
      t.buf.rbuf = memRead e.mem s.latch.reqAddr.toNat s.latch.reqLen.toNat := by
  cases hpath : isPram s.latch.reqAddr with
  | true =>
    obtain ⟨t, e', hrun, hph, carried, serving, hmem, hrbuf⟩ :=
      pramRead_runs (s := s.toPhase .pAbort) h.change rfl hop hlen
    exact ⟨t, e', .head (step_dispatch_pram h hp hpath) hrun, hph, (toPhase_quiet _ s).toCarried.trans carried,
      serving, hmem, hrbuf⟩
  | false =>
    have hne : (firstChunk s).work.rem ≠ 0 := fun h0 => by
      have : s.latch.reqLen = 0 := h0
      simp [this] at hlen
    obtain ⟨t, e', hrun, hph, carried, serving, hmem, hrbuf⟩ := readChunks_run (s := firstChunk s) h.change rfl hr hop
      (firstChunk_inRange hrange) (Nat.zero_le _) fun h0 => absurd h0 hne
    exact ⟨t, e', .head (step_dispatch_csr h hp hpath) hrun, hph, ⟨carried.latch, carried.vis, carried.wbuf,
      carried.params⟩, serving, hmem, hrbuf⟩

/-- A dispatched WRITE brings the bytes of `WBUF` into memory (R204). -/
theorem dispatchedWrite_runs {e : SimEsc} {s : State} (h : Serving e s) (hp : s.seq.ph = .rDispatch)
    (hr : s.seq.refresh = false) (hop : s.latch.op = .write) (hlen : 1 ≤ s.latch.reqLen.toNat)
    (hrange : s.latch.reqAddr.toNat + s.latch.reqLen.toNat ≤ 0x10000)
    (hbuf : s.buf.wbuf.length = s.latch.reqLen.toNat) :
    ∃ t e', Runs s t ∧ t.seq.ph = .rAlev ∧ Carried s t ∧ Serving e' t ∧
      e'.mem = memWrite s.latch.reqAddr.toNat s.buf.wbuf e.mem := by
  cases hpath : isPram s.latch.reqAddr with
  | true =>
    obtain ⟨t, e', hrun, hph, carried, serving, hmem⟩ :=
      pramWrite_runs (s := s.toPhase .pAbort) h.change rfl hop hlen hbuf
    exact ⟨t, e', .head (step_dispatch_pram h hp hpath) hrun, hph, (toPhase_quiet _ s).toCarried.trans carried,
      serving, hmem⟩
  | false =>
    obtain ⟨t, e', hrun, hph, carried, serving, hmem⟩ := writeChunks_run (s := firstChunk s) h.change rfl hr hop
      (firstChunk_inRange hrange) (hbuf.trans (Nat.zero_add _).symm)
    exact ⟨t, e', .head (step_dispatch_csr h hp hpath) hrun, hph, ⟨carried.latch, carried.vis, carried.wbuf,
      carried.params⟩, serving, hmem⟩

/-- An idle block, its wire between frames, with a canonical peripheral that answers alone. -/
structure ReadyToServe (e : SimEsc) (s : State) : Prop where
  idle : s.seq.ph = .idle
  wire : s.wire = Wire.idle
  resetIn : s.env.resetIn = .off
  ready : SimReady e s
  wf : SimWf e

theorem ReadyToServe.free {e : SimEsc} {s : State} (h : ReadyToServe e s) : s.busy = false := by
  simp [State.busy, h.idle]

/-- A host operation has ended in `t` with `STATUS` 0 and a fresh mirror, and its response is the last event; the
peripheral, whose memory is `m`, can serve the next (R95, R238). -/
structure Served (m : Memory) (data : Option (List Byte)) (s t : State) : Prop where
  seq : t.seq = Seq.atRest
  sim : ∃ e, ReadyToServe e t ∧ e.mem = m
  vis : t.vis = ⟨simAlEvent s.env.params m, 0, s.vis.faultSeen⟩
  rsp : t.trace.getLast? = some (.rsp 0 data (simAlEvent s.env.params m))

/-- The refresh after the bytes of the request have moved. -/
theorem served_of_completed {m : Memory} {data : Option (List Byte)} {s u t : State} (h : CompletedWith m u t)
    (vis : u.vis = s.vis) (params : u.env.params = s.env.params)
    (hdata : (if u.latch.op = .read then some u.buf.rbuf else none) = data) : Served m data s t := by
  obtain ⟨e, ready, wf, hmem⟩ := h.sim
  refine ⟨h.seq, ⟨e, ⟨by rw [h.seq], h.wire, h.resetIn, ready, wf⟩, hmem⟩, ?_, ?_⟩
  · rw [h.vis, vis, params]
  · rw [h.rsp, hdata, params]

/-- An admitted READ returns the bytes of memory and leaves it, on either path (R95, R203). -/
theorem read_served {e : SimEsc} {s : State} (h : ReadyToServe e s) (addr : Addr) (len : BitVec 16)
    (hlen : 1 ≤ len.toNat) (hrange : addr.toNat + len.toNat ≤ 0x10000) :
    ∃ a k t, exec (.read addr len) s = .next a ∧ stepN k a = .next t ∧
      t.buf.rbuf = memRead e.mem addr.toNat len.toNat ∧
      Served e.mem (some (memRead e.mem addr.toNat len.toNat)) s t := by
  have accepted : Serving e ((acceptRequest .read addr len [] s).enter .host .rDispatch) :=
    ⟨rfl, h.resetIn, h.wire, h.ready, h.wf⟩
  obtain ⟨u, e', hrun, hph, carried, serving, hmem, hrbuf⟩ := dispatchedRead_runs accepted rfl rfl rfl hlen hrange
  obtain ⟨t, hrun', completed⟩ := refresh_runs serving hph
  obtain ⟨k, hk⟩ := Runs.stepN (hrun.trans hrun')
  rw [hmem] at completed
  refine ⟨_, k, t, whenAdmitted_of_range h.free hlen (len_le len) hrange, hk, completed.rbuf.trans hrbuf,
    served_of_completed completed carried.vis carried.params ?_⟩
  rw [carried.latch, hrbuf]
  rfl

/-- An admitted WRITE stores its bytes at their addresses and nothing else, on either path (R95, R204). -/
theorem write_served {e : SimEsc} {s : State} (h : ReadyToServe e s) (addr : Addr) (data : List Byte)
    (hpos : 1 ≤ data.length) (hle : data.length ≤ 65535) (hrange : addr.toNat + data.length ≤ 0x10000) :
    ∃ a k t, exec (.write addr data) s = .next a ∧ stepN k a = .next t ∧
      Served (memWrite addr.toNat data e.mem) none s t := by
  have accepted : Serving e ((acceptRequest .write addr (BitVec.ofNat 16 data.length) data
      { s with buf.wbuf := data }).enter .host .rDispatch) :=
    ⟨rfl, h.resetIn, h.wire, h.ready, h.wf⟩
  have hlen : (BitVec.ofNat 16 data.length).toNat = data.length := by
    rw [BitVec.toNat_ofNat, Nat.mod_eq_of_lt (by omega)]
  obtain ⟨u, e', hrun, hph, carried, serving, hmem⟩ := dispatchedWrite_runs accepted rfl rfl rfl
    (hlen.symm ▸ hpos) (hlen.symm ▸ hrange) hlen.symm
  obtain ⟨t, hrun', completed⟩ := refresh_runs serving hph
  obtain ⟨k, hk⟩ := Runs.stepN (hrun.trans hrun')
  rw [hmem] at completed
  refine ⟨_, k, t, whenAdmitted_of_range h.free hpos hle hrange, hk,
    served_of_completed completed carried.vis carried.params ?_⟩
  rw [carried.latch]
  rfl

/-- The bytes read where they were just written (R11). -/
theorem memRead_memWrite {m : Memory} (h : Memory.wf m) (a : Nat) (bs : List Byte) (hrange : a + bs.length ≤ 0x10000) :
    memRead (memWrite a bs m) a bs.length = bs := by
  refine List.ext_getElem (by simp) fun i hi hi' => ?_
  simp only [memRead, List.getElem_map, List.getElem_range, memGet_memWrite h]
  rw [if_pos (by omega), Nat.add_sub_cancel_left, List.getD_eq_getElem _ _ hi']

/-- Settles O60: the WRITE leaves the peripheral with its bytes stored and ready for the READ, which returns the bytes
of memory in that range. -/
theorem writeThenReadRoundTrip : Obligations.WriteThenReadRoundTrip := by
  intro addr data e s hidle hwire hreset hready hwf hpos hle hrange
  obtain ⟨a, j, b, hwrite, hj, written⟩ := write_served ⟨hidle, hwire, hreset, hready, hwf⟩ addr data hpos hle hrange
  obtain ⟨e', ready, hmem⟩ := written.sim
  have hlen : (BitVec.ofNat 16 data.length).toNat = data.length := by
    rw [BitVec.toNat_ofNat, Nat.mod_eq_of_lt (by omega)]
  obtain ⟨c, k, t, hread, hk, hrbuf, done⟩ := read_served ready addr (BitVec.ofNat 16 data.length)
    (hlen.symm ▸ hpos) (hlen.symm ▸ hrange)
  refine ⟨a, j, b, c, k, t, hwrite, hj, written.seq, hread, hk, done.seq, by rw [done.vis], ?_⟩
  rw [hrbuf, hmem, hlen, memRead_memWrite hwf.1 addr.toNat data hrange]

end Sys2Proof.Machine
end

section
/-! PROOFS of O9, O22, O23, O24, O25, O26 and O27: the encodings the decoder refuses; the command words, each a word
frame to its register; the status words; and the data words, sent in a word frame or a burst group, or taken apart by
their lanes (30_encoding.md sections 3 to 5). -/

namespace Sys2Proof.Machine

/-! ### Reserved encodings (R120) -/

theorem be32_eq (w : Word) :
    be32 w = [w.extractLsb' 24 8, w.extractLsb' 16 8, w.extractLsb' 8 8, w.extractLsb' 0 8] := rfl

theorem decode_frame_unknownOpcode {op : Byte} (rest : List Byte) (hwrite : op ≠ 0x02) (hserial : op ≠ 0x03)
    (hfast : op ≠ 0x0B) (hreset : op ≠ 0xFF) : decode .frame (op :: rest) = .error .unknownOpcode := by
  simp only [decode, decodeFrame, if_neg hwrite, if_neg hserial, if_neg hfast, if_neg hreset]

theorem decode_csrCmd_be32 (w : Word) : decode .csrCmd (be32 w) = decodeCsrCmd w := by
  simp only [decode, wordBE_be32, decodeWord]

theorem decode_pramCmd_be32 (d : Dir) (w : Word) : decode (.pramCmd d) (be32 w) = decodePramCmd d w := by
  simp only [decode, wordBE_be32, decodeWord]

theorem decodeCsrCmd_reservedBits {w : Word} (h : w.getLsbD 31 = false ∨ w.extractLsb' 18 12 ≠ 0) :
    decodeCsrCmd w = .error .csrCommandBits := by
  refine if_pos ?_
  rcases h with hbusy | hreserved
  · rw [hbusy]
    rfl
  · rw [bne_iff_ne.mpr hreserved, Bool.or_true]

theorem decodeCsrCmd_sizeCode3 {w : Word} (hbusy : w.getLsbD 31 = true) (hreserved : w.extractLsb' 18 12 = 0)
    (hsize : w.extractLsb' 16 2 = 3) : decodeCsrCmd w = .error .sizeCode3 := by
  simp only [decodeCsrCmd, hbusy, hreserved, hsize]
  rfl

theorem decodePramCmd_unknown {w : Word} (d : Dir) (habort : w ≠ pramAbortWord) (hstart : w ≠ pramStartWord) :
    decodePramCmd d w = .error .pramCommandBits := by
  rw [decodePramCmd, if_neg habort, if_neg hstart]

/-- Settles O9: each of the four encodings fails the test of its own decoder. -/
theorem reservedEncodingsAreRefused : Obligations.ReservedEncodingsAreRefused := by
  refine ⟨fun _ rest => decode_frame_unknownOpcode rest, fun w h => ?_, fun w hbusy hreserved hsize => ?_,
    fun d w habort hstart => ?_⟩
  · rw [← be32_eq, decode_csrCmd_be32, decodeCsrCmd_reservedBits h]
  · rw [← be32_eq, decode_csrCmd_be32, decodeCsrCmd_sizeCode3 hbusy hreserved hsize]
  · rw [← be32_eq, decode_pramCmd_be32, decodePramCmd_unknown d habort hstart]

/-! ### Command words (R110 to R114) -/

theorem PortReady.closed {s : State} (h : PortReady s) : s.wire.cs = false := by
  obtain ⟨hwire, -⟩ := h
  rw [hwire]

/-- A whole-frame operation that reads no value, answered with bytes, leaves its frame and nothing else. -/
theorem exec_frame_bytes {i : Instr} {tx rx : List Byte} {rest : List Reply} {s : State} (hp : PortReady s)
    (htx : frameTx s.env.params i = some tx) (hr : readsWord i = false) (hlen : rx.length = tx.length)
    (h : Answers rx rest s) : exec i s = .next (afterEvents rest (wholeFrame tx rx) s) := by
  rw [exec_frame hp.closed htx, frame_bytes tx rx rest s hp hlen h, andThen_ok, finalState_ok, keepWord, hr]
  rfl

/-- The size code of R111 as a number. -/
theorem sizeCode_toNat (n : SizeCode) :
    (sizeCode n).toNat = (match n with | .one => 0 | .two => 1 | .four => 2) := by
  cases n <;> rfl

/-- Settles O22: the row is the word frame of its command word, whose fields are those of R110. -/
theorem csrCommandWordsAreWrittenToCsrCmd : Obligations.CsrCommandWordsAreWrittenToCsrCmd := by
  intro n a rx rest s hp hlen h
  obtain ⟨rbusy, rread, rzero, rsize, raddr⟩ := csrCmdWord_fields .rd n a
  obtain ⟨wbusy, wread, wzero, wsize, waddr⟩ := csrCmdWord_fields .wr n a
  exact ⟨csrCmdWord .rd n a, csrCmdWord .wr n a,
    ⟨rbusy, rread, rzero, raddr, (congrArg BitVec.toNat rsize).trans (sizeCode_toNat n)⟩,
    ⟨wbusy, wread, wzero, waddr, (congrArg BitVec.toNat wsize).trans (sizeCode_toNat n)⟩,
    exec_frame_bytes hp rfl rfl hlen h, exec_frame_bytes hp rfl rfl hlen h⟩

/-- Settles O23: each row is the word frame of its word to the register of its direction. -/
theorem pramCommandWordsAreWrittenToTheirRegisters : Obligations.PramCommandWordsAreWrittenToTheirRegisters := by
  intro rx rest s hp hlen h
  have sent (i : Instr) (reg : Addr) (v : Word) (htx : frameTx s.env.params i = some (writeTx reg v))
      (hr : readsWord i = false) : exec i s = .next (afterEvents rest (wholeFrame (writeTx reg v) rx) s) :=
    exec_frame_bytes hp htx hr hlen h
  refine ⟨sent (.pramcmdAbort .rd) _ _ rfl rfl, sent (.pramcmdAbort .wr) _ _ rfl rfl,
    sent (.pramcmdStart .rd) _ _ rfl rfl, sent (.pramcmdStart .wr) _ _ rfl rfl, fun len a => ?_⟩
  obtain ⟨hlength, haddr⟩ := addrLenWord_fields len a
  exact ⟨addrLenWord len a, hlength, haddr, sent (.pramAddrlen .rd len a) _ _ rfl rfl,
    sent (.pramAddrlen .wr len a) _ _ rfl rfl⟩

/-! ### Status words (R113) -/

theorem loadFifoCnt_eq (v : Word) (s : State) : loadFifoCnt v s =
    s.setFifoCnt (if v.getLsbD 0 then v.extractLsb' 16 5 else s.work.fifoCnt) := by
  unfold loadFifoCnt availBit
  split
  · rfl
  · rfl

/-- Settles O24: `WORD` is set, and the availability bit decides about the count. -/
theorem statusWordsAreTakenApart : Obligations.StatusWordsAreTakenApart := by
  intro d v s
  exact ⟨rfl, congrArg Host.Outcome.next (loadFifoCnt_eq v (s.setWord v))⟩

/-! ### Data words (R115 to R117) -/

theorem PortReady.setWord {s : State} (h : PortReady s) (v : Word) : PortReady (s.setWord v) := h

theorem Answers.setWord {rx : List Byte} {rest : List Reply} {s : State} (h : Answers rx rest s) (v : Word) :
    Answers rx rest (s.setWord v) := h

theorem le32_eq (v : Word) :
    le32 v = [v.extractLsb' 0 8, v.extractLsb' 8 8, v.extractLsb' 16 8, v.extractLsb' 24 8] := rfl

/-- Lanes of a word are a stretch of its bytes, lane 0 first. -/
theorem lanes_eq_take_drop {p n : Nat} (v : Word) (h : p + n ≤ 4) : lanes p n v = ((le32 v).drop p).take n := by
  refine List.ext_getElem ?_ fun i hi _ => ?_
  · rw [lanes_length, List.length_take, List.length_drop, le32_length]
    omega
  rw [lanes_length] at hi
  have hbyte := getElem_lanes 0 4 (p + i) v (by omega)
  rw [Nat.zero_add] at hbyte
  rw [getElem_lanes p n i v hi, List.getElem_take, List.getElem_drop]
  exact hbyte.symm

theorem exec_csrDataWord_wr (n : SizeCode) (v : Word) {s : State} (h : s.wire.cs = false) :
    exec (.csrDataWord .wr n v) s = .next (finalState (sendCsrData v s)) :=
  whenFrameClosed_of_closed h

theorem exec_pramFirstWord_wr (fbp : BitVec 2) (n0 : Nat) (v : Word) {s : State} (h : s.wire.cs = false) :
    exec (.pramFirstWord .wr fbp n0 v) s = .next (finalState (sendFirstWord v s)) :=
  whenFrameClosed_of_closed h

theorem exec_pramNextWord_wr (t : Nat) (v : Word) {s : State} (h : s.wire.burst = some .wr) :
    exec (.pramNextWord .wr t v) s = .next (finalState (sendNextWord v s)) :=
  if_pos h

/-- Settles O25: the word frame to `CSR_DATA` with `WORD` set before it; or the low lanes. -/
theorem csrDataWordIsSentOrTaken : Obligations.CsrDataWordIsSentOrTaken := by
  refine ⟨fun n v rx rest s hp hlen h => ?_, fun n v rx bad rest s hp hfault hbad h => ?_, fun n v s => ?_⟩
  · rw [exec_csrDataWord_wr n v hp.closed, sendCsrData,
      writeWord_bytes csrDataReg v rx rest _ (hp.setWord v) hlen (h.setWord v)]
    rfl
  · rw [exec_csrDataWord_wr n v hp.closed, sendCsrData,
      writeWord_fault csrDataReg v rx bad rest _ (hp.setWord v) hbad hfault h]
    rfl
  · cases n
    case one => rfl
    case two => rfl
    case four => rfl

/-- Settles O26: the word frame to the write FIFO with `WORD` set before it and the count taken down after it; or the
lanes from the first-byte position up. -/
theorem pramFirstWordIsSentOrTaken : Obligations.PramFirstWordIsSentOrTaken := by
  refine ⟨fun fbp n0 v rx rest s hp hlen h => ?_, fun fbp n0 v rx bad rest s hp hfault hbad h => ?_,
    fun fbp n0 v s _ hrange => ?_⟩
  · rw [exec_pramFirstWord_wr fbp n0 v hp.closed, sendFirstWord,
      writeWord_bytes (fifoReg .wr) v rx rest _ (hp.setWord v) hlen (h.setWord v)]
    rfl
  · rw [exec_pramFirstWord_wr fbp n0 v hp.closed, sendFirstWord,
      writeWord_fault (fifoReg .wr) v rx bad rest _ (hp.setWord v) hbad hfault h]
    rfl
  · rw [← le32_eq, ← lanes_eq_take_drop v hrange]
    rfl

/-- Settles O27: four exchanges inside the burst, with `WORD` set before them and the count taken down after them; or
the low lanes. -/
theorem pramNextWordIsSentOrTaken : Obligations.PramNextWordIsSentOrTaken := by
  refine ⟨fun n v rx rest s hwire _ hlen h => ?_, fun n v rx bad rest s hwire _ hfault hbad h => ?_,
    fun n v s _ hrange => ?_⟩
  · rw [exec_pramNextWord_wr n v (by rw [hwire]), sendNextWord, burstPush, send,
      exchange_bytes (le32 v) rx rest _ hlen (h.setWord v)]
    rfl
  · rw [exec_pramNextWord_wr n v (by rw [hwire]), sendNextWord, burstPush, send,
      exchange_fault (le32 v) rx bad rest (s.setWord v) hbad hfault h]
    rfl
  · have hlow : lanes 0 n v = (le32 v).take n := lanes_eq_take_drop v (by omega)
    rw [← le32_eq, ← hlow]
    rfl

end Sys2Proof.Machine
end

section
/-! PROOFS of O10 to O18 and O21: the transport operations run by themselves (40_transport.md). A word frame and a burst
are lists of exchanges, so what the environment answers to the list decides: bytes throughout complete the operation,
and a bus fault at one exchange ends it there. -/

namespace Sys2Proof.Machine

/-! ### Whole frames (R140 to R143) -/

/-- A whole-frame operation that reads a value, answered with a header and the bytes of the value, leaves its frame and
the value in `WORD`. -/
theorem exec_frame_value {i : Instr} {tx header : List Byte} {v : Word} {rest : List Reply} {s : State}
    (hp : PortReady s) (htx : frameTx s.env.params i = some tx) (hr : readsWord i = true)
    (hlen : tx.length = header.length + 4) (h : Answers (header ++ le32 v) rest s) :
    exec i s = .next (afterEvents rest (wholeFrame tx (header ++ le32 v)) (s.setWord v)) := by
  have hvalue : (header ++ le32 v).drop (tx.length - 4) = le32 v := by
    rw [hlen, Nat.add_sub_cancel, List.drop_left]
  rw [exec_frame hp.closed htx, frame_bytes tx _ rest s hp (by simp [hlen]) h, andThen_ok, finalState_ok, keepWord,
    if_pos hr, hvalue, wordOf_le32]
  rfl

/-- A whole-frame operation of which one exchange faults ends there (R231). -/
theorem exec_frame_fault {i : Instr} {tx rx : List Byte} {bad : Byte} {rest : List Reply} {s : State}
    (hp : PortReady s) (hfault : s.env.params.busCanFault = true) (htx : frameTx s.env.params i = some tx)
    (hbad : tx[rx.length]? = some bad) (h : s.env.script = rx.map Reply.byte ++ .fault :: rest) :
    exec i s = .next (raise .busFault (insideCut rest tx rx bad s)) := by
  rw [exec_frame hp.closed htx, frame_fault tx rx bad rest s hp hbad hfault h, andThen_stop, finalState_stop]

/-- Settles O11: a whole frame that reads no value. -/
theorem writeWordSendsItsFrame : Obligations.WriteWordSendsItsFrame :=
  ⟨fun _ _ _ _ _ hp hlen h => exec_frame_bytes hp rfl rfl hlen h,
    fun _ _ _ _ _ _ hp hfault hbad h => exec_frame_fault hp hfault rfl hbad h⟩

/-- Settles O12: a whole frame with four bytes before its value. -/
theorem fastReadWordReceivesItsValue : Obligations.FastReadWordReceivesItsValue :=
  ⟨fun _ _ _ _ _ hp hlen h => exec_frame_value hp rfl rfl (by rw [hlen]; rfl) h,
    fun _ _ _ _ _ hp hfault hbad h => exec_frame_fault hp hfault rfl hbad h⟩

theorem readWord_of_fast {s : State} (reg : Addr) (h : s.env.params.wordRead = .fast) :
    readWord reg s = fastReadWord reg s := by
  rw [readWord, h]

theorem readWord_of_serial {s : State} (reg : Addr) (h : s.env.params.wordRead = .serial) :
    readWord reg s = serialReadWord reg s := by
  rw [readWord, h]

theorem exec_readWord (reg : Addr) (s : State) :
    exec (.readWord reg) s = whenFrameClosed s (finalState (storeWord (readWord reg s))) := rfl

/-- Settles O13: a whole frame with three bytes before its value; and the read that the parameter names, whose frame is
that of the reading. -/
theorem otherReadsReceiveTheirValue : Obligations.OtherReadsReceiveTheirValue := by
  refine ⟨fun reg header v rest s hp hlen h => exec_frame_value hp rfl rfl (by rw [hlen]; rfl) h,
    fun reg rx bad rest s hp hfault hbad h => exec_frame_fault hp hfault rfl hbad h,
    fun reg s => ⟨fun hfast => ?_, fun hserial => ?_⟩,
    fun reg r rest s hp hlen h => exec_frame_value hp rfl rfl (by rw [readTx_length, hlen]) h⟩
  · rw [exec_readWord, readWord_of_fast reg hfast]
    rfl
  · rw [exec_readWord, readWord_of_serial reg hserial]
    rfl

/-! ### Lists of exchanges, answered -/

theorem send_bytes {tx rx : List Byte} {rest : List Reply} {s : State} (hlen : rx.length = tx.length)
    (h : Answers rx rest s) : send tx s = .ok () (afterEvents rest (exchanged tx rx) s) := by
  rw [send, exchange_bytes tx rx rest s hlen h, andThen_ok]

theorem send_fault {tx rx : List Byte} {bad : Byte} {rest : List Reply} {s : State}
    (hbad : tx[rx.length]? = some bad) (hfault : s.env.params.busCanFault = true)
    (h : s.env.script = rx.map Reply.byte ++ .fault :: rest) :
    send tx s = .stop (raise .busFault (afterEvents rest (exchanged tx rx ++ [.xferFault bad]) s)) := by
  rw [send, exchange_fault tx rx bad rest s hbad hfault h, andThen_stop]

theorem recv4_bytes {v : Word} {rest : List Reply} {s : State} (h : Answers (le32 v) rest s) :
    recv4 s = .ok v (afterEvents rest (exchanged (fill4 s.env.params) (le32 v)) s) := by
  rw [recv4, exchange_bytes (fill4 s.env.params) (le32 v) rest s rfl h, andThen_ok, wordOf_le32]

theorem recv4_fault {rx : List Byte} {rest : List Reply} {s : State} (hlen : rx.length < 4)
    (hfault : s.env.params.busCanFault = true) (h : s.env.script = rx.map Reply.byte ++ .fault :: rest) :
    recv4 s = .stop (raise .busFault
      (afterEvents rest (exchanged (fill4 s.env.params) rx ++ [.xferFault s.env.params.fillByte]) s)) := by
  have hfill : (fill4 s.env.params)[rx.length]? = some s.env.params.fillByte := by
    rw [fill4, List.getElem?_replicate, if_pos hlen]
  rw [recv4, exchange_fault _ rx _ rest s hfill hfault h, andThen_stop]

/-! ### The headers of the burst frames (R145, R147) -/

/-- With an open peripheral the edge of chip-select is only the wire and its event. -/
theorem PortReady.csAssert_eq {s : State} (h : PortReady s) :
    csAssert s = { s with wire.cs := true, trace := s.trace ++ [.csAssert] } := by
  obtain ⟨-, hsim⟩ := h
  rw [csAssert, hsim, Option.map_none, ← hsim]

theorem holdBurst_eq (s : State) :
    holdBurst s = { s with seq := if s.seq.ph = .idle then ⟨.pBWord, .burst, false⟩ else s.seq } := by
  unfold holdBurst
  split
  · rfl
  · rfl

/-- Either burst open, its header answered with bytes: chip-select stays asserted, and a block with an operation in
progress stays in its phase. -/
theorem burstOpen_bytes (dir : Dir) {rx : List Byte} {rest : List Reply} {s : State} (hp : PortReady s)
    (hlen : rx.length = (burstHeader dir s.env.params).length) (h : Answers rx rest s) :
    ∃ q : Seq, (s.seq.ph ≠ .idle → q = s.seq) ∧
      whenFrameClosed s (finalState (thenDo (burstOpen dir s) holdBurst)) =
        .next (afterEvents rest (.csAssert :: exchanged (burstHeader dir s.env.params) rx)
          { s with wire := ⟨true, some dir⟩, seq := q }) := by
  refine ⟨if s.seq.ph = .idle then ⟨.pBWord, .burst, false⟩ else s.seq, fun hbusy => if_neg hbusy, ?_⟩
  have hsent := send_bytes (s := csAssert s) hlen h
  rw [whenFrameClosed_of_closed hp.closed, burstOpen, hsent, thenDo_ok, thenDo_ok, finalState_ok, holdBurst_eq,
    hp.csAssert_eq]
  simp [afterEvents]

/-- Either burst open, one exchange of its header faulting. -/
theorem burstOpen_fault (dir : Dir) {rx : List Byte} {bad : Byte} {rest : List Reply} {s : State}
    (hp : PortReady s) (hfault : s.env.params.busCanFault = true)
    (hbad : (burstHeader dir s.env.params)[rx.length]? = some bad)
    (h : s.env.script = rx.map Reply.byte ++ .fault :: rest) :
    whenFrameClosed s (finalState (thenDo (burstOpen dir s) holdBurst)) =
      .next (raise .busFault (insideCut rest (burstHeader dir s.env.params) rx bad s)) := by
  have hsent := send_fault (s := csAssert s) hbad hfault h
  rw [whenFrameClosed_of_closed hp.closed, burstOpen, hsent, thenDo_stop, thenDo_stop, finalState_stop,
    hp.csAssert_eq]
  simp [afterEvents, insideCut]

/-- Settles O14: the burst open in the direction of a write. -/
theorem burstOpenWriteSendsItsHeader : Obligations.BurstOpenWriteSendsItsHeader :=
  ⟨fun _ _ _ hp hlen h => burstOpen_bytes .wr hp hlen h,
    fun _ _ _ _ hp hfault hbad h => burstOpen_fault .wr hp hfault hbad h⟩

/-- Settles O15: the burst open in the direction of a read, whose header does not look at `WORD_READ_OPCODE`. -/
theorem burstOpenReadSendsItsHeader : Obligations.BurstOpenReadSendsItsHeader :=
  ⟨fun _ _ _ hp hlen h => burstOpen_bytes .rd hp hlen h,
    fun _ _ _ _ hp hfault hbad h => burstOpen_fault .rd hp hfault hbad h⟩

/-! ### The words of a burst (R146, R149) -/

theorem exec_burstPush {s : State} (v : Word) (h : s.wire.burst = some .wr) :
    exec (.burstPush v) s = .next (finalState (send (le32 v) s)) := if_pos h

theorem exec_burstPop {s : State} (h : s.wire.burst = some .rd) :
    exec .burstPop s = .next (finalState (storeWord (recv4 s))) := if_pos h

/-- Settles O16: inside its burst the operation is the sending of four bytes. -/
theorem burstPushSendsOneWord : Obligations.BurstPushSendsOneWord := by
  refine ⟨fun v rx rest s hwire _ hlen h => ?_, fun v rx bad rest s hwire _ hfault hbad h => ?_⟩
  · rw [exec_burstPush v (by rw [hwire]), send_bytes hlen h, finalState_ok, le32_eq]
  · rw [← le32_eq] at hbad ⊢
    rw [exec_burstPush v (by rw [hwire]), send_fault hbad hfault h, finalState_stop]

/-- Settles O17: inside its burst the operation is the receiving of four bytes, stored in `WORD`. -/
theorem burstPopReceivesOneWord : Obligations.BurstPopReceivesOneWord := by
  refine ⟨fun v rest s hwire _ h => ?_, fun rx bad rest s hwire _ hfault hlen hbad h => ?_⟩
  · rw [exec_burstPop (by rw [hwire]), recv4_bytes h]
    rfl
  · rw [exec_burstPop (by rw [hwire]), recv4_fault hlen hfault h, hbad]
    rfl

/-! ### The end of a burst (R150) -/

theorem csDeassert_of_open {s : State} (h : s.wire.cs = true) :
    csDeassert s = { s with
      wire := Wire.idle
      env.sim := s.env.sim.map simFrameEnd
      trace := s.trace ++ [.csDeassert] } := if_pos h

theorem releaseBurst_eq (s : State) :
    releaseBurst s = { s with seq := if s.seq.caller = .burst then Seq.atRest else s.seq } := by
  unfold releaseBurst
  split
  · rfl
  · rfl

theorem exec_burstClose (s : State) : exec .burstClose s = .next (releaseBurst (csDeassert s)) := rfl

/-- Settles O18: with chip-select asserted the edge and the release; with it de-asserted neither. -/
theorem burstCloseEndsTheFrame : Obligations.BurstCloseEndsTheFrame := by
  refine ⟨fun s hopen => ?_, fun s hclosed hcaller => ?_⟩
  · rw [exec_burstClose, csDeassert_of_open hopen, releaseBurst_eq]
  · rw [exec_burstClose, csDeassert_of_closed hclosed, releaseBurst, if_neg hcaller]

/-! ### Operations out of place (R144, R146, R149) -/

theorem whenFrameClosed_of_open {s t : State} (h : s.wire.cs = true) : whenFrameClosed s t = .fault .frameOpen :=
  if_pos h

/-- Every whole-frame operation stands behind the guard of R144. -/
theorem exec_frame_guarded {i : Instr} {p : Params} {tx : List Byte} (htx : frameTx p i = some tx) (s : State) :
    ∃ t, exec i s = whenFrameClosed s t := by
  cases i <;> simp only [frameTx, reduceCtorEq] at htx
  all_goals exact ⟨_, rfl⟩

/-- Settles O21: each operation has its guard, and the guard does not hold. -/
theorem frameOperationsStopOutsideTheirPlace : Obligations.FrameOperationsStopOutsideTheirPlace := by
  refine ⟨fun i tx s hopen htx => ?_, fun s hopen => ?_, fun s t v hburst => ?_, fun s hburst => ?_⟩
  · obtain ⟨t, hguard⟩ := exec_frame_guarded htx s
    rw [hguard, whenFrameClosed_of_open hopen]
  · exact ⟨whenFrameClosed_of_open hopen, whenFrameClosed_of_open hopen, fun _ _ => whenFrameClosed_of_open hopen,
      fun _ _ _ => whenFrameClosed_of_open hopen⟩
  · exact ⟨if_neg hburst, if_neg hburst⟩
  · exact if_neg hburst

/-! ### The encodings of the spec's examples -/

/-- Settles O10: the decoder evaluated on each of the nine encodings. -/
theorem specWordsDecode : Obligations.SpecWordsDecode :=
  ⟨by decide, by decide, by decide, by decide, by decide, by decide, by decide, by decide, by decide⟩

end Sys2Proof.Machine
end

section
/-! PROOFS of O28, O29 and O30: the poll loops (41_poller.md). A poll loop is a phase whose every visit is one answered
read. What a loop has done after some reads that were not ready is said once, for every test, register and caller; the
read that follows them ends the loop (ready), ends it in a fault (the limit), or is cut by a bus fault. A poll entered
by itself is such a loop from its first read. -/

namespace Sys2Proof.Machine

/-! ### The reads of a loop -/

/-- `s` after the reads `rs` of `reg` in a poll loop: `WORD` is the last value read and `POLLS` has counted them. -/
def afterReadings (rest : List Reply) (reg : Addr) (rs : List Reading) (s : State) : State :=
  afterEvents rest (readingFrames s.env.params reg rs) { s with
    work := { s.work with
      word := (rs.getLast?.map Reading.value).getD s.work.word
      polls := s.work.polls + rs.length } }

theorem afterReadings_nil {rest : List Reply} {s : State} (reg : Addr) (h : s.env.script = rest) :
    afterReadings rest reg [] s = s := by
  subst h
  simp [afterReadings, afterEvents, readingFrames]

/-- The reads of a loop one after another: only the script that the last of them leaves is seen. -/
theorem afterReadings_append (rest mid : List Reply) (reg : Addr) (rs rs' : List Reading) (s : State) :
    afterReadings rest reg (rs ++ rs') s = afterReadings rest reg rs' (afterReadings mid reg rs s) := by
  cases hlast : rs'.getLast? <;>
    simp [afterReadings, afterEvents, readingFrames, List.getLast?_append, hlast, Nat.add_assoc]

/-- One read of a loop: its frame, then `WORD` and `POLLS`. -/
theorem polled_eq_afterReadings (rest : List Reply) (reg : Addr) (r : Reading) (s : State) :
    polled r.value (afterEvents rest (wholeFrame (readTx s.env.params reg) r.rx) s) = afterReadings rest reg [r] s := by
  simp [polled, State.setWord, State.setPolls, afterReadings, afterEvents, readingFrames]

theorem readingsRx_append (rs rs' : List Reading) : readingsRx (rs ++ rs') = readingsRx rs ++ readingsRx rs' :=
  List.flatMap_append

theorem readingsRx_singleton (r : Reading) : readingsRx [r] = r.rx := List.append_nil _

theorem Answers.split {xs ys : List Byte} {rest : List Reply} {s : State} (h : Answers (xs ++ ys) rest s) :
    Answers xs (ys.map Reply.byte ++ rest) s := by
  rw [Answers, h, List.map_append, List.append_assoc]

/-! ### One read of a loop (R162) -/

/-- What a loop keeps of the word that ended it: a poll for the FIFO its count (R161). -/
def keepCount (kind : PollKind) (v : Word) (s : State) : State :=
  if kind = .fifoAvail then loadFifoCnt v s else s

/-- Once the word is read, the test decides, and only then the limit. -/
theorem pollOnce_of_read {kind : PollKind} {reg : Addr} {v : Word} {s t : State} (h : readWord reg s = .ok v t) :
    pollOnce kind reg s =
      if pollReady kind v then .ok true (keepCount kind v (polled v t))
      else if limitReached t.env.params (t.work.polls + 1) then .stop (raise .deviceUnresponsive (polled v t))
      else .ok false (polled v t) := by
  rw [pollOnce, h]
  rfl

/-- The block is in a poll loop between two reads, on behalf of any operation: a visit is one read of the loop, whatever
reads came before; the peripheral is open and no reset is applied. -/
structure InLoop (kind : PollKind) (reg : Addr) (done : State → State) (s : State) : Prop where
  visits : ∀ t : State, t.seq = s.seq → t.latch = s.latch → t.env.params = s.env.params →
    visit t = visitPoll kind reg done t
  busy : s.accepting = false
  resetOff : s.env.resetIn = .off
  port : PortReady s

section
variable {kind : PollKind} {reg : Addr} {done : State → State} {s : State}

/-- Reads keep the block in its loop. -/
theorem InLoop.read (h : InLoop kind reg done s) (rest : List Reply) (rs : List Reading) :
    InLoop kind reg done (afterReadings rest reg rs s) :=
  ⟨h.visits, h.busy, h.resetOff, h.port⟩

/-- A step in a loop is one poll; `done` follows when its test has succeeded. -/
theorem InLoop.step_eq (h : InLoop kind reg done s) :
    step s = .next (finalState
      (andThen (pollOnce kind reg s) fun ended t => .ok () (if ended then done t else t))) := by
  rw [step_busy h.resetOff h.busy, h.visits s rfl rfl rfl, visitPoll]

/-- An answered read of a loop: the poll is decided by the value read and the count. -/
theorem InLoop.pollOnce_eq (h : InLoop kind reg done s) {r : Reading} {rest : List Reply}
    (hfit : r.skipped.length = readSkip s.env.params) (hans : Answers r.rx rest s) :
    pollOnce kind reg s =
      if pollReady kind r.value then .ok true (keepCount kind r.value (afterReadings rest reg [r] s))
      else if limitReached s.env.params (s.work.polls + 1) then
        .stop (raise .deviceUnresponsive (afterReadings rest reg [r] s))
      else .ok false (afterReadings rest reg [r] s) := by
  rw [pollOnce_of_read (readWord_bytes reg r rest s h.port hfit hans), polled_eq_afterReadings]
  rfl

theorem InLoop.step_goesOn (h : InLoop kind reg done s) {r : Reading} {rest : List Reply}
    (hfit : r.skipped.length = readSkip s.env.params) (hans : Answers r.rx rest s)
    (hnot : pollReady kind r.value = false) (hlimit : limitReached s.env.params (s.work.polls + 1) = false) :
    step s = .next (afterReadings rest reg [r] s) := by
  rw [h.step_eq, h.pollOnce_eq hfit hans, hnot, hlimit]
  rfl

theorem InLoop.step_ready (h : InLoop kind reg done s) {r : Reading} {rest : List Reply}
    (hfit : r.skipped.length = readSkip s.env.params) (hans : Answers r.rx rest s)
    (hready : pollReady kind r.value = true) :
    step s = .next (done (keepCount kind r.value (afterReadings rest reg [r] s))) := by
  rw [h.step_eq, h.pollOnce_eq hfit hans, hready]
  rfl

theorem InLoop.step_limit (h : InLoop kind reg done s) {r : Reading} {rest : List Reply}
    (hfit : r.skipped.length = readSkip s.env.params) (hans : Answers r.rx rest s)
    (hnot : pollReady kind r.value = false) (hlimit : limitReached s.env.params (s.work.polls + 1) = true) :
    step s = .next (raise .deviceUnresponsive (afterReadings rest reg [r] s)) := by
  rw [h.step_eq, h.pollOnce_eq hfit hans, hnot, hlimit]
  rfl

/-- A bus fault at an exchange of a read (R231): the read is not counted. -/
theorem InLoop.step_busFault (h : InLoop kind reg done s) {rx : List Byte} {bad : Byte} {rest : List Reply}
    (hfault : s.env.params.busCanFault = true) (hbad : (readTx s.env.params reg)[rx.length]? = some bad)
    (hscript : s.env.script = rx.map Reply.byte ++ .fault :: rest) :
    step s = .next (raise .busFault (insideCut rest (readTx s.env.params reg) rx bad s)) := by
  rw [h.step_eq, pollOnce, readWord_fault reg rx bad rest s h.port hbad hfault hscript]
  rfl

/-! ### The run of a loop -/

/-- Reads that are not ready, all below the limit: one step each, and the block is still in its loop. -/
theorem InLoop.runs (h : InLoop kind reg done s) {rs : List Reading} {rest : List Reply} (k : Nat)
    (hfit : Fitting s.env.params rs) (hnot : ∀ r ∈ rs, pollReady kind r.value = false)
    (hlimit : LimitAllows s.env.params (s.work.polls + rs.length)) (hans : Answers (readingsRx rs) rest s) :
    stepN (rs.length + k) s = stepN k (afterReadings rest reg rs s) := by
  induction rs generalizing s with
  | nil => rw [afterReadings_nil (rest := rest) reg hans, List.length_nil, Nat.zero_add]
  | cons r rs ih =>
    obtain ⟨hfit_r, hfit_rs⟩ := List.forall_mem_cons.mp hfit
    obtain ⟨hnot_r, hnot_rs⟩ := List.forall_mem_cons.mp hnot
    have hans_r : Answers r.rx ((readingsRx rs).map Reply.byte ++ rest) s := Answers.split hans
    have hstep := h.step_goesOn hfit_r hans_r hnot_r (limitReached_of_allows hlimit)
    have hlimit_rs : LimitAllows s.env.params (s.work.polls + 1 + rs.length) := by
      rwa [Nat.add_assoc, Nat.add_comm 1]
    rw [List.length_cons, Nat.add_right_comm, stepN_succ hstep,
      ih (h.read ((readingsRx rs).map Reply.byte ++ rest) [r]) hfit_rs hnot_rs hlimit_rs rfl, ← afterReadings_append,
      List.singleton_append]

theorem stepN_one {t : State} (h : step s = .next t) : stepN 1 s = .next t := stepN_succ h

variable (hstart : s.work.polls = 0)
include hstart

/-- A loop from its start: reads that are not ready, then the read in which it ends. -/
theorem InLoop.runs_from_start (h : InLoop kind reg done s) {rs : List Reading} {rest : List Reply} {t : State}
    (hfit : Fitting s.env.params rs) (hnot : ∀ r ∈ rs, pollReady kind r.value = false)
    (hlimit : LimitAllows s.env.params rs.length) (hans : Answers (readingsRx rs) rest s)
    (hlast : step (afterReadings rest reg rs s) = .next t) : stepN (rs.length + 1) s = .next t := by
  rw [h.runs 1 hfit hnot (by rwa [hstart, Nat.zero_add]) hans, stepN_one hlast]

/-- The loop ends at the read that is ready. -/
theorem InLoop.runs_ready (h : InLoop kind reg done s) {a : PollAnswers} {rest : List Reply}
    (hfit : a.Fit s.env.params (pollReady kind)) (hans : Answers (readingsRx a.all) rest s) :
    stepN (a.notReady.length + 1) s =
      .next (done (keepCount kind a.ready.value (afterReadings rest reg a.all s))) := by
  obtain ⟨hall, hnot, hready, hlimit⟩ := hfit
  obtain ⟨hfit_not, hfit_ready⟩ := List.forall_mem_append.mp hall
  rw [PollAnswers.all, readingsRx_append, readingsRx_singleton] at hans
  rw [PollAnswers.all, afterReadings_append]
  exact h.runs_from_start hstart hfit_not hnot hlimit hans.split
    ((h.read _ _).step_ready (hfit_ready _ (List.mem_singleton_self _)) rfl hready)

/-- The loop ends in a fault at the `POLL_LIMIT`-th read that is not ready (R232). -/
theorem InLoop.runs_limit (h : InLoop kind reg done s) {rs : List Reading} {r : Reading} {rest : List Reply}
    (hfit : Fitting s.env.params (rs ++ [r])) (hnot : ∀ x ∈ rs ++ [r], pollReady kind x.value = false)
    (hlimit : s.env.params.pollLimit = some (rs.length + 1)) (hans : Answers (readingsRx (rs ++ [r])) rest s) :
    stepN (rs.length + 1) s = .next (raise .deviceUnresponsive (afterReadings rest reg (rs ++ [r]) s)) := by
  obtain ⟨hfit_rs, hfit_r⟩ := List.forall_mem_append.mp hfit
  obtain ⟨hnot_rs, hnot_r⟩ := List.forall_mem_append.mp hnot
  have hbelow : LimitAllows s.env.params rs.length := by
    intro limit h
    rw [hlimit, Option.some_inj] at h
    omega
  have hreached : limitReached s.env.params (s.work.polls + rs.length + 1) = true :=
    (limitReached_iff _ _).mpr ⟨_, hlimit, by omega⟩
  rw [readingsRx_append, readingsRx_singleton] at hans
  rw [afterReadings_append]
  exact h.runs_from_start hstart hfit_rs hnot_rs hbelow hans.split
    ((h.read _ _).step_limit (hfit_r _ (List.mem_singleton_self _)) rfl (hnot_r _ (List.mem_singleton_self _)) hreached)

/-- The loop ends in a fault at an exchange that reports one (R231), at whatever read, the last one allowed included. -/
theorem InLoop.runs_busFault (h : InLoop kind reg done s) {rs : List Reading} {rx : List Byte} {bad : Byte}
    {rest : List Reply} (hfault : s.env.params.busCanFault = true) (hfit : Fitting s.env.params rs)
    (hnot : ∀ r ∈ rs, pollReady kind r.value = false) (hlimit : LimitAllows s.env.params rs.length)
    (hbad : (readTx s.env.params reg)[rx.length]? = some bad)
    (hscript : s.env.script = (readingsRx rs ++ rx).map Reply.byte ++ .fault :: rest) :
    stepN (rs.length + 1) s = .next (raise .busFault (insideCut rest (readTx s.env.params reg) rx bad
      (afterReadings (rx.map Reply.byte ++ .fault :: rest) reg rs s))) :=
  h.runs_from_start hstart hfit hnot hlimit (Answers.split hscript) ((h.read _ _).step_busFault hfault hbad rfl)

end

/-! ### A poll entered by itself (log 9, 28) -/

/-- The poll operation of a test. -/
def pollInstr : PollKind → Addr → Instr
  | .busyClear, reg => .pollBusyClear reg
  | .fifoAvail, reg => .pollFifoAvail reg
  | .equal expected, reg => .pollEqual reg expected

/-- `s` with a poll entered and nothing of its loop done. -/
def enteredPoll (kind : PollKind) (reg : Addr) (s : State) : State :=
  (s.enter (.poll kind reg) (pollPhase kind reg)).setPolls 0

theorem exec_pollInstr (kind : PollKind) (reg : Addr) (s : State) :
    exec (pollInstr kind reg) s =
      whenIdle s (finalState (visitPoll kind reg State.toIdle (enteredPoll kind reg s))) := by
  cases kind
  case busyClear => rfl
  case fifoAvail => rfl
  case equal => rfl

theorem pollPhase_ne_idle (kind : PollKind) (reg : Addr) : pollPhase kind reg ≠ .idle := by
  cases kind
  case busyClear =>
    rw [pollPhase]
    split
    · exact nofun
    · exact nofun
  case fifoAvail | equal => exact nofun

/-- The reads of a loop that has been entered: `POLLS` is their number. -/
theorem afterReadings_enteredPoll (kind : PollKind) (rest : List Reply) (reg : Addr) (rs : List Reading) (s : State) :
    afterReadings rest reg rs (enteredPoll kind reg s) =
      afterEvents rest (readingFrames s.env.params reg rs) { s with
        seq := ⟨pollPhase kind reg, .poll kind reg, false⟩
        work := { s.work with
          word := (rs.getLast?.map Reading.value).getD s.work.word
          polls := rs.length } } := by
  simp [afterReadings, enteredPoll, State.enter, State.setPolls]

/-- The count a loop leaves: of the word that was ready in a poll for the FIFO (R161), else the old one. -/
def countAfter : PollKind → Word → BitVec 5 → BitVec 5
  | .fifoAvail, v, _ => countField v
  | .busyClear, _, n => n
  | .equal _, _, n => n

theorem keepCount_eq {kind : PollKind} {v : Word} (s : State) (h : pollReady kind v = true) :
    keepCount kind v s = s.setFifoCnt (countAfter kind v s.work.fifoCnt) := by
  cases kind
  case busyClear => rfl
  case equal => rfl
  case fifoAvail => exact if_pos h

/-- A fault leaves nothing of the operation in progress (R236): it is as if none had been entered. -/
theorem raise_eq_of_seq {s t : State} (c : Cause) (hoff : t.env.resetIn = .off) (h : t = { s with seq := t.seq }) :
    raise c t = faultEntry c s := by
  rw [raise, unlessReset_of_ne (by simp [hoff]), h]
  unfold faultEntry csDeassert
  cases s.wire.cs <;> rfl

section
variable {s : State} (hs : Resting s)
include hs

theorem Resting.free : s.busy = false := by
  obtain ⟨hph, -, -⟩ := hs
  simp [State.busy, hph]

theorem Resting.resetOff : s.env.resetIn = .off := by
  obtain ⟨-, -, hoff⟩ := hs
  exact hoff

variable (kind : PollKind) (reg : Addr) (hsim : s.env.sim = none)
include hsim

theorem Resting.port : PortReady s := by
  obtain ⟨-, hwire, -⟩ := hs
  exact ⟨hwire, hsim⟩

theorem inLoop_enteredPoll : InLoop kind reg State.toIdle (enteredPoll kind reg s) where
  visits t hseq _ _ := by
    rw [visit, hseq]
    rfl
  busy := by simp [State.accepting, enteredPoll, pollPhase_ne_idle]
  resetOff := hs.resetOff
  port := hs.port hsim

/-- The operation's first step is the first read of its loop, and the further steps are the others. -/
theorem exec_pollInstr_runs {n : Nat} {u : State} (h : stepN (n + 1) (enteredPoll kind reg s) = .next u) :
    ∃ t, exec (pollInstr kind reg) s = .next t ∧ stepN n t = .next u := by
  refine ⟨_, (exec_pollInstr kind reg s).trans (whenIdle_of_free hs.free), ?_⟩
  rwa [stepN_succ (inLoop_enteredPoll hs kind reg hsim).step_eq] at h

/-- A poll entered by itself ends at rest, without `STATUS` or a response (log 10). -/
theorem pollInstr_ready {a : PollAnswers} {rest : List Reply} (hfit : a.Fit s.env.params (pollReady kind))
    (hans : Answers (readingsRx a.all) rest s) :
    ∃ t, exec (pollInstr kind reg) s = .next t ∧
      stepN a.notReady.length t = .next (afterEvents rest (readingFrames s.env.params reg a.all) { s with
        seq := Seq.atRest
        work := { s.work with
          word := a.ready.value
          polls := a.notReady.length + 1
          fifoCnt := countAfter kind a.ready.value s.work.fifoCnt } }) := by
  have hrun := (inLoop_enteredPoll hs kind reg hsim).runs_ready rfl hfit hans
  obtain ⟨-, -, hready, -⟩ := hfit
  refine exec_pollInstr_runs hs kind reg hsim (hrun.trans ?_)
  rw [keepCount_eq _ hready, afterReadings_enteredPoll]
  simp [afterEvents, State.toIdle, State.setFifoCnt, PollAnswers.all]

theorem pollInstr_limit {rs : List Reading} {r : Reading} {rest : List Reply}
    (hfit : Fitting s.env.params (rs ++ [r])) (hnot : ∀ x ∈ rs ++ [r], pollReady kind x.value = false)
    (hlimit : s.env.params.pollLimit = some (rs.length + 1)) (hans : Answers (readingsRx (rs ++ [r])) rest s) :
    ∃ t, exec (pollInstr kind reg) s = .next t ∧
      stepN rs.length t = .next (faultEntry .deviceUnresponsive
        (afterEvents rest (readingFrames s.env.params reg (rs ++ [r]))
          { s with work := { s.work with word := r.value, polls := rs.length + 1 } })) := by
  have hrun := (inLoop_enteredPoll hs kind reg hsim).runs_limit rfl hfit hnot hlimit hans
  refine exec_pollInstr_runs hs kind reg hsim (hrun.trans ?_)
  rw [afterReadings_enteredPoll, List.getLast?_concat, List.length_append]
  exact congrArg _ (raise_eq_of_seq _ hs.resetOff rfl)

theorem pollInstr_busFault {rs : List Reading} {rx : List Byte} {bad : Byte} {rest : List Reply}
    (hfault : s.env.params.busCanFault = true) (hfit : Fitting s.env.params rs)
    (hnot : ∀ x ∈ rs, pollReady kind x.value = false) (hlimit : LimitAllows s.env.params rs.length)
    (hbad : (readTx s.env.params reg)[rx.length]? = some bad)
    (hscript : s.env.script = (readingsRx rs ++ rx).map Reply.byte ++ .fault :: rest) :
    ∃ (t : State) (w : Work), exec (pollInstr kind reg) s = .next t ∧
      w = { s.work with word := (rs.getLast?.map Reading.value).getD s.work.word, polls := rs.length } ∧
      stepN rs.length t = .next (faultEntry .busFault (insideCut rest (readTx s.env.params reg) rx bad
        { s with
          work := w
          trace := s.trace ++ readingFrames s.env.params reg rs })) := by
  have hrun := (inLoop_enteredPoll hs kind reg hsim).runs_busFault rfl hfault hfit hnot hlimit hbad hscript
  rw [afterReadings_enteredPoll] at hrun
  obtain ⟨t, hexec, hsteps⟩ := exec_pollInstr_runs hs kind reg hsim hrun
  exact ⟨t, _, hexec, rfl, hsteps.trans (congrArg _ (raise_eq_of_seq _ hs.resetOff rfl))⟩

end

/-! ### The three operations (R160, R161, R163) -/

/-- Settles O28: the poll whose test is that bit 31 is clear. -/
theorem pollBusyClearWaitsForBit31 : Obligations.PollBusyClearWaitsForBit31 :=
  ⟨fun reg _ _ _ _ hs hsim hfit hans => pollInstr_ready hs .busyClear reg hsim hfit hans,
    fun reg _ _ _ _ _ hs hsim hfit hnot hlimit hans => pollInstr_limit hs .busyClear reg hsim hfit hnot hlimit hans,
    fun reg _ _ _ _ _ _ hs hsim hfault hfit hnot hlimit hbad hscript =>
      pollInstr_busFault hs .busyClear reg hsim hfault hfit hnot hlimit hbad hscript⟩

/-- Settles O29: the poll whose test is that bit 0 is set, the one that keeps a count. -/
theorem pollFifoAvailWaitsForBit0 : Obligations.PollFifoAvailWaitsForBit0 :=
  ⟨fun reg _ _ _ _ hs hsim hfit hans => pollInstr_ready hs .fifoAvail reg hsim hfit hans,
    fun reg _ _ _ _ _ hs hsim hfit hnot hlimit hans => pollInstr_limit hs .fifoAvail reg hsim hfit hnot hlimit hans,
    fun reg _ _ _ _ _ _ hs hsim hfault hfit hnot hlimit hbad hscript =>
      pollInstr_busFault hs .fifoAvail reg hsim hfault hfit hnot hlimit hbad hscript⟩

/-- Settles O30: the poll whose test is equality of the whole word. -/
theorem pollEqualWaitsForTheValue : Obligations.PollEqualWaitsForTheValue :=
  ⟨fun reg v _ _ _ hs hsim hfit hans => pollInstr_ready hs (.equal v) reg hsim hfit hans,
    fun reg v _ _ _ _ hs hsim hfit hnot hlimit hans =>
      pollInstr_limit hs (.equal v) reg hsim hfit hnot hlimit hans,
    fun reg v _ _ _ _ _ hs hsim hfault hfit hnot hlimit hbad hscript =>
      pollInstr_busFault hs (.equal v) reg hsim hfault hfit hnot hlimit hbad hscript⟩

end Sys2Proof.Machine
end

section
/-! SUPPORT for O32 and O33: a CSR access (42_csr.md R171, R172) answered by an open peripheral, on behalf of any
operation but a poll or a burst. What its command and its poll leave is said once for both directions; a read goes on
with the fetch, a write begins with the data word. -/

namespace Sys2Proof.Machine

/-! ### Runs and packed words -/

theorem stepN_add {j k : Nat} {s t : State} (h : stepN j s = .next t) : stepN (j + k) s = stepN k t := by
  induction j generalizing s with
  | zero =>
    cases h
    rw [Nat.zero_add]
  | succ j ih =>
    cases hstep : step s with
    | next u =>
      rw [stepN_succ hstep] at h
      rw [Nat.add_right_comm, stepN_succ hstep, ih h]
    | fault r => simp [stepN, Host.Core.run, core, hstep] at h
    | refused r => simp [stepN, Host.Core.run, core, hstep] at h

theorem packAt_zeros (p k : Nat) : packAt p (List.replicate k 0) = 0 := by
  induction k generalizing p with
  | zero => rfl
  | succ k ih =>
    rw [List.replicate_succ, packAt, ih]
    simp

/-- Lanes that carry no byte are zero already (R115). -/
theorem packAt_append_zeros (p : Nat) (bs : List Byte) (k : Nat) :
    packAt p (bs ++ List.replicate k 0) = packAt p bs := by
  induction bs generalizing p with
  | nil => exact packAt_zeros p k
  | cons b bs ih => rw [List.cons_append, packAt, packAt, ih]

/-- A word whose bytes are a list and then zeros is the list packed from lane 0 (R115). -/
theorem packAt_eq_of_le32 {v : Word} {bs : List Byte} {k : Nat} (h : le32 v = bs ++ List.replicate k 0) :
    packAt 0 bs = v := by
  rw [← packAt_append_zeros 0 bs k, ← h]
  exact wordOf_le32 v

/-! ### The access in progress -/

/-- An operation that has CSR accesses is in progress, its wire is between frames, its peripheral is open and no reset
is applied. -/
structure Accessing (s : State) : Prop where
  noPoll : NoPoll s.seq
  noBurst : s.seq.caller ≠ .burst
  resetOff : s.env.resetIn = .off
  port : PortReady s

theorem visit_of_noPoll {s : State} (h : NoPoll s.seq) : visit s = visitPhase s := by
  unfold visit
  split
  next kind reg hc => exact absurd hc (h kind reg)
  next => rfl

/-! ### What an access has done so far -/

/-- `s` after the command of its access and the poll that follows, the events so far being `evs`. -/
def afterBusy (rest : List Reply) (evs : List Event) (a : PollAnswers) (s : State) : State :=
  afterEvents rest evs { s with
    seq.ph := .cPoll
    work := { s.work with word := a.ready.value, polls := a.all.length } }

/-- `s` after a read of `n` bytes, the events so far being `evs`. -/
def afterFetch (rest : List Reply) (evs : List Event) (n : Nat) (a : CsrAnswers) (s : State) : State :=
  afterEvents rest evs { s with
    seq.ph := .cFetch
    work := { s.work with word := a.fetch.value, polls := a.poll.all.length }
    buf.res := lanes 0 n a.fetch.value }

/-- The events of the command of an access and of the poll that follows (R171, R172). -/
def CsrAnswers.commandFrames (a : CsrAnswers) (p : Params) (d : Dir) (n : SizeCode) (addr : Addr) : List Event :=
  wholeFrame (writeTx csrCmdReg (csrCmdWord d n addr)) a.command ++ readingFrames p csrCmdReg a.poll.all

theorem PollAnswers.all_length (a : PollAnswers) : a.all.length = a.notReady.length + 1 := by
  rw [PollAnswers.all, List.length_append, List.length_singleton]

/-- The reads of a poll that begins after the events `evs`. -/
theorem afterReadings_beginPoll (rest mid : List Reply) (evs : List Event) (a : PollAnswers) (s : State) :
    afterReadings rest csrCmdReg a.all (beginPoll .cPoll (afterEvents mid evs s)) =
      afterBusy rest (evs ++ readingFrames s.env.params csrCmdReg a.all) a s := by
  simp [afterReadings, afterBusy, afterEvents, beginPoll, State.setPolls, State.toPhase, PollAnswers.all]

/-- The fetch of a read, after the command and the poll. -/
theorem takeCsrData_afterBusy (rest mid : List Reply) (evs evs' : List Event) (n : Nat) (a : CsrAnswers) (s : State) :
    takeCsrData n a.fetch.value (afterEvents rest evs' ((afterBusy mid evs a.poll s).toPhase .cFetch)) =
      afterFetch rest (evs ++ evs') n a s := by
  simp [takeCsrData, afterBusy, afterFetch, afterEvents, State.setWord, State.setRes, State.toPhase]

/-- The command and the poll of a write, after its data word. -/
theorem afterBusy_setWord (rest mid : List Reply) (evs evs' : List Event) (v : Word) (a : PollAnswers) (s : State) :
    afterBusy rest evs' a ((afterEvents mid evs (s.setWord v)).toPhase .cCmd) = afterBusy rest (evs ++ evs') a s := by
  simp [afterBusy, afterEvents, State.setWord, State.toPhase]

theorem csrReady_afterBusy_of_rd (rest : List Reply) (evs : List Event) (a : PollAnswers) {s : State}
    (h : csrDir s = .rd) : csrReady (afterBusy rest evs a s) = (afterBusy rest evs a s).toPhase .cFetch :=
  if_pos h

theorem csrReady_afterBusy_of_wr (rest : List Reply) (evs : List Event) (a : PollAnswers) {s : State}
    (h : csrDir s = .wr) : csrReady (afterBusy rest evs a s) = csrReturn (afterBusy rest evs a s) :=
  if_neg fun hrd : csrDir s = .rd => by rw [h] at hrd; cases hrd

/-! ### The run of an access -/

section
variable {s : State} (h : Accessing s)
include h

/-- A change of the block that touches neither the wire nor what decides who answers. -/
theorem Accessing.change {t : State} (caller : t.seq.caller = s.seq.caller := by rfl)
    (wire : t.wire = s.wire := by rfl) (sim : t.env.sim = s.env.sim := by rfl)
    (resetIn : t.env.resetIn = s.env.resetIn := by rfl) : Accessing t := by
  obtain ⟨hpoll, hburst, hoff, hwire, hsim⟩ := h
  exact ⟨fun kind reg => caller ▸ hpoll kind reg, caller ▸ hburst, resetIn.trans hoff, wire.trans hwire, sim.trans hsim⟩

theorem Accessing.not_accepting (hp : s.seq.ph ≠ .idle) : s.accepting = false := by
  simp [State.accepting, hp, h.noBurst]

theorem Accessing.step (hp : s.seq.ph ≠ .idle) : Machine.step s = .next (finalState (visitPhase s)) := by
  rw [step_busy h.resetOff (h.not_accepting hp), visit_of_noPoll h.noPoll]

/-- `C_POLL` is a poll loop (R33). -/
theorem Accessing.inLoop (hp : s.seq.ph = .cPoll) : InLoop .busyClear csrCmdReg csrReady s where
  visits t hseq _ _ := by
    rw [visit_of_noPoll (hseq ▸ h.noPoll), visitPhase, hseq, hp]
    rfl
  busy := h.not_accepting (by simp [hp])
  resetOff := h.resetOff
  port := h.port

variable {d : Dir} {addr : Addr} {n : SizeCode} {a : CsrAnswers} {rest : List Reply} {rx : List Byte}

theorem Accessing.command_frame (hd : csrDir s = d) (ha : csrAddr s = addr) (hn : csrLen s = sizeBytes n)
    (hlen : rx.length = 7) (hans : Answers rx rest s) : visitCCmd s = .ok () (beginPoll .cPoll
      (afterEvents rest (wholeFrame (writeTx csrCmdReg (csrCmdWord d n addr)) rx) s)) := by
  simp only [visitCCmd, hn, sizeCodeOf_sizeBytes, hd, ha, sendCsrCmd,
    writeWord_bytes csrCmdReg _ rx rest s h.port hlen hans, thenDo_ok]

/-- From the command on, an access comes to the end of its poll. -/
theorem Accessing.command_runs (hd : csrDir s = d) (ha : csrAddr s = addr) (hn : csrLen s = sizeBytes n)
    (hlen : a.command.length = 7) (hfit : a.poll.Fit s.env.params notBusy)
    (hans : Answers (a.command ++ readingsRx a.poll.all) rest s) :
    stepN a.poll.all.length (finalState (visitCCmd s)) =
      .next (csrReady (afterBusy rest (a.commandFrames s.env.params d n addr) a.poll s)) := by
  have polling : Accessing (beginPoll .cPoll (afterEvents ((readingsRx a.poll.all).map Reply.byte ++ rest)
      (wholeFrame (writeTx csrCmdReg (csrCmdWord d n addr)) a.command) s)) := h.change
  have hrun := (polling.inLoop rfl).runs_ready rfl hfit rfl
  rw [afterReadings_beginPoll] at hrun
  rw [h.command_frame hd ha hn hlen hans.split, finalState_ok, PollAnswers.all_length]
  exact hrun

theorem Accessing.step_fetch {r : Reading} (hp : s.seq.ph = .cFetch)
    (hfit : r.skipped.length = readSkip s.env.params) (hans : Answers r.rx rest s) :
    Machine.step s = .next (csrReturn (takeCsrData (csrLen s) r.value
      (afterEvents rest (wholeFrame (readTx s.env.params csrDataReg) r.rx) s))) := by
  rw [h.step (by simp [hp]), visitPhase, hp]
  simp only [visitCFetch, readWord_bytes csrDataReg r rest s h.port hfit hans]
  rfl

/-- An answered CSR read, from its command to its return (R171). -/
theorem Accessing.read_runs (hd : csrDir s = .rd) (ha : csrAddr s = addr) (hn : csrLen s = sizeBytes n)
    (hfit : a.FitRead s.env.params) (hans : Answers a.readRx rest s) :
    stepN (a.poll.all.length + 1) (finalState (visitCCmd s)) =
      .next (csrReturn (afterFetch rest (a.readFrames s.env.params addr n) (sizeBytes n) a s)) := by
  obtain ⟨hlen, hpoll, hfetch⟩ := hfit
  have hcommand := h.command_runs hd ha hn hlen hpoll hans.split
  rw [csrReady_afterBusy_of_rd _ _ _ hd] at hcommand
  have fetching : Accessing ((afterBusy (a.fetch.rx.map Reply.byte ++ rest)
      (a.commandFrames s.env.params .rd n addr) a.poll s).toPhase .cFetch) := h.change
  have hstep := fetching.step_fetch rfl hfetch rfl
  rw [takeCsrData_afterBusy] at hstep
  rw [stepN_add hcommand, stepN_one hstep, ← hn]
  rfl

theorem Accessing.data_frame {v : Word} (hv : packAt 0 (csrBytes s) = v) (hlen : rx.length = 7)
    (hans : Answers rx rest s) : visitCData s =
      .ok () ((afterEvents rest (wholeFrame (writeTx csrDataReg v) rx) (s.setWord v)).toPhase .cCmd) := by
  rw [visitCData, hv, sendCsrData, writeWord_bytes csrDataReg v rx rest _ (h.port.setWord v) hlen (hans.setWord v),
    thenDo_ok]

/-- An answered CSR write, from its data word to its return (R172). -/
theorem Accessing.write_runs {v : Word} (hd : csrDir s = .wr) (ha : csrAddr s = addr) (hn : csrLen s = sizeBytes n)
    (hv : packAt 0 (csrBytes s) = v) (hfit : a.FitWrite s.env.params) (hans : Answers a.writeRx rest s) :
    stepN (1 + a.poll.all.length) (finalState (visitCData s)) =
      .next (csrReturn (afterBusy rest (a.writeFrames s.env.params addr n v) a.poll s)) := by
  obtain ⟨hdata, hlen, hpoll⟩ := hfit
  rw [CsrAnswers.writeRx, List.append_assoc] at hans
  have commanding : Accessing ((afterEvents ((a.command ++ readingsRx a.poll.all).map Reply.byte ++ rest)
      (wholeFrame (writeTx csrDataReg v) a.data) (s.setWord v)).toPhase .cCmd) := h.change
  have hcommand := commanding.command_runs hd ha hn hlen hpoll rfl
  rw [afterBusy_setWord, csrReady_afterBusy_of_wr _ _ _ hd] at hcommand
  rw [h.data_frame hv hdata hans.split, finalState_ok, Nat.add_comm, stepN_succ (commanding.step (by simp))]
  refine hcommand.trans ?_
  rw [CsrAnswers.writeFrames, List.append_assoc]
  rfl

end

end Sys2Proof.Machine
end

section
/-! PROOFS of O32, O33 and O34: the CSR accessor entered by itself (42_csr.md). Its operands stand in the caller
(log 26), and its return is to rest (log 10). -/

namespace Sys2Proof.Machine

/-! ### Entry (R170) -/

theorem enterCsr_invalid {s : State} (h : sizeCodeOf (csrLen s) = none) :
    enterCsr s = .stop (raise .invalidLength s) := by
  rw [enterCsr, h]

theorem enterCsr_valid {n : SizeCode} {s : State} (h : sizeCodeOf (csrLen s) = some n) :
    enterCsr s = .ok () (s.toPhase (if csrDir s = .wr then .cData else .cCmd)) := by
  rw [enterCsr, h]

theorem sizeCodeOf_eq_none {n : Nat} (h1 : n ≠ 1) (h2 : n ≠ 2) (h4 : n ≠ 4) : sizeCodeOf n = none := by
  rw [← Option.not_isSome_iff_eq_none, sizeCodeOf_isSome]
  simp [h1, h2, h4]

theorem csDeassert_enter (caller : Caller) (p : Phase) (s : State) :
    csDeassert (s.enter caller p) = (csDeassert s).enter caller p := by
  cases h : s.wire.cs
  case false => rw [csDeassert_of_closed h, csDeassert_of_closed (s := s.enter caller p) h]
  case true =>
    rw [csDeassert_of_open h, csDeassert_of_open (s := s.enter caller p) h]
    rfl

theorem faultEntry_vis (c : Cause) (s : State) :
    (faultEntry c s).vis = { s.vis with status := causeCode c, faultSeen := true } := by
  rw [← csDeassert_vis s]
  rfl

/-- A fault at the entry of an operation is as if none had been entered (R236). -/
theorem raise_enter (c : Cause) (caller : Caller) (p : Phase) {s : State} (h : s.env.resetIn ≠ .beforeRsp) :
    raise c (s.enter caller p) = faultEntry c s := by
  have hreset : (s.enter caller p).env.resetIn ≠ .beforeRsp := h
  rw [raise, unlessReset_of_ne hreset, faultEntry, csDeassert_enter]
  rfl

/-- An access of a length that has no size code ends in the fault, whatever would have followed the entry. -/
theorem enter_invalid {caller : Caller} {p : Phase} {s : State} (f : Unit → State → Run Unit) (hfree : s.busy = false)
    (hreset : s.env.resetIn ≠ .beforeRsp) (hlen : sizeCodeOf (csrLen (s.enter caller p)) = none) :
    whenIdle s (finalState (andThen (enterCsr (s.enter caller p)) f)) = .next (faultEntry .invalidLength s) := by
  rw [whenIdle_of_free hfree, enterCsr_invalid hlen, andThen_stop, finalState_stop, raise_enter _ _ _ hreset]

/-- Settles O34: both accesses stop at their entry. -/
theorem invalidLengthComesBeforeAnyFrame : Obligations.InvalidLengthComesBeforeAnyFrame := by
  intro addr n data s hph hwire hreset h1 h2 h4 hdata
  have hfree : s.busy = false := by simp [State.busy, hph]
  have hnone : sizeCodeOf n = none := sizeCodeOf_eq_none h1 h2 h4
  have hclosed : csDeassert s = s := csDeassert_of_closed (by rw [hwire])
  refine ⟨faultEntry .invalidLength s, enter_invalid _ hfree hreset hnone,
    enter_invalid _ hfree hreset ((congrArg sizeCodeOf hdata).trans hnone), ?_, ?_, faultEntry_seq _ _,
    faultEntry_work _ _, faultEntry_latch _ _, ?_, faultEntry_script _ _, ?_, faultEntry_wbuf _ _, faultEntry_res _ _⟩
  · rw [faultEntry_trace, hclosed]
    rfl
  · exact faultEntry_vis _ _
  · rw [faultEntry_wire, hclosed, hwire]
  · rw [faultEntry_sim, hclosed]

/-! ### An access of a valid length -/

theorem Resting.accessing_enter {s : State} (hs : Resting s) (hsim : s.env.sim = none) {caller : Caller} (p : Phase)
    (hpoll : ∀ kind reg, caller ≠ .poll kind reg) (hburst : caller ≠ .burst) : Accessing (s.enter caller p) :=
  ⟨hpoll, hburst, hs.resetOff, hs.port hsim⟩

theorem exec_csrRead {s : State} (addr : Addr) (n : SizeCode) (hfree : s.busy = false) :
    exec (.csrRead addr (sizeBytes n)) s =
      .next (finalState (visitCCmd (s.enter (.csrRead addr (sizeBytes n)) .cCmd))) := by
  have hentry := enterCsr_valid (s := s.enter (.csrRead addr (sizeBytes n)) .cCmd) (sizeCodeOf_sizeBytes n)
  refine (whenIdle_of_free hfree).trans ?_
  rw [hentry]
  rfl

theorem exec_csrWrite {s : State} (addr : Addr) {n : SizeCode} {data : List Byte} (hlen : data.length = sizeBytes n)
    (hfree : s.busy = false) :
    exec (.csrWrite addr data) s = .next (finalState (visitCData (s.enter (.csrWrite addr data) .cData))) := by
  have hentry := enterCsr_valid (s := s.enter (.csrWrite addr data) .cData)
    ((congrArg sizeCodeOf hlen).trans (sizeCodeOf_sizeBytes n))
  refine (whenIdle_of_free hfree).trans ?_
  rw [hentry]
  rfl

/-- Settles O32: the run of an answered read, which returns to rest; the result is the low lanes of the data word. -/
theorem csrReadRuns : Obligations.CsrReadRuns := by
  intro addr n a rest s hs hsim hfit hans
  have entered : Accessing (s.enter (.csrRead addr (sizeBytes n)) .cCmd) :=
    hs.accessing_enter hsim .cCmd nofun nofun
  refine ⟨_, exec_csrRead addr n hs.free, (entered.read_runs rfl rfl rfl hfit hans).trans ?_⟩
  cases n
  case one => rfl
  case two => rfl
  case four => rfl

/-- Settles O33: the run of an answered write, which returns to rest; the data word is the bytes packed from lane 0. -/
theorem csrWriteRuns : Obligations.CsrWriteRuns := by
  intro addr n data v a rest s hs hsim hfit hans hlen hv
  have entered : Accessing (s.enter (.csrWrite addr data) .cData) :=
    hs.accessing_enter hsim .cData nofun nofun
  exact ⟨_, exec_csrWrite addr hlen hs.free, entered.write_runs rfl rfl hlen (packAt_eq_of_le32 hv) hfit hans⟩

end Sys2Proof.Machine
end

section
/-! SUPPORT for O36, O37 and O52: what `P_FIRST` does in either direction, on behalf of any operation (R183 to R185). -/

namespace Sys2Proof.Machine

/-- `s` in `P_FIRST` of an access at `addr`, with the first-byte position in `FBP` (R183). -/
def atFirst (addr : Addr) (s : State) : State := { s with work.fbp := firstBytePos addr }

section
variable {s : State} {addr : Addr} {len : BitVec 16}

theorem visitPFirst_of_rd (hd : pramDir s = .rd) (ha : pramAddr s = addr) (hl : pramLen s = len) :
    visitPFirst s = andThen (readWord (fifoReg .rd) (atFirst addr s)) fun v t =>
      .ok () (firstDone (firstCount addr len.toNat)
        (takeFirstWord (firstBytePos addr) (firstCount addr len.toNat) v t)) := by
  subst ha hl
  have hd' : pramDir (atFirst (pramAddr s) s) = .rd := hd
  unfold visitPFirst
  dsimp only [atFirst] at hd' ⊢
  rw [hd']

theorem visitPFirst_of_wr (hd : pramDir s = .wr) (ha : pramAddr s = addr) (hl : pramLen s = len) :
    visitPFirst s = thenDo (sendFirstWord
        (packAt (firstBytePos addr).toNat ((pramBytes s).take (firstCount addr len.toNat))) (atFirst addr s))
      (firstDone (firstCount addr len.toNat)) := by
  subst ha hl
  have hd' : pramDir (atFirst (pramAddr s) s) = .wr := hd
  unfold visitPFirst
  dsimp only [atFirst] at hd' ⊢
  rw [hd']
  rfl

end

end Sys2Proof.Machine
end

section
/-! PROOF of O52. Two states are alike that differ at most in `FIFO_CNT`. Every operation on the state takes alike
states to alike states, and so does every exchange, since none of them reads the count; this passes through `andThen`
and `thenDo` to every phase and to every meaning. Where the count is written (R161, R186) or reset, the two may differ
otherwise than before. -/

namespace Sys2Proof.Machine

/-! ### Alike -/

/-- `t` is `s` but for `FIFO_CNT`. -/
def Alike (s t : State) : Prop := ∃ n, t = s.setFifoCnt n

theorem alike_setFifoCnt (s : State) (n : BitVec 5) : Alike s (s.setFifoCnt n) := ⟨n, rfl⟩

/-- Two parts of operations have gone on with the same value, or both have ended, in alike states. -/
inductive RunAlike {α : Type} : Run α → Run α → Prop
  | ok (a : α) {s t : State} (h : Alike s t) : RunAlike (.ok a s) (.ok a t)
  | stop {s t : State} (h : Alike s t) : RunAlike (.stop s) (.stop t)

/-- Two outcomes are the same stop, or alike next states. -/
inductive ResultAlike : Result → Result → Prop
  | next {s t : State} (h : Alike s t) : ResultAlike (.next s) (.next t)
  | fault (f : Fault) : ResultAlike (.fault f) (.fault f)
  | refused (r : Refusal) : ResultAlike (.refused r) (.refused r)

theorem ResultAlike.of_next {s : State} {r : Result} (h : ResultAlike (.next s) r) :
    ∃ n, r = .next (s.setFifoCnt n) := by
  cases h with
  | next h =>
    obtain ⟨n, rfl⟩ := h
    exact ⟨n, rfl⟩

theorem ResultAlike.of_fault {f : Fault} {r : Result} (h : ResultAlike (.fault f) r) : r = .fault f := by
  cases h with
  | fault => rfl

theorem ResultAlike.of_refused {f : Refusal} {r : Result} (h : ResultAlike (.refused f) r) : r = .refused f := by
  cases h with
  | refused => rfl

/-- What the test of a poll makes of the word it has read (R162). -/
def decidePoll (kind : PollKind) (v : Word) (s : State) : Run Bool :=
  if pollReady kind v then .ok true (keepCount kind v (polled v s))
  else if limitReached s.env.params (polled v s).work.polls then .stop (raise .deviceUnresponsive (polled v s))
  else .ok false (polled v s)

theorem pollOnce_eq_decidePoll (kind : PollKind) (reg : Addr) (s : State) :
    pollOnce kind reg s = andThen (readWord reg s) (decidePoll kind) := rfl

/-! ### Sequencing -/

section
variable {α β : Type} {r r' : Run α}

theorem RunAlike.andThen {f f' : α → State → Run β} (h : RunAlike r r')
    (hf : ∀ a s t, Alike s t → RunAlike (f a s) (f' a t)) : RunAlike (andThen r f) (andThen r' f') := by
  cases h with
  | ok a h => exact hf a _ _ h
  | stop h => exact .stop h

theorem RunAlike.thenDo {f f' : State → State} (h : RunAlike r r') (hf : ∀ s t, Alike s t → Alike (f s) (f' t)) :
    RunAlike (thenDo r f) (thenDo r' f') := by
  cases h with
  | ok a h => exact .ok () (hf _ _ h)
  | stop h => exact .stop h

theorem RunAlike.finalState (h : RunAlike r r') : Alike (finalState r) (finalState r') := by
  cases h with
  | ok a h => exact h
  | stop h => exact h

end

/-! ### State operations -/

section
variable {s t : State} (h : Alike s t)
include h

/-- A change of anything but the count. -/
theorem Alike.map (f : State → State) (hf : ∀ n, f (s.setFifoCnt n) = (f s).setFifoCnt n := by exact fun _ => rfl) :
    Alike (f s) (f t) := by
  obtain ⟨n, rfl⟩ := h
  exact ⟨n, hf n⟩

theorem Alike.seq : t.seq = s.seq := by
  obtain ⟨n, rfl⟩ := h
  rfl

theorem Alike.wire : t.wire = s.wire := by
  obtain ⟨n, rfl⟩ := h
  rfl

theorem Alike.env : t.env = s.env := by
  obtain ⟨n, rfl⟩ := h
  rfl

theorem Alike.toPhase (p : Phase) : Alike (s.toPhase p) (t.toPhase p) := h.map _
theorem Alike.enter (c : Caller) (p : Phase) : Alike (s.enter c p) (t.enter c p) := h.map (State.enter c p)
theorem Alike.toIdle : Alike s.toIdle t.toIdle := h.map State.toIdle
theorem Alike.setWord (v : Word) : Alike (s.setWord v) (t.setWord v) := h.map _
theorem Alike.beginPoll (p : Phase) : Alike (beginPoll p s) (beginPoll p t) := h.map _
theorem Alike.setSize (n : BitVec 3) : Alike (s.setSize n) (t.setSize n) := h.map _
theorem Alike.log (e : Event) : Alike (s.log e) (t.log e) := h.map _
theorem Alike.csAssert : Alike (csAssert s) (csAssert t) := h.map Machine.csAssert

theorem Alike.csDeassert : Alike (csDeassert s) (csDeassert t) := by
  refine h.map Machine.csDeassert fun n => ?_
  unfold Machine.csDeassert
  rw [State.setFifoCnt_wire]
  split
  · rfl
  · rfl

/-- A word that shows the FIFO available gives both the same count (R161). -/
theorem Alike.loadFifoCnt (v : Word) : Alike (loadFifoCnt v s) (loadFifoCnt v t) := by
  unfold Machine.loadFifoCnt
  split
  · obtain ⟨n, rfl⟩ := h
    exact ⟨countField v, rfl⟩
  · exact h

theorem Alike.keepCount (kind : PollKind) (v : Word) : Alike (keepCount kind v s) (keepCount kind v t) := by
  unfold Machine.keepCount
  split
  · exact h.loadFifoCnt v
  · exact h

/-- The count goes down in both (R186). -/
theorem Alike.countDown : Alike s.countDown t.countDown := by
  obtain ⟨n, rfl⟩ := h
  exact ⟨n - 1, rfl⟩

theorem Alike.polled (v : Word) : Alike (polled v s) (polled v t) := h.map (Machine.polled v)

end

/-! ### The end of an operation -/

section
variable {s t : State} (h : Alike s t)
include h

theorem Alike.faultEntry (c : Cause) : Alike (faultEntry c s) (faultEntry c t) :=
  h.csDeassert.map fun u => { scrambleRbuf u with
    vis := { u.vis with status := causeCode c, faultSeen := true }
    seq := ⟨.idle, .nobody, false⟩
    trace := u.trace ++ [.rsp (causeCode c) none u.vis.alEvent] }

theorem Alike.complete : Alike (complete s) (complete t) := h.map Machine.complete

/-- Reset puts the count of both at its reset value (R262; log 5). -/
theorem Alike.blockReset : Alike (blockReset s) (blockReset t) := by
  obtain ⟨n, hn⟩ := h.csDeassert
  refine ⟨0, ?_⟩
  unfold Machine.blockReset
  rw [hn]
  rfl

theorem Alike.unlessReset {f : State → State} (hf : ∀ s t, Alike s t → Alike (f s) (f t)) :
    Alike (unlessReset f s) (unlessReset f t) := by
  unfold Machine.unlessReset
  rw [h.env]
  split
  · exact h.blockReset
  · exact hf _ _ h

theorem Alike.raise (c : Cause) : Alike (raise c s) (raise c t) := h.unlessReset fun _ _ k => k.faultEntry c

theorem Alike.finish : Alike (finish s) (finish t) := h.unlessReset fun _ _ k => k.complete

end

/-! ### Exchanges and frames -/

/-- Whoever answers an exchange, the count is not looked at (R30, R38). -/
theorem deviceAnswer_setFifoCnt (b : Byte) (s : State) (n : BitVec 5) :
    deviceAnswer b (s.setFifoCnt n) = ((deviceAnswer b s).1, (deviceAnswer b s).2.setFifoCnt n) := by
  unfold deviceAnswer
  rw [State.setFifoCnt_env]
  split
  · rfl
  · rfl

theorem react_setFifoCnt (b : Byte) (s : State) (n : BitVec 5) :
    react b (s.setFifoCnt n) = ((react b s).1, (react b s).2.setFifoCnt n) := by
  have answered (rest : List Reply) := deviceAnswer_setFifoCnt b { s with env.script := rest } n
  unfold react
  rw [State.setFifoCnt_env]
  split
  · rfl
  · exact answered _
  · rfl
  · split
    · rfl
    · exact answered _
  · split
    · split
      · rfl
      · exact deviceAnswer_setFifoCnt b s.drawn n
    · exact deviceAnswer_setFifoCnt b s n

section
variable {s t : State} (h : Alike s t)
include h

theorem Alike.xfer (b : Byte) : RunAlike (xfer b s) (xfer b t) := by
  obtain ⟨n, rfl⟩ := h
  unfold Machine.xfer
  rw [react_setFifoCnt]
  have answered := alike_setFifoCnt (react b s).2 n
  generalize react b s = ru at answered ⊢
  obtain ⟨r, u⟩ := ru
  cases r with
  | byte m => exact .ok m (answered.log _)
  | fault => exact .stop ((answered.log _).raise _)
  | reset => exact .stop answered.blockReset

theorem Alike.exchange (bs : List Byte) : RunAlike (exchange bs s) (exchange bs t) := by
  induction bs generalizing s t with
  | nil => exact .ok [] h
  | cons b bs ih =>
    exact (h.xfer b).andThen fun m _ _ k => (ih k).andThen fun ms _ _ l => .ok (m :: ms) l

theorem Alike.send (bs : List Byte) : RunAlike (send bs s) (send bs t) :=
  (h.exchange bs).andThen fun _ _ _ k => .ok () k

theorem Alike.recv4 : RunAlike (recv4 s) (recv4 t) := by
  obtain ⟨n, rfl⟩ := h
  exact ((alike_setFifoCnt s n).exchange _).andThen fun bs _ _ k => .ok (wordOf bs) k

theorem Alike.writeWord (reg : Addr) (v : Word) : RunAlike (writeWord reg v s) (writeWord reg v t) :=
  (h.csAssert.send _).thenDo fun _ _ k => k.csDeassert

theorem Alike.readFrame (header : List Byte) : RunAlike (readFrame header s) (readFrame header t) :=
  (h.csAssert.send header).andThen fun _ _ _ k => k.recv4.andThen fun v _ _ l => .ok v l.csDeassert

theorem Alike.fastReadWord (reg : Addr) : RunAlike (fastReadWord reg s) (fastReadWord reg t) := by
  obtain ⟨n, rfl⟩ := h
  exact (alike_setFifoCnt s n).readFrame _

theorem Alike.readWord (reg : Addr) : RunAlike (readWord reg s) (readWord reg t) := by
  unfold Machine.readWord
  rw [h.env]
  split
  · exact h.fastReadWord reg
  · exact h.readFrame _

theorem Alike.burstOpen (dir : Dir) : RunAlike (burstOpen dir s) (burstOpen dir t) := by
  obtain ⟨n, rfl⟩ := h
  exact ((alike_setFifoCnt s n).csAssert.send _).thenDo fun _ _ k => k.map fun u => { u with wire.burst := some dir }

theorem Alike.resetSqiFrame : RunAlike (resetSqiFrame s) (resetSqiFrame t) :=
  (h.csAssert.send _).thenDo fun _ _ k => k.csDeassert

theorem Alike.holdBurst : Alike (holdBurst s) (holdBurst t) := h.map Machine.holdBurst fun n => by
  rw [holdBurst_eq, holdBurst_eq]
  rfl

theorem Alike.releaseBurst : Alike (releaseBurst s) (releaseBurst t) := h.map Machine.releaseBurst fun n => by
  rw [releaseBurst_eq, releaseBurst_eq]
  rfl

end

theorem RunAlike.storeWord {r r' : Run Word} (h : RunAlike r r') : RunAlike (storeWord r) (storeWord r') :=
  h.andThen fun v _ _ k => .ok () (k.setWord v)

section
variable {s t : State} (h : Alike s t)
include h

/-! ### Data words -/

theorem Alike.sendCsrData (v : Word) : RunAlike (sendCsrData v s) (sendCsrData v t) := (h.setWord v).writeWord _ v

theorem Alike.takeCsrData (n : Nat) (v : Word) : Alike (takeCsrData n v s) (takeCsrData n v t) :=
  h.map (Machine.takeCsrData n v)

theorem Alike.sendFirstWord (v : Word) : RunAlike (sendFirstWord v s) (sendFirstWord v t) :=
  ((h.setWord v).writeWord _ v).thenDo fun _ _ k => k.countDown

theorem Alike.takeFirstWord (fbp : BitVec 2) (n0 : Nat) (v : Word) :
    Alike (takeFirstWord fbp n0 v s) (takeFirstWord fbp n0 v t) :=
  (h.setWord v).countDown.map (State.setRes (lanes fbp.toNat n0 v))

theorem Alike.sendNextWord (v : Word) : RunAlike (sendNextWord v s) (sendNextWord v t) :=
  ((h.setWord v).send _).thenDo fun _ _ k => k.countDown

theorem Alike.takeNextWord (n : Nat) (v : Word) : Alike (takeNextWord n v s) (takeNextWord n v t) :=
  (h.setWord v).countDown.map fun u => u.setRes (u.buf.res ++ lanes 0 n v)

/-! ### The poller -/

theorem Alike.decidePoll (kind : PollKind) (v : Word) : RunAlike (decidePoll kind v s) (decidePoll kind v t) := by
  have counted := h.polled v
  have hlimit : limitReached t.env.params (Machine.polled v t).work.polls =
      limitReached s.env.params (Machine.polled v s).work.polls := by
    obtain ⟨n, rfl⟩ := h
    rfl
  unfold Machine.decidePoll
  rw [hlimit]
  split
  · exact .ok true (counted.keepCount kind v)
  · split
    · exact .stop (counted.raise _)
    · exact .ok false counted

theorem Alike.visitPoll (kind : PollKind) (reg : Addr) {done : State → State}
    (hdone : ∀ s t, Alike s t → Alike (done s) (done t)) :
    RunAlike (visitPoll kind reg done s) (visitPoll kind reg done t) := by
  have polling : RunAlike (pollOnce kind reg s) (pollOnce kind reg t) := by
    rw [pollOnce_eq_decidePoll, pollOnce_eq_decidePoll]
    exact (h.readWord reg).andThen fun v _ _ k => k.decidePoll kind v
  refine polling.andThen fun ended s t k => .ok () ?_
  cases ended with
  | true => exact hdone s t k
  | false => exact k

theorem Alike.enterPoll (kind : PollKind) (reg : Addr) : RunAlike (enterPoll kind reg s) (enterPoll kind reg t) :=
  (h.map (enteredPoll kind reg)).visitPoll kind reg fun _ _ k => k.toIdle

/-! ### The CSR accessor -/

theorem Alike.chunkDone : Alike (chunkDone s) (chunkDone t) := by
  refine h.map Machine.chunkDone fun n => ?_
  unfold Machine.chunkDone
  rw [State.setFifoCnt_latch]
  split
  · rfl
  · rfl

theorem Alike.refreshDone : Alike (refreshDone s) (refreshDone t) := by
  have mirrored : Alike (s.setAlEvent (mirrorOf s.buf.res)) (t.setAlEvent (mirrorOf t.buf.res)) :=
    h.map fun u => u.setAlEvent (mirrorOf u.buf.res)
  unfold Machine.refreshDone
  dsimp only [State.setAlEvent_seq]
  rw [h.seq]
  split
  · exact mirrored.finish
  · exact mirrored.toIdle

theorem Alike.csrReturn : Alike (csrReturn s) (csrReturn t) := by
  unfold Machine.csrReturn
  rw [h.seq]
  split
  · exact h.refreshDone
  · split
    · exact h.chunkDone
    · exact h.toIdle

/-- The operands of a CSR access do not come from the count (log 26). -/
theorem Alike.csrOperands : csrDir t = csrDir s ∧ csrAddr t = csrAddr s ∧ csrLen t = csrLen s ∧
    csrBytes t = csrBytes s := by
  obtain ⟨n, rfl⟩ := h
  exact ⟨rfl, rfl, rfl, rfl⟩

theorem Alike.csrReady : Alike (csrReady s) (csrReady t) := by
  obtain ⟨hdir, -, -, -⟩ := h.csrOperands
  unfold Machine.csrReady
  rw [hdir]
  split
  · exact h.toPhase _
  · exact h.csrReturn

theorem Alike.enterCsr : RunAlike (enterCsr s) (enterCsr t) := by
  obtain ⟨hdir, -, hlen, -⟩ := h.csrOperands
  unfold Machine.enterCsr
  rw [hdir, hlen]
  split
  · exact .stop (h.raise _)
  · exact .ok () (h.toPhase _)

theorem Alike.visitCData : RunAlike (visitCData s) (visitCData t) := by
  obtain ⟨-, -, -, hbytes⟩ := h.csrOperands
  unfold Machine.visitCData
  rw [hbytes]
  exact (h.sendCsrData _).thenDo fun _ _ k => k.toPhase _

theorem Alike.visitCCmd : RunAlike (visitCCmd s) (visitCCmd t) := by
  obtain ⟨hdir, haddr, hlen, -⟩ := h.csrOperands
  unfold Machine.visitCCmd
  rw [hdir, haddr, hlen]
  split
  · exact .stop (h.raise _)
  · exact (h.writeWord _ _).thenDo fun _ _ k => k.beginPoll _

theorem Alike.visitCFetch : RunAlike (visitCFetch s) (visitCFetch t) := by
  refine (h.readWord _).andThen fun v s t k => .ok () ?_
  obtain ⟨-, -, hlen, -⟩ := k.csrOperands
  rw [hlen]
  exact (k.takeCsrData _ v).csrReturn

/-! ### The PRAM accessor -/

/-- The operands of a PRAM access do not come from the count. -/
theorem Alike.pramOperands : pramDir t = pramDir s ∧ pramAddr t = pramAddr s ∧ pramLen t = pramLen s ∧
    pramBytes t = pramBytes s := by
  obtain ⟨n, rfl⟩ := h
  exact ⟨rfl, rfl, rfl, rfl⟩

theorem Alike.visitPAbort : RunAlike (visitPAbort s) (visitPAbort t) := by
  obtain ⟨hdir, -, -, -⟩ := h.pramOperands
  unfold Machine.visitPAbort
  rw [hdir]
  exact (h.writeWord _ _).thenDo fun _ _ k => k.beginPoll _

theorem Alike.visitPAddrLen : RunAlike (visitPAddrLen s) (visitPAddrLen t) := by
  obtain ⟨hdir, haddr, hlen, -⟩ := h.pramOperands
  unfold Machine.visitPAddrLen
  rw [hdir, haddr, hlen]
  exact (h.writeWord _ _).thenDo fun _ _ k => k.toPhase _

theorem Alike.visitPStart : RunAlike (visitPStart s) (visitPStart t) := by
  obtain ⟨hdir, -, -, -⟩ := h.pramOperands
  unfold Machine.visitPStart
  rw [hdir]
  exact (h.writeWord _ _).thenDo fun _ _ k => k.beginPoll _

theorem Alike.setupDone : Alike (setupDone s) (setupDone t) := by
  unfold Machine.setupDone
  rw [h.seq]
  split
  · exact h.toIdle
  · exact h.toPhase _

theorem Alike.firstDone (n0 : Nat) : Alike (firstDone n0 s) (firstDone n0 t) := h.map (Machine.firstDone n0)

theorem Alike.visitPFirst : RunAlike (visitPFirst s) (visitPFirst t) := by
  obtain ⟨hdir, haddr, hlen, hbytes⟩ := h.pramOperands
  have placed : Alike (atFirst (pramAddr s) s) (atFirst (pramAddr s) t) := h.map (atFirst _)
  cases hd : pramDir s with
  | rd =>
    rw [visitPFirst_of_rd hd rfl rfl, visitPFirst_of_rd (hdir.trans hd) haddr hlen]
    exact (placed.readWord _).andThen fun v _ _ k => .ok () ((k.takeFirstWord _ _ v).firstDone _)
  | wr =>
    rw [visitPFirst_of_wr hd rfl rfl, visitPFirst_of_wr (hdir.trans hd) haddr hlen, hbytes]
    exact (placed.sendFirstWord _).thenDo fun _ _ k => k.firstDone _

theorem Alike.visitPBOpen : RunAlike (visitPBOpen s) (visitPBOpen t) := by
  obtain ⟨hdir, -, -, -⟩ := h.pramOperands
  unfold Machine.visitPBOpen
  rw [hdir]
  exact (h.burstOpen _).thenDo fun _ _ k => k.map burstNext

theorem Alike.wordDone (n : Nat) : Alike (wordDone n s) (wordDone n t) := h.map (Machine.wordDone n)

theorem Alike.visitPBWord : RunAlike (visitPBWord s) (visitPBWord t) := by
  obtain ⟨n, rfl⟩ := h
  have h := alike_setFifoCnt s n
  obtain ⟨hdir, -, -, hbytes⟩ := h.pramOperands
  unfold Machine.visitPBWord
  rw [hdir, hbytes]
  dsimp only [State.setFifoCnt_work_rem, State.setFifoCnt_work_cur]
  split
  · exact h.recv4.andThen fun v _ _ k => .ok () ((k.takeNextWord _ v).wordDone _)
  · exact (h.sendNextWord _).thenDo fun _ _ k => k.wordDone _

theorem Alike.pramReturn : Alike (pramReturn s) (pramReturn t) := by
  refine h.map Machine.pramReturn fun n => ?_
  unfold Machine.pramReturn
  rw [State.setFifoCnt_seq, State.setFifoCnt_latch]
  split
  · split
    · rfl
    · rfl
  · rfl

/-! ### The router -/

theorem Alike.visitRDispatch : RunAlike (visitRDispatch s) (visitRDispatch t) := by
  obtain ⟨n, rfl⟩ := h
  have h := alike_setFifoCnt s n
  unfold Machine.visitRDispatch
  rw [State.setFifoCnt_latch]
  split
  · exact .ok () (h.toPhase _)
  · exact .ok () ⟨n, rfl⟩

theorem Alike.visitRChunk : RunAlike (visitRChunk s) (visitRChunk t) := by
  obtain ⟨n, rfl⟩ := h
  have h := alike_setFifoCnt s n
  unfold Machine.visitRChunk
  rw [State.setFifoCnt_work_rem, State.setFifoCnt_work_addr]
  split
  · exact .ok () (h.toPhase _)
  · exact (h.setSize _).enterCsr

theorem Alike.visitRAlev : RunAlike (visitRAlev s) (visitRAlev t) :=
  (h.map fun u => { u with seq.refresh := true }).enterCsr

/-! ### A visit to a phase -/

theorem Alike.visitPhase : RunAlike (visitPhase s) (visitPhase t) := by
  obtain ⟨hdir, -, -, -⟩ := h.pramOperands
  obtain ⟨n, rfl⟩ := h
  have h := alike_setFifoCnt s n
  unfold Machine.visitPhase
  rw [State.setFifoCnt_seq]
  cases s.seq.ph with
  | idle => exact .ok () h
  | rDispatch => exact h.visitRDispatch
  | rChunk => exact h.visitRChunk
  | cData => exact h.visitCData
  | cCmd => exact h.visitCCmd
  | cPoll => exact h.visitPoll _ _ fun _ _ k => k.csrReady
  | cFetch => exact h.visitCFetch
  | pAbort => exact h.visitPAbort
  | pPollBusy => exact h.visitPoll _ _ fun _ _ k => k.toPhase _
  | pAddrLen => exact h.visitPAddrLen
  | pStart => exact h.visitPStart
  | pPollAvail => exact h.visitPoll _ _ fun _ _ k => k.setupDone
  | pFirst => exact h.visitPFirst
  | pBOpen => exact h.visitPBOpen
  | pBWord => exact h.visitPBWord
  | pBClose => exact .ok () h.csDeassert.pramReturn
  | rAlev => exact h.visitRAlev
  | iSqi => exact h.resetSqiFrame.thenDo fun _ _ k => k.toPhase _
  | iReset => exact (h.writeWord _ _).thenDo fun _ _ k => k.beginPoll _
  | iPoll => exact h.visitPoll _ _ fun _ _ k => k.finish

theorem Alike.visit : RunAlike (visit s) (visit t) := by
  unfold Machine.visit
  rw [h.seq]
  split
  · exact h.visitPoll _ _ fun _ _ k => k.toIdle
  · exact h.visitPhase

/-! ### The meaning of an operation -/

theorem Alike.whenFrameClosed {u v : State} (k : Alike u v) :
    ResultAlike (whenFrameClosed s u) (whenFrameClosed t v) := by
  unfold Machine.whenFrameClosed
  rw [h.wire]
  split
  · exact .fault _
  · exact .next k

/-- A word of a burst: the model stops where no burst of its direction is open (log 18). -/
theorem Alike.whenBurst (dir : Dir) (f : Fault) {u v : State} (k : Alike u v) :
    ResultAlike (if s.wire.burst = some dir then .next u else .fault f)
      (if t.wire.burst = some dir then .next v else .fault f) := by
  rw [h.wire]
  split
  · exact .next k
  · exact .fault f

theorem Alike.whenIdle {u v : State} (k : Alike u v) : ResultAlike (whenIdle s u) (whenIdle t v) := by
  unfold Machine.whenIdle State.busy
  rw [h.seq]
  split
  · exact .refused _
  · exact .next k

theorem Alike.whenAdmitted (addr : Addr) (len : Nat) {u v : State} (k : Alike u v) :
    ResultAlike (whenAdmitted addr len s u) (whenAdmitted addr len t v) := by
  unfold Machine.whenAdmitted State.busy
  rw [h.seq]
  split
  · exact .refused _
  · split
    · exact .next k
    · exact .refused _

theorem Alike.exec (i : Instr) : ResultAlike (exec i s) (exec i t) := by
  cases i with
  | writeWord reg value => exact h.whenFrameClosed (h.writeWord reg value).finalState
  | serialReadWord reg => exact h.whenFrameClosed (h.readFrame _).storeWord.finalState
  | fastReadWord reg => exact h.whenFrameClosed (h.fastReadWord reg).storeWord.finalState
  | readWord reg => exact h.whenFrameClosed (h.readWord reg).storeWord.finalState
  | burstOpenWrite => exact h.whenFrameClosed ((h.burstOpen _).thenDo fun _ _ k => k.holdBurst).finalState
  | burstPush value => exact h.whenBurst .wr _ (h.send _).finalState
  | burstOpenRead => exact h.whenFrameClosed ((h.burstOpen _).thenDo fun _ _ k => k.holdBurst).finalState
  | burstPop => exact h.whenBurst .rd _ h.recv4.storeWord.finalState
  | burstClose => exact .next h.csDeassert.releaseBurst
  | resetSqiFrame => exact h.whenFrameClosed h.resetSqiFrame.finalState
  | csrcmdRead size addr => exact h.whenFrameClosed (h.writeWord _ _).finalState
  | csrcmdWrite size addr => exact h.whenFrameClosed (h.writeWord _ _).finalState
  | pramcmdAbort dir => exact h.whenFrameClosed (h.writeWord _ _).finalState
  | pramcmdStart dir => exact h.whenFrameClosed (h.writeWord _ _).finalState
  | pramAddrlen dir len addr => exact h.whenFrameClosed (h.writeWord _ _).finalState
  | pramStatus dir v => exact .next ((h.setWord v).loadFifoCnt v)
  | csrStatus v => exact .next (h.setWord v)
  | csrDataWord dir size v =>
    cases dir with
    | wr => exact h.whenFrameClosed (h.sendCsrData v).finalState
    | rd => exact .next (h.takeCsrData _ v)
  | pramFirstWord dir fbp n0 v =>
    cases dir with
    | wr => exact h.whenFrameClosed (h.sendFirstWord v).finalState
    | rd => exact .next (h.takeFirstWord fbp n0 v)
  | pramNextWord dir n v =>
    cases dir with
    | wr => exact h.whenBurst .wr _ (h.sendNextWord v).finalState
    | rd => exact .next (h.takeNextWord n v)
  | init =>
    exact h.whenIdle (h.map fun u =>
      (acceptBare .init u).enter .host (if u.env.params.initSendResetSqi then .iSqi else .iReset))
  | reset => exact h.whenIdle (h.map (acceptBare .reset)).finish
  | read addr len => exact h.whenAdmitted _ _ ((h.map (acceptRequest .read addr len [])).enter _ _)
  | write addr data =>
    exact h.whenAdmitted _ _ ((h.map fun u =>
      acceptRequest .write addr (BitVec.ofNat 16 data.length) data { u with buf.wbuf := data }).enter _ _)
  | pollBusyClear reg => exact h.whenIdle (h.enterPoll _ reg).finalState
  | pollFifoAvail reg => exact h.whenIdle (h.enterPoll _ reg).finalState
  | pollEqual reg expected => exact h.whenIdle (h.enterPoll _ reg).finalState
  | csrRead addr n => exact h.whenIdle ((h.enter _ _).enterCsr.andThen fun _ _ _ k => k.visitCCmd).finalState
  | csrWrite addr data => exact h.whenIdle ((h.enter _ _).enterCsr.andThen fun _ _ _ k => k.visitCData).finalState
  | pramSetup dir addr len => exact h.whenIdle (h.enter _ _).visitPAbort.finalState
  | pramRead addr len => exact h.whenIdle (h.enter _ _).visitPAbort.finalState
  | pramWrite addr data => exact h.whenIdle (h.enter _ _).visitPAbort.finalState
  | chunk a rem => exact .next (h.setSize _)
  | alRefresh => exact h.whenIdle ((h.enter _ _).visitRAlev.andThen fun _ _ _ k => k.visitCCmd).finalState

/-! ### A step -/

theorem Alike.step : ResultAlike (step s) (step t) := by
  unfold Machine.step State.accepting
  rw [h.env, h.seq]
  split
  · exact .next h.blockReset
  · split
    · split
      · exact .next h
      · split
        · exact .refused _
        · exact (h.map (State.consume _)).exec _
    · exact .next h.visit.finalState

end

/-- Settles O52: the step of a state and that of the same state with another count have alike outcomes. -/
theorem fifoCountIsInformational : Obligations.FifoCountIsInformational := by
  intro s n
  have alike := (alike_setFifoCnt s n).step
  refine ⟨fun t hstep => ?_, fun f hstep => ?_, fun r hstep => ?_⟩
  · rw [hstep] at alike
    exact alike.of_next
  · rw [hstep] at alike
    exact alike.of_fault
  · rw [hstep] at alike
    exact alike.of_refused

end Sys2Proof.Machine
end

section
/-! SUPPORT for O35, O36 and O37: the setup of a PRAM access (43_pram.md R180, R181) answered by an open peripheral, on
behalf of any operation but a poll or a burst: the abort and the poll that follows, then the two words and the poll that
follows them. -/

namespace Sys2Proof.Machine

/-! ### Command and poll -/

/-- `s` at the end of a poll in phase `p` that was ready, the events so far being `evs`. -/
def afterPoll (p : Phase) (rest : List Reply) (evs : List Event) (a : PollAnswers) (s : State) : State :=
  afterEvents rest evs { s with
    seq.ph := p
    work := { s.work with word := a.ready.value, polls := a.all.length } }

/-- A poll loop that has just begun, after the events `evs`, runs to its end. -/
theorem InLoop.runs_begun {kind : PollKind} {reg : Addr} {done : State → State} {p : Phase} {rest : List Reply}
    {evs : List Event} {a : PollAnswers} {s : State}
    (h : InLoop kind reg done (beginPoll p (afterEvents ((readingsRx a.all).map Reply.byte ++ rest) evs s)))
    (hfit : a.Fit s.env.params (pollReady kind)) :
    stepN a.all.length (beginPoll p (afterEvents ((readingsRx a.all).map Reply.byte ++ rest) evs s)) =
      .next (done (keepCount kind a.ready.value
        (afterPoll p rest (evs ++ readingFrames s.env.params reg a.all) a s))) := by
  have hread : afterReadings rest reg a.all
      (beginPoll p (afterEvents ((readingsRx a.all).map Reply.byte ++ rest) evs s)) =
      afterPoll p rest (evs ++ readingFrames s.env.params reg a.all) a s := by
    simp [afterReadings, afterPoll, afterEvents, beginPoll, State.setPolls, State.toPhase, PollAnswers.all]
  rw [PollAnswers.all_length, ← hread]
  exact h.runs_ready rfl hfit rfl

/-! ### The transfer in progress -/

/-- A PRAM access of `len` bytes at `addr` in the direction `d` is in progress, its wire between frames, its peripheral
open and no reset applied. -/
structure Transferring (d : Dir) (addr : Addr) (len : BitVec 16) (s : State) : Prop extends Accessing s where
  dir : pramDir s = d
  address : pramAddr s = addr
  length : pramLen s = len

/-- The operands of a PRAM access stand in the caller and the request (log 26). -/
theorem pramOperands_congr {s t : State} (caller : t.seq.caller = s.seq.caller) (latch : t.latch = s.latch) :
    pramDir t = pramDir s ∧ pramAddr t = pramAddr s ∧ pramLen t = pramLen s := by
  unfold pramDir pramAddr pramLen
  rw [caller, latch]
  exact ⟨rfl, rfl, rfl⟩

/-- `s` at the end of its setup, the events so far being `evs` (R181, R161). -/
def afterSetup (rest : List Reply) (evs : List Event) (a : SetupAnswers) (s : State) : State :=
  afterEvents rest evs { s with
    seq.ph := .pPollAvail
    work := { s.work with word := a.avail.ready.value, polls := a.avail.all.length, fifoCnt := a.count } }

section
variable {d : Dir} {addr : Addr} {len : BitVec 16} {s : State} (h : Transferring d addr len s)
include h

/-- A change of the block that touches neither the wire nor the operands nor what decides who answers. -/
theorem Transferring.change {t : State} (caller : t.seq.caller = s.seq.caller := by rfl)
    (latch : t.latch = s.latch := by rfl) (wire : t.wire = s.wire := by rfl)
    (sim : t.env.sim = s.env.sim := by rfl) (resetIn : t.env.resetIn = s.env.resetIn := by rfl) :
    Transferring d addr len t := by
  obtain ⟨hdir, haddr, hlen⟩ := pramOperands_congr caller latch
  exact ⟨h.toAccessing.change caller wire sim resetIn, hdir.trans h.dir, haddr.trans h.address, hlen.trans h.length⟩

/-- The two polling phases of the setup are poll loops at the command register of the direction (R33, R180). -/
theorem Transferring.inLoop {p : Phase} {kind : PollKind} {done : State → State} (hp : s.seq.ph = p)
    (hidle : p ≠ .idle)
    (hvisit : ∀ t : State, t.seq.ph = p → visitPhase t = visitPoll kind (pramCmdReg (pramDir t)) done t) :
    InLoop kind (pramCmdReg d) done s where
  visits t hseq hlatch _ := by
    obtain ⟨hdir, -, -⟩ := pramOperands_congr (congrArg Seq.caller hseq) hlatch
    rw [visit_of_noPoll (hseq ▸ h.noPoll), hvisit t (by rw [hseq, hp]), hdir, h.dir]
  busy := h.not_accepting (by rw [hp]; exact hidle)
  resetOff := h.resetOff
  port := h.port

theorem Transferring.inLoop_busy (hp : s.seq.ph = .pPollBusy) :
    InLoop .busyClear (pramCmdReg d) (State.toPhase .pAddrLen) s :=
  h.inLoop hp nofun fun t ht => by
    rw [visitPhase, ht]
    rfl

theorem Transferring.inLoop_avail (hp : s.seq.ph = .pPollAvail) : InLoop .fifoAvail (pramCmdReg d) setupDone s :=
  h.inLoop hp nofun fun t ht => by
    rw [visitPhase, ht]
    rfl

variable {rest : List Reply} {rx : List Byte}

/-! ### The run of the setup -/

theorem Transferring.abort_frame (hlen : rx.length = 7) (hans : Answers rx rest s) :
    visitPAbort s = .ok () (beginPoll .pPollBusy
      (afterEvents rest (wholeFrame (writeTx (pramCmdReg d) pramAbortWord) rx) s)) := by
  rw [visitPAbort, sendAbort, h.dir, writeWord_bytes _ _ rx rest s h.port hlen hans, thenDo_ok]

theorem Transferring.step_addrLen (hp : s.seq.ph = .pAddrLen) (hlen : rx.length = 7) (hans : Answers rx rest s) :
    Machine.step s = .next ((afterEvents rest
      (wholeFrame (writeTx (addrLenReg d) (addrLenWord len addr)) rx) s).toPhase .pStart) := by
  rw [h.step (by simp [hp]), visitPhase, hp]
  simp only [visitPAddrLen, sendAddrLen, h.dir, h.address, h.length, writeWord_bytes _ _ rx rest s h.port hlen hans]
  rfl

theorem Transferring.step_start (hp : s.seq.ph = .pStart) (hlen : rx.length = 7) (hans : Answers rx rest s) :
    Machine.step s = .next (beginPoll .pPollAvail (afterEvents rest
      (wholeFrame (writeTx (pramCmdReg d) pramStartWord) rx) s)) := by
  rw [h.step (by simp [hp]), visitPhase, hp]
  simp only [visitPStart, sendStart, h.dir, writeWord_bytes _ _ rx rest s h.port hlen hans]
  rfl

variable {a : SetupAnswers}

/-- From the abort to the end of the busy poll. -/
theorem Transferring.abort_runs (hlen : a.abort.length = 7) (hfit : a.busy.Fit s.env.params notBusy)
    (hans : Answers (a.abort ++ readingsRx a.busy.all) rest s) :
    stepN a.busy.all.length (finalState (visitPAbort s)) = .next ((afterPoll .pPollBusy rest
      (wholeFrame (writeTx (pramCmdReg d) pramAbortWord) a.abort ++
        readingFrames s.env.params (pramCmdReg d) a.busy.all) a.busy s).toPhase .pAddrLen) := by
  have polling : Transferring d addr len (beginPoll .pPollBusy
      (afterEvents ((readingsRx a.busy.all).map Reply.byte ++ rest)
        (wholeFrame (writeTx (pramCmdReg d) pramAbortWord) a.abort) s)) := h.change
  rw [h.abort_frame hlen hans.split, finalState_ok]
  exact (polling.inLoop_busy rfl).runs_begun hfit

/-- From the address/length word to the end of the availability poll, which keeps the count (R161). -/
theorem Transferring.start_runs (hp : s.seq.ph = .pAddrLen) (hal : a.addrLen.length = 7) (hst : a.start.length = 7)
    (hfit : a.avail.Fit s.env.params fifoAvailable)
    (hans : Answers (a.addrLen ++ (a.start ++ readingsRx a.avail.all)) rest s) :
    stepN (2 + a.avail.all.length) s = .next (setupDone (afterSetup rest
      (wholeFrame (writeTx (addrLenReg d) (addrLenWord len addr)) a.addrLen ++
        (wholeFrame (writeTx (pramCmdReg d) pramStartWord) a.start ++
          readingFrames s.env.params (pramCmdReg d) a.avail.all)) a s)) := by
  have starting : Transferring d addr len ((afterEvents ((a.start ++ readingsRx a.avail.all).map Reply.byte ++ rest)
      (wholeFrame (writeTx (addrLenReg d) (addrLenWord len addr)) a.addrLen) s).toPhase .pStart) := h.change
  have polling : Transferring d addr len (beginPoll .pPollAvail
      (afterEvents ((readingsRx a.avail.all).map Reply.byte ++ rest)
        (wholeFrame (writeTx (pramCmdReg d) pramStartWord) a.start)
        ((afterEvents ((a.start ++ readingsRx a.avail.all).map Reply.byte ++ rest)
          (wholeFrame (writeTx (addrLenReg d) (addrLenWord len addr)) a.addrLen) s).toPhase .pStart))) := h.change
  have hloop := (polling.inLoop_avail rfl).runs_begun hfit
  obtain ⟨-, -, hready, -⟩ := hfit
  rw [keepCount_eq (kind := .fifoAvail) _ hready] at hloop
  rw [Nat.add_comm 2, stepN_succ (h.step_addrLen hp hal hans.split),
    stepN_succ (starting.step_start rfl hst (Answers.split rfl)), hloop]
  simp [afterPoll, afterSetup, afterEvents, State.setFifoCnt, State.toPhase, countAfter, countField,
    SetupAnswers.count]

/-- The whole setup, from the abort on (R181). -/
theorem Transferring.setup_runs (hfit : a.Fit s.env.params) (hans : Answers a.rx rest s) :
    stepN a.steps (finalState (visitPAbort s)) = .next (setupDone (afterSetup rest
      (a.frames s.env.params (pramCmdReg d) (addrLenReg d) addr len) a s)) := by
  obtain ⟨habort, hbusy, hal, hst, havail⟩ := hfit
  rw [SetupAnswers.rx, List.append_assoc, List.append_assoc (_ ++ _)] at hans
  have programming : Transferring d addr len ((afterPoll .pPollBusy
      ((a.addrLen ++ (a.start ++ readingsRx a.avail.all)).map Reply.byte ++ rest)
      (wholeFrame (writeTx (pramCmdReg d) pramAbortWord) a.abort ++
        readingFrames s.env.params (pramCmdReg d) a.busy.all) a.busy s).toPhase .pAddrLen) := h.change
  rw [SetupAnswers.steps, Nat.add_assoc, stepN_add (h.abort_runs habort hbusy hans.split),
    programming.start_runs rfl hal hst havail rfl]
  simp [afterPoll, afterSetup, afterEvents, State.toPhase, SetupAnswers.frames, pramAbortWord, pramStartWord,
    addrLenWord]

end

/-! ### The accessor entered by itself (log 9, 26) -/

/-- A PRAM operation is entered by a resting block. -/
theorem Resting.transferring_enter {s : State} (hs : Resting s) (hsim : s.env.sim = none) {caller : Caller} {d : Dir}
    {addr : Addr} {len : BitVec 16} (p : Phase) (hpoll : ∀ kind reg, caller ≠ .poll kind reg)
    (hburst : caller ≠ .burst)
    (dir : pramDir (s.enter caller p) = d) (address : pramAddr (s.enter caller p) = addr)
    (length : pramLen (s.enter caller p) = len) : Transferring d addr len (s.enter caller p) :=
  ⟨hs.accessing_enter hsim p hpoll hburst, dir, address, length⟩

/-- Settles O35: the run of the setup, which returns to rest. -/
theorem pramSetupRuns : Obligations.PramSetupRuns := by
  intro d addr len a rest s hs hsim hfit hans
  have entered : Transferring d addr len (s.enter (.pramSetup d addr len) .pAbort) :=
    hs.transferring_enter hsim .pAbort nofun nofun rfl rfl rfl
  refine ⟨_, whenIdle_of_free hs.free, (entered.setup_runs hfit hans).trans ?_⟩
  cases d
  case rd => rfl
  case wr => rfl

end Sys2Proof.Machine
end

section
/-! SUPPORT for O36 and O37: the FIFO words of a PRAM access (43_pram.md R183 to R187) answered by an open peripheral,
on behalf of any operation but a poll or a burst. The first word is a word frame; the later ones are one burst, whose
frame, cursors and count are said once for both directions. -/

namespace Sys2Proof.Machine

/-! ### Lists of exchanges and lanes -/

theorem exchanged_append {tx rx : List Byte} (tx' rx' : List Byte) (h : tx.length = rx.length) :
    exchanged (tx ++ tx') (rx ++ rx') = exchanged tx rx ++ exchanged tx' rx' := List.zipWith_append h

/-- The lanes of a word from `p` on that carry payload, of which there are `n` bytes or more (R116, R117). -/
theorem lanes_min {p : Nat} (n : Nat) (v : Word) (hp : p ≤ 4) :
    lanes p (min (4 - p) n) v = ((le32 v).drop p).take n := by
  rw [lanes_eq_take_drop v (by omega), List.take_eq_take_iff, List.length_drop, le32_length]
  omega

/-- The fill bytes that bring the words of a read, word by word (R149). -/
theorem fill_succ (p : Params) (n : Nat) :
    List.replicate (4 * (n + 1)) p.fillByte = fill4 p ++ List.replicate (4 * n) p.fillByte := by
  rw [Nat.mul_succ, Nat.add_comm, List.replicate_add]
  rfl

/-- The first `n` bytes of some words, word by word. -/
theorem take_words_cons (v : Word) (ws : List Word) (n : Nat) :
    ((v :: ws).flatMap le32).take n = (le32 v).take n ++ (ws.flatMap le32).take (n - min 4 n) := by
  rw [List.flatMap_cons, List.take_append, le32_length, show n - min 4 n = n - 4 by omega]

/-- The first `n` of some bytes, and the others. -/
theorem split_at_length {bs : List Byte} {n : Nat} (h : n ≤ bs.length) : ∃ xs ys, bs = xs ++ ys ∧ xs.length = n :=
  ⟨bs.take n, bs.drop n, (List.take_append_drop n bs).symm, List.length_take_of_le h⟩

/-! ### What the words of an access have done so far -/

/-- `s` after the first FIFO word `v` of an access, the events so far being `evs` and the result `res` (R183 to
R186). -/
def afterFirst (rest : List Reply) (evs : List Event) (addr : Addr) (len : BitVec 16) (v : Word) (res : List Byte)
    (s : State) : State :=
  afterEvents rest evs { s with
    seq.ph := .pBOpen
    work := { s.work with
      word := v
      fifoCnt := s.work.fifoCnt - 1
      fbp := firstBytePos addr
      cur := BitVec.ofNat 16 (firstCount addr len.toNat)
      rem := len - BitVec.ofNat 16 (firstCount addr len.toNat) }
    buf.res := res }

/-- `s` inside its burst, after the events `evs` (R145, R147). -/
def inBurst (d : Dir) (rest : List Reply) (evs : List Event) (s : State) : State :=
  burstNext { afterEvents rest evs s with wire := ⟨true, some d⟩ }

/-- `s` after one word `v` of its burst (R184 to R186). -/
def afterWord (rest : List Reply) (evs : List Event) (v : Word) (res : List Byte) (s : State) : State :=
  wordDone (min 4 s.work.rem.toNat) (afterEvents rest evs { s with
    work := { s.work with word := v, fifoCnt := s.work.fifoCnt - 1 }
    buf.res := res })

/-- `s` after the last of the words `ws` of its burst (R184 to R186). -/
def afterWords (rest : List Reply) (evs : List Event) (ws : List Word) (res : List Byte) (s : State) : State :=
  afterEvents rest evs { s with
    seq.ph := .pBClose
    work := { s.work with
      word := ws.getLast?.getD s.work.word
      fifoCnt := s.work.fifoCnt - BitVec.ofNat 5 ws.length
      cur := s.work.cur + s.work.rem
      rem := 0 }
    buf.res := res }

/-- One word after another takes the count down by one each (R186). -/
theorem count_cons (c : BitVec 5) (v : Word) (ws : List Word) :
    c - 1 - BitVec.ofNat 5 ws.length = c - BitVec.ofNat 5 (v :: ws).length := by
  rw [List.length_cons, Nat.add_comm, BitVec.ofNat_add, sub_sub]
  rfl

theorem afterWords_nil {rest : List Reply} {s : State} (hp : s.seq.ph = burstPhase s.work.rem) (h0 : s.work.rem = 0)
    (h : s.env.script = rest) : afterWords rest [] [] s.buf.res s = s := by
  have hph : s.seq.ph = .pBClose := by rw [hp, burstPhase, if_pos h0]
  have hcur : s.work.cur + s.work.rem = s.work.cur := by rw [h0, add_zero]
  rw [afterWords, hcur, ← hph, ← h0, ← h]
  simp [afterEvents]

theorem afterWords_afterWord (rest mid : List Reply) (evs evs' : List Event) (v : Word) (ws : List Word)
    (res res' : List Byte) (s : State) :
    afterWords rest evs' ws res' (afterWord mid evs v res s) = afterWords rest (evs ++ evs') (v :: ws) res' s := by
  have hcur (n : Nat) : s.work.cur + BitVec.ofNat 16 n + (s.work.rem - BitVec.ofNat 16 n) = s.work.cur + s.work.rem :=
    add_add_sub_cancel _ _ _
  rw [afterWords, afterWords, ← count_cons, List.getLast?_cons, ← hcur (min 4 s.work.rem.toNat)]
  simp [afterWord, wordDone, burstNext, State.toPhase, afterEvents]

/-! ### The burst in progress -/

/-- The access is inside its burst: but for the open frame it is in progress as between frames. -/
structure Streaming (d : Dir) (addr : Addr) (len : BitVec 16) (s : State) : Prop where
  between : Transferring d addr len { s with wire := Wire.idle }
  wire : s.wire = ⟨true, some d⟩

section
variable {d : Dir} {addr : Addr} {len : BitVec 16} {s : State} {rest : List Reply} {rx : List Byte}

theorem Streaming.change {t : State} (h : Streaming d addr len s) (caller : t.seq.caller = s.seq.caller := by rfl)
    (latch : t.latch = s.latch := by rfl) (wire : t.wire = s.wire := by rfl)
    (sim : t.env.sim = s.env.sim := by rfl) (resetIn : t.env.resetIn = s.env.resetIn := by rfl) :
    Streaming d addr len t :=
  ⟨h.between.change caller latch rfl sim resetIn, wire.trans h.wire⟩

theorem Streaming.step (h : Streaming d addr len s) (hp : s.seq.ph ≠ .idle) :
    Machine.step s = .next (finalState (visitPhase s)) := by
  rw [step_busy (s := s) h.between.resetOff (h.between.not_accepting hp), visit_of_noPoll (s := s) h.between.noPoll]

theorem Streaming.dir (h : Streaming d addr len s) : pramDir s = d := h.between.dir

theorem Transferring.step_open (h : Transferring d addr len s) (hp : s.seq.ph = .pBOpen)
    (hlen : rx.length = (burstHeader d s.env.params).length) (hans : Answers rx rest s) :
    Machine.step s =
      .next (inBurst d rest (.csAssert :: exchanged (burstHeader d s.env.params) rx) s) := by
  have hsent := send_bytes (s := csAssert s) hlen hans
  rw [h.port.csAssert_eq] at hsent
  rw [h.step (by simp [hp]), visitPhase, hp]
  simp only [visitPBOpen, h.dir, burstOpen, h.port.csAssert_eq, hsent, thenDo_ok, finalState_ok]
  simp [inBurst, afterEvents]

theorem Transferring.streaming (h : Transferring d addr len s) (rest : List Reply) (evs : List Event) :
    Streaming d addr len (inBurst d rest evs s) := by
  obtain ⟨hwire, -⟩ := h.port
  exact ⟨h.change rfl rfl hwire.symm, rfl⟩

theorem Streaming.step_close (h : Streaming d addr len s) (hp : s.seq.ph = .pBClose) :
    Machine.step s = .next (pramReturn { s with wire := Wire.idle, trace := s.trace ++ [.csDeassert] }) := by
  obtain ⟨-, hsim⟩ : PortReady { s with wire := Wire.idle } := h.between.port
  have hopen : s.wire.cs = true := by rw [h.wire]
  dsimp only at hsim
  rw [h.step (by simp [hp]), visitPhase, hp]
  simp only [visitPBClose, burstClose, csDeassert_of_open hopen, hsim, finalState_ok]
  rw [Option.map_none, ← hsim]

/-- A word of the burst of a read (R184). -/
theorem Streaming.step_pop {v : Word} (h : Streaming .rd addr len s) (hp : s.seq.ph = .pBWord)
    (hans : Answers (le32 v) rest s) :
    Machine.step s = .next (afterWord rest (exchanged (fill4 s.env.params) (le32 v)) v
      (s.buf.res ++ (le32 v).take s.work.rem.toNat) s) := by
  have hlanes : lanes 0 (min 4 s.work.rem.toNat) v = (le32 v).take s.work.rem.toNat := lanes_min _ v (Nat.zero_le 4)
  rw [h.step (by simp [hp]), visitPhase, hp]
  simp only [visitPBWord, h.dir, burstPop, recv4_bytes hans, andThen_ok, finalState_ok, takeNextWord, hlanes]
  rfl

/-- A word of the burst of a write (R185). -/
theorem Streaming.step_push (h : Streaming .wr addr len s) (hp : s.seq.ph = .pBWord) {v : Word}
    (hv : packAt 0 (((pramBytes s).drop s.work.cur.toNat).take (min 4 s.work.rem.toNat)) = v)
    (hlen : rx.length = 4) (hans : Answers rx rest s) :
    Machine.step s = .next (afterWord rest (exchanged (le32 v) rx) v s.buf.res s) := by
  have hsent : send (le32 v) (s.setWord v) = _ := send_bytes hlen (hans.setWord v)
  rw [h.step (by simp [hp]), visitPhase, hp]
  simp only [visitPBWord, h.dir, hv, sendNextWord, burstPush, hsent, thenDo_ok, finalState_ok]
  rfl

/-! ### The first word -/

/-- A first word leaves the cursors behind its bytes (R184, R185). -/
theorem firstDone_eq (n0 : Nat) (h : pramLen s = len) : firstDone n0 s = { s with
    seq.ph := .pBOpen
    work := { s.work with cur := BitVec.ofNat 16 n0, rem := len - BitVec.ofNat 16 n0 } } := by
  rw [firstDone, h]

theorem Transferring.step_first_read {r : Reading} (h : Transferring .rd addr len s) (hp : s.seq.ph = .pFirst)
    (hfit : r.skipped.length = readSkip s.env.params) (hans : Answers r.rx rest s) :
    Machine.step s = .next (afterFirst rest (wholeFrame (readTx s.env.params (fifoReg .rd)) r.rx) addr len r.value
      (((le32 r.value).drop (addr.toNat % 4)).take len.toNat) s) := by
  have hread := readWord_bytes (fifoReg .rd) r rest (atFirst addr s) h.port hfit hans
  have hlanes := lanes_min len.toNat r.value (show (firstBytePos addr).toNat ≤ 4 by omega)
  rw [h.step (by simp [hp]), visitPhase, hp]
  simp only [visitPFirst_of_rd h.dir h.address h.length, hread, andThen_ok, finalState_ok, takeFirstWord]
  refine congrArg _ ((firstDone_eq (len := len) _ ?_).trans ?_)
  · exact h.length
  · rw [afterFirst, ← firstBytePos_toNat, ← hlanes]
    rfl

theorem Transferring.step_first_write {v : Word} (h : Transferring .wr addr len s) (hp : s.seq.ph = .pFirst)
    (hv : packAt (firstBytePos addr).toNat ((pramBytes s).take (firstCount addr len.toNat)) = v)
    (hlen : rx.length = 7) (hans : Answers rx rest s) :
    Machine.step s = .next (afterFirst rest (wholeFrame (writeTx (fifoReg .wr) v) rx) addr len v s.buf.res s) := by
  have placed : Transferring .wr addr len ((atFirst addr s).setWord v) := h.change
  have hwrite := writeWord_bytes (fifoReg .wr) v rx rest ((atFirst addr s).setWord v) placed.port hlen hans
  rw [h.step (by simp [hp]), visitPhase, hp]
  simp only [visitPFirst_of_wr h.dir h.address h.length, hv, sendFirstWord, hwrite, thenDo_ok, finalState_ok]
  refine congrArg _ ((firstDone_eq (len := len) _ ?_).trans ?_)
  · exact h.length
  · rfl

/-! ### The burst -/

/-- A word of a burst leaves the access inside it. -/
theorem Streaming.next_word (h : Streaming d addr len s) (rest : List Reply) (evs : List Event) (v : Word)
    (res : List Byte) : Streaming d addr len (afterWord rest evs v res s) := h.change

theorem afterWord_work (rest : List Reply) (evs : List Event) (v : Word) (res : List Byte) (s : State) :
    (afterWord rest evs v res s).work.rem = s.work.rem - BitVec.ofNat 16 (min 4 s.work.rem.toNat) ∧
      (afterWord rest evs v res s).work.cur = s.work.cur + BitVec.ofNat 16 (min 4 s.work.rem.toNat) :=
  ⟨rfl, rfl⟩

theorem eq_zero_of_toNat_eq {x : BitVec 16} (h : x.toNat = 0) : x = 0 := BitVec.eq_of_toNat_eq h

/-- The words of the burst of a read bring the remaining bytes (R184, R187). -/
theorem Streaming.words_read {ws : List Word} (h : Streaming .rd addr len s)
    (hp : s.seq.ph = burstPhase s.work.rem) (hws : ws.length = (s.work.rem.toNat + 3) / 4)
    (hans : Answers (ws.flatMap le32) rest s) :
    stepN ws.length s = .next (afterWords rest
      (exchanged (List.replicate (4 * ws.length) s.env.params.fillByte) (ws.flatMap le32)) ws
      (s.buf.res ++ (ws.flatMap le32).take s.work.rem.toNat) s) := by
  induction ws generalizing s with
  | nil =>
    have h0 : s.work.rem = 0 := eq_zero_of_toNat_eq (by rw [List.length_nil] at hws; omega)
    rw [List.flatMap_nil, List.take_nil, List.append_nil]
    exact congrArg Host.Outcome.next (afterWords_nil hp h0 hans).symm
  | cons v vs ih =>
    rw [List.length_cons] at hws
    have hrem : s.work.rem ≠ 0 := fun h0 => by rw [h0] at hws; simp at hws
    have hnext := burstWord_toNat s.work.rem
    rw [List.flatMap_cons] at hans
    have hstep := h.step_pop (hp.trans (if_neg hrem)) hans.split
    obtain ⟨hwrem, -⟩ := afterWord_work ((vs.flatMap le32).map Reply.byte ++ rest)
      (exchanged (fill4 s.env.params) (le32 v)) v (s.buf.res ++ (le32 v).take s.work.rem.toNat) s
    have hrun := ih (h.next_word ((vs.flatMap le32).map Reply.byte ++ rest) (exchanged (fill4 s.env.params) (le32 v)) v
      (s.buf.res ++ (le32 v).take s.work.rem.toNat)) rfl (by rw [hwrem, hnext]; omega) rfl
    rw [afterWords_afterWord, hwrem, hnext] at hrun
    rw [List.length_cons, stepN_succ hstep, hrun, fill_succ, take_words_cons, List.flatMap_cons,
      exchanged_append (tx := fill4 s.env.params) (rx := le32 v) _ _ rfl, ← List.append_assoc s.buf.res]
    rfl

/-- The next `n` words of a write whose remaining bytes are `bs` (R117). -/
def packedWords : (n : Nat) → (bs : List Byte) → List Word
  | 0, _ => []
  | n + 1, bs => packAt 0 (bs.take 4) :: packedWords n (bs.drop 4)

@[simp] theorem packedWords_length (n : Nat) (bs : List Byte) : (packedWords n bs).length = n := by
  induction n generalizing bs with
  | zero => rfl
  | succ n ih => rw [packedWords, List.length_cons, ih]

/-- The words of the burst of a write carry the remaining bytes (R185, R187). -/
theorem Streaming.words_write {n : Nat} {bs : List Byte} (h : Streaming .wr addr len s)
    (hbytes : (pramBytes s).drop s.work.cur.toNat = bs) (hp : s.seq.ph = burstPhase s.work.rem)
    (hbs : bs.length = s.work.rem.toNat) (hrange : s.work.cur.toNat + bs.length < 0x10000)
    (hn : n = (bs.length + 3) / 4) (hlen : rx.length = 4 * n) (hans : Answers rx rest s) :
    stepN n s = .next (afterWords rest (exchanged ((packedWords n bs).flatMap le32) rx) (packedWords n bs)
      s.buf.res s) := by
  induction n generalizing s rx bs with
  | zero =>
    have h0 : s.work.rem = 0 := eq_zero_of_toNat_eq (by omega)
    obtain rfl : rx = [] := List.length_eq_zero_iff.mp hlen
    exact congrArg Host.Outcome.next (afterWords_nil hp h0 hans).symm
  | succ n ih =>
    have hrem : s.work.rem ≠ 0 := fun h0 => by rw [hbs, h0] at hn; simp at hn
    have hnext := burstWord_toNat s.work.rem
    have hcur : (s.work.cur + BitVec.ofNat 16 (min 4 s.work.rem.toNat)).toNat =
        s.work.cur.toNat + min 4 s.work.rem.toNat := by
      rw [BitVec.toNat_add, BitVec.toNat_ofNat]
      omega
    have htake : bs.take (min 4 s.work.rem.toNat) = bs.take 4 := by
      rw [List.take_eq_take_iff]
      omega
    have hdrop : (pramBytes s).drop (s.work.cur.toNat + min 4 s.work.rem.toNat) = bs.drop 4 := by
      rw [← List.drop_drop, hbytes, List.drop_eq_drop_iff]
      omega
    obtain ⟨r, rs, rfl, hr⟩ := split_at_length (bs := rx) (n := 4) (by omega)
    rw [List.length_append, hr] at hlen
    rw [packedWords, List.flatMap_cons]
    generalize hv : packAt 0 (bs.take 4) = v
    have hstep := h.step_push (hp.trans (if_neg hrem)) (by rw [hbytes, htake, hv]) hr hans.split
    obtain ⟨hwrem, hwcur⟩ := afterWord_work (rs.map Reply.byte ++ rest) (exchanged (le32 v) r) v s.buf.res s
    have hrun := ih (bs := bs.drop 4) (h.next_word (rs.map Reply.byte ++ rest) (exchanged (le32 v) r) v s.buf.res)
      (by rw [hwcur, hcur]; exact hdrop) rfl (by rw [hwrem, hnext, List.length_drop]; omega)
      (by rw [hwcur, hcur, List.length_drop]; omega) (by rw [List.length_drop]; omega) (by omega) rfl
    rw [afterWords_afterWord] at hrun
    rw [stepN_succ hstep, hrun, exchanged_append (tx := le32 v) (rx := r) _ _ hr.symm]
    rfl

/-- The frame of a burst, its words being the business of the run `hwords` (R184, R185). -/
theorem Transferring.burst_runs {n : Nat} {header tx : List Byte} {ws : List Word} {res : List Byte}
    (h : Transferring d addr len s) (hp : s.seq.ph = .pBOpen)
    (hlen : header.length = (burstHeader d s.env.params).length) (hans : Answers (header ++ rx) rest s)
    (hwords : ∀ t, t = inBurst d (rx.map Reply.byte ++ rest)
      (.csAssert :: exchanged (burstHeader d s.env.params) header) s →
      stepN n t = .next (afterWords rest (exchanged tx rx) ws res t)) :
    stepN (n + 2) s = .next (pramReturn (afterWords rest
      (wholeFrame (burstHeader d s.env.params ++ tx) (header ++ rx)) ws res s)) := by
  have hrun := hwords _ rfl
  have streamed : Streaming d addr len (afterWords rest (exchanged tx rx) ws res (inBurst d
    (rx.map Reply.byte ++ rest) (.csAssert :: exchanged (burstHeader d s.env.params) header) s)) :=
    (h.streaming _ _).change
  obtain ⟨hwire, -⟩ := h.port
  rw [stepN_succ (h.step_open hp hlen hans.split), stepN_add hrun, stepN_one (streamed.step_close rfl), wholeFrame,
    exchanged_append _ _ hlen.symm, ← hwire]
  simp [afterWords, inBurst, burstNext, State.toPhase, afterEvents]

/-- `s` after all the words `ws` of its access, the events so far being `evs` and the result `res` (R184, R185). -/
def afterTransfer (rest : List Reply) (evs : List Event) (addr : Addr) (len : BitVec 16) (ws : List Word)
    (res : List Byte) (s : State) : State :=
  afterEvents rest evs { s with
    seq.ph := .pBClose
    work := { s.work with
      word := ws.getLast?.getD s.work.word
      fifoCnt := s.work.fifoCnt - BitVec.ofNat 5 ws.length
      fbp := firstBytePos addr
      cur := len
      rem := 0 }
    buf.res := res }

theorem afterWords_afterFirst (rest mid : List Reply) (evs evs' : List Event) (addr : Addr) (len : BitVec 16) (v : Word)
    (ws : List Word) (res res' : List Byte) (s : State) :
    afterWords rest evs' ws res' (afterFirst mid evs addr len v res s) =
      afterTransfer rest (evs ++ evs') addr len (v :: ws) res' s := by
  rw [afterWords, afterTransfer, ← count_cons, List.getLast?_cons]
  simp [afterFirst, afterEvents]

end
end Sys2Proof.Machine
end

section
/-! PROOFS of O36 and O37: the PRAM accessor entered by itself (43_pram.md R184, R185): the setup, the first word, the
burst and the return to rest. -/

namespace Sys2Proof.Machine

/-! ### Lengths and bytes of a transfer (R183, R187) -/

/-- The later words are those of the bytes that remain after the first word. -/
theorem laterWords_eq (addr : Addr) {len : Nat} (h : 1 ≤ len) :
    laterWords addr len = (len - firstCount addr len + 3) / 4 := by
  have hall := fifoWords_eq_succ addr h
  rw [fifoWords] at hall
  rw [laterWords, hall, Nat.add_sub_cancel]

/-- The bytes of the first word and those of the later ones are the bytes of the access (R183, R184). -/
theorem take_firstWord (addr : Addr) (len : Nat) (v : Word) (ws : List Word) :
    ((le32 v).drop (addr.toNat % 4)).take len ++ (ws.flatMap le32).take (len - firstCount addr len) =
      (((v :: ws).flatMap le32).drop (addr.toNat % 4)).take len := by
  rw [List.flatMap_cons, List.drop_append_of_le_length (by rw [le32_length]; omega), List.take_append,
    List.length_drop, le32_length, firstCount_eq,
    show len - min (4 - addr.toNat % 4) len = len - (4 - addr.toNat % 4) by omega]

/-! ### The accessor entered by itself (log 9, 10) -/

theorem setupDone_eq {s : State} (h : ∀ d addr len, s.seq.caller ≠ .pramSetup d addr len) :
    setupDone s = s.toPhase .pFirst := by
  unfold setupDone
  split
  next hc => exact absurd hc (h _ _ _)
  next => rfl

theorem pramReturn_eq {s : State} (h : s.seq.caller ≠ .host) : pramReturn s = s.toIdle := by
  unfold pramReturn
  split
  next hc => exact absurd hc h
  next => rfl

/-- A read or write entered by itself: its setup, then its words `w :: ws`, the business of the run `htransfer`, and it
is at rest. -/
theorem Transferring.entered_runs {d : Dir} {addr : Addr} {len : BitVec 16} {caller : Caller} {n : Nat}
    {a : SetupAnswers} {rx res : List Byte} {rest : List Reply} {evs : List Event} {w last : Word} {ws : List Word}
    {s : State} (h : Transferring d addr len (s.enter caller .pAbort)) (hhost : caller ≠ .host)
    (hsetup : ∀ d addr len, caller ≠ .pramSetup d addr len) (hfit : a.Fit s.env.params)
    (hans : Answers (a.rx ++ rx) rest s) (hlast : (w :: ws).getLast? = some last)
    (htransfer : ∀ t, t = (afterSetup (rx.map Reply.byte ++ rest)
        (a.frames s.env.params (pramCmdReg d) (addrLenReg d) addr len) a (s.enter caller .pAbort)).toPhase .pFirst →
      stepN n t = .next (pramReturn (afterTransfer rest evs addr len (w :: ws) res t))) :
    stepN (a.steps + n) (finalState (visitPAbort (s.enter caller .pAbort))) =
      .next (afterEvents rest (a.frames s.env.params (pramCmdReg d) (addrLenReg d) addr len ++ evs) { s with
        seq := Seq.atRest
        work := { s.work with
          word := last
          polls := a.avail.all.length
          fifoCnt := a.count - BitVec.ofNat 5 (1 + ws.length)
          fbp := firstBytePos addr
          cur := len
          rem := 0 }
        buf.res := res }) := by
  have hprepared := h.setup_runs hfit hans.split
  rw [setupDone_eq hsetup, State.enter_env] at hprepared
  rw [stepN_add hprepared, htransfer _ rfl, pramReturn_eq hhost, afterTransfer, hlast, List.length_cons, Nat.add_comm]
  simp [afterEvents, afterSetup, State.toPhase, State.toIdle]

/-! ### PRAM_READ -/

section
variable {addr : Addr} {len : BitVec 16} {s : State} {rest : List Reply}

/-- From the first word of a read to its return (R184). -/
theorem Transferring.read_runs {first : Reading} {header : List Byte} {words : List Word}
    (h : Transferring .rd addr len s) (hp : s.seq.ph = .pFirst) (hpos : 1 ≤ len.toNat)
    (hfit : first.skipped.length = readSkip s.env.params) (hheader : header.length = 4)
    (hwords : words.length = laterWords addr len.toNat)
    (hans : Answers (first.rx ++ (header ++ words.flatMap le32)) rest s) :
    stepN (3 + words.length) s = .next (pramReturn (afterTransfer rest
      (wholeFrame (readTx s.env.params (fifoReg .rd)) first.rx ++
        wholeFrame (burstHeader .rd s.env.params ++ List.replicate (4 * words.length) s.env.params.fillByte)
          (header ++ words.flatMap le32)) addr len (first.value :: words)
      ((((first.value :: words).flatMap le32).drop (addr.toNat % 4)).take len.toNat) s)) := by
  obtain ⟨hrem, -⟩ := afterFirst_toNat addr len
  have opening : Transferring .rd addr len (afterFirst ((header ++ words.flatMap le32).map Reply.byte ++ rest)
      (wholeFrame (readTx s.env.params (fifoReg .rd)) first.rx) addr len first.value
      (((le32 first.value).drop (addr.toNat % 4)).take len.toNat) s) := h.change
  rw [Nat.add_comm, stepN_succ (h.step_first_read hp hfit hans.split), ← take_firstWord, ← hrem,
    ← afterWords_afterFirst]
  refine opening.burst_runs rfl hheader rfl ?_
  rintro t rfl
  refine (opening.streaming _ _).words_read rfl ?_ rfl
  exact hwords.trans ((laterWords_eq addr hpos).trans (by rw [← hrem]; rfl))

end

/-- Settles O36: the setup, then the words of the read, and the return to rest. -/
theorem pramReadRuns : Obligations.PramReadRuns := by
  intro addr len a first header words last rest s hs hsim hpos _ hfit hskip hheader hwords hlast hans
  have entered : Transferring .rd addr len (s.enter (.pramRead addr len) .pAbort) :=
    hs.transferring_enter hsim .pAbort nofun nofun rfl rfl rfl
  rw [List.append_assoc, List.append_assoc] at hans
  refine ⟨_, whenIdle_of_free hs.free, ?_⟩
  rw [Nat.add_assoc, List.append_assoc (a.frames ..)]
  refine entered.entered_runs nofun nofun hfit hans hlast ?_
  rintro t rfl
  exact Transferring.read_runs entered.change rfl hpos hskip hheader hwords rfl

/-! ### PRAM_WRITE -/

/-- Bytes of a write, with zero bytes up to a whole word (R63, R117). -/
def padded (bs : List Byte) : List Byte := bs ++ List.replicate ((4 - bs.length % 4) % 4) 0

theorem pramStream_eq (addr : Addr) (data : List Byte) :
    pramStream addr data = padded (List.replicate (addr.toNat % 4) 0 ++ data) := rfl

/-- A word packed from at most four bytes carries them, and zero bytes after them (R117). -/
theorem le32_packAt {bs : List Byte} (h : bs.length ≤ 4) :
    le32 (packAt 0 bs) = bs ++ List.replicate (4 - bs.length) 0 := by
  have hfour : (bs ++ List.replicate (4 - bs.length) 0).length = 4 := by
    rw [List.length_append, List.length_replicate, Nat.add_sub_cancel' h]
  rw [← packAt_append_zeros 0 bs (4 - bs.length)]
  obtain ⟨b0, b1, b2, b3, hbs⟩ := List.length_eq_four.mp hfour
  rw [hbs]
  exact le32_wordOf b0 b1 b2 b3

/-- The words of a write carry its bytes and the zero bytes up to a whole word (R117, R187). -/
theorem packedWords_bytes {n : Nat} {bs : List Byte} (h : n = (bs.length + 3) / 4) :
    (packedWords n bs).flatMap le32 = padded bs := by
  induction n generalizing bs with
  | zero =>
    obtain rfl : bs = [] := List.length_eq_zero_iff.mp (by omega)
    rfl
  | succ n ih =>
    rw [packedWords, List.flatMap_cons, ih (by rw [List.length_drop]; omega),
      le32_packAt (by rw [List.length_take]; omega), padded, padded, List.length_take, List.length_drop]
    rcases Nat.lt_or_ge bs.length 4 with hshort | hlong
    · rw [List.take_of_length_le (by omega), List.drop_of_length_le (by omega),
        show min 4 bs.length = bs.length by omega, show (4 - (bs.length - 4) % 4) % 4 = 0 by omega,
        show (4 - bs.length % 4) % 4 = 4 - bs.length by omega, List.replicate_zero, List.append_nil, List.append_nil]
    · rw [show 4 - min 4 bs.length = 0 by omega, List.replicate_zero, List.append_nil, ← List.append_assoc,
        List.take_append_drop, show (4 - (bs.length - 4) % 4) % 4 = (4 - bs.length % 4) % 4 by omega]

/-- Zero bytes before the bytes of a word place them in its lanes from there on (R116). -/
theorem packAt_zeros_append (p k : Nat) (bs : List Byte) : packAt p (List.replicate k 0 ++ bs) = packAt (p + k) bs := by
  induction k generalizing p with
  | zero => rfl
  | succ k ih =>
    rw [List.replicate_succ, List.cons_append, packAt, ih]
    simp [Nat.add_assoc, Nat.add_comm 1]

/-- The first FIFO word of a write (R116, R183). -/
def firstWordOf (addr : Addr) (data : List Byte) : Word :=
  packAt (firstBytePos addr).toNat (data.take (firstCount addr data.length))

/-- The later FIFO words of a write (R117, R187). -/
def laterWordsOf (addr : Addr) (data : List Byte) : List Word :=
  packedWords (laterWords addr data.length) (data.drop (firstCount addr data.length))

/-- The stream of a write is what its words carry (R63, R116, R117). -/
theorem pramStream_words (addr : Addr) {data : List Byte} (h : 1 ≤ data.length) :
    pramStream addr data = (firstWordOf addr data :: laterWordsOf addr data).flatMap le32 := by
  have hzeros : (List.replicate (addr.toNat % 4) (0 : Byte)).length ≤ 4 := by rw [List.length_replicate]; omega
  have htake : data.take (firstCount addr data.length) = data.take (4 - addr.toNat % 4) := by
    rw [firstCount_eq, List.take_eq_take_iff]
    omega
  have hdrop : data.drop (firstCount addr data.length) = data.drop (4 - addr.toNat % 4) := by
    rw [firstCount_eq, List.drop_eq_drop_iff]
    omega
  have hwords : packedWords (laterWords addr data.length + 1) (List.replicate (addr.toNat % 4) 0 ++ data) =
      firstWordOf addr data :: laterWordsOf addr data := by
    rw [packedWords, firstWordOf, laterWordsOf, htake, hdrop, List.take_append, List.take_of_length_le hzeros,
      List.drop_append, List.drop_of_length_le hzeros, List.length_replicate, packAt_zeros_append, Nat.zero_add,
      List.nil_append, firstBytePos_toNat]
  rw [pramStream_eq, ← hwords, packedWords_bytes]
  rw [List.length_append, List.length_replicate, laterWords]
  omega

/-- The last of some words is the one whose bytes come last. -/
theorem getLast?_of_bytes {v last : Word} {ws : List Word}
    (h : ((v :: ws).flatMap le32).drop (4 * ws.length) = le32 last) : (v :: ws).getLast? = some last := by
  induction ws generalizing v with
  | nil =>
    have hbytes : le32 v = le32 last := (List.append_nil _).symm.trans h
    rw [← wordOf_le32 v, hbytes, wordOf_le32]
    rfl
  | cons w ws ih =>
    rw [List.getLast?_cons_cons]
    apply ih
    rw [← h, List.flatMap_cons (x := v), List.length_cons, Nat.mul_succ, Nat.add_comm, List.drop_append, le32_length]
    simp

section
variable {addr : Addr} {len : BitVec 16} {s : State} {rest : List Reply}

/-- From the first word of a write to its return (R185). -/
theorem Transferring.write_runs {data firstRx header rx : List Byte} (h : Transferring .wr addr len s)
    (hp : s.seq.ph = .pFirst) (hbytes : pramBytes s = data) (hdata : len.toNat = data.length) (hpos : 1 ≤ data.length)
    (hfirst : firstRx.length = 7) (hheader : header.length = 3) (hrx : rx.length = 4 * (laterWordsOf addr data).length)
    (hans : Answers (firstRx ++ (header ++ rx)) rest s) :
    stepN (3 + (laterWordsOf addr data).length) s = .next (pramReturn (afterTransfer rest
      (wholeFrame (writeTx (fifoReg .wr) (firstWordOf addr data)) firstRx ++
        wholeFrame (burstHeader .wr s.env.params ++ (laterWordsOf addr data).flatMap le32) (header ++ rx))
      addr len (firstWordOf addr data :: laterWordsOf addr data) s.buf.res s)) := by
  have hv : packAt (firstBytePos addr).toNat ((pramBytes s).take (firstCount addr len.toNat)) =
      firstWordOf addr data := by rw [hbytes, hdata, firstWordOf]
  have opening : Transferring .wr addr len (afterFirst ((header ++ rx).map Reply.byte ++ rest)
      (wholeFrame (writeTx (fifoReg .wr) (firstWordOf addr data)) firstRx) addr len (firstWordOf addr data)
      s.buf.res s) := h.change
  obtain ⟨hrem, hcur⟩ := afterFirst_toNat addr len
  have hlater : (data.drop (firstCount addr data.length)).length = len.toNat - firstCount addr len.toNat := by
    rw [List.length_drop, hdata]
  have hdrop : (pramBytes s).drop (BitVec.ofNat 16 (firstCount addr len.toNat)).toNat =
      data.drop (firstCount addr data.length) := by rw [hcur, hbytes, hdata]
  have hrange : (BitVec.ofNat 16 (firstCount addr len.toNat)).toNat +
      (data.drop (firstCount addr data.length)).length < 0x10000 := by
    have hle := firstCount_le addr len.toNat
    rw [hcur, hlater]
    omega
  rw [laterWordsOf, packedWords_length] at hrx ⊢
  rw [Nat.add_comm, stepN_succ (h.step_first_write hp hv hfirst hans.split), ← afterWords_afterFirst]
  refine opening.burst_runs rfl hheader rfl ?_
  rintro t rfl
  exact (opening.streaming _ _).words_write hdrop rfl (hlater.trans hrem.symm) hrange
    (by rw [laterWords_eq addr hpos, List.length_drop]) hrx rfl

end

/-- Settles O37: the setup, then the words of the write, and the return to rest. -/
theorem pramWriteRuns : Obligations.PramWriteRuns := by
  intro addr data a firstRx burstRx last rest s hs hsim hpos hle _ hfit hfirst hburst hlast hans
  have hlength : (BitVec.ofNat 16 data.length).toNat = data.length := by
    rw [BitVec.toNat_ofNat, Nat.mod_eq_of_lt (by omega)]
  have entered : Transferring .wr addr (BitVec.ofNat 16 data.length) (s.enter (.pramWrite addr data) .pAbort) :=
    hs.transferring_enter hsim .pAbort nofun nofun rfl rfl (if_pos hle)
  have hwords : laterWords addr data.length = (laterWordsOf addr data).length := (packedWords_length _ _).symm
  obtain ⟨header, rx, rfl, hheader⟩ := split_at_length (bs := burstRx) (n := 3) (by omega)
  rw [List.length_append, hheader, hwords, Nat.add_left_cancel_iff] at hburst
  rw [pramStream_words addr hpos, hwords] at hlast ⊢
  rw [List.append_assoc] at hans
  refine ⟨_, whenIdle_of_free hs.free, ?_⟩
  rw [Nat.add_assoc, List.append_assoc (a.frames ..), List.flatMap_cons, List.take_left' (le32_length _),
    List.drop_left' (le32_length _)]
  refine entered.entered_runs nofun nofun hfit hans (getLast?_of_bytes hlast) ?_
  rintro t rfl
  exact Transferring.write_runs entered.change rfl rfl hlength hpos hfirst hheader hburst rfl

end Sys2Proof.Machine
end

section
/-! PROOFS of O38 and O39: the chunk function and the chunk list of a request (44_router.md R201, R202, R207). -/

namespace Sys2Proof.Machine

/-! ### The size of a chunk (R201) -/

theorem getLsbD_zero_eq (a : Addr) : a.getLsbD 0 = decide (a.toNat % 2 = 1) := by
  rw [BitVec.getLsbD, Nat.testBit_zero]

theorem getLsbD_one_eq (a : Addr) : a.getLsbD 1 = decide (a.toNat / 2 % 2 = 1) := by
  rw [BitVec.getLsbD, Nat.testBit_succ, Nat.testBit_zero]

/-- The three tests on numbers: the address odd, the address with bit 1 set, the candidate 3. -/
theorem chunkSize_toNat (a : Addr) (rem : BitVec 16) :
    (chunkSize a rem).toNat =
      if a.toNat % 2 = 1 then 1
      else if a.toNat / 2 % 2 = 1 then (if min rem.toNat 4 % 2 = 1 then 1 else 2)
      else if min rem.toNat 4 = 3 then 1
      else min rem.toNat 4 := by
  have hcandidate : (BitVec.ofNat 3 (min rem.toNat 4)).toNat = min rem.toNat 4 := by
    rw [BitVec.toNat_ofNat, Nat.mod_eq_of_lt (by omega)]
  simp only [chunkSize, getLsbD_zero_eq, getLsbD_one_eq, decide_eq_true_eq, apply_ite BitVec.toNat, hcandidate]
  rfl

/-- Settles O38: a byte remains, so that the size is that of the chunk function. -/
theorem chunkFollowsTheThreeTests : Obligations.ChunkFollowsTheThreeTests := by
  intro a rem s hrem
  have hne : rem ≠ 0 := by
    rintro rfl
    simp at hrem
  have hexec : exec (.chunk a rem) s = .next (s.setSize (chunkSize a rem)) :=
    congrArg (fun n => Host.Outcome.next (s.setSize n)) (if_neg hne)
  exact ⟨chunkSize a rem, hexec, chunkSize_toNat a rem⟩

/-- A chunk is naturally aligned (R66, R202): only an address with both low bits clear takes four bytes, and only an
even one two. -/
theorem mod_chunkSize (a : Addr) {rem : BitVec 16} (h : rem ≠ 0) : a.toNat % (chunkSize a rem).toNat = 0 := by
  have hpos := toNat_pos_of_ne_zero h
  have hmin : min rem.toNat 4 = 1 ∨ min rem.toNat 4 = 2 ∨ min rem.toNat 4 = 3 ∨ min rem.toNat 4 = 4 := by omega
  rw [chunkSize_toNat]
  split
  next => exact Nat.mod_one _
  next heven =>
    split
    next =>
      split
      next => exact Nat.mod_one _
      next => omega
    next =>
      rcases hmin with e | e | e | e <;> rw [e]
      · exact Nat.mod_one _
      · exact Nat.mod_two_ne_one.mp heven
      · exact Nat.mod_one _
      · change a.toNat % 4 = 0
        omega

/-! ### The chunks of a range -/

/-- The chunks of `rem` bytes from address `x`: each of 1, 2 or 4 bytes, naturally aligned, and beginning where the one
before ends (R66, R202, R207). The end of the range may be `0x10000`, which is no address. -/
inductive Tiles : (x rem : Nat) → List (Addr × Nat) → Prop
  | done (x : Nat) : Tiles x 0 []
  | chunk {a : Addr} {n rem : Nat} {rest : List (Addr × Nat)} (size : n = 1 ∨ n = 2 ∨ n = 4)
      (aligned : a.toNat % n = 0) (tail : Tiles (a.toNat + n) rem rest) :
      Tiles a.toNat (n + rem) ((a, n) :: rest)

theorem chunkList_zero (fuel : Nat) (a : Addr) : chunkList fuel a 0 = [] := by
  cases fuel
  case zero => rfl
  case succ => rfl

theorem chunkList_succ (fuel : Nat) (a : Addr) {rem : BitVec 16} (h : rem ≠ 0) :
    chunkList (fuel + 1) a rem = (a, (chunkSize a rem).toNat) ::
      chunkList fuel (a + (chunkSize a rem).zeroExtend 16) (rem - (chunkSize a rem).zeroExtend 16) :=
  if_neg h

theorem chunkSize_toNat_cases (a : Addr) {rem : BitVec 16} (h : rem ≠ 0) :
    ((chunkSize a rem).toNat = 1 ∨ (chunkSize a rem).toNat = 2 ∨ (chunkSize a rem).toNat = 4) ∧
      (chunkSize a rem).toNat ≤ rem.toNat := by
  obtain ⟨hsize, hle⟩ := chunkSize_cases a rem h
  exact ⟨by rcases hsize with e | e | e <;> simp [e], hle⟩

theorem toNat_sub_chunkSize (a : Addr) {rem : BitVec 16} (h : rem ≠ 0) :
    (rem - (chunkSize a rem).zeroExtend 16).toNat = rem.toNat - (chunkSize a rem).toNat := by
  obtain ⟨-, hle⟩ := chunkSize_toNat_cases a h
  rw [BitVec.toNat_sub_of_le (by rw [BitVec.le_def, toNat_zeroExtend_size]; exact hle), toNat_zeroExtend_size]

/-- The chunk list of a range of the address space, with fuel for its bytes. -/
theorem chunkList_tiles (fuel : Nat) (a : Addr) (rem : BitVec 16) (hfuel : rem.toNat ≤ fuel)
    (hrange : a.toNat + rem.toNat ≤ 0x10000) : Tiles a.toNat rem.toNat (chunkList fuel a rem) := by
  induction fuel generalizing a rem with
  | zero =>
    rw [Nat.le_zero.mp hfuel]
    exact .done _
  | succ fuel ih =>
    by_cases h0 : rem = 0
    · rw [h0, chunkList_zero]
      exact .done _
    · obtain ⟨hsize, hle⟩ := chunkSize_toNat_cases a h0
      have hlater := toNat_sub_chunkSize a h0
      have hsplit : rem.toNat = (chunkSize a rem).toNat + (rem - (chunkSize a rem).zeroExtend 16).toNat := by omega
      rw [chunkList_succ fuel a h0, hsplit]
      refine .chunk hsize (mod_chunkSize a h0) ?_
      by_cases hlast : rem - (chunkSize a rem).zeroExtend 16 = 0
      · rw [hlast, chunkList_zero]
        exact .done _
      · have hpos := toNat_pos_of_ne_zero hlast
        have hnext : (a + (chunkSize a rem).zeroExtend 16).toNat = a.toNat + (chunkSize a rem).toNat := by
          rw [BitVec.toNat_add, toNat_zeroExtend_size, Nat.mod_eq_of_lt (by omega)]
        rw [← hnext]
        exact ih _ _ (by omega) (by omega)

section
variable {x rem : Nat} {chunks : List (Addr × Nat)} (h : Tiles x rem chunks)
include h

theorem Tiles.aligned : ∀ c ∈ chunks, (c.2 = 1 ∨ c.2 = 2 ∨ c.2 = 4) ∧ c.1.toNat % c.2 = 0 := by
  induction h with
  | done => exact nofun
  | chunk size aligned _ ih => exact List.forall_mem_cons.mpr ⟨⟨size, aligned⟩, ih⟩

theorem Tiles.sum : (chunks.map Prod.snd).sum = rem := by
  induction h with
  | done => rfl
  | chunk _ _ _ ih => rw [List.map_cons, List.sum_cons, ih]

theorem Tiles.contiguous : ∀ i (hi : i < chunks.length),
    chunks[i].1.toNat = x + ((chunks.take i).map Prod.snd).sum := by
  induction h with
  | done => exact nofun
  | chunk _ _ _ ih =>
    rintro (_ | i) hi
    · rfl
    · rw [List.getElem_cons_succ, ih i (Nat.lt_of_succ_lt_succ hi), List.take_succ_cons, List.map_cons, List.sum_cons,
        Nat.add_assoc]

/-- Each chunk takes at least one byte and at most four. -/
theorem Tiles.length_bounds : (rem + 3) / 4 ≤ chunks.length ∧ chunks.length ≤ rem := by
  induction h with
  | done => exact ⟨Nat.le_refl _, Nat.le_refl _⟩
  | chunk size _ _ ih =>
    obtain ⟨hlow, hhigh⟩ := ih
    rw [List.length_cons]
    omega

end

/-- Settles O39: the chunk list tiles the request, and each clause is one of the facts about that. -/
theorem chunksAreAlignedAndSumToTheLength : Obligations.ChunksAreAlignedAndSumToTheLength := by
  intro addr len _ hrange
  have tiles := chunkList_tiles len.toNat addr len (Nat.le_refl _) hrange
  exact ⟨tiles.aligned, tiles.sum, tiles.contiguous, tiles.length_bounds⟩

end Sys2Proof.Machine
end

section
/-! PROOFS of O41, O42, O43 and O44: the phases of the router (44_router.md R200 to R206), and the CSR accesses it makes
of an open peripheral: one for each chunk, and the refresh. -/

namespace Sys2Proof.Machine

/-! ### Dispatch (R200) -/

theorem isPram_eq (a : Addr) : isPram a = decide (0x1000 ≤ a.toNat) := rfl

/-- Settles O41: a visit to `R_DISPATCH` is the comparison. -/
theorem theFirstAddressDecidesThePath : Obligations.TheFirstAddressDecidesThePath := by
  intro s hph hcaller hoff
  have hstep : step s = .next (finalState (visitRDispatch s)) := by
    rw [step_host hcaller hoff (by simp [hph]), visitPhase, hph]
  rw [hstep, visitRDispatch, isPram_eq]
  constructor
  · intro hpram
    rw [if_pos (decide_eq_true hpram)]
    rfl
  · intro hcsr
    rw [if_neg (by simpa using hcsr)]
    rfl

/-! ### The accesses of the router -/

theorem Accessing.of_host {s : State} (caller : s.seq.caller = .host) (wire : s.wire = Wire.idle)
    (resetIn : s.env.resetIn = .off) (sim : s.env.sim = none) : Accessing s :=
  ⟨by simp [NoPoll, caller], by simp [caller], resetIn, wire, sim⟩

/-- A step of the router, then the read it has begun (R171). -/
theorem read_runs_of_step {s u : State} {addr : Addr} {n : SizeCode} {a : CsrAnswers} {rest : List Reply}
    (hstep : step s = .next u) (h : Accessing u) (hp : u.seq.ph = .cCmd) (hd : csrDir u = .rd) (ha : csrAddr u = addr)
    (hn : csrLen u = sizeBytes n) (hfit : a.FitRead u.env.params) (hans : Answers a.readRx rest u) :
    stepN (2 + a.poll.all.length + 1) s =
      .next (csrReturn (afterFetch rest (a.readFrames u.env.params addr n) (sizeBytes n) a u)) := by
  have hcommand : step u = .next (finalState (visitCCmd u)) := by
    rw [h.step (by simp [hp]), visitPhase, hp]
  rw [show 2 + a.poll.all.length + 1 = a.poll.all.length + 1 + 1 + 1 by omega, stepN_succ hstep, stepN_succ hcommand,
    h.read_runs hd ha hn hfit hans]

/-- A step of the router, then the write it has begun (R172). -/
theorem write_runs_of_step {s u : State} {addr : Addr} {n : SizeCode} {v : Word} {a : CsrAnswers} {rest : List Reply}
    (hstep : step s = .next u) (h : Accessing u) (hp : u.seq.ph = .cData) (hd : csrDir u = .wr) (ha : csrAddr u = addr)
    (hn : csrLen u = sizeBytes n) (hv : packAt 0 (csrBytes u) = v) (hfit : a.FitWrite u.env.params)
    (hans : Answers a.writeRx rest u) :
    stepN (3 + a.poll.all.length) s =
      .next (csrReturn (afterBusy rest (a.writeFrames u.env.params addr n v) a.poll u)) := by
  have hdata : step u = .next (finalState (visitCData u)) := by
    rw [h.step (by simp [hp]), visitPhase, hp]
  rw [show 3 + a.poll.all.length = 1 + a.poll.all.length + 1 + 1 by omega, stepN_succ hstep, stepN_succ hdata,
    h.write_runs hd ha hn hv hfit hans]

/-! ### One chunk (R201, R203, R204) -/

/-- The block is about to take the next chunk of `n` bytes of a request, its peripheral open. -/
structure Chunking (n : SizeCode) (s : State) : Prop where
  seq : s.seq = ⟨.rChunk, .host, false⟩
  wire : s.wire = Wire.idle
  resetIn : s.env.resetIn = .off
  sim : s.env.sim = none
  rem : s.work.rem ≠ 0
  size : (chunkSize s.work.addr s.work.rem).toNat = sizeBytes n

/-- `t` returned to the router, which was at `q`, after a chunk of `n` bytes: the cursors advanced (R203, R204). -/
def backToRouter (n : Nat) (q : Seq) (t : State) : State :=
  { t with
    seq := q
    work := { t.work with
      addr := t.work.addr + BitVec.ofNat 16 n
      cur := t.work.cur + BitVec.ofNat 16 n
      rem := t.work.rem - BitVec.ofNat 16 n
      size := BitVec.ofNat 3 n } }

theorem lanes_eq_take (n : SizeCode) (v : Word) : lanes 0 (sizeBytes n) v = (le32 v).take (sizeBytes n) := by
  cases n
  case one => rfl
  case two => rfl
  case four => rfl

theorem zeroExtend_sizeBytes (n : SizeCode) :
    (BitVec.ofNat 3 (sizeBytes n)).zeroExtend 16 = BitVec.ofNat 16 (sizeBytes n) := by
  cases n
  case one => rfl
  case two => rfl
  case four => rfl

section
variable {n : SizeCode} {s : State} (h : Chunking n s)
include h

theorem Chunking.chunkSize_eq : chunkSize s.work.addr s.work.rem = BitVec.ofNat 3 (sizeBytes n) := by
  rw [← h.size, BitVec.ofNat_toNat, BitVec.setWidth_eq]

/-- Between the router and the accessor there is the entry alone, and a chunk's length is valid (R170, R202). -/
theorem Chunking.step : Machine.step s = .next (startChunk s) := by
  have hcaller : s.seq.caller = .host := by rw [h.seq]
  obtain ⟨hd, -, hlen⟩ := startChunk_operands hcaller (by rw [h.seq])
  have hentry := enterCsr_valid (s := s.setSize (chunkSize s.work.addr s.work.rem)) (n := n)
    ((congrArg sizeCodeOf (hlen.trans h.size)).trans (sizeCodeOf_sizeBytes n))
  have hdir : csrDir (s.setSize (chunkSize s.work.addr s.work.rem)) = if s.latch.op = .write then .wr else .rd := hd
  rw [step_host hcaller h.resetIn (by simp [h.seq]), visitPhase, h.seq]
  simp only [visitRChunk, if_neg h.rem, hentry, hdir, finalState_ok, startChunk]
  cases s.latch.op <;> rfl

theorem Chunking.accessing : Accessing (startChunk s) :=
  .of_host (congrArg Seq.caller h.seq) h.wire h.resetIn h.sim

/-- The operands of the chunk's access (log 26). -/
theorem Chunking.operands : csrDir (startChunk s) = (if s.latch.op = .write then .wr else .rd) ∧
    csrAddr (startChunk s) = s.work.addr ∧ csrLen (startChunk s) = sizeBytes n ∧
    csrBytes (startChunk s) = (s.buf.wbuf.drop s.work.cur.toNat).take (sizeBytes n) := by
  have hcaller : (startChunk s).seq.caller = .host := congrArg Seq.caller h.seq
  obtain ⟨hd, ha, hlen⟩ := startChunk_operands (s := s) hcaller (by rw [h.seq])
  refine ⟨hd, ha, hlen.trans h.size, ?_⟩
  rw [csrBytes, hcaller, ← h.size]
  rfl

/-- The access of a chunk returns to the router, whose cursors advance by its size (R203, R204). -/
theorem Chunking.csrReturn_eq {t : State} (caller : t.seq.caller = s.seq.caller)
    (refresh : t.seq.refresh = s.seq.refresh) (latch : t.latch = s.latch)
    (size : t.work.size = chunkSize s.work.addr s.work.rem) :
    csrReturn t = backToRouter (sizeBytes n) s.seq
      (if s.latch.op = .read then t.putRbuf t.work.cur.toNat t.buf.res else t) := by
  have hseq : s.seq = { t.seq with ph := .rChunk } := by simp [caller, refresh, h.seq]
  rw [csrReturn_host (caller.trans (by rw [h.seq])) (refresh.trans (by rw [h.seq])), hseq, backToRouter,
    ← zeroExtend_sizeBytes, ← h.chunkSize_eq, ← size, ← latch]
  unfold chunkDone
  split <;> rfl

end

/-- Settles O42: the router's step, the read it begins, and the return with the bytes read. -/
theorem oneChunkOfAReadRuns : Obligations.OneChunkOfAReadRuns := by
  intro n a rest s hseq hop hwire hoff hsim hrem hsize hfit hans
  have chunking : Chunking n s := ⟨hseq, hwire, hoff, hsim, hrem, hsize⟩
  obtain ⟨hdir, haddr, hlen, -⟩ := chunking.operands
  have hrun := read_runs_of_step chunking.step chunking.accessing (by simp [startChunk, hop])
    (hdir.trans (by simp [hop])) haddr hlen hfit hans
  rw [hrun, chunking.csrReturn_eq, if_pos hop, ← lanes_eq_take]
  all_goals rfl

/-- Settles O43: the router's step, the write it begins, whose bytes are those of `WBUF` at `CUR`, and the return. -/
theorem oneChunkOfAWriteRuns : Obligations.OneChunkOfAWriteRuns := by
  intro n v a rest s hseq hop hwire hoff hsim hrem hsize _ hv hfit hans
  have chunking : Chunking n s := ⟨hseq, hwire, hoff, hsim, hrem, hsize⟩
  obtain ⟨hdir, haddr, hlen, hbytes⟩ := chunking.operands
  have hrun := write_runs_of_step chunking.step chunking.accessing (by simp [startChunk, hop])
    (hdir.trans (by simp [hop])) haddr hlen (by rw [hbytes, packAt_eq_of_le32 hv]) hfit hans
  have hread : s.latch.op ≠ .read := by simp [hop]
  rw [hrun, chunking.csrReturn_eq, if_neg hread]
  all_goals rfl

/-! ### The refresh (R206) -/

/-- `s` with the read of the AL-event register begun. -/
def startRefresh (s : State) : State := { s with seq := { s.seq with ph := .cCmd, refresh := true } }

/-- The mirror is the low half of the data word: the byte at `AL_EVENT_ADDR` is bits 7:0 (R206). -/
theorem mirrorOf_lanes (v : Word) : mirrorOf (lanes 0 2 v) = v.extractLsb' 0 16 := by
  have hhigh : lane 1 v = (v.extractLsb' 0 16).extractLsb' 8 8 := by simp [lane]
  have hlow : lane 0 v = (v.extractLsb' 0 16).extractLsb' 0 8 := by simp [lane]
  exact (congrArg₂ addrOf hhigh hlow).trans (addrOf_be16 _)

/-- `s` with the two bytes of the refresh read and the mirror written, the events so far being `evs`. -/
def afterRefresh (rest : List Reply) (evs : List Event) (a : CsrAnswers) (s : State) : State :=
  afterEvents rest evs { s with
    seq := ⟨.cFetch, s.seq.caller, true⟩
    vis := { s.vis with alEvent := a.fetch.value.extractLsb' 0 16 }
    work := { s.work with word := a.fetch.value, polls := a.poll.all.length }
    buf.res := [a.fetch.value.extractLsb' 0 8, a.fetch.value.extractLsb' 8 8] }

section
variable (rest : List Reply) (evs : List Event) (a : CsrAnswers) {s : State}

theorem setAlEvent_afterFetch : (afterFetch rest evs 2 a (startRefresh s)).setAlEvent
    (mirrorOf (lanes 0 2 a.fetch.value)) = afterRefresh rest evs a s := by
  rw [mirrorOf_lanes]
  rfl

/-- The return of the refresh at the end of a READ or WRITE completes it (R206, R238). -/
theorem csrReturn_refresh_host (hc : s.seq.caller = .host) (hoff : s.env.resetIn = .off) :
    csrReturn (afterFetch rest evs 2 a (startRefresh s)) = complete (afterRefresh rest evs a s) := by
  have hcaller : (afterFetch rest evs 2 a (startRefresh s)).seq.caller = .host := hc
  have hfinish : finish (afterRefresh rest evs a s) = complete (afterRefresh rest evs a s) := finish_of_off hoff
  rw [csrReturn_of_refresh rfl, ← hfinish, ← setAlEvent_afterFetch]
  unfold refreshDone
  dsimp only
  rw [State.setAlEvent_seq, hcaller]
  rfl

/-- The return of the refresh entered by itself is to rest (log 10). -/
theorem csrReturn_refresh_alone (hc : s.seq.caller = .alRefresh) :
    csrReturn (afterFetch rest evs 2 a (startRefresh s)) = (afterRefresh rest evs a s).toIdle := by
  have hcaller : (afterFetch rest evs 2 a (startRefresh s)).seq.caller = .alRefresh := hc
  rw [csrReturn_of_refresh rfl, ← setAlEvent_afterFetch]
  unfold refreshDone
  dsimp only
  rw [State.setAlEvent_seq, hcaller]
  rfl

end

/-- Settles O44: in either case the refresh is one read of two bytes; its return completes the host operation, or is to
rest. -/
theorem theRefreshEndsEveryReadAndWrite : Obligations.TheRefreshEndsEveryReadAndWrite := by
  constructor
  · intro a rest s hseq hwire hoff hsim hfit hans
    have hcaller : s.seq.caller = .host := by rw [hseq]
    have hstep : step s = .next (startRefresh s) := by
      rw [step_host hcaller hoff (by simp [hseq]), visitPhase, hseq]
      rfl
    have refreshing : Accessing (startRefresh s) := .of_host hcaller hwire hoff hsim
    have hrun := read_runs_of_step (n := .two) hstep refreshing rfl rfl rfl rfl hfit hans
    refine hrun.trans (congrArg Host.Outcome.next ((csrReturn_refresh_host rest _ a hcaller hoff).trans ?_))
    rw [afterEvents, ← List.append_assoc]
    rfl
  · intro a rest s hs hsim hfit hans
    have entered : Accessing (s.enter .alRefresh .rAlev) := hs.accessing_enter hsim .rAlev nofun nofun
    have refreshing : Accessing (startRefresh (s.enter .alRefresh .rAlev)) := entered.change
    have hrun := refreshing.read_runs (n := .two) rfl rfl rfl hfit hans
    exact ⟨_, whenIdle_of_free hs.free,
      hrun.trans (congrArg Host.Outcome.next (csrReturn_refresh_alone rest _ a rfl))⟩

end Sys2Proof.Machine
end

section
/-! PROOFS of O58 and O59: a READ and a WRITE served by the reference peripheral (R95, R203, R204). -/

namespace Sys2Proof.Machine

/-- Settles O58: the READ is served on either path, and leaves the memory it returned the bytes of. -/
theorem readReturnsMemory : Obligations.ReadReturnsMemory := by
  intro addr len e s hidle hwire hreset hready hwf hlen hrange
  have ready : ReadyToServe e s := ⟨hidle, hwire, hreset, hready, hwf⟩
  obtain ⟨a, k, t, hread, hk, hrbuf, served⟩ := read_served ready addr len hlen hrange
  obtain ⟨e', next, hmem⟩ := served.sim
  exact ⟨a, k, t, e', hread, hk, served.seq, next.wire, next.resetIn, next.ready, next.wf, hmem, hrbuf, served.vis,
    served.rsp⟩

/-- Settles O59: the WRITE is served on either path, and the mirror is read from the memory it has stored into. -/
theorem writeStoresItsBytes : Obligations.WriteStoresItsBytes := by
  intro addr data e s hidle hwire hreset hready hwf hpos hle hrange
  have ready : ReadyToServe e s := ⟨hidle, hwire, hreset, hready, hwf⟩
  obtain ⟨a, k, t, hwrite, hk, served⟩ := write_served ready addr data hpos hle hrange
  obtain ⟨e', next, hmem⟩ := served.sim
  have hvis := served.vis
  have hrsp := served.rsp
  rw [← hmem] at hvis hrsp
  refine ⟨a, k, t, e', hwrite, hk, served.seq, next.wire, next.resetIn, next.ready, next.wf, hmem, hvis, ?_⟩
  rw [hrsp, hvis]

end Sys2Proof.Machine
end

section
/-! PROOFS of O46 and O47: the host operations INIT and RESET (45_system.md R220, R221). INIT answered by an open
peripheral is one frame, or two, and a poll loop; both operations end in the completion of a request that is no READ. -/

namespace Sys2Proof.Machine

/-- A completion without block reset: STATUS, the response, idle. Only a READ's response carries data (R238). -/
theorem finish_of_not_read {s : State} (hreset : s.env.resetIn ≠ .beforeRsp) (hop : s.latch.op ≠ .read) :
    finish s = { s with
      seq := Seq.atRest
      vis.status := 0
      trace := s.trace ++ [.rsp 0 none s.vis.alEvent] } := by
  rw [finish, unlessReset_of_ne hreset, complete, if_neg hop]
  rfl

/-! ### RESET (R221) -/

/-- Settles O47: RESET is accepted and finishes in the same step. -/
theorem resetRequestIsANoOp : Obligations.ResetRequestIsANoOp := by
  intro s hfree hreset
  have hfinish := finish_of_not_read (s := acceptBare .reset s) hreset nofun
  refine (whenIdle_of_free hfree).trans ?_
  rw [hfinish]
  simp [acceptBare]

/-! ### INIT (R220) -/

theorem wholeFrame_byte (tx rx : Byte) : wholeFrame [tx] [rx] = [.csAssert, .xfer tx rx, .csDeassert] := rfl

/-- The frame of one byte, answered (R151). -/
theorem resetSqiFrame_bytes {s : State} {sqi : Byte} {rest : List Reply} (hport : PortReady s)
    (hans : Answers [sqi] rest s) :
    resetSqiFrame s = .ok () (afterEvents rest (wholeFrame [0xFF] [sqi]) s) := by
  rw [resetSqiFrame_eq_frame, frame_bytes [0xFF] [sqi] rest s hport rfl hans]
  rfl

/-- The frames of INIT from `I_RESET` on: the reset command and the reads of the byte-test register (R220). -/
def initFrames (p : Params) (ctl : List Byte) (a : PollAnswers) : List Event :=
  wholeFrame (writeTx resetCtlReg p.resetCtlValue) ctl ++ readingFrames p byteTestReg a.all

/-- `s` with INIT complete, the events so far being `evs` and the response (R220, R238). -/
def afterInit (rest : List Reply) (evs : List Event) (a : PollAnswers) (s : State) : State :=
  afterEvents rest (evs ++ [.rsp 0 none s.vis.alEvent]) { s with
    seq := Seq.atRest
    vis.status := 0
    work := { s.work with word := a.ready.value, polls := a.all.length } }

theorem finish_afterPoll {p : Phase} (rest : List Reply) (evs : List Event) (a : PollAnswers) {s : State}
    (hreset : s.env.resetIn ≠ .beforeRsp) (hop : s.latch.op ≠ .read) :
    finish (afterPoll p rest evs a s) = afterInit rest evs a s := by
  have hfinish := finish_of_not_read (s := afterPoll p rest evs a s) hreset hop
  rw [hfinish]
  simp [afterInit, afterPoll, afterEvents]

section
variable {s : State} {rest : List Reply} (h : Accessing s)
include h

theorem Accessing.step_iSqi {sqi : Byte} (hp : s.seq.ph = .iSqi) (hans : Answers [sqi] rest s) :
    Machine.step s = .next ((afterEvents rest (wholeFrame [0xFF] [sqi]) s).toPhase .iReset) := by
  rw [h.step (by simp [hp]), visitPhase, hp]
  simp only [visitISqi, resetSqiFrame_bytes h.port hans]
  rfl

theorem Accessing.step_iReset {ctl : List Byte} (hp : s.seq.ph = .iReset) (hlen : ctl.length = 7)
    (hans : Answers ctl rest s) :
    Machine.step s = .next (beginPoll .iPoll
      (afterEvents rest (wholeFrame (writeTx resetCtlReg s.env.params.resetCtlValue) ctl) s)) := by
  rw [h.step (by simp [hp]), visitPhase, hp]
  simp only [visitIReset, writeWord_bytes resetCtlReg _ ctl rest s h.port hlen hans]
  rfl

/-- `I_POLL` is a poll loop for the byte-test value (R33). -/
theorem Accessing.inLoop_iPoll (hp : s.seq.ph = .iPoll) :
    InLoop (.equal s.env.params.byteTestExpected) byteTestReg finish s where
  visits t hseq _ hparams := by
    rw [visit_of_noPoll (hseq ▸ h.noPoll), visitPhase, hseq, hp, ← hparams]
    rfl
  busy := h.not_accepting (by simp [hp])
  resetOff := h.resetOff
  port := h.port

/-- From `I_RESET` on, INIT writes the reset command, polls, and completes. -/
theorem Accessing.init_runs {ctl : List Byte} {a : PollAnswers} (hp : s.seq.ph = .iReset)
    (hop : s.latch.op ≠ .read) (hlen : ctl.length = 7)
    (hfit : a.Fit s.env.params (fun v => v == s.env.params.byteTestExpected))
    (hans : Answers (ctl ++ readingsRx a.all) rest s) :
    stepN (1 + a.all.length) s = .next (afterInit rest (initFrames s.env.params ctl a) a s) := by
  have polling : Accessing (beginPoll .iPoll (afterEvents ((readingsRx a.all).map Reply.byte ++ rest)
      (wholeFrame (writeTx resetCtlReg s.env.params.resetCtlValue) ctl) s)) := h.change
  have hreset : s.env.resetIn ≠ .beforeRsp := by simp [h.resetOff]
  rw [Nat.add_comm, stepN_succ (h.step_iReset hp hlen hans.split), ← finish_afterPoll rest _ a hreset hop]
  exact (polling.inLoop_iPoll rfl).runs_begun hfit

end

/-- Settles O46: INIT enters `I_RESET`, directly or through `I_SQI`, as the parameter says. -/
theorem initRuns : Obligations.InitRuns := by
  intro sqi ctl a rest s hs hsim hlen hfit hans
  have entered (p : Phase) : Accessing ((acceptBare .init s).enter .host p) :=
    ⟨nofun, nofun, hs.resetOff, hs.port hsim⟩
  refine ⟨_, whenIdle_of_free hs.free, ?_⟩
  cases hsqi : s.env.params.initSendResetSqi with
  | false =>
    rw [hsqi] at hans
    have hrun := (entered .iReset).init_runs rfl nofun hlen hfit hans
    simpa [afterInit, afterEvents, acceptBare, State.enter, initFrames, resetCtlReg, byteTestReg] using hrun
  | true =>
    rw [hsqi, if_pos rfl, List.append_assoc] at hans
    have hstep := (entered .iSqi).step_iSqi rfl hans.split
    have resetting : Accessing ((afterEvents ((ctl ++ readingsRx a.all).map Reply.byte ++ rest)
        (wholeFrame [0xFF] [sqi]) ((acceptBare .init s).enter .host .iSqi)).toPhase .iReset) := (entered .iSqi).change
    have hrun := resetting.init_runs rfl nofun hlen hfit rfl
    rw [if_pos rfl, Nat.add_assoc, Nat.add_comm]
    refine (stepN_succ hstep).trans (hrun.trans ?_)
    simp [afterInit, afterEvents, acceptBare, State.enter, initFrames, resetCtlReg, byteTestReg, wholeFrame_byte]

end Sys2Proof.Machine
end

section
/-! PROOFS of O20, O31 and O48: what ends an operation and what does not (60_exceptions.md). Fault entry, field by field;
the bus fault inside a whole frame; and the poll loop without a limit, which no reading that is not ready ends. -/

namespace Sys2Proof.Machine

/-! ### Fault entry (R236) -/

/-- What is unspecified of `RBUF` after a fault is its bytes, not their number (R27; log 6). -/
theorem faultEntry_rbuf_length (c : Cause) (s : State) : (faultEntry c s).buf.rbuf.length = s.latch.reqLen.toNat := by
  simp [faultEntry, scrambleRbuf]

/-- Settles O48: each field after fault entry, the trace being the edge of chip-select and then the response. -/
theorem faultEntryDoesItsSixThings : Obligations.FaultEntryDoesItsSixThings := by
  intro c s
  have htrace : (faultEntry c s).trace =
      s.trace ++ (if s.wire.cs then [.csDeassert] else []) ++ [.rsp (causeCode c) none s.vis.alEvent] := by
    rw [faultEntry_trace, csDeassert_trace]
  exact ⟨causeCode c, by cases c <;> rfl, faultEntry_vis c s, faultEntry_seq c s, faultEntry_cs c s, htrace,
    faultEntry_latch c s, faultEntry_work c s, faultEntry_wbuf c s, faultEntry_rbuf_length c s, faultEntry_params c s,
    faultEntry_inputs c s, faultEntry_script c s, unlessReset_of_ne⟩

/-! ### A bus fault inside a frame (R231) -/

/-- Settles O20: the operation is its frame, which the fault cuts after the exchanges answered before it. -/
theorem busFaultEndsEveryFrame : Obligations.BusFaultEndsEveryFrame :=
  fun _ _ _ _ _ _ hport hfault htx hbad hscript => exec_frame_fault hport hfault htx hbad hscript

/-! ### The poll loop without a limit (R240) -/

/-- A word that does not end a loop fails its test. -/
theorem pollReady_of_staysIn {kind : PollKind} {v : Word} (h : staysIn kind v) : pollReady kind v = false := by
  cases kind with
  | busyClear => exact congrArg not h
  | fifoAvail => exact h
  | equal expected => exact beq_false_of_ne h

theorem limitAllows_of_unlimited {p : Params} (n : Nat) (h : p.pollLimit = none) : LimitAllows p n := by
  intro limit hlimit
  rw [h] at hlimit
  cases hlimit

/-- The PRAM command register of a direction (R40, R180). -/
theorem pramCmdReg_eq (d : Dir) : pramCmdReg d = if d = .rd then 0x30C else 0x314 := by cases d <;> rfl

section
variable {kind : PollKind} {reg : Addr} {s : State} (h : InPoll kind reg s)
include h

/-- No polling phase is `IDLE`: the block stays busy in every loop. -/
theorem InPoll.not_idle : s.seq.ph ≠ .idle := by
  obtain ⟨-, hph⟩ | ⟨-, -, ⟨hph, -⟩ | ⟨hph, -⟩ | ⟨hph, -⟩ | ⟨hph, -⟩⟩ := h
  · exact hph
  all_goals simp [hph]

theorem InPoll.busy : s.busy = true := decide_eq_true h.not_idle

/-- Which loop the block is in stands in the sequencer, the request and the parameters. -/
theorem InPoll.change {t : State} (seq : t.seq = s.seq) (latch : t.latch = s.latch)
    (params : t.env.params = s.env.params) : InPoll kind reg t := by
  obtain ⟨hdir, -, -⟩ := pramOperands_congr (congrArg Seq.caller seq) latch
  rw [InPoll, seq, hdir, params]
  exact h

/-- Every loop of R33, on behalf of whatever operation, is a poll loop of the machine. -/
theorem InPoll.inLoop (hreset : s.env.resetIn = .off) (hport : PortReady s) : ∃ done, InLoop kind reg done s := by
  obtain ⟨hcaller, hph⟩ | ⟨hpoll, hburst, hphase⟩ := h
  · refine ⟨State.toIdle, fun t hseq _ _ => ?_, ?_, hreset, hport⟩
    · rw [visit, hseq, hcaller]
    · simp [State.accepting, hph, hcaller]
  · have accessing : Accessing s := ⟨hpoll, hburst, hreset, hport⟩
    have transferring : Transferring (pramDir s) (pramAddr s) (pramLen s) s := ⟨accessing, rfl, rfl, rfl⟩
    obtain ⟨hph, rfl, rfl⟩ | ⟨hph, rfl, rfl⟩ | ⟨hph, rfl, rfl⟩ | ⟨hph, rfl, rfl⟩ := hphase
    · exact ⟨_, accessing.inLoop hph⟩
    · exact ⟨_, pramCmdReg_eq (pramDir s) ▸ transferring.inLoop_busy hph⟩
    · exact ⟨_, pramCmdReg_eq (pramDir s) ▸ transferring.inLoop_avail hph⟩
    · exact ⟨_, accessing.inLoop_iPoll hph⟩

end

/-- Settles O31: the run of the loop over the readings, which leaves the block in it. -/
theorem unboundedPollNeverEnds : Obligations.UnboundedPollNeverEnds := by
  intro kind reg rs rest s hin hreset hport hlimit hfit hstays hans
  obtain ⟨done, hloop⟩ := hin.inLoop hreset hport
  have hrun : stepN rs.length s = .next (afterReadings rest reg rs s) :=
    hloop.runs 0 hfit (fun r hr => pollReady_of_staysIn (hstays r hr)) (limitAllows_of_unlimited _ hlimit) hans
  have hstill : InPoll kind reg (afterReadings rest reg rs s) := hin.change rfl rfl rfl
  exact ⟨_, hrun, rfl, hstill.busy, hstill, rfl, rfl, rfl⟩

end Sys2Proof.Machine
end

section
/-! PROOF of O3. `BlockInv` is a condition on the wire and the sequencer, and one on what the host sees and the attached
peripheral. The second is kept by every exchange and by whatever ends an operation. So each part of an operation is said
to go on with a given wire and sequencer, or to have ended with the invariant; this passes through `andThen` and
`thenDo` to every phase and to every meaning, whose wires and sequencers are those the invariant admits. -/

namespace Sys2Proof.Machine

/-! ### The two halves of the invariant -/

/-- What the invariant asks of chip-select and the sequencer (R23, R144). -/
structure PortOk (w : Wire) (q : Seq) : Prop where
  burst : w.cs = w.burst.isSome
  phase : w.cs = true → q.ph = .pBWord ∨ q.ph = .pBClose
  idle : q.ph = .idle → q.caller = .nobody ∧ q.refresh = false
  held : q.caller = .burst → q.ph = .pBWord ∧ w.cs = true

/-- The state has this wire and this sequencer, and the rest of the invariant: a non-zero `STATUS` has been seen (R22),
and the reference peripheral is canonical (R85). -/
structure Holds (w : Wire) (q : Seq) (s : State) : Prop where
  wire : s.wire = w
  seq : s.seq = q
  seen : s.vis.status ≠ 0 → s.vis.faultSeen = true
  simOk : SimOk s

theorem Holds.blockInv {w : Wire} {q : Seq} {s : State} (h : Holds w q s) (hp : PortOk w q) : BlockInv s := by
  obtain ⟨rfl, rfl, seen, simOk⟩ := h
  exact ⟨hp.burst, hp.phase, hp.idle, hp.held, seen, simOk⟩

theorem blockInv_iff {s : State} : BlockInv s ↔ PortOk s.wire s.seq ∧ Holds s.wire s.seq s :=
  ⟨fun ⟨burst, phase, idle, held, seen, simOk⟩ => ⟨⟨burst, phase, idle, held⟩, rfl, rfl, seen, simOk⟩,
    fun ⟨hp, h⟩ => h.blockInv hp⟩

theorem portOk_atRest : PortOk Wire.idle Seq.atRest := ⟨rfl, nofun, fun _ => ⟨rfl, rfl⟩, nofun⟩

/-- Between frames every phase of an operation is admitted, but that of a burst opened by itself. -/
theorem portOk_phase {p : Phase} {q : Seq} (hq : q.caller ≠ .burst) (hp : p ≠ .idle := by decide) :
    PortOk Wire.idle { q with ph := p } :=
  ⟨rfl, nofun, fun h => absurd h hp, fun h => absurd h hq⟩

/-- In a burst phase a burst may be open. -/
theorem portOk_burst {w : Wire} {p : Phase} {q : Seq} (hw : w.cs = w.burst.isSome) (hp : p = .pBWord ∨ p = .pBClose)
    (hq : q.caller ≠ .burst) : PortOk w { q with ph := p } := by
  refine ⟨hw, fun _ => hp, ?_, fun h => absurd h hq⟩
  rintro rfl
  simp at hp

/-- A wire with chip-select de-asserted has no burst open, so that de-asserting chip-select always leaves it idle. -/
def Closable (w : Wire) : Prop := w.cs = false → w = Wire.idle

theorem PortOk.closable {w : Wire} {q : Seq} (h : PortOk w q) : Closable w := by
  obtain ⟨cs, burst⟩ := w
  rintro rfl
  have hnone : burst = none := by simpa using h.burst.symm
  rw [hnone]

theorem closable_idle : Closable Wire.idle := fun _ => rfl

theorem closable_asserted (b : Option Dir) : Closable ⟨true, b⟩ := nofun

section Changes

variable {w : Wire} {q : Seq} {s t : State} (h : Holds w q s)
include h

/-- A change of the registers and buffers that the invariant does not look at. -/
theorem Holds.change (wire : t.wire = s.wire := by rfl) (seq : t.seq = s.seq := by rfl) (vis : t.vis = s.vis := by rfl)
    (sim : t.env.sim = s.env.sim := by rfl) : Holds w q t :=
  ⟨wire.trans h.wire, seq.trans h.seq, vis ▸ h.seen, fun e he => h.simOk e (sim ▸ he)⟩

theorem Holds.toPhase (p : Phase) : Holds w { q with ph := p } (s.toPhase p) := by
  obtain ⟨rfl, rfl, seen, simOk⟩ := h
  exact ⟨rfl, rfl, seen, simOk⟩

theorem Holds.enter (c : Caller) (p : Phase) : Holds w ⟨p, c, false⟩ (s.enter c p) :=
  ⟨h.wire, rfl, h.seen, h.simOk⟩

theorem Holds.toIdle : Holds w Seq.atRest s.toIdle := ⟨h.wire, rfl, h.seen, h.simOk⟩

theorem Holds.exchanged (hx : Exchanged s t) : Holds w q t :=
  ⟨hx.same.wire.trans h.wire, hx.same.seq.trans h.seq, hx.same.vis.symm ▸ h.seen, hx.simOk h.simOk⟩

theorem Holds.csAssert : Holds ⟨true, w.burst⟩ q (Machine.csAssert s) := by
  obtain ⟨rfl, rfl, seen, simOk⟩ := h
  exact ⟨rfl, rfl, seen, simOk_csAssert simOk⟩

theorem Holds.csDeassert (hw : Closable w) : Holds Wire.idle q (Machine.csDeassert s) := by
  refine ⟨?_, by rw [csDeassert_seq, h.seq], by rw [csDeassert_vis]; exact h.seen, simOk_csDeassert h.simOk⟩
  cases hcs : s.wire.cs with
  | true => exact csDeassert_wire s hcs
  | false => rw [csDeassert_of_closed hcs, h.wire, hw (h.wire ▸ hcs)]

/-! ### What ends an operation leaves the invariant -/

theorem Holds.blockReset_inv : BlockInv (blockReset s) := reset_blockInv rfl rfl rfl (blockReset_simOk h.simOk)

theorem Holds.raise_inv (hw : Closable w) (c : Cause) : BlockInv (raise c s) := by
  rcases raise_cases c s with ⟨-, e⟩ | ⟨-, e⟩ <;> rw [e]
  · have faulted : Holds Wire.idle Seq.atRest (faultEntry c s) :=
      ⟨(h.csDeassert hw).wire, rfl, fun _ => rfl, faultEntry_simOk h.simOk⟩
    exact faulted.blockInv portOk_atRest
  · exact h.blockReset_inv

end Changes

theorem Holds.finish_inv {q : Seq} {s : State} (h : Holds Wire.idle q s) : BlockInv (finish s) := by
  rcases finish_cases s with ⟨-, e⟩ | ⟨-, e⟩ <;> rw [e]
  · exact reset_blockInv rfl h.wire rfl h.simOk
  · exact h.blockReset_inv

/-! ### What part of an operation can do -/

/-- Part of an operation goes on in a state of `post`, or has ended with the invariant. -/
def GoesOn {α : Type} (post : α → State → Prop) : Run α → Prop
  | .ok a t => post a t
  | .stop t => BlockInv t

section Rules

variable {α β : Type} {r : Run α} {post : α → State → Prop}

theorem GoesOn.andThen {f : α → State → Run β} {post' : β → State → Prop} (h : GoesOn post r)
    (hf : ∀ a t, post a t → GoesOn post' (f a t)) : GoesOn post' (andThen r f) := by
  cases r with
  | ok a t => exact hf a t h
  | stop t => exact h

theorem GoesOn.thenDo {f : State → State} {post' : State → Prop} (h : GoesOn post r)
    (hf : ∀ a t, post a t → post' (f t)) : GoesOn (fun _ => post') (thenDo r f) := by
  cases r with
  | ok a t => exact hf a t h
  | stop t => exact h

theorem GoesOn.mono {post' : α → State → Prop} (h : GoesOn post r) (hp : ∀ a t, post a t → post' a t) :
    GoesOn post' r := by
  cases r with
  | ok a t => exact hp a t h
  | stop t => exact h

theorem GoesOn.final (h : GoesOn (fun _ => BlockInv) r) : BlockInv (finalState r) := by
  cases r with
  | ok a t => exact h
  | stop t => exact h

/-- The wire and the sequencer it goes on with are those the invariant admits. -/
theorem GoesOn.inv {w : Wire} {q : Seq} (h : GoesOn (fun _ => Holds w q) r) (hp : PortOk w q) :
    BlockInv (finalState r) :=
  GoesOn.final (h.mono fun _ _ ht => ht.blockInv hp)

end Rules

/-! ### Exchanges and frames -/

section Frames

variable {w : Wire} {q : Seq} {s : State} (h : Holds w q s)
include h

/-- Exchanges leave the wire and the sequencer. -/
theorem Holds.exchange (hw : Closable w) (tx : List Byte) : GoesOn (fun _ => Holds w q) (exchange tx s) := by
  rcases exchange_cases tx s with ⟨rx, t, e, ht, -⟩ | ⟨rx, b, t, e, ht, -⟩ | ⟨rx, t, e, ht, -⟩ <;> rw [e]
  · exact h.exchanged ht
  · exact (h.exchanged ht).raise_inv hw _
  · exact (h.exchanged ht).blockReset_inv

theorem Holds.send (hw : Closable w) (tx : List Byte) : GoesOn (fun _ => Holds w q) (send tx s) :=
  (h.exchange hw tx).andThen fun _ _ ht => ht

theorem Holds.recv4 (hw : Closable w) : GoesOn (fun _ => Holds w q) (recv4 s) :=
  (h.exchange hw _).andThen fun _ _ ht => ht

/-- Whatever the wire was, inside a frame chip-select is asserted. -/
theorem Holds.sendAsserted (tx : List Byte) :
    GoesOn (fun _ => Holds ⟨true, w.burst⟩ q) (Machine.send tx (Machine.csAssert s)) :=
  h.csAssert.send (closable_asserted _) tx

theorem Holds.writeWord (reg : Addr) (v : Word) : GoesOn (fun _ => Holds Wire.idle q) (writeWord reg v s) :=
  (h.sendAsserted _).thenDo fun _ _ ht => ht.csDeassert (closable_asserted _)

theorem Holds.resetSqiFrame : GoesOn (fun _ => Holds Wire.idle q) (resetSqiFrame s) :=
  (h.sendAsserted _).thenDo fun _ _ ht => ht.csDeassert (closable_asserted _)

theorem Holds.readFrame (header : List Byte) : GoesOn (fun _ => Holds Wire.idle q) (readFrame header s) :=
  (h.sendAsserted header).andThen fun _ _ ht =>
    (ht.recv4 (closable_asserted _)).andThen fun _ _ hu => hu.csDeassert (closable_asserted _)

theorem Holds.readWord (reg : Addr) : GoesOn (fun _ => Holds Wire.idle q) (readWord reg s) := by
  unfold Machine.readWord
  split
  · exact h.readFrame _
  · exact h.readFrame _

theorem Holds.burstOpen (dir : Dir) : GoesOn (fun _ => Holds ⟨true, some dir⟩ q) (burstOpen dir s) :=
  (h.sendAsserted _).thenDo fun _ _ ht => ⟨by rw [ht.wire], ht.seq, ht.seen, ht.simOk⟩

theorem Holds.sendCsrData (v : Word) : GoesOn (fun _ => Holds Wire.idle q) (sendCsrData v s) :=
  Holds.writeWord (h.change : Holds w q (s.setWord v)) _ v

theorem Holds.sendFirstWord (v : Word) : GoesOn (fun _ => Holds Wire.idle q) (sendFirstWord v s) :=
  (Holds.writeWord (h.change : Holds w q (s.setWord v)) _ v).thenDo fun _ _ ht => ht.change

theorem Holds.sendNextWord (hw : Closable w) (v : Word) : GoesOn (fun _ => Holds w q) (sendNextWord v s) :=
  (Holds.send (h.change : Holds w q (s.setWord v)) hw _).thenDo fun _ _ ht => ht.change

end Frames

theorem GoesOn.storeWord {w : Wire} {q : Seq} {r : Run Word} (h : GoesOn (fun _ => Holds w q) r) :
    GoesOn (fun _ => Holds w q) (storeWord r) :=
  h.andThen fun _ _ ht => ht.change

/-! ### The poller -/

theorem Holds.loadFifoCnt {w : Wire} {q : Seq} {s : State} (h : Holds w q s) (v : Word) :
    Holds w q (loadFifoCnt v s) := by
  unfold Machine.loadFifoCnt
  split
  · exact h.change
  · exact h

/-- One poll reads once; it has ended the loop, or not, or the limit ends the operation (R162). -/
theorem Holds.pollOnce {w : Wire} {q : Seq} {s : State} (h : Holds w q s) (kind : PollKind) (reg : Addr) :
    GoesOn (fun _ => Holds Wire.idle q) (pollOnce kind reg s) := by
  refine (h.readWord reg).andThen fun v t ht => ?_
  have counted : Holds Wire.idle q (polled v t) := ht.change
  show GoesOn _ (if pollReady kind v then _ else _)
  split
  · show Holds _ _ (if kind = .fifoAvail then _ else _)
    split
    · exact counted.loadFifoCnt v
    · exact counted
  · split
    · exact counted.raise_inv closable_idle _
    · exact counted

/-- A visit to a polling phase stays, or goes where the loop leads. -/
theorem Holds.visitPoll {w : Wire} {q : Seq} {s : State} (h : Holds w q s) (kind : PollKind) (reg : Addr)
    {done : State → State} (hq : PortOk Wire.idle q) (hdone : ∀ t, Holds Wire.idle q t → BlockInv (done t)) :
    GoesOn (fun _ => BlockInv) (visitPoll kind reg done s) := by
  refine (h.pollOnce kind reg).andThen fun ended t ht => ?_
  show BlockInv (if ended then done t else t)
  split
  · exact hdone t ht
  · exact ht.blockInv hq

/-! ### The phases -/

/-- The router after a chunk moves its cursors and its phase, and for a READ fills `RBUF` (R203, R204). -/
theorem chunkDone_unchanged (s : State) :
    (chunkDone s).wire = s.wire ∧ (chunkDone s).vis = s.vis ∧ (chunkDone s).env = s.env := by
  unfold chunkDone
  dsimp only
  split
  · exact ⟨rfl, rfl, rfl⟩
  · exact ⟨rfl, rfl, rfl⟩

section Between

variable {q : Seq} {s : State} (h : Holds Wire.idle q s)
include h

theorem Holds.toIdle_inv : BlockInv s.toIdle := h.toIdle.blockInv portOk_atRest

theorem Holds.toPhase_inv (hq : q.caller ≠ .burst) (p : Phase) (hp : p ≠ .idle := by decide) : BlockInv (s.toPhase p) :=
  (h.toPhase p).blockInv (portOk_phase hq hp)

theorem Holds.beginPoll_inv (hq : q.caller ≠ .burst) (p : Phase) (hp : p ≠ .idle := by decide) :
    BlockInv (beginPoll p s) :=
  Holds.toPhase_inv (h.change : Holds Wire.idle q (s.setPolls 0)) hq p hp

theorem Holds.enterCsr :
    GoesOn (fun _ t => ∃ p, p ≠ .idle ∧ Holds Wire.idle { q with ph := p } t) (Machine.enterCsr s) := by
  rcases enterCsr_cases s with ⟨-, e⟩ | ⟨-, e⟩ <;> rw [e]
  · exact h.raise_inv closable_idle _
  · refine ⟨_, ?_, h.toPhase _⟩
    split <;> decide

theorem Holds.enterCsr_inv (hq : q.caller ≠ .burst) : GoesOn (fun _ => BlockInv) (Machine.enterCsr s) :=
  h.enterCsr.mono fun _ _ ⟨_, hp, ht⟩ => ht.blockInv (portOk_phase hq hp)

theorem Holds.visitCCmd (hq : q.caller ≠ .burst) : GoesOn (fun _ => BlockInv) (Machine.visitCCmd s) := by
  unfold Machine.visitCCmd
  split
  · exact h.raise_inv closable_idle _
  · exact (h.writeWord _ _).thenDo fun _ _ ht => ht.beginPoll_inv hq .cPoll

theorem Holds.visitCData (hq : q.caller ≠ .burst) : GoesOn (fun _ => BlockInv) (Machine.visitCData s) :=
  (h.sendCsrData _).thenDo fun _ _ ht => ht.toPhase_inv hq .cCmd

theorem Holds.visitPAbort (hq : q.caller ≠ .burst) : GoesOn (fun _ => BlockInv) (Machine.visitPAbort s) :=
  (h.writeWord _ _).thenDo fun _ _ ht => ht.beginPoll_inv hq .pPollBusy

theorem Holds.chunkDone_inv (hq : q.caller ≠ .burst) : BlockInv (chunkDone s) := by
  obtain ⟨hwire, hvis, henv⟩ := chunkDone_unchanged s
  have returned : Holds Wire.idle { q with ph := .rChunk } (chunkDone s) :=
    ⟨hwire.trans h.wire, h.seq ▸ chunkDone_seq s, hvis ▸ h.seen, fun e he => h.simOk e (henv ▸ he)⟩
  exact returned.blockInv (portOk_phase hq)

theorem Holds.refreshDone_inv : BlockInv (refreshDone s) := by
  have mirrored : Holds Wire.idle q (s.setAlEvent (mirrorOf s.buf.res)) := ⟨h.wire, h.seq, h.seen, h.simOk⟩
  rcases refreshDone_cases s with e | e <;> rw [e]
  · exact mirrored.finish_inv
  · exact mirrored.toIdle_inv

theorem Holds.csrReturn_inv (hq : q.caller ≠ .burst) : BlockInv (csrReturn s) := by
  cases hr : s.seq.refresh with
  | true =>
    rw [csrReturn_of_refresh hr]
    exact h.refreshDone_inv
  | false =>
    rcases csrReturn_of_not_refresh hr with e | e <;> rw [e]
    · exact h.chunkDone_inv hq
    · exact h.toIdle_inv

theorem Holds.csrReady_inv (hq : q.caller ≠ .burst) : BlockInv (csrReady s) := by
  unfold csrReady
  split
  · exact h.toPhase_inv hq .cFetch
  · exact h.csrReturn_inv hq

theorem Holds.setupDone_inv (hq : q.caller ≠ .burst) : BlockInv (setupDone s) := by
  unfold setupDone
  split
  · exact h.toIdle_inv
  · exact h.toPhase_inv hq .pFirst

theorem Holds.firstDone_inv (hq : q.caller ≠ .burst) (n : Nat) : BlockInv (firstDone n s) :=
  Holds.toPhase_inv (s := { s with work := (firstDone n s).work }) h.change hq .pBOpen

theorem Holds.visitPFirst (hq : q.caller ≠ .burst) : GoesOn (fun _ => BlockInv) (Machine.visitPFirst s) := by
  have placed : Holds Wire.idle q { s with work.fbp := firstBytePos (pramAddr s) } := h.change
  unfold Machine.visitPFirst
  dsimp only
  split
  · exact (placed.readWord _).andThen fun _ t ht =>
      Holds.firstDone_inv (ht.change : Holds Wire.idle q (takeFirstWord _ _ _ t)) hq _
  · exact (placed.sendFirstWord _).thenDo fun _ _ ht => ht.firstDone_inv hq _

theorem Holds.pramReturn_inv (hq : q.caller ≠ .burst) : BlockInv (pramReturn s) := by
  unfold pramReturn
  split
  · refine Holds.toPhase_inv ?_ hq .rAlev
    split
    · exact h.change
    · exact h
  · exact h.toIdle_inv

theorem Holds.visitRDispatch (hq : q.caller ≠ .burst) : GoesOn (fun _ => BlockInv) (Machine.visitRDispatch s) := by
  unfold Machine.visitRDispatch
  split
  · exact h.toPhase_inv hq .pAbort
  · exact Holds.toPhase_inv (h.change : Holds Wire.idle q { s with work := _ }) hq .rChunk

theorem Holds.visitRChunk (hq : q.caller ≠ .burst) : GoesOn (fun _ => BlockInv) (Machine.visitRChunk s) := by
  unfold Machine.visitRChunk
  split
  · exact h.toPhase_inv hq .rAlev
  · exact Holds.enterCsr_inv h.change hq

/-- The refresh marks its access as its own (R206). -/
theorem Holds.marked : Holds Wire.idle { q with refresh := true } { s with seq.refresh := true } := by
  obtain ⟨hwire, rfl, seen, simOk⟩ := h
  exact ⟨hwire, rfl, seen, simOk⟩

end Between

/-! ### The burst -/

section Burst

variable {w : Wire} {q : Seq} {s : State} (h : Holds w q s)
include h

theorem Holds.burstNext_inv (hw : w.cs = w.burst.isSome) (hq : q.caller ≠ .burst) : BlockInv (burstNext s) := by
  refine (h.toPhase _).blockInv (portOk_burst hw ?_ hq)
  split
  · exact .inr rfl
  · exact .inl rfl

theorem Holds.wordDone_inv (hw : w.cs = w.burst.isSome) (hq : q.caller ≠ .burst) (n : Nat) : BlockInv (wordDone n s) :=
  Holds.burstNext_inv h.change hw hq

theorem Holds.visitPBWord (hw : PortOk w q) (hq : q.caller ≠ .burst) :
    GoesOn (fun _ => BlockInv) (Machine.visitPBWord s) := by
  unfold Machine.visitPBWord
  dsimp only
  split
  · exact (h.recv4 hw.closable).andThen fun _ t ht =>
      Holds.wordDone_inv (ht.change : Holds w q (takeNextWord _ _ t)) hw.burst hq _
  · exact (h.sendNextWord hw.closable _).thenDo fun _ _ ht => ht.wordDone_inv hw.burst hq _

end Burst

/-! ### A visit -/

/-- Outside the two phases of an open burst the wire is between frames. -/
theorem PortOk.wire_idle {w : Wire} {q : Seq} {p : Phase} (h : PortOk w q) (hp : q.ph = p)
    (hword : p ≠ .pBWord := by decide) (hclose : p ≠ .pBClose := by decide) : w = Wire.idle := by
  subst hp
  exact h.closable (Bool.eq_false_iff.2 fun hcs => (h.phase hcs).elim hword hclose)

/-- A phase of an operation in which a burst may be open may be between frames as well. -/
theorem PortOk.idle_wire {w : Wire} {q : Seq} (h : PortOk w q) (hq : q.caller ≠ .burst) : PortOk Wire.idle q :=
  ⟨rfl, nofun, h.idle, fun hc => absurd hc hq⟩

theorem visitPhase_inv {s : State} (hs : BlockInv s) (hq : s.seq.caller ≠ .burst) :
    BlockInv (finalState (visitPhase s)) := by
  obtain ⟨hport, h⟩ := blockInv_iff.1 hs
  have hloop := hport.idle_wire hq
  have idle {p : Phase} (hp : s.seq.ph = p) (hword : p ≠ .pBWord := by decide) (hclose : p ≠ .pBClose := by decide) :
      Holds Wire.idle s.seq s := hport.wire_idle hp hword hclose ▸ h
  unfold visitPhase
  refine GoesOn.final ?_
  cases hp : s.seq.ph with
  | idle => exact hs
  | rDispatch => exact (idle hp).visitRDispatch hq
  | rChunk => exact (idle hp).visitRChunk hq
  | cData => exact (idle hp).visitCData hq
  | cCmd => exact (idle hp).visitCCmd hq
  | cPoll => exact h.visitPoll _ _ hloop fun _ ht => ht.csrReady_inv hq
  | cFetch =>
    exact (h.readWord _).andThen fun _ t ht =>
      Holds.csrReturn_inv (ht.change : Holds Wire.idle s.seq (takeCsrData _ _ t)) hq
  | pAbort => exact (idle hp).visitPAbort hq
  | pPollBusy => exact h.visitPoll _ _ hloop fun _ ht => ht.toPhase_inv hq .pAddrLen
  | pAddrLen => exact (h.writeWord _ _).thenDo fun _ _ ht => ht.toPhase_inv hq .pStart
  | pStart => exact (h.writeWord _ _).thenDo fun _ _ ht => ht.beginPoll_inv hq .pPollAvail
  | pPollAvail => exact h.visitPoll _ _ hloop fun _ ht => ht.setupDone_inv hq
  | pFirst => exact (idle hp).visitPFirst hq
  | pBOpen => exact (h.burstOpen _).thenDo fun _ _ ht => ht.burstNext_inv rfl hq
  | pBWord => exact h.visitPBWord hport hq
  | pBClose => exact (h.csDeassert hport.closable).pramReturn_inv hq
  | rAlev => exact (idle hp).marked.enterCsr_inv hq
  | iSqi => exact h.resetSqiFrame.thenDo fun _ _ ht => ht.toPhase_inv hq .iReset
  | iReset => exact (h.writeWord _ _).thenDo fun _ _ ht => ht.beginPoll_inv hq .iPoll
  | iPoll => exact h.visitPoll _ _ hloop fun _ ht => ht.finish_inv

theorem visit_inv {s : State} (hs : BlockInv s) (hq : s.seq.caller ≠ .burst) : BlockInv (finalState (visit s)) := by
  unfold visit
  split
  · obtain ⟨hport, h⟩ := blockInv_iff.1 hs
    exact (h.visitPoll _ _ (hport.idle_wire hq) fun _ ht => ht.toIdle_inv).final
  · exact visitPhase_inv hs hq

/-! ### The meaning of an operation -/

section Accepting

variable {s : State} (hs : BlockInv s) (ha : s.accepting = true)
include hs ha

/-- Where the block accepts with chip-select de-asserted, nothing is in progress. -/
theorem atRest_of_closed (hcs : s.wire.cs = false) : Holds Wire.idle Seq.atRest s := by
  obtain ⟨hport, -, -, seen, simOk⟩ := blockInv_iff.1 hs
  have hidle : s.seq.ph = .idle := by
    simp only [State.accepting, Bool.or_eq_true, decide_eq_true_eq] at ha
    exact ha.resolve_right fun hc => Bool.false_ne_true (hcs.symm.trans (hport.held hc).2)
  obtain ⟨hcaller, hrefresh⟩ := hport.idle hidle
  refine ⟨hport.closable hcs, ?_, seen, simOk⟩
  show (⟨s.seq.ph, s.seq.caller, s.seq.refresh⟩ : Seq) = Seq.atRest
  rw [hidle, hcaller, hrefresh]

theorem whenFrameClosed_inv {t : State} (h : Holds Wire.idle Seq.atRest s → BlockInv t) :
    NextIs BlockInv (whenFrameClosed s t) := by
  unfold whenFrameClosed
  split
  · rintro _ ⟨⟩
  · rename_i hcs
    exact nextIs_next (h (atRest_of_closed hs ha (by simpa using hcs)))

/-- An idle block has chip-select de-asserted (R23). -/
theorem atRest_of_not_busy (hb : ¬ s.busy = true) : Holds Wire.idle Seq.atRest s := by
  obtain ⟨hport, -⟩ := blockInv_iff.1 hs
  have hidle : s.seq.ph = .idle := by simpa [State.busy] using hb
  exact atRest_of_closed hs ha (by rw [hport.wire_idle hidle])

theorem whenIdle_inv {t : State} (h : Holds Wire.idle Seq.atRest s → BlockInv t) : NextIs BlockInv (whenIdle s t) := by
  unfold whenIdle
  split
  · rintro _ ⟨⟩
  · rename_i hb
    exact nextIs_next (h (atRest_of_not_busy hs ha hb))

theorem whenAdmitted_inv {addr : Addr} {len : Nat} {t : State} (h : Holds Wire.idle Seq.atRest s → BlockInv t) :
    NextIs BlockInv (whenAdmitted addr len s t) := by
  unfold whenAdmitted
  split
  · rintro _ ⟨⟩
  · rename_i hb
    split
    · exact nextIs_next (h (atRest_of_not_busy hs ha hb))
    · rintro _ ⟨⟩

end Accepting

section Entered

variable {s : State} (h : Holds Wire.idle Seq.atRest s)
include h

/-- A frame leaves the block at rest. -/
theorem Holds.written (reg : Addr) (v : Word) : BlockInv (finalState (Machine.writeWord reg v s)) :=
  (h.writeWord reg v).inv portOk_atRest

/-- A burst opened by itself holds the block in `P_BWORD` (log 11). -/
theorem Holds.openAndHold (dir : Dir) : BlockInv (finalState (thenDo (Machine.burstOpen dir s) holdBurst)) := by
  refine GoesOn.final ((h.burstOpen dir).thenDo fun _ t ht => ?_)
  rw [holdBurst, if_pos (by rw [ht.seq])]
  exact (ht.enter .burst .pBWord).blockInv ⟨rfl, fun _ => .inl rfl, nofun, fun _ => ⟨rfl, rfl⟩⟩

theorem Holds.entered_inv (c : Caller) (p : Phase) (hc : c ≠ .burst := by simp) (hp : p ≠ .idle := by decide) :
    BlockInv (s.enter c p) :=
  (h.enter c p).blockInv (portOk_phase (q := ⟨p, c, false⟩) hc hp)

theorem Holds.enterPoll (kind : PollKind) (reg : Addr) : BlockInv (finalState (Machine.enterPoll kind reg s)) := by
  have hphase : pollPhase kind reg ≠ .idle := by
    unfold pollPhase
    split
    · split <;> decide
    · decide
    · decide
  have begun : Holds Wire.idle ⟨pollPhase kind reg, .poll kind reg, false⟩
      ((s.enter (.poll kind reg) (pollPhase kind reg)).setPolls 0) := (h.enter _ _).change
  have hport : PortOk Wire.idle ⟨pollPhase kind reg, .poll kind reg, false⟩ :=
    portOk_phase (q := ⟨pollPhase kind reg, .poll kind reg, false⟩) nofun hphase
  exact (begun.visitPoll kind reg hport fun _ ht => ht.toIdle_inv).final

end Entered

theorem releaseBurst_inv {s : State} (hs : BlockInv s) : BlockInv (releaseBurst (csDeassert s)) := by
  obtain ⟨hport, h⟩ := blockInv_iff.1 hs
  have closed := h.csDeassert hport.closable
  unfold releaseBurst
  split
  · exact closed.toIdle_inv
  · rename_i hq
    exact closed.blockInv (hport.idle_wire (closed.seq ▸ hq))

/-- What leaves the wire, the sequencer and the rest that the invariant looks at. -/
theorem BlockInv.change {s t : State} (hs : BlockInv s) (wire : t.wire = s.wire := by rfl)
    (seq : t.seq = s.seq := by rfl) (vis : t.vis = s.vis := by rfl) (sim : t.env.sim = s.env.sim := by rfl) :
    BlockInv t :=
  ((blockInv_iff.1 hs).2.change wire seq vis sim).blockInv (blockInv_iff.1 hs).1

theorem exec_inv {s : State} (hs : BlockInv s) (ha : s.accepting = true) (i : Instr) : NextIs BlockInv (exec i s) := by
  obtain ⟨hport, h⟩ := blockInv_iff.1 hs
  cases i with
  | writeWord | csrcmdRead | csrcmdWrite | pramcmdAbort | pramcmdStart | pramAddrlen =>
    exact whenFrameClosed_inv hs ha fun h => h.written _ _
  | serialReadWord | fastReadWord =>
    exact whenFrameClosed_inv hs ha fun h => (h.readFrame _).storeWord.inv portOk_atRest
  | readWord reg => exact whenFrameClosed_inv hs ha fun h => (h.readWord reg).storeWord.inv portOk_atRest
  | burstOpenWrite => exact whenFrameClosed_inv hs ha fun h => h.openAndHold .wr
  | burstOpenRead => exact whenFrameClosed_inv hs ha fun h => h.openAndHold .rd
  | burstPush value => exact nextIs_whenBurst ((h.send hport.closable _).inv hport)
  | burstPop => exact nextIs_whenBurst ((h.recv4 hport.closable).storeWord.inv hport)
  | burstClose => exact nextIs_next (releaseBurst_inv hs)
  | resetSqiFrame => exact whenFrameClosed_inv hs ha fun h => h.resetSqiFrame.inv portOk_atRest
  | pramStatus dir v => exact nextIs_next ((Holds.loadFifoCnt (s := s.setWord v) h.change v).blockInv hport)
  | csrStatus | chunk => exact nextIs_next hs.change
  | csrDataWord dir size v =>
    cases dir with
    | wr => exact whenFrameClosed_inv hs ha fun h => (h.sendCsrData v).inv portOk_atRest
    | rd => exact nextIs_next hs.change
  | pramFirstWord dir fbp n0 v =>
    cases dir with
    | wr => exact whenFrameClosed_inv hs ha fun h => (h.sendFirstWord v).inv portOk_atRest
    | rd => exact nextIs_next hs.change
  | pramNextWord dir t v =>
    cases dir with
    | wr => exact nextIs_whenBurst ((h.sendNextWord hport.closable v).inv hport)
    | rd => exact nextIs_next hs.change
  | init =>
    refine whenIdle_inv hs ha fun h => Holds.entered_inv (s := acceptBare .init s) h.change .host _ nofun ?_
    split <;> decide
  | reset => exact whenIdle_inv hs ha fun h => Holds.finish_inv (s := acceptBare .reset s) h.change
  | read addr len =>
    exact whenAdmitted_inv hs ha fun h =>
      Holds.entered_inv (s := acceptRequest .read addr len [] s) h.change .host .rDispatch
  | write addr data =>
    exact whenAdmitted_inv hs ha fun h =>
      Holds.entered_inv (s := acceptRequest .write addr _ data { s with buf.wbuf := data }) h.change .host .rDispatch
  | pollBusyClear | pollFifoAvail | pollEqual => exact whenIdle_inv hs ha fun h => h.enterPoll _ _
  | csrRead addr n =>
    exact whenIdle_inv hs ha fun h => GoesOn.final
      ((h.enter (.csrRead addr n) .cCmd).enterCsr.andThen fun _ _ ⟨_, _, ht⟩ => ht.visitCCmd nofun)
  | csrWrite addr data =>
    exact whenIdle_inv hs ha fun h => GoesOn.final
      ((h.enter (.csrWrite addr data) .cData).enterCsr.andThen fun _ _ ⟨_, _, ht⟩ => ht.visitCData nofun)
  | pramSetup | pramRead | pramWrite =>
    exact whenIdle_inv hs ha fun h => ((h.enter _ .pAbort).visitPAbort (by simp)).final
  | alRefresh =>
    exact whenIdle_inv hs ha fun h => GoesOn.final
      ((h.enter .alRefresh .rAlev).marked.enterCsr.andThen fun _ _ ⟨_, _, ht⟩ => ht.visitCCmd nofun)

/-! ### A step -/

/-- Settles O3: a step is block reset; or an operation accepted at rest or inside a burst held open; or a visit to a
phase, which no burst opened by itself makes. -/
theorem invariantIsKept : Obligations.InvariantIsKept := by
  intro s t hs hstep
  unfold step at hstep
  split at hstep
  · cases hstep
    exact (blockInv_iff.1 hs).2.blockReset_inv
  · split at hstep
    · rename_i ha
      split at hstep
      · cases hstep
        exact hs
      · split at hstep
        · cases hstep
        · rename_i rest _ _ i _
          exact exec_inv (s := s.consume rest) hs ha i t hstep
    · rename_i ha
      cases hstep
      exact visit_inv hs fun hc => ha (by simp [State.accepting, hc])

end Sys2Proof.Machine
end

section
/-! PROOFS of O7 and O8: the decoder and the encoder agree (30_encoding.md). A word space is a word, bit 31 first, so
that its bytes and the word are the same thing; what is left is the fields of the command words, the lane checks, and
the bytes of a frame and of a host request. -/

namespace Sys2Proof.Machine

/-! ### Bytes and what they stand for -/

/-- The bytes of an address are read back from it (R10). -/
theorem be16_addrOf (hi lo : Byte) : be16 (addrOf hi lo) = [hi, lo] := by
  have high : (addrOf hi lo).extractLsb' 8 8 = hi := by
    apply BitVec.eq_of_getLsbD_eq
    intro i hi
    simp [addrOf, hi, show 8 + i < 16 by omega]
  have low : (addrOf hi lo).extractLsb' 0 8 = lo := by
    apply BitVec.eq_of_getLsbD_eq
    intro i hi
    simp [addrOf, hi, show i < 16 by omega]
  rw [be16_eq, high, low]

/-- Four bytes are the word they spell, bit 31 first (R128). -/
theorem wordBE_eq_some {bytes : List Byte} {w : Word} : wordBE bytes = some w ↔ bytes = be32 w := by
  refine ⟨fun h => ?_, fun h => h ▸ wordBE_be32 w⟩
  unfold wordBE at h
  split at h
  · rename_i b3 b2 b1 b0
    cases h
    exact (congrArg List.reverse (le32_wordOf b0 b1 b2 b3)).symm
  · cases h

/-- Four bytes in any order are those of a word, bit 31 first. -/
theorem exists_be32 {bytes : List Byte} (h : bytes.length = 4) : ∃ w, bytes = be32 w := by
  match bytes, h with
  | [b3, b2, b1, b0], _ => exact ⟨wordOf [b0, b1, b2, b3], wordBE_eq_some.1 rfl⟩

/-! ### Word spaces -/

theorem decode_be32 {space : Space} (w : Word) (hframe : space ≠ .frame := by simp)
    (hhost : space ≠ .hostRequest := by simp) : decode space (be32 w) = decodeWord space w := by
  cases space with
  | frame => exact absurd rfl hframe
  | hostRequest => exact absurd rfl hhost
  | writeBurst | readBurst | csrCmd | pramCmd | addrLen | pramStatus | csrStatus | csrData | firstWord | nextWord =>
    simp only [decode, wordBE_be32]

/-- What decodes in a word space is the bytes of a word. -/
theorem word_of_decode {space : Space} {bytes : List Byte} {i : Instr} (hframe : space ≠ .frame)
    (hhost : space ≠ .hostRequest) (h : decode space bytes = .ok i) :
    ∃ w, bytes = be32 w ∧ decodeWord space w = .ok i := by
  cases hw : wordBE bytes with
  | some w =>
    obtain rfl := wordBE_eq_some.1 hw
    exact ⟨w, rfl, decode_be32 w hframe hhost ▸ h⟩
  | none =>
    cases space with
    | frame => exact absurd rfl hframe
    | hostRequest => exact absurd rfl hhost
    | writeBurst | readBurst | csrCmd | pramCmd | addrLen | pramStatus | csrStatus | csrData | firstWord | nextWord =>
      simp [decode, hw] at h

/-! ### Command words (R110, R114) -/

/-- The CSR command of a direction. -/
def csrCommand : Dir → SizeCode → Addr → Instr
  | .rd, size, addr => .csrcmdRead size addr
  | .wr, size, addr => .csrcmdWrite size addr

theorem csrCommand_wf (d : Dir) (n : SizeCode) (a : Addr) : (csrCommand d n a).wf = true := by cases d <;> rfl

theorem encode_csrCommand (p : Params) (d : Dir) (n : SizeCode) (a : Addr) :
    encode p (csrCommand d n a) = .coded .csrCmd (be32 (csrCmdWord d n a)) := by cases d <;> rfl

/-- Bits of a word that lie in a field on which two words agree. -/
theorem getLsbD_eq_of_field {v w : Word} {i : Nat} (start len : Nat)
    (h : v.extractLsb' start len = w.extractLsb' start len) (hi : start ≤ i ∧ i < start + len := by omega) :
    v.getLsbD i = w.getLsbD i := by
  have hbit := congrArg (fun x => x.getLsbD (i - start)) h
  simpa [show i - start < len by omega, show start + (i - start) = i by omega] using hbit

/-- The five fields of a CSR command word are all of it. -/
theorem csrWord_ext {v w : Word} (hstart : v.getLsbD 31 = w.getLsbD 31) (hread : v.getLsbD 30 = w.getLsbD 30)
    (hzero : v.extractLsb' 18 12 = w.extractLsb' 18 12) (hsize : v.extractLsb' 16 2 = w.extractLsb' 16 2)
    (haddr : v.extractLsb' 0 16 = w.extractLsb' 0 16) : v = w := by
  apply BitVec.eq_of_getLsbD_eq
  intro i hi
  obtain h | h | h | h | h : i < 16 ∨ (16 ≤ i ∧ i < 18) ∨ (18 ≤ i ∧ i < 30) ∨ i = 30 ∨ i = 31 := by omega
  · exact getLsbD_eq_of_field 0 16 haddr
  · exact getLsbD_eq_of_field 16 2 hsize
  · exact getLsbD_eq_of_field 18 12 hzero
  · exact h ▸ hread
  · exact h ▸ hstart

/-- The two fields of an address/length word are all of it. -/
theorem addrLenWord_of_fields (w : Word) : addrLenWord (w.extractLsb' 16 16) (w.extractLsb' 0 16) = w := by
  obtain ⟨hlen, haddr⟩ := addrLenWord_fields (w.extractLsb' 16 16) (w.extractLsb' 0 16)
  apply BitVec.eq_of_getLsbD_eq
  intro i hi
  obtain h | h : i < 16 ∨ 16 ≤ i := by omega
  · exact getLsbD_eq_of_field 0 16 haddr
  · exact getLsbD_eq_of_field 16 16 hlen

/-- The size code is the field of R111, whose fourth value decodes to nothing. -/
theorem decodeCsrCmd_csrCmdWord (d : Dir) (n : SizeCode) (a : Addr) :
    decodeCsrCmd (csrCmdWord d n a) = .ok (csrCommand d n a) := by
  obtain ⟨hstart, hread, hzero, hsize, haddr⟩ := csrCmdWord_fields d n a
  unfold decodeCsrCmd
  rw [hstart, hread, hzero, hsize, haddr]
  cases n <;> cases d <;> rfl

/-- A word with bit 31 set, no reserved bit and a size code of R111 is a command word. -/
theorem csrCmdWord_of_fields {w : Word} {n : SizeCode} (hstart : w.getLsbD 31 = true) (hzero : w.extractLsb' 18 12 = 0)
    (hsize : w.extractLsb' 16 2 = sizeCode n) :
    csrCmdWord (if w.getLsbD 30 then .rd else .wr) n (w.extractLsb' 0 16) = w := by
  obtain ⟨hstart', hread', hzero', hsize', haddr'⟩ :=
    csrCmdWord_fields (if w.getLsbD 30 then .rd else .wr) n (w.extractLsb' 0 16)
  refine csrWord_ext (hstart'.trans hstart.symm) (hread'.trans ?_) (hzero'.trans hzero.symm) (hsize'.trans hsize.symm)
    haddr'
  cases w.getLsbD 30 <;> rfl

theorem exists_sizeCode {x : BitVec 2} (h : x ≠ 3) : ∃ n, x = sizeCode n := by
  have hx : x = 0 ∨ x = 1 ∨ x = 2 := by
    revert x
    decide
  obtain rfl | rfl | rfl := hx
  · exact ⟨.one, rfl⟩
  · exact ⟨.two, rfl⟩
  · exact ⟨.four, rfl⟩

/-- What decodes in the space of CSR commands is the word of a command: every other word is refused (R120). -/
theorem csrCommand_of_decodeCsrCmd {w : Word} {i : Instr} (h : decodeCsrCmd w = .ok i) :
    ∃ d n a, i = csrCommand d n a ∧ w = csrCmdWord d n a := by
  have hbits : ¬ (w.getLsbD 31 = false ∨ w.extractLsb' 18 12 ≠ 0) := fun hbad => by
    simp [decodeCsrCmd_reservedBits hbad] at h
  obtain ⟨hstart, hzero⟩ : w.getLsbD 31 = true ∧ w.extractLsb' 18 12 = 0 := by simpa using hbits
  obtain ⟨n, hsize⟩ := exists_sizeCode (x := w.extractLsb' 16 2) fun hbad => by
    simp [decodeCsrCmd_sizeCode3 hstart hzero hbad] at h
  rw [← csrCmdWord_of_fields hstart hzero hsize, decodeCsrCmd_csrCmdWord] at h
  cases h
  exact ⟨_, n, _, rfl, (csrCmdWord_of_fields hstart hzero hsize).symm⟩

/-! ### The lane checks (R115 to R117)

A data word decodes exactly if it is well-formed. -/

theorem decodeWord_csrData {d : Dir} {n : SizeCode} {w : Word} {i : Instr} :
    decodeWord (.csrData d n) w = .ok i ↔ (Instr.csrDataWord d n w).wf = true ∧ .csrDataWord d n w = i := by
  show (if (Instr.csrDataWord d n w).wf then _ else _) = _ ↔ _
  split <;> simp_all

theorem ok_of_two_checks {a b : Bool} {e e' : Reject} {j i : Instr} :
    (if !a then .error e else if b then .ok j else .error e' : Except Reject Instr) = .ok i ↔
      (a && b) = true ∧ j = i := by
  cases a <;> cases b <;> simp

theorem decodeWord_firstWord {d : Dir} {fbp : BitVec 2} {n0 : Nat} {w : Word} {i : Instr} :
    decodeWord (.firstWord d fbp n0) w = .ok i ↔
      (Instr.pramFirstWord d fbp n0 w).wf = true ∧ .pramFirstWord d fbp n0 w = i := ok_of_two_checks

theorem decodeWord_nextWord {d : Dir} {t : Nat} {w : Word} {i : Instr} :
    decodeWord (.nextWord d t) w = .ok i ↔ (Instr.pramNextWord d t w).wf = true ∧ .pramNextWord d t w = i :=
  ok_of_two_checks

/-! ### Words -/

theorem pramCommand_of_decodePramCmd {d : Dir} {w : Word} {i : Instr} (h : decodePramCmd d w = .ok i) :
    (i = .pramcmdAbort d ∧ w = pramAbortWord) ∨ (i = .pramcmdStart d ∧ w = pramStartWord) := by
  unfold decodePramCmd at h
  split at h
  · cases h
    exact .inl ⟨rfl, ‹_›⟩
  · split at h <;> cases h
    exact .inr ⟨rfl, ‹_›⟩

/-- A word that decodes is the encoding of what it decodes to (of a read burst the fill bytes are not looked at), and
that is well-formed. -/
theorem encode_of_decodeWord {space : Space} {w : Word} {i : Instr} (h : decodeWord space w = .ok i) :
    i.wf = true ∧ ∀ p, space ≠ .readBurst → encode p i = .coded space (be32 w) := by
  cases space with
  | frame | hostRequest => cases h
  | readBurst =>
    cases h
    exact ⟨rfl, fun _ hread => absurd rfl hread⟩
  | writeBurst =>
    cases h
    exact ⟨rfl, fun _ _ => congrArg (Token.coded _) (le32_wordOf _ _ _ _)⟩
  | csrCmd =>
    obtain ⟨d, n, a, rfl, rfl⟩ := csrCommand_of_decodeCsrCmd h
    exact ⟨csrCommand_wf d n a, fun p _ => encode_csrCommand p d n a⟩
  | pramCmd d =>
    obtain ⟨rfl, rfl⟩ | ⟨rfl, rfl⟩ := pramCommand_of_decodePramCmd h
    · exact ⟨rfl, fun _ _ => rfl⟩
    · exact ⟨rfl, fun _ _ => rfl⟩
  | addrLen d =>
    cases h
    exact ⟨rfl, fun _ _ => congrArg (fun v => Token.coded (.addrLen d) (be32 v)) (addrLenWord_of_fields w)⟩
  | pramStatus | csrStatus =>
    cases h
    exact ⟨rfl, fun _ _ => rfl⟩
  | csrData d n =>
    obtain ⟨hwf, rfl⟩ := decodeWord_csrData.1 h
    exact ⟨hwf, fun _ _ => rfl⟩
  | firstWord d fbp n0 =>
    obtain ⟨hwf, rfl⟩ := decodeWord_firstWord.1 h
    exact ⟨hwf, fun _ _ => rfl⟩
  | nextWord d t =>
    obtain ⟨hwf, rfl⟩ := decodeWord_nextWord.1 h
    exact ⟨hwf, fun _ _ => rfl⟩

/-! ### Frames and host requests -/

theorem encode_of_decodeHost (p : Params) {bytes : List Byte} {i : Instr} (h : decodeHost bytes = .ok i) :
    encode p i = .coded .hostRequest bytes := by
  unfold decodeHost at h
  split at h
  · rename_i op
    split at h
    · cases h
      subst op
      rfl
    · split at h <;> cases h
      subst op
      rfl
  · rename_i op a1 a0 l1 l0 data
    split at h
    · rename_i hread
      cases h
      obtain ⟨rfl, rfl⟩ := hread
      simp [encode, be16_addrOf]
    · split at h <;> cases h
      rename_i hwrite
      obtain ⟨rfl, hlen⟩ := hwrite
      simp [encode, hlen, be16_addrOf]
  · cases h

/-- No frame operation has an operand whose domain is restricted (R144). -/
theorem wf_of_decodeFrame {bytes : List Byte} {i : Instr} (h : decodeFrame bytes = .ok i) : i.wf = true := by
  cases bytes with
  | nil => cases h
  | cons op rest =>
    unfold decodeFrame at h
    dsimp only at h
    by_cases hwrite : op = 0x02
    · rw [if_pos hwrite] at h
      split at h
      · split at h <;> cases h
        rfl
      · cases h
        rfl
      · cases h
    rw [if_neg hwrite] at h
    by_cases hserial : op = 0x03
    · rw [if_pos hserial] at h
      split at h <;> cases h
      rfl
    rw [if_neg hserial] at h
    by_cases hfast : op = 0x0B
    · rw [if_pos hfast] at h
      split at h
      · split at h <;> cases h
        rfl
      · cases h
        rfl
      · cases h
    rw [if_neg hfast] at h
    split at h
    · split at h <;> cases h
      rfl
    · cases h

/-- Settles O8: a word space holds a word, and a host request its fields; only the range of a request is not checked. -/
theorem bitsHaveOneMeaning : Obligations.BitsHaveOneMeaning := by
  refine ⟨fun p space bytes i hframe hread h => ?_, fun space bytes i hhost h => ?_⟩
  · by_cases hhost : space = .hostRequest
    · subst hhost
      exact encode_of_decodeHost p h
    · obtain ⟨w, rfl, hw⟩ := word_of_decode hframe hhost h
      exact (encode_of_decodeWord hw).2 p hread
  · by_cases hframe : space = .frame
    · subst hframe
      exact wf_of_decodeFrame h
    · obtain ⟨w, rfl, hw⟩ := word_of_decode hframe hhost h
      exact (encode_of_decodeWord hw).1

/-! ### The decoder after the encoder -/

/-- A burst group sent is its word, lane 0 first (R146). -/
theorem decode_writeBurst (v : Word) : decode .writeBurst (le32 v) = .ok (.burstPush v) := by
  obtain ⟨w, hw⟩ := exists_be32 (le32_length v)
  rw [hw, decode_be32]
  show Except.ok (Instr.burstPush (wordOf (be32 w))) = _
  rw [← hw, wordOf_le32]

theorem decode_write {a : Addr} {data : List Byte} (h : data.length ≤ 65535) :
    decodeHost (0x03 :: be16 a ++ be16 (BitVec.ofNat 16 data.length) ++ data) = .ok (.write a data) := by
  have hlen : (BitVec.ofNat 16 data.length).toNat = data.length := by
    rw [BitVec.toNat_ofNat]
    omega
  simp [decodeHost, be16_eq, hlen]

/-- Settles O7: a row of width 0 is entered by its name; every other by the bytes of its space, from which each operand
is read back. -/
theorem decodeOfEncode : Obligations.DecodeOfEncode := by
  intro p i hwf
  cases i with
  | readWord | burstClose | pollBusyClear | pollFifoAvail | pollEqual | csrRead | csrWrite | pramSetup | pramRead
  | pramWrite | chunk | alRefresh => rfl
  | writeWord reg v =>
    have hvalue : wordOf [lane 0 v, lane 1 v, lane 2 v, lane 3 v] = v := wordOf_le32 v
    simp [encode, decodeToken, decode, decodeFrame, be16_eq, le32, hvalue]
  | serialReadWord reg => simp [encode, decodeToken, decode, decodeFrame, be16_eq, fill4, List.replicate]
  | fastReadWord reg => simp [encode, decodeToken, decode, decodeFrame, be16_eq, fill4, List.replicate]
  | burstOpenWrite | burstOpenRead | resetSqiFrame | init | reset => rfl
  | burstPush v => exact decode_writeBurst v
  | burstPop => rfl
  | csrcmdRead n a => exact (decode_csrCmd_be32 _).trans (decodeCsrCmd_csrCmdWord .rd n a)
  | csrcmdWrite n a => exact (decode_csrCmd_be32 _).trans (decodeCsrCmd_csrCmdWord .wr n a)
  | pramcmdAbort d => exact (decode_pramCmd_be32 d _).trans rfl
  | pramcmdStart d => exact (decode_pramCmd_be32 d _).trans rfl
  | pramAddrlen d len a =>
    obtain ⟨hlen, haddr⟩ := addrLenWord_fields len a
    exact (decode_be32 (space := .addrLen d) _).trans (by rw [decodeWord, hlen, haddr])
  | pramStatus d v => exact decode_be32 (space := .pramStatus d) v
  | csrStatus v => exact decode_be32 (space := .csrStatus) v
  | csrDataWord d n v => exact (decode_be32 v).trans (decodeWord_csrData.2 ⟨hwf, rfl⟩)
  | pramFirstWord d fbp n0 v => exact (decode_be32 v).trans (decodeWord_firstWord.2 ⟨hwf, rfl⟩)
  | pramNextWord d t v => exact (decode_be32 v).trans (decodeWord_nextWord.2 ⟨hwf, rfl⟩)
  | read a len => simp [encode, decodeToken, decode, decodeHost, be16_eq]
  | write a data =>
    obtain ⟨⟨-, hlen⟩, -⟩ : (1 ≤ data.length ∧ data.length ≤ 65535) ∧ _ := by simpa [Instr.wf, admitted] using hwf
    exact decode_write hlen

end Sys2Proof.Machine
end

section
/-! PROOFS of O1 and O54: the reset values, and block reset (70_reset_and_hazards.md section 1). Wherever reset falls,
what is left is block reset of the state reached by then: before a step, at an exchange of a list of exchanges, or in
place of a response. -/

namespace Sys2Proof.Machine

/-- Settles O1: each value as R262 gives it. -/
theorem resetState : Obligations.ResetState := ⟨rfl, rfl, rfl, rfl, rfl⟩

/-! ### What block reset leaves (R260, R261, R262) -/

/-- Block reset after the events `evs` adds at most the edge of chip-select to them. -/
theorem isResetOf_blockReset {s t : State} {evs : List Event} (trace : t.trace = s.trace ++ evs)
    (params : t.env.params = s.env.params := by rfl) (inputs : t.env.inputs = s.env.inputs := by rfl) :
    IsResetOf s (blockReset t) (evs ++ if t.wire.cs then [.csDeassert] else []) :=
  ⟨by rw [blockReset_trace, csDeassert_trace, trace, List.append_assoc], rfl, rfl, rfl, rfl, rfl, rfl, rfl,
    (blockReset_params t).trans params, (blockReset_inputs t).trans inputs⟩

theorem isResetOf_self (s : State) : IsResetOf s (blockReset s) (if s.wire.cs then [.csDeassert] else []) :=
  isResetOf_blockReset (List.append_nil _).symm

/-- The peripheral is not reset with the block (R261). -/
theorem blockReset_sim_kept (s : State) :
    (blockReset s).env.sim.map (fun e => (e.mem, e.reg)) = s.env.sim.map (fun e => (e.mem, e.reg)) := by
  show (csDeassert s).env.sim.map _ = _
  unfold csDeassert
  split
  · cases s.env.sim <;> rfl
  · rfl

/-- `r` is what block reset leaves of `s` after the events `evs`, with the answers `rest` to come. -/
def AbandonedAfter (evs : List Event) (rest : List Reply) (s : State) (r : Result) : Prop :=
  ∃ t, r = .next t ∧ IsResetOf s t evs ∧ t.env.script = rest

section Abandoned

variable {s u : State} {evs : List Event} {rest : List Reply} {r : Result}

/-- Block reset with chip-select asserted. -/
theorem abandoned_open (hr : r = .next (blockReset u)) (cs : u.wire.cs = true) (trace : u.trace = s.trace ++ evs)
    (script : u.env.script = rest := by rfl) (params : u.env.params = s.env.params := by rfl)
    (inputs : u.env.inputs = s.env.inputs := by rfl) : AbandonedAfter (evs ++ [.csDeassert]) rest s r := by
  have h := isResetOf_blockReset trace params inputs
  rw [cs] at h
  exact ⟨_, hr, h, (blockReset_script u).trans script⟩

/-- Block reset between frames. -/
theorem abandoned_closed (hr : r = .next (blockReset u)) (cs : u.wire.cs = false) (trace : u.trace = s.trace ++ evs)
    (script : u.env.script = rest := by rfl) (params : u.env.params = s.env.params := by rfl)
    (inputs : u.env.inputs = s.env.inputs := by rfl) : AbandonedAfter evs rest s r := by
  have h := isResetOf_blockReset trace params inputs
  rw [cs, if_neg Bool.false_ne_true, List.append_nil] at h
  exact ⟨_, hr, h, (blockReset_script u).trans script⟩

end Abandoned

/-! ### Reset at an exchange -/

section Exchanges

variable {tx rx : List Byte} {rest : List Reply} {s : State}

/-- Exchanges of which the environment answers the first with bytes and then applies block reset. -/
theorem exchange_reset (hlen : rx.length < tx.length) (h : s.env.script = rx.map Reply.byte ++ .reset :: rest) :
    exchange tx s = .stop (blockReset (afterEvents rest (exchanged tx rx) s)) := by
  induction tx generalizing rx s with
  | nil => simp at hlen
  | cons b bs ih =>
    cases rx with
    | nil => simp [exchange, xfer, react, show s.env.script = .reset :: rest from h, afterEvents, exchanged]
    | cons m ms =>
      have hs : s.env.script = .byte m :: (ms.map Reply.byte ++ .reset :: rest) := h
      have hlater := ih (s := State.log (.xfer b m) { s with env.script := ms.map Reply.byte ++ .reset :: rest })
        (by simpa using hlen) rfl
      simp [exchange, xfer, react, hs, hlater, afterEvents]

theorem send_reset (hlen : rx.length < tx.length) (h : s.env.script = rx.map Reply.byte ++ .reset :: rest) :
    send tx s = .stop (blockReset (afterEvents rest (exchanged tx rx) s)) := by
  rw [send, exchange_reset hlen h, andThen_stop]

theorem recv4_reset (hlen : rx.length < 4) (h : s.env.script = rx.map Reply.byte ++ .reset :: rest) :
    recv4 s = .stop (blockReset (afterEvents rest (exchanged (fill4 s.env.params) rx) s)) := by
  rw [recv4, exchange_reset hlen h, andThen_stop]

theorem frame_reset (hlen : rx.length < tx.length) (h : s.env.script = rx.map Reply.byte ++ .reset :: rest) :
    frame tx s = .stop (blockReset (afterEvents rest (exchanged tx rx) (csAssert s))) := by
  rw [frame, exchange_reset (s := csAssert s) hlen h, andThen_stop]

theorem writeWord_reset {reg : Addr} {v : Word} (hlen : rx.length < (writeTx reg v).length)
    (h : s.env.script = rx.map Reply.byte ++ .reset :: rest) :
    writeWord reg v s = .stop (blockReset (afterEvents rest (exchanged (writeTx reg v) rx) (csAssert s))) := by
  rw [writeWord_eq_frame, frame_reset hlen h, thenDo_stop]

/-- Reset at an exchange of a frame begun in `s`, or in `s` with other registers. -/
theorem abandoned_inFrame {u : State} {r : Result}
    (hr : r = .next (blockReset (afterEvents rest (exchanged tx rx) (csAssert u))))
    (trace : u.trace = s.trace := by rfl) (params : u.env.params = s.env.params := by rfl)
    (inputs : u.env.inputs = s.env.inputs := by rfl) :
    AbandonedAfter (.csAssert :: exchanged tx rx ++ [.csDeassert]) rest s r :=
  abandoned_open hr rfl (by simp [afterEvents, trace]) rfl params inputs

/-- Either burst open, with reset at an exchange of its header. -/
theorem abandoned_burstOpen (dir : Dir) (hp : PortReady s) (hlen : rx.length < (burstHeader dir s.env.params).length)
    (h : s.env.script = rx.map Reply.byte ++ .reset :: rest) :
    AbandonedAfter (.csAssert :: exchanged (burstHeader dir s.env.params) rx ++ [.csDeassert]) rest s
      (whenFrameClosed s (finalState (thenDo (burstOpen dir s) holdBurst))) := by
  have hcut := send_reset (s := csAssert s) hlen h
  exact abandoned_inFrame (u := s)
    (by rw [whenFrameClosed_of_closed hp.closed, burstOpen, hcut, thenDo_stop, thenDo_stop, finalState_stop])

/-- Reset at an exchange of a burst word begun in `s`, or in `s` with other registers. -/
theorem abandoned_inBurst {u : State} {r : Result}
    (hr : r = .next (blockReset (afterEvents rest (exchanged tx rx) u))) (cs : u.wire.cs = true)
    (trace : u.trace = s.trace := by rfl) (params : u.env.params = s.env.params := by rfl)
    (inputs : u.env.inputs = s.env.inputs := by rfl) :
    AbandonedAfter (exchanged tx rx ++ [.csDeassert]) rest s r :=
  abandoned_open hr cs (by simp [afterEvents, trace]) rfl params inputs

end Exchanges

/-! ### Reset in place of a response -/

theorem finish_of_beforeRsp {s : State} (h : s.env.resetIn = .beforeRsp) : finish s = blockReset s :=
  unlessReset_of_eq h

/-- A busy block visits its phase unless reset is applied at once. -/
theorem step_visit {s : State} (hr : s.env.resetIn ≠ .now) (ha : s.accepting = false) :
    step s = .next (finalState (visit s)) := by
  simp [step, hr, ha]

theorem step_visitPhase {s : State} (hr : s.env.resetIn = .beforeRsp) (hcaller : s.seq.caller = .host)
    (hph : s.seq.ph ≠ .idle) : step s = .next (finalState (visitPhase s)) := by
  rw [step_visit (by simp [hr]) (by simp [State.accepting, hcaller, hph]), visit, hcaller]

theorem csrReturn_refresh_beforeRsp {s : State} (hr : s.env.resetIn = .beforeRsp) (hcaller : s.seq.caller = .host)
    (hrefresh : s.seq.refresh = true) : csrReturn s = blockReset (s.setAlEvent (mirrorOf s.buf.res)) := by
  rw [csrReturn_of_refresh hrefresh, refreshDone, State.setAlEvent_seq, hcaller]
  exact finish_of_beforeRsp hr

section Response

variable {r : Reading} {rest : List Reply} {s : State} (hport : PortReady s) (hr : s.env.resetIn = .beforeRsp)
  (hlen : r.skipped.length = readSkip s.env.params) (hans : Answers r.rx rest s)
include hport hr hlen hans

/-- The refresh at the end of a READ or WRITE (R206). -/
theorem abandoned_refresh (hseq : s.seq = ⟨.cFetch, .host, true⟩) :
    AbandonedAfter (wholeFrame (readTx s.env.params 0x300) r.rx) rest s (step s) := by
  have hread := readWord_bytes csrDataReg r rest s hport hlen hans
  have hstep : step s = .next (finalState (visitCFetch s)) := by
    rw [step_visitPhase hr (by rw [hseq]) (by simp [hseq]), visitPhase, hseq]
  rw [visitCFetch, hread, andThen_ok, finalState_ok, csrReturn_refresh_beforeRsp] at hstep
  · exact abandoned_closed hstep hport.closed rfl
  · exact hr
  · exact congrArg Seq.caller hseq
  · exact congrArg Seq.refresh hseq

/-- The byte test at the end of INIT (R220). -/
theorem abandoned_byteTest (hseq : s.seq = ⟨.iPoll, .host, false⟩) (hvalue : r.value = s.env.params.byteTestExpected) :
    AbandonedAfter (wholeFrame (readTx s.env.params 0x064) r.rx) rest s (step s) := by
  have hread := readWord_bytes byteTestReg r rest s hport hlen hans
  have hstep : step s = .next (finalState (visitIPoll s)) := by
    rw [step_visitPhase hr (by rw [hseq]) (by simp [hseq]), visitPhase, hseq]
  rw [visitIPoll, visitPoll, pollOnce_of_read hread, if_pos (by simp [pollReady, hvalue]), andThen_ok, finalState_ok,
    if_pos rfl, finish_of_beforeRsp] at hstep
  · exact abandoned_closed hstep hport.closed rfl
  · exact hr

end Response

/-- RESET has no frame, and is abandoned after its acceptance (R221). -/
theorem abandoned_resetRequest {s : State} (hbusy : s.busy = false) (hwire : s.wire = Wire.idle)
    (hr : s.env.resetIn = .beforeRsp) : AbandonedAfter [.req .reset 0 0 []] s.env.script s (exec .reset s) := by
  have hexec : exec .reset s = .next (finish (acceptBare .reset s)) := if_neg (by simp [hbusy])
  rw [finish_of_beforeRsp (s := acceptBare .reset s) hr] at hexec
  exact abandoned_closed hexec (congrArg Wire.cs hwire) rfl

/-- Settles O54: in each case the block is left by block reset, of the state itself, of the state its exchanges have
reached, or of the state whose response was due. -/
theorem blockResetAbandonsEverything : Obligations.BlockResetAbandonsEverything := by
  refine ⟨fun s hnow => ?_, fun i tx rx rest s hport hi hlen hcut => ?_,
    fun i tx rx rest s _ hopen hi hlen hcut => ?_, fun s hbusy hwire hr => ?_,
    fun r rest s hseq hport hr hlen hans => abandoned_refresh hport hr hlen hans hseq,
    fun r rest s hseq hport hr hlen hvalue hans => abandoned_byteTest hport hr hlen hans hseq hvalue,
    fun c s hr => ?_⟩
  · exact ⟨blockReset s, if_pos hnow, isResetOf_self s, blockReset_script s, blockReset_sim_kept s⟩
  · obtain htx | ⟨n, v, rfl, rfl⟩ | ⟨fbp, n0, v, rfl, rfl⟩ | ⟨rfl, rfl⟩ | ⟨rfl, rfl⟩ := hi
    · exact abandoned_inFrame (u := s)
        (by rw [exec_frame hport.closed htx, frame_reset hlen hcut, andThen_stop, finalState_stop])
    · have hword := writeWord_reset (s := s.setWord v) (reg := csrDataReg) hlen hcut
      exact abandoned_inFrame (u := s.setWord v)
        (by rw [exec_csrDataWord_wr n v hport.closed, sendCsrData, hword, finalState_stop]; rfl)
    · have hword := writeWord_reset (s := s.setWord v) (reg := fifoReg .wr) hlen hcut
      exact abandoned_inFrame (u := s.setWord v)
        (by rw [exec_pramFirstWord_wr fbp n0 v hport.closed, sendFirstWord, hword, thenDo_stop, finalState_stop]; rfl)
    · exact abandoned_burstOpen .wr hport hlen hcut
    · exact abandoned_burstOpen .rd hport hlen hcut
  · obtain ⟨v, hburst, rfl, rfl⟩ | ⟨n, v, hburst, rfl, rfl⟩ | ⟨hburst, rfl, rfl⟩ := hi
    · exact abandoned_inBurst (u := s) (by rw [exec_burstPush v hburst, send_reset hlen hcut, finalState_stop]) hopen
    · have hword := send_reset (s := s.setWord v) (tx := le32 v) hlen hcut
      exact abandoned_inBurst (u := s.setWord v)
        (by rw [exec_pramNextWord_wr n v hburst, sendNextWord, burstPush, hword, thenDo_stop, finalState_stop]) hopen
    · exact abandoned_inBurst (u := s) (tx := fill4 s.env.params)
        (by rw [exec_burstPop hburst, recv4_reset hlen hcut, storeWord, andThen_stop, finalState_stop]) hopen
  · obtain ⟨t, hexec, ht, -⟩ := abandoned_resetRequest hbusy hwire hr
    exact ⟨t, hexec, ht⟩
  · rw [raise, unlessReset_of_eq hr]
    exact ⟨isResetOf_self s, blockReset_script s⟩

end Sys2Proof.Machine
end
